-- ==== Sys2Proof/Word.lean ====
section
/-! DEFINITION. The word types of the model: what the spec treats as bits (00_scope.md R9, R10). -/

namespace Sys2Proof

/-- One byte of instruction or data memory (20_memory.md R51). -/
abbrev Byte := BitVec 8

/-- The 32-bit input word of `decode`, "the low 32 bits of memory at the instruction's address" (10_state.md R21). -/
abbrev Word := BitVec 32

/-- A 16-bit unit of instruction memory, `h = w[15:0]` (00_scope.md R14, 46_compressed.md R265). -/
abbrev Parcel := BitVec 16

/-- The storage of one integer register, address or CSR of the consumer: its value is the low XLEN bits
(10_state.md R31). Under `Rv32` the upper 32 bits are zero. -/
abbrev XWord := BitVec 64

/-- One FP register of the consumer: FLEN = 64, since D is present (10_state.md R31, 45_d_extension.md R233). -/
abbrev FWord := BitVec 64

end Sys2Proof
end

