-- ==== Sys2Proof/Config.lean ====
section
/-! DEFINITION. What is fixed for one machine: the parameters the spec leaves open, and the free values.

`CSR_NAMES` is the block's one parameter (00_scope.md R7). The others belong to the consumer; 93_implementation_defined.md
part 2 names each and calls it a parameter (I20 to I27). They are plain data, carried in State and changed by no step, so
that a statement about every state is a statement about every choice of them. -/

namespace Sys2Proof.Machine

/-- The privilege modes (60_exceptions.md R360). -/
inductive Mode where
  | m
  | s
  | u
  deriving DecidableEq, Repr

/-- The kinds of access to memory (60_exceptions.md R357): a fetch; a load or store that is not atomic, FP ones included; `LrW`;
`ScW`; and an `Amo*W`. -/
inductive AccessKind where
  | fetch
  | load
  | store
  | loadReserved
  | storeConditional
  | amo
  deriving DecidableEq, Repr

/-- What stops an access at an address (60_exceptions.md R358): an address breakpoint (items 1 and 4), a page fault or an access
fault from address translation (items 2 and 6), or an access fault (items 3 and 7). -/
inductive Barrier where
  | breakpoint
  | pageFault
  | translationFault
  | accessFault
  deriving DecidableEq, Repr

/-- What a misaligned data access does (20_memory.md R53): it is performed, or raises the address-misaligned exception, or an
access fault. -/
inductive Misaligned where
  | perform
  | misalignedException
  | accessFault
  deriving DecidableEq, Repr

/-- A barrier: `size` bytes from `base`, at which accesses of the kinds listed, made in the modes listed, are stopped. -/
structure Region where
  base : Nat
  size : Nat
  kinds : List AccessKind
  modes : List Mode
  barrier : Barrier
  deriving DecidableEq, Repr

end Sys2Proof.Machine

namespace Sys2Proof

/-- The parameters of the block and of the consumer that executes its records. -/
structure Config where
  /-- `CSR_NAMES`, a partial map from 12-bit CSR addresses to names, used by `format` alone (00_scope.md R7, 47_formatter.md R327). -/
  csrNames : List (Nat × String)
  /-- The CSR addresses at which the consumer has a CSR (60_exceptions.md R356: "a CSR that does not exist"). -/
  csrPresent : List Nat
  /-- What a misaligned data access that is not atomic does (20_memory.md R53, I21). -/
  misaligned : Machine.Misaligned
  /-- Whether a misaligned `LrW`, `ScW` or `Amo*W`, which always traps, raises an access fault rather than the address-misaligned
  exception (20_memory.md R53, R54, 60_exceptions.md R357). -/
  misalignedAtomicFaults : Bool
  /-- Whether the address-misaligned exception comes after the page and access faults (60_exceptions.md R358 item 8) rather than
  before them (item 5). -/
  misalignedLast : Bool
  /-- The reservation set of `LrW` is the naturally aligned block of `4 * 2 ^ reservationLog2` bytes around the word, so it is
  "at least the word" (20_memory.md R58, I22). -/
  reservationLog2 : Nat
  /-- Whether a reservation survives a trap (20_memory.md R58, I24). -/
  trapKeepsReservation : Bool
  /-- Whether a reservation survives another `LrW` (20_memory.md R58, 93_implementation_defined.md I24). -/
  lrKeepsReservation : Bool
  /-- Whether the trap value of an illegal instruction is 0 rather than the instruction bits (60_exceptions.md R357 code 2, I20). -/
  illegalTvalZero : Bool
  /-- The addresses at which accesses are stopped, and how: the platform's address map, address translation and address
  breakpoints, none of which the spec fixes (20_memory.md R55, I27, 60_exceptions.md R357, R358; log entries 25 and 38). -/
  regions : List Machine.Region
  deriving DecidableEq, Repr

/-! The free values. None has a body: no proof can see what one is. Each is applied to the step's draw number
(`State.tick`), so each step sees fresh values. -/

/-- What a failing `ScW` writes, before it is made non-zero (20_memory.md R58 "a non-zero value (failure)", I23 "any value,
non-zero"). -/
opaque Config.scFailure : Nat → XWord

/-- How far the counter CSR at the second argument has moved from the value last written to it: the spec names the counters
(47_formatter.md R327) and says nothing of what they count. -/
opaque Config.counterAdvance : Nat → Nat → XWord

/-- Whether a fetch of the byte at the second argument already sees a store that no `FenceI` has followed (20_memory.md R57, R59). -/
opaque Config.fetchSeesStore : Nat → Nat → Bool

end Sys2Proof
end

