-- ==== Sys2Proof/Syntax.lean ====
section
/-! DEFINITION. The syntax: the data model of 10_state.md (registers, immediates, the records `decode` answers) and the
instructions of opcode_table.json, one constructor of `Instr` for each row, carrying the operands its encoding has. -/

namespace Sys2Proof

/-- The width selector (10_state.md R26). It is also the consumer's XLEN (00_scope.md R14). -/
inductive Xlen where
  | rv32
  | rv64
  deriving DecidableEq, Repr

/-- XLEN in bits (00_scope.md R14). -/
def Xlen.bits : Xlen → Nat
  | .rv32 => 32
  | .rv64 => 64

/-- A register number, integer or FP by its tag and field (10_state.md R30). -/
abbrev Reg := BitVec 5

/-- A 3-bit register number of a compressed parcel (30_encoding.md R92). -/
abbrev CReg := BitVec 3

/-- A CSR address (10_state.md R34). -/
abbrev Csr := BitVec 12

/-- An unsigned 5-bit number: a shift amount or a CSR immediate (10_state.md R35). -/
abbrev U5 := BitVec 5

/-- An ordering flag (10_state.md R39). -/
abbrev Bit := BitVec 1

/-- A fence set: bit 3 is I, bit 2 O, bit 1 R, bit 0 W (10_state.md R38). -/
abbrev FenceSet := BitVec 4

/-- The six rounding modes (10_state.md R37). -/
inductive RoundingMode where
  | rne
  | rtz
  | rdn
  | rup
  | rmm
  | dyn
  deriving DecidableEq, Repr

/-- The precision of an F or D record (10_state.md R36). -/
inductive Fmt where
  | s
  | d
  deriving DecidableEq, Repr

/-- The provenance of an immediate (10_state.md R32). -/
inductive ImmKind where
  | signed
  | unsigned
  deriving DecidableEq, Repr

/-- An immediate: a 32-bit pattern and a kind (10_state.md R32). Two are equal when both are (R28). -/
structure Imm where
  value : BitVec 32
  kind : ImmKind
  deriving DecidableEq, Repr

/-- Which form of encoding produced a record (10_state.md R25). -/
inductive IsCompressed where
  | yes
  | no
  deriving DecidableEq, Repr

/-- The instruction record, the source's `Instruction`: one constructor for each tag of the table of 10_state.md R27, with
the table's fields in its order. F and D mnemonics that differ in precision alone share a tag. -/
inductive Record where
  /-- `Addi`: addi. -/
  | addi (dest : Reg) (src1 : Reg) (imm : Imm)
  /-- `Slti`: slti. -/
  | slti (dest : Reg) (src1 : Reg) (imm : Imm)
  /-- `Sltiu`: sltiu. -/
  | sltiu (dest : Reg) (src1 : Reg) (imm : Imm)
  /-- `Xori`: xori. -/
  | xori (dest : Reg) (src1 : Reg) (imm : Imm)
  /-- `Ori`: ori. -/
  | ori (dest : Reg) (src1 : Reg) (imm : Imm)
  /-- `Andi`: andi. -/
  | andi (dest : Reg) (src1 : Reg) (imm : Imm)
  /-- `Slli`: slli. -/
  | slli (dest : Reg) (src1 : Reg) (shamt : U5)
  /-- `Srli`: srli. -/
  | srli (dest : Reg) (src1 : Reg) (shamt : U5)
  /-- `Srai`: srai. -/
  | srai (dest : Reg) (src1 : Reg) (shamt : U5)
  /-- `Add`: add. -/
  | add (dest : Reg) (src1 : Reg) (src2 : Reg)
  /-- `Sub`: sub. -/
  | sub (dest : Reg) (src1 : Reg) (src2 : Reg)
  /-- `Sll`: sll. -/
  | sll (dest : Reg) (src1 : Reg) (src2 : Reg)
  /-- `Slt`: slt. -/
  | slt (dest : Reg) (src1 : Reg) (src2 : Reg)
  /-- `Sltu`: sltu. -/
  | sltu (dest : Reg) (src1 : Reg) (src2 : Reg)
  /-- `Xor`: xor. -/
  | xor (dest : Reg) (src1 : Reg) (src2 : Reg)
  /-- `Srl`: srl. -/
  | srl (dest : Reg) (src1 : Reg) (src2 : Reg)
  /-- `Sra`: sra. -/
  | sra (dest : Reg) (src1 : Reg) (src2 : Reg)
  /-- `Or`: or. -/
  | or (dest : Reg) (src1 : Reg) (src2 : Reg)
  /-- `And`: and. -/
  | and (dest : Reg) (src1 : Reg) (src2 : Reg)
  /-- `Lb`: lb. -/
  | lb (dest : Reg) (base : Reg) (offset : Imm)
  /-- `Lh`: lh. -/
  | lh (dest : Reg) (base : Reg) (offset : Imm)
  /-- `Lw`: lw. -/
  | lw (dest : Reg) (base : Reg) (offset : Imm)
  /-- `Lbu`: lbu. -/
  | lbu (dest : Reg) (base : Reg) (offset : Imm)
  /-- `Lhu`: lhu. -/
  | lhu (dest : Reg) (base : Reg) (offset : Imm)
  /-- `Sb`: sb. -/
  | sb (src : Reg) (base : Reg) (offset : Imm)
  /-- `Sh`: sh. -/
  | sh (src : Reg) (base : Reg) (offset : Imm)
  /-- `Sw`: sw. -/
  | sw (src : Reg) (base : Reg) (offset : Imm)
  /-- `Beq`: beq. -/
  | beq (src1 : Reg) (src2 : Reg) (offset : Imm)
  /-- `Bne`: bne. -/
  | bne (src1 : Reg) (src2 : Reg) (offset : Imm)
  /-- `Blt`: blt. -/
  | blt (src1 : Reg) (src2 : Reg) (offset : Imm)
  /-- `Bge`: bge. -/
  | bge (src1 : Reg) (src2 : Reg) (offset : Imm)
  /-- `Bltu`: bltu. -/
  | bltu (src1 : Reg) (src2 : Reg) (offset : Imm)
  /-- `Bgeu`: bgeu. -/
  | bgeu (src1 : Reg) (src2 : Reg) (offset : Imm)
  /-- `Jal`: jal. -/
  | jal (dest : Reg) (offset : Imm)
  /-- `Jalr`: jalr. -/
  | jalr (dest : Reg) (base : Reg) (offset : Imm)
  /-- `Lui`: lui. -/
  | lui (dest : Reg) (uimm : Imm)
  /-- `Auipc`: auipc. -/
  | auipc (dest : Reg) (uimm : Imm)
  /-- `Fence`: fence. -/
  | fence (pred : FenceSet) (succ : FenceSet)
  /-- `FenceTso`: fence.tso. -/
  | fenceTso
  /-- `FenceI`: fence.i. -/
  | fenceI
  /-- `Ecall`: ecall. -/
  | ecall
  /-- `Ebreak`: ebreak. -/
  | ebreak
  /-- `Mul`: mul. -/
  | mul (dest : Reg) (src1 : Reg) (src2 : Reg)
  /-- `Mulh`: mulh. -/
  | mulh (dest : Reg) (src1 : Reg) (src2 : Reg)
  /-- `Mulhsu`: mulhsu. -/
  | mulhsu (dest : Reg) (src1 : Reg) (src2 : Reg)
  /-- `Mulhu`: mulhu. -/
  | mulhu (dest : Reg) (src1 : Reg) (src2 : Reg)
  /-- `Div`: div. -/
  | div (dest : Reg) (src1 : Reg) (src2 : Reg)
  /-- `Divu`: divu. -/
  | divu (dest : Reg) (src1 : Reg) (src2 : Reg)
  /-- `Rem`: rem. -/
  | rem (dest : Reg) (src1 : Reg) (src2 : Reg)
  /-- `Remu`: remu. -/
  | remu (dest : Reg) (src1 : Reg) (src2 : Reg)
  /-- `LrW`: lr.w. -/
  | lrW (aq : Bit) (rl : Bit) (dest : Reg) (addr : Reg)
  /-- `ScW`: sc.w. -/
  | scW (aq : Bit) (rl : Bit) (dest : Reg) (addr : Reg) (src : Reg)
  /-- `AmoswapW`: amoswap.w. -/
  | amoswapW (aq : Bit) (rl : Bit) (dest : Reg) (addr : Reg) (src : Reg)
  /-- `AmoaddW`: amoadd.w. -/
  | amoaddW (aq : Bit) (rl : Bit) (dest : Reg) (addr : Reg) (src : Reg)
  /-- `AmoxorW`: amoxor.w. -/
  | amoxorW (aq : Bit) (rl : Bit) (dest : Reg) (addr : Reg) (src : Reg)
  /-- `AmoandW`: amoand.w. -/
  | amoandW (aq : Bit) (rl : Bit) (dest : Reg) (addr : Reg) (src : Reg)
  /-- `AmoorW`: amoor.w. -/
  | amoorW (aq : Bit) (rl : Bit) (dest : Reg) (addr : Reg) (src : Reg)
  /-- `AmominW`: amomin.w. -/
  | amominW (aq : Bit) (rl : Bit) (dest : Reg) (addr : Reg) (src : Reg)
  /-- `AmomaxW`: amomax.w. -/
  | amomaxW (aq : Bit) (rl : Bit) (dest : Reg) (addr : Reg) (src : Reg)
  /-- `AmominuW`: amominu.w. -/
  | amominuW (aq : Bit) (rl : Bit) (dest : Reg) (addr : Reg) (src : Reg)
  /-- `AmomaxuW`: amomaxu.w. -/
  | amomaxuW (aq : Bit) (rl : Bit) (dest : Reg) (addr : Reg) (src : Reg)
  /-- `Csrrw`: csrrw. -/
  | csrrw (dest : Reg) (csr : Csr) (src1 : Reg)
  /-- `Csrrs`: csrrs. -/
  | csrrs (dest : Reg) (csr : Csr) (src1 : Reg)
  /-- `Csrrc`: csrrc. -/
  | csrrc (dest : Reg) (csr : Csr) (src1 : Reg)
  /-- `Csrrwi`: csrrwi. -/
  | csrrwi (dest : Reg) (csr : Csr) (imm : U5)
  /-- `Csrrsi`: csrrsi. -/
  | csrrsi (dest : Reg) (csr : Csr) (imm : U5)
  /-- `Csrrci`: csrrci. -/
  | csrrci (dest : Reg) (csr : Csr) (imm : U5)
  /-- `Pause`: pause. -/
  | pause
  /-- `Fload`: flw, fld. -/
  | fload (fmt : Fmt) (dest : Reg) (base : Reg) (offset : Imm)
  /-- `Fstore`: fsw, fsd. -/
  | fstore (fmt : Fmt) (src : Reg) (base : Reg) (offset : Imm)
  /-- `Fmadd`: fmadd.s, fmadd.d. -/
  | fmadd (fmt : Fmt) (rm : RoundingMode) (dest : Reg) (src1 : Reg) (src2 : Reg) (src3 : Reg)
  /-- `Fmsub`: fmsub.s, fmsub.d. -/
  | fmsub (fmt : Fmt) (rm : RoundingMode) (dest : Reg) (src1 : Reg) (src2 : Reg) (src3 : Reg)
  /-- `Fnmsub`: fnmsub.s, fnmsub.d. -/
  | fnmsub (fmt : Fmt) (rm : RoundingMode) (dest : Reg) (src1 : Reg) (src2 : Reg) (src3 : Reg)
  /-- `Fnmadd`: fnmadd.s, fnmadd.d. -/
  | fnmadd (fmt : Fmt) (rm : RoundingMode) (dest : Reg) (src1 : Reg) (src2 : Reg) (src3 : Reg)
  /-- `Fadd`: fadd.s, fadd.d. -/
  | fadd (fmt : Fmt) (rm : RoundingMode) (dest : Reg) (src1 : Reg) (src2 : Reg)
  /-- `Fsub`: fsub.s, fsub.d. -/
  | fsub (fmt : Fmt) (rm : RoundingMode) (dest : Reg) (src1 : Reg) (src2 : Reg)
  /-- `Fmul`: fmul.s, fmul.d. -/
  | fmul (fmt : Fmt) (rm : RoundingMode) (dest : Reg) (src1 : Reg) (src2 : Reg)
  /-- `Fdiv`: fdiv.s, fdiv.d. -/
  | fdiv (fmt : Fmt) (rm : RoundingMode) (dest : Reg) (src1 : Reg) (src2 : Reg)
  /-- `Fsqrt`: fsqrt.s, fsqrt.d. -/
  | fsqrt (fmt : Fmt) (rm : RoundingMode) (dest : Reg) (src1 : Reg)
  /-- `Fsgnj`: fsgnj.s, fsgnj.d. -/
  | fsgnj (fmt : Fmt) (dest : Reg) (src1 : Reg) (src2 : Reg)
  /-- `Fsgnjn`: fsgnjn.s, fsgnjn.d. -/
  | fsgnjn (fmt : Fmt) (dest : Reg) (src1 : Reg) (src2 : Reg)
  /-- `Fsgnjx`: fsgnjx.s, fsgnjx.d. -/
  | fsgnjx (fmt : Fmt) (dest : Reg) (src1 : Reg) (src2 : Reg)
  /-- `Fmin`: fmin.s, fmin.d. -/
  | fmin (fmt : Fmt) (dest : Reg) (src1 : Reg) (src2 : Reg)
  /-- `Fmax`: fmax.s, fmax.d. -/
  | fmax (fmt : Fmt) (dest : Reg) (src1 : Reg) (src2 : Reg)
  /-- `Feq`: feq.s, feq.d. -/
  | feq (fmt : Fmt) (dest : Reg) (src1 : Reg) (src2 : Reg)
  /-- `Flt`: flt.s, flt.d. -/
  | flt (fmt : Fmt) (dest : Reg) (src1 : Reg) (src2 : Reg)
  /-- `Fle`: fle.s, fle.d. -/
  | fle (fmt : Fmt) (dest : Reg) (src1 : Reg) (src2 : Reg)
  /-- `Fclass`: fclass.s, fclass.d. -/
  | fclass (fmt : Fmt) (dest : Reg) (src1 : Reg)
  /-- `FcvtW`: fcvt.w.s, fcvt.w.d. -/
  | fcvtW (fmt : Fmt) (rm : RoundingMode) (dest : Reg) (src1 : Reg)
  /-- `FcvtWu`: fcvt.wu.s, fcvt.wu.d. -/
  | fcvtWu (fmt : Fmt) (rm : RoundingMode) (dest : Reg) (src1 : Reg)
  /-- `FcvtFW`: fcvt.s.w, fcvt.d.w. -/
  | fcvtFW (fmt : Fmt) (rm : RoundingMode) (dest : Reg) (src1 : Reg)
  /-- `FcvtFWu`: fcvt.s.wu, fcvt.d.wu. -/
  | fcvtFWu (fmt : Fmt) (rm : RoundingMode) (dest : Reg) (src1 : Reg)
  /-- `FmvXW`: fmv.x.w. -/
  | fmvXW (dest : Reg) (src1 : Reg)
  /-- `FmvWX`: fmv.w.x. -/
  | fmvWX (dest : Reg) (src1 : Reg)
  /-- `FcvtSD`: fcvt.s.d. -/
  | fcvtSD (rm : RoundingMode) (dest : Reg) (src1 : Reg)
  /-- `FcvtDS`: fcvt.d.s. -/
  | fcvtDS (dest : Reg) (src1 : Reg)
  deriving DecidableEq, Repr

/-- The output of `decode` (10_state.md R22, R24): a record and its form, or the one error value. -/
inductive DecodeResult where
  | ok (record : Record) (compressed : IsCompressed)
  | decodeError
  deriving DecidableEq, Repr

/-- The instructions, one constructor for each row of opcode_table.json. The operands are the fields of the row's encoding:
an offset or upper immediate is held at the width the encoding gives it, low zero bits included (`WellFormed`). -/
inductive Instr where
  /-- `addi` (40_base_integer.md R120). -/
  | addi (rd rs1 : Reg) (imm : BitVec 12)
  /-- `slti` (40_base_integer.md R121). -/
  | slti (rd rs1 : Reg) (imm : BitVec 12)
  /-- `sltiu` (40_base_integer.md R122). -/
  | sltiu (rd rs1 : Reg) (imm : BitVec 12)
  /-- `xori` (40_base_integer.md R123). -/
  | xori (rd rs1 : Reg) (imm : BitVec 12)
  /-- `ori` (40_base_integer.md R124). -/
  | ori (rd rs1 : Reg) (imm : BitVec 12)
  /-- `andi` (40_base_integer.md R125). -/
  | andi (rd rs1 : Reg) (imm : BitVec 12)
  /-- `slli` (40_base_integer.md R126). -/
  | slli (rd rs1 : Reg) (shamt : U5)
  /-- `srli` (40_base_integer.md R127). -/
  | srli (rd rs1 : Reg) (shamt : U5)
  /-- `srai` (40_base_integer.md R128). -/
  | srai (rd rs1 : Reg) (shamt : U5)
  /-- `add` (40_base_integer.md R129). -/
  | add (rd rs1 rs2 : Reg)
  /-- `sub` (40_base_integer.md R130). -/
  | sub (rd rs1 rs2 : Reg)
  /-- `sll` (40_base_integer.md R131). -/
  | sll (rd rs1 rs2 : Reg)
  /-- `slt` (40_base_integer.md R132). -/
  | slt (rd rs1 rs2 : Reg)
  /-- `sltu` (40_base_integer.md R133). -/
  | sltu (rd rs1 rs2 : Reg)
  /-- `xor` (40_base_integer.md R134). -/
  | xor (rd rs1 rs2 : Reg)
  /-- `srl` (40_base_integer.md R135). -/
  | srl (rd rs1 rs2 : Reg)
  /-- `sra` (40_base_integer.md R136). -/
  | sra (rd rs1 rs2 : Reg)
  /-- `or` (40_base_integer.md R137). -/
  | or (rd rs1 rs2 : Reg)
  /-- `and` (40_base_integer.md R138). -/
  | and (rd rs1 rs2 : Reg)
  /-- `lb` (40_base_integer.md R139). -/
  | lb (rd base : Reg) (offset : BitVec 12)
  /-- `lh` (40_base_integer.md R140). -/
  | lh (rd base : Reg) (offset : BitVec 12)
  /-- `lw` (40_base_integer.md R141). -/
  | lw (rd base : Reg) (offset : BitVec 12)
  /-- `lbu` (40_base_integer.md R142). -/
  | lbu (rd base : Reg) (offset : BitVec 12)
  /-- `lhu` (40_base_integer.md R143). -/
  | lhu (rd base : Reg) (offset : BitVec 12)
  /-- `sb` (40_base_integer.md R144). -/
  | sb (src base : Reg) (offset : BitVec 12)
  /-- `sh` (40_base_integer.md R145). -/
  | sh (src base : Reg) (offset : BitVec 12)
  /-- `sw` (40_base_integer.md R146). -/
  | sw (src base : Reg) (offset : BitVec 12)
  /-- `beq` (40_base_integer.md R147). -/
  | beq (rs1 rs2 : Reg) (offset : BitVec 13)
  /-- `bne` (40_base_integer.md R148). -/
  | bne (rs1 rs2 : Reg) (offset : BitVec 13)
  /-- `blt` (40_base_integer.md R149). -/
  | blt (rs1 rs2 : Reg) (offset : BitVec 13)
  /-- `bge` (40_base_integer.md R150). -/
  | bge (rs1 rs2 : Reg) (offset : BitVec 13)
  /-- `bltu` (40_base_integer.md R151). -/
  | bltu (rs1 rs2 : Reg) (offset : BitVec 13)
  /-- `bgeu` (40_base_integer.md R152). -/
  | bgeu (rs1 rs2 : Reg) (offset : BitVec 13)
  /-- `jal` (40_base_integer.md R153). -/
  | jal (rd : Reg) (offset : BitVec 21)
  /-- `jalr` (40_base_integer.md R154). -/
  | jalr (rd base : Reg) (offset : BitVec 12)
  /-- `lui` (40_base_integer.md R155). -/
  | lui (rd : Reg) (upper : BitVec 20)
  /-- `auipc` (40_base_integer.md R156). -/
  | auipc (rd : Reg) (upper : BitVec 20)
  /-- `fence` (40_base_integer.md R157). -/
  | fence (pred succ : FenceSet)
  /-- `fence.tso` (40_base_integer.md R158). -/
  | fenceTso
  /-- `fence.i` (40_base_integer.md R159). -/
  | fenceI
  /-- `ecall` (40_base_integer.md R160). -/
  | ecall
  /-- `ebreak` (40_base_integer.md R161). -/
  | ebreak
  /-- `mul` (41_m_extension.md R170). -/
  | mul (rd rs1 rs2 : Reg)
  /-- `mulh` (41_m_extension.md R171). -/
  | mulh (rd rs1 rs2 : Reg)
  /-- `mulhsu` (41_m_extension.md R172). -/
  | mulhsu (rd rs1 rs2 : Reg)
  /-- `mulhu` (41_m_extension.md R173). -/
  | mulhu (rd rs1 rs2 : Reg)
  /-- `div` (41_m_extension.md R174). -/
  | div (rd rs1 rs2 : Reg)
  /-- `divu` (41_m_extension.md R175). -/
  | divu (rd rs1 rs2 : Reg)
  /-- `rem` (41_m_extension.md R176). -/
  | rem (rd rs1 rs2 : Reg)
  /-- `remu` (41_m_extension.md R177). -/
  | remu (rd rs1 rs2 : Reg)
  /-- `lr.w` (42_a_extension.md R180). -/
  | lrW (aq rl : Bit) (rd addr : Reg)
  /-- `sc.w` (42_a_extension.md R181). -/
  | scW (aq rl : Bit) (rd addr src : Reg)
  /-- `amoswap.w` (42_a_extension.md R182). -/
  | amoswapW (aq rl : Bit) (rd addr src : Reg)
  /-- `amoadd.w` (42_a_extension.md R183). -/
  | amoaddW (aq rl : Bit) (rd addr src : Reg)
  /-- `amoxor.w` (42_a_extension.md R184). -/
  | amoxorW (aq rl : Bit) (rd addr src : Reg)
  /-- `amoand.w` (42_a_extension.md R185). -/
  | amoandW (aq rl : Bit) (rd addr src : Reg)
  /-- `amoor.w` (42_a_extension.md R186). -/
  | amoorW (aq rl : Bit) (rd addr src : Reg)
  /-- `amomin.w` (42_a_extension.md R187). -/
  | amominW (aq rl : Bit) (rd addr src : Reg)
  /-- `amomax.w` (42_a_extension.md R188). -/
  | amomaxW (aq rl : Bit) (rd addr src : Reg)
  /-- `amominu.w` (42_a_extension.md R189). -/
  | amominuW (aq rl : Bit) (rd addr src : Reg)
  /-- `amomaxu.w` (42_a_extension.md R190). -/
  | amomaxuW (aq rl : Bit) (rd addr src : Reg)
  /-- `csrrw` (43_zicsr_zihintpause.md R195). -/
  | csrrw (rd : Reg) (csr : Csr) (rs1 : Reg)
  /-- `csrrs` (43_zicsr_zihintpause.md R196). -/
  | csrrs (rd : Reg) (csr : Csr) (rs1 : Reg)
  /-- `csrrc` (43_zicsr_zihintpause.md R197). -/
  | csrrc (rd : Reg) (csr : Csr) (rs1 : Reg)
  /-- `csrrwi` (43_zicsr_zihintpause.md R198). -/
  | csrrwi (rd : Reg) (csr : Csr) (imm : U5)
  /-- `csrrsi` (43_zicsr_zihintpause.md R199). -/
  | csrrsi (rd : Reg) (csr : Csr) (imm : U5)
  /-- `csrrci` (43_zicsr_zihintpause.md R200). -/
  | csrrci (rd : Reg) (csr : Csr) (imm : U5)
  /-- `pause` (43_zicsr_zihintpause.md R201). -/
  | pause
  /-- `flw` (44_f_extension.md R205). -/
  | flw (rd base : Reg) (offset : BitVec 12)
  /-- `fsw` (44_f_extension.md R206). -/
  | fsw (src base : Reg) (offset : BitVec 12)
  /-- `fmadd.s` (44_f_extension.md R207). -/
  | fmaddS (rm : RoundingMode) (rd rs1 rs2 rs3 : Reg)
  /-- `fmsub.s` (44_f_extension.md R208). -/
  | fmsubS (rm : RoundingMode) (rd rs1 rs2 rs3 : Reg)
  /-- `fnmsub.s` (44_f_extension.md R209). -/
  | fnmsubS (rm : RoundingMode) (rd rs1 rs2 rs3 : Reg)
  /-- `fnmadd.s` (44_f_extension.md R210). -/
  | fnmaddS (rm : RoundingMode) (rd rs1 rs2 rs3 : Reg)
  /-- `fadd.s` (44_f_extension.md R211). -/
  | faddS (rm : RoundingMode) (rd rs1 rs2 : Reg)
  /-- `fsub.s` (44_f_extension.md R212). -/
  | fsubS (rm : RoundingMode) (rd rs1 rs2 : Reg)
  /-- `fmul.s` (44_f_extension.md R213). -/
  | fmulS (rm : RoundingMode) (rd rs1 rs2 : Reg)
  /-- `fdiv.s` (44_f_extension.md R214). -/
  | fdivS (rm : RoundingMode) (rd rs1 rs2 : Reg)
  /-- `fsqrt.s` (44_f_extension.md R215). -/
  | fsqrtS (rm : RoundingMode) (rd rs1 : Reg)
  /-- `fsgnj.s` (44_f_extension.md R216). -/
  | fsgnjS (rd rs1 rs2 : Reg)
  /-- `fsgnjn.s` (44_f_extension.md R217). -/
  | fsgnjnS (rd rs1 rs2 : Reg)
  /-- `fsgnjx.s` (44_f_extension.md R218). -/
  | fsgnjxS (rd rs1 rs2 : Reg)
  /-- `fmin.s` (44_f_extension.md R219). -/
  | fminS (rd rs1 rs2 : Reg)
  /-- `fmax.s` (44_f_extension.md R220). -/
  | fmaxS (rd rs1 rs2 : Reg)
  /-- `feq.s` (44_f_extension.md R221). -/
  | feqS (rd rs1 rs2 : Reg)
  /-- `flt.s` (44_f_extension.md R222). -/
  | fltS (rd rs1 rs2 : Reg)
  /-- `fle.s` (44_f_extension.md R223). -/
  | fleS (rd rs1 rs2 : Reg)
  /-- `fclass.s` (44_f_extension.md R224). -/
  | fclassS (rd rs1 : Reg)
  /-- `fcvt.w.s` (44_f_extension.md R225). -/
  | fcvtWS (rm : RoundingMode) (rd rs1 : Reg)
  /-- `fcvt.wu.s` (44_f_extension.md R226). -/
  | fcvtWuS (rm : RoundingMode) (rd rs1 : Reg)
  /-- `fcvt.s.w` (44_f_extension.md R227). -/
  | fcvtSW (rm : RoundingMode) (rd rs1 : Reg)
  /-- `fcvt.s.wu` (44_f_extension.md R228). -/
  | fcvtSWu (rm : RoundingMode) (rd rs1 : Reg)
  /-- `fmv.x.w` (44_f_extension.md R229). -/
  | fmvXW (rd rs1 : Reg)
  /-- `fmv.w.x` (44_f_extension.md R230). -/
  | fmvWX (rd rs1 : Reg)
  /-- `fld` (45_d_extension.md R235). -/
  | fld (rd base : Reg) (offset : BitVec 12)
  /-- `fsd` (45_d_extension.md R236). -/
  | fsd (src base : Reg) (offset : BitVec 12)
  /-- `fmadd.d` (45_d_extension.md R237). -/
  | fmaddD (rm : RoundingMode) (rd rs1 rs2 rs3 : Reg)
  /-- `fmsub.d` (45_d_extension.md R238). -/
  | fmsubD (rm : RoundingMode) (rd rs1 rs2 rs3 : Reg)
  /-- `fnmsub.d` (45_d_extension.md R239). -/
  | fnmsubD (rm : RoundingMode) (rd rs1 rs2 rs3 : Reg)
  /-- `fnmadd.d` (45_d_extension.md R240). -/
  | fnmaddD (rm : RoundingMode) (rd rs1 rs2 rs3 : Reg)
  /-- `fadd.d` (45_d_extension.md R241). -/
  | faddD (rm : RoundingMode) (rd rs1 rs2 : Reg)
  /-- `fsub.d` (45_d_extension.md R242). -/
  | fsubD (rm : RoundingMode) (rd rs1 rs2 : Reg)
  /-- `fmul.d` (45_d_extension.md R243). -/
  | fmulD (rm : RoundingMode) (rd rs1 rs2 : Reg)
  /-- `fdiv.d` (45_d_extension.md R244). -/
  | fdivD (rm : RoundingMode) (rd rs1 rs2 : Reg)
  /-- `fsqrt.d` (45_d_extension.md R245). -/
  | fsqrtD (rm : RoundingMode) (rd rs1 : Reg)
  /-- `fsgnj.d` (45_d_extension.md R246). -/
  | fsgnjD (rd rs1 rs2 : Reg)
  /-- `fsgnjn.d` (45_d_extension.md R247). -/
  | fsgnjnD (rd rs1 rs2 : Reg)
  /-- `fsgnjx.d` (45_d_extension.md R248). -/
  | fsgnjxD (rd rs1 rs2 : Reg)
  /-- `fmin.d` (45_d_extension.md R249). -/
  | fminD (rd rs1 rs2 : Reg)
  /-- `fmax.d` (45_d_extension.md R250). -/
  | fmaxD (rd rs1 rs2 : Reg)
  /-- `fcvt.s.d` (45_d_extension.md R251). -/
  | fcvtSD (rm : RoundingMode) (rd rs1 : Reg)
  /-- `fcvt.d.s` (45_d_extension.md R252). -/
  | fcvtDS (rd rs1 : Reg)
  /-- `feq.d` (45_d_extension.md R253). -/
  | feqD (rd rs1 rs2 : Reg)
  /-- `flt.d` (45_d_extension.md R254). -/
  | fltD (rd rs1 rs2 : Reg)
  /-- `fle.d` (45_d_extension.md R255). -/
  | fleD (rd rs1 rs2 : Reg)
  /-- `fclass.d` (45_d_extension.md R256). -/
  | fclassD (rd rs1 : Reg)
  /-- `fcvt.w.d` (45_d_extension.md R257). -/
  | fcvtWD (rm : RoundingMode) (rd rs1 : Reg)
  /-- `fcvt.wu.d` (45_d_extension.md R258). -/
  | fcvtWuD (rm : RoundingMode) (rd rs1 : Reg)
  /-- `fcvt.d.w` (45_d_extension.md R259). -/
  | fcvtDW (rd rs1 : Reg)
  /-- `fcvt.d.wu` (45_d_extension.md R260). -/
  | fcvtDWu (rd rs1 : Reg)
  /-- `c.addi4spn` (46_compressed.md R270). -/
  | cAddi4spn (rd' : CReg) (nzuimm : BitVec 10)
  /-- `c.fld` (46_compressed.md R271). -/
  | cFld (rd' rs1' : CReg) (offset : BitVec 8)
  /-- `c.lw` (46_compressed.md R272). -/
  | cLw (rd' rs1' : CReg) (offset : BitVec 7)
  /-- `c.flw` (46_compressed.md R273). -/
  | cFlw (rd' rs1' : CReg) (offset : BitVec 7)
  /-- `c.fsd` (46_compressed.md R274). -/
  | cFsd (rs2' rs1' : CReg) (offset : BitVec 8)
  /-- `c.sw` (46_compressed.md R275). -/
  | cSw (rs2' rs1' : CReg) (offset : BitVec 7)
  /-- `c.fsw` (46_compressed.md R276). -/
  | cFsw (rs2' rs1' : CReg) (offset : BitVec 7)
  /-- `c.nop` (46_compressed.md R277). -/
  | cNop (imm : BitVec 6)
  /-- `c.addi` (46_compressed.md R278). -/
  | cAddi (rd : Reg) (imm : BitVec 6)
  /-- `c.jal` (46_compressed.md R279). -/
  | cJal (offset : BitVec 12)
  /-- `c.li` (46_compressed.md R280). -/
  | cLi (rd : Reg) (imm : BitVec 6)
  /-- `c.addi16sp` (46_compressed.md R281). -/
  | cAddi16sp (nzimm : BitVec 10)
  /-- `c.lui` (46_compressed.md R282). -/
  | cLui (rd : Reg) (upper : BitVec 6)
  /-- `c.srli` (46_compressed.md R283). -/
  | cSrli (rd' : CReg) (shamt : U5)
  /-- `c.srai` (46_compressed.md R284). -/
  | cSrai (rd' : CReg) (shamt : U5)
  /-- `c.andi` (46_compressed.md R285). -/
  | cAndi (rd' : CReg) (imm : BitVec 6)
  /-- `c.sub` (46_compressed.md R286). -/
  | cSub (rd' rs2' : CReg)
  /-- `c.xor` (46_compressed.md R287). -/
  | cXor (rd' rs2' : CReg)
  /-- `c.or` (46_compressed.md R288). -/
  | cOr (rd' rs2' : CReg)
  /-- `c.and` (46_compressed.md R289). -/
  | cAnd (rd' rs2' : CReg)
  /-- `c.j` (46_compressed.md R290). -/
  | cJ (offset : BitVec 12)
  /-- `c.beqz` (46_compressed.md R291). -/
  | cBeqz (rs1' : CReg) (offset : BitVec 9)
  /-- `c.bnez` (46_compressed.md R292). -/
  | cBnez (rs1' : CReg) (offset : BitVec 9)
  /-- `c.slli` (46_compressed.md R293). -/
  | cSlli (rd : Reg) (shamt : U5)
  /-- `c.fldsp` (46_compressed.md R294). -/
  | cFldsp (rd : Reg) (offset : BitVec 9)
  /-- `c.lwsp` (46_compressed.md R295). -/
  | cLwsp (rd : Reg) (offset : BitVec 8)
  /-- `c.flwsp` (46_compressed.md R296). -/
  | cFlwsp (rd : Reg) (offset : BitVec 8)
  /-- `c.jr` (46_compressed.md R297). -/
  | cJr (rs1 : Reg)
  /-- `c.mv` (46_compressed.md R298). -/
  | cMv (rd rs2 : Reg)
  /-- `c.ebreak` (46_compressed.md R299). -/
  | cEbreak
  /-- `c.jalr` (46_compressed.md R300). -/
  | cJalr (rs1 : Reg)
  /-- `c.add` (46_compressed.md R301). -/
  | cAdd (rd rs2 : Reg)
  /-- `c.fsdsp` (46_compressed.md R302). -/
  | cFsdsp (rs2 : Reg) (offset : BitVec 9)
  /-- `c.swsp` (46_compressed.md R303). -/
  | cSwsp (rs2 : Reg) (offset : BitVec 8)
  /-- `c.fswsp` (46_compressed.md R304). -/
  | cFswsp (rs2 : Reg) (offset : BitVec 8)
  deriving DecidableEq, Repr

end Sys2Proof
end

