-- ==== Sys2Proof/Decode.lean ====
section
/-! DEFINITION. The decoder: the fields (30_encoding.md R61, R82), the immediates (R69 to R73, R93 to R105), the dispatch of
the 32-bit words (R78 to R80 and the family rules of 40 to 45) and of the parcels (R106, R107), and `decode` (10_state.md R22).
After it the encoder, from the same formats, and the table's match and mask of each row. -/

namespace Sys2Proof

/-! ### The fields of a 32-bit word (30_encoding.md R61) -/

namespace WField

/-- `w[6:0]`. -/
def opcode (w : Word) : BitVec 7 := w.extractLsb' 0 7

/-- `w[11:7]`. -/
def rd (w : Word) : Reg := w.extractLsb' 7 5

/-- `w[14:12]`, also the rounding mode `rm`. -/
def funct3 (w : Word) : BitVec 3 := w.extractLsb' 12 3

/-- `w[19:15]`, also the CSR immediate. -/
def rs1 (w : Word) : Reg := w.extractLsb' 15 5

/-- `w[24:20]`, also `shamt`. -/
def rs2 (w : Word) : Reg := w.extractLsb' 20 5

/-- `w[31:25]`. -/
def funct7 (w : Word) : BitVec 7 := w.extractLsb' 25 7

/-- `w[31:27]`, also `funct5`. -/
def rs3 (w : Word) : Reg := w.extractLsb' 27 5

/-- `w[26:25]`. -/
def fmt (w : Word) : BitVec 2 := w.extractLsb' 25 2

/-- `w[26]`. -/
def aq (w : Word) : Bit := w.extractLsb' 26 1

/-- `w[25]`. -/
def rl (w : Word) : Bit := w.extractLsb' 25 1

/-- `w[31:20]`. -/
def csr (w : Word) : Csr := w.extractLsb' 20 12

/-- `w[31:28]`. -/
def fm (w : Word) : BitVec 4 := w.extractLsb' 28 4

/-- `w[27:24]`. -/
def pred (w : Word) : FenceSet := w.extractLsb' 24 4

/-- `w[23:20]`. -/
def succ (w : Word) : FenceSet := w.extractLsb' 20 4

/-- The I immediate, before its sign extension (30_encoding.md R69). -/
def immI (w : Word) : BitVec 12 := w.extractLsb' 20 12

/-- The S immediate, before its sign extension (30_encoding.md R70). -/
def immS (w : Word) : BitVec 12 := w.extractLsb' 25 7 ++ w.extractLsb' 7 5

/-- The B immediate, before its sign extension (30_encoding.md R71). -/
def immB (w : Word) : BitVec 13 :=
  w.extractLsb' 31 1 ++ w.extractLsb' 7 1 ++ w.extractLsb' 25 6 ++ w.extractLsb' 8 4 ++ 0b0#1

/-- The upper 20 bits of the U immediate (30_encoding.md R72). -/
def immU (w : Word) : BitVec 20 := w.extractLsb' 12 20

/-- The J immediate, before its sign extension (30_encoding.md R73). -/
def immJ (w : Word) : BitVec 21 :=
  w.extractLsb' 31 1 ++ w.extractLsb' 12 8 ++ w.extractLsb' 20 1 ++ w.extractLsb' 21 10 ++ 0b0#1

end WField

/-- The mode with a 3-bit code; 101 and 110 have none (10_state.md R37, 44_f_extension.md R203). -/
def RoundingMode.ofCode (c : BitVec 3) : Option RoundingMode :=
  if c = 0b000 then some .rne
  else if c = 0b001 then some .rtz
  else if c = 0b010 then some .rdn
  else if c = 0b011 then some .rup
  else if c = 0b100 then some .rmm
  else if c = 0b111 then some .dyn
  else none

/-- The code of a mode (10_state.md R37). -/
def RoundingMode.code : RoundingMode → BitVec 3
  | .rne => 0b000
  | .rtz => 0b001
  | .rdn => 0b010
  | .rup => 0b011
  | .rmm => 0b100
  | .dyn => 0b111

/-- An instruction that carries the rounding mode of `w`, rejected when the code is reserved (44_f_extension.md R203). -/
def withRm (w : Word) (mk : RoundingMode → Instr) : Option Instr := (RoundingMode.ofCode (WField.funct3 w)).map mk

/-! ### The dispatch of 32-bit words -/

open WField in
/-- OP-IMM (40_base_integer.md R116). -/
def decodeOpImm (w : Word) : Option Instr :=
  if funct3 w = 0b000 then some (.addi (rd w) (rs1 w) (immI w))
  else if funct3 w = 0b010 then some (.slti (rd w) (rs1 w) (immI w))
  else if funct3 w = 0b011 then some (.sltiu (rd w) (rs1 w) (immI w))
  else if funct3 w = 0b100 then some (.xori (rd w) (rs1 w) (immI w))
  else if funct3 w = 0b110 then some (.ori (rd w) (rs1 w) (immI w))
  else if funct3 w = 0b111 then some (.andi (rd w) (rs1 w) (immI w))
  else if funct3 w = 0b001 then
    if funct7 w = 0b0000000 then some (.slli (rd w) (rs1 w) (rs2 w)) else none
  else if funct7 w = 0b0000000 then some (.srli (rd w) (rs1 w) (rs2 w))
  else if funct7 w = 0b0100000 then some (.srai (rd w) (rs1 w) (rs2 w))
  else none

open WField in
/-- OP (40_base_integer.md R117, 41_m_extension.md R168): all seven bits of funct7 are compared. -/
def decodeOp (w : Word) : Option Instr :=
  if funct7 w = 0b0000000 then
    if funct3 w = 0b000 then some (.add (rd w) (rs1 w) (rs2 w))
    else if funct3 w = 0b001 then some (.sll (rd w) (rs1 w) (rs2 w))
    else if funct3 w = 0b010 then some (.slt (rd w) (rs1 w) (rs2 w))
    else if funct3 w = 0b011 then some (.sltu (rd w) (rs1 w) (rs2 w))
    else if funct3 w = 0b100 then some (.xor (rd w) (rs1 w) (rs2 w))
    else if funct3 w = 0b101 then some (.srl (rd w) (rs1 w) (rs2 w))
    else if funct3 w = 0b110 then some (.or (rd w) (rs1 w) (rs2 w))
    else some (.and (rd w) (rs1 w) (rs2 w))
  else if funct7 w = 0b0100000 then
    if funct3 w = 0b000 then some (.sub (rd w) (rs1 w) (rs2 w))
    else if funct3 w = 0b101 then some (.sra (rd w) (rs1 w) (rs2 w))
    else none
  else if funct7 w = 0b0000001 then
    if funct3 w = 0b000 then some (.mul (rd w) (rs1 w) (rs2 w))
    else if funct3 w = 0b001 then some (.mulh (rd w) (rs1 w) (rs2 w))
    else if funct3 w = 0b010 then some (.mulhsu (rd w) (rs1 w) (rs2 w))
    else if funct3 w = 0b011 then some (.mulhu (rd w) (rs1 w) (rs2 w))
    else if funct3 w = 0b100 then some (.div (rd w) (rs1 w) (rs2 w))
    else if funct3 w = 0b101 then some (.divu (rd w) (rs1 w) (rs2 w))
    else if funct3 w = 0b110 then some (.rem (rd w) (rs1 w) (rs2 w))
    else some (.remu (rd w) (rs1 w) (rs2 w))
  else none

open WField in
/-- LOAD (40_base_integer.md R139 to R143): funct3 011, 110 and 111 have no row. -/
def decodeLoad (w : Word) : Option Instr :=
  if funct3 w = 0b000 then some (.lb (rd w) (rs1 w) (immI w))
  else if funct3 w = 0b001 then some (.lh (rd w) (rs1 w) (immI w))
  else if funct3 w = 0b010 then some (.lw (rd w) (rs1 w) (immI w))
  else if funct3 w = 0b100 then some (.lbu (rd w) (rs1 w) (immI w))
  else if funct3 w = 0b101 then some (.lhu (rd w) (rs1 w) (immI w))
  else none

open WField in
/-- STORE (40_base_integer.md R144 to R146): funct3 011 to 111 have no row. -/
def decodeStore (w : Word) : Option Instr :=
  if funct3 w = 0b000 then some (.sb (rs2 w) (rs1 w) (immS w))
  else if funct3 w = 0b001 then some (.sh (rs2 w) (rs1 w) (immS w))
  else if funct3 w = 0b010 then some (.sw (rs2 w) (rs1 w) (immS w))
  else none

open WField in
/-- BRANCH (40_base_integer.md R147 to R152): funct3 010 and 011 have no row. -/
def decodeBranch (w : Word) : Option Instr :=
  if funct3 w = 0b000 then some (.beq (rs1 w) (rs2 w) (immB w))
  else if funct3 w = 0b001 then some (.bne (rs1 w) (rs2 w) (immB w))
  else if funct3 w = 0b100 then some (.blt (rs1 w) (rs2 w) (immB w))
  else if funct3 w = 0b101 then some (.bge (rs1 w) (rs2 w) (immB w))
  else if funct3 w = 0b110 then some (.bltu (rs1 w) (rs2 w) (immB w))
  else if funct3 w = 0b111 then some (.bgeu (rs1 w) (rs2 w) (immB w))
  else none

open WField in
/-- MISC-MEM, in the order of 40_base_integer.md R118. -/
def decodeMiscMem (w : Word) : Option Instr :=
  if w = 0x0100000F#32 then some .pause
  else if w = 0x8330000F#32 then some .fenceTso
  else if funct3 w = 0b000 then
    if fm w = 0b0000 ∧ rs1 w = 0 ∧ rd w = 0 ∧ pred w ≠ 0 ∧ succ w ≠ 0 then some (.fence (pred w) (succ w)) else none
  else if w = 0x0000100F#32 then some .fenceI
  else none

open WField in
/-- SYSTEM (40_base_integer.md R119, 43_zicsr_zihintpause.md R192): funct3 000 accepts two words, 100 none. -/
def decodeSystem (w : Word) : Option Instr :=
  if funct3 w = 0b000 then
    if w = 0x00000073#32 then some .ecall
    else if w = 0x00100073#32 then some .ebreak
    else none
  else if funct3 w = 0b001 then some (.csrrw (rd w) (csr w) (rs1 w))
  else if funct3 w = 0b010 then some (.csrrs (rd w) (csr w) (rs1 w))
  else if funct3 w = 0b011 then some (.csrrc (rd w) (csr w) (rs1 w))
  else if funct3 w = 0b101 then some (.csrrwi (rd w) (csr w) (rs1 w))
  else if funct3 w = 0b110 then some (.csrrsi (rd w) (csr w) (rs1 w))
  else if funct3 w = 0b111 then some (.csrrci (rd w) (csr w) (rs1 w))
  else none

open WField in
/-- AMO (42_a_extension.md R178 to R180): funct3 010 alone, by funct5; LR.W needs `rs2 = 0`. -/
def decodeAmo (w : Word) : Option Instr :=
  if funct3 w = 0b010 then
    if rs3 w = 0b00010 then if rs2 w = 0 then some (.lrW (aq w) (rl w) (rd w) (rs1 w)) else none
    else if rs3 w = 0b00011 then some (.scW (aq w) (rl w) (rd w) (rs1 w) (rs2 w))
    else if rs3 w = 0b00001 then some (.amoswapW (aq w) (rl w) (rd w) (rs1 w) (rs2 w))
    else if rs3 w = 0b00000 then some (.amoaddW (aq w) (rl w) (rd w) (rs1 w) (rs2 w))
    else if rs3 w = 0b00100 then some (.amoxorW (aq w) (rl w) (rd w) (rs1 w) (rs2 w))
    else if rs3 w = 0b01100 then some (.amoandW (aq w) (rl w) (rd w) (rs1 w) (rs2 w))
    else if rs3 w = 0b01000 then some (.amoorW (aq w) (rl w) (rd w) (rs1 w) (rs2 w))
    else if rs3 w = 0b10000 then some (.amominW (aq w) (rl w) (rd w) (rs1 w) (rs2 w))
    else if rs3 w = 0b10100 then some (.amomaxW (aq w) (rl w) (rd w) (rs1 w) (rs2 w))
    else if rs3 w = 0b11000 then some (.amominuW (aq w) (rl w) (rd w) (rs1 w) (rs2 w))
    else if rs3 w = 0b11100 then some (.amomaxuW (aq w) (rl w) (rd w) (rs1 w) (rs2 w))
    else none
  else none

open WField in
/-- LOAD-FP (44_f_extension.md R202): funct3 010 single, 011 double. -/
def decodeLoadFp (w : Word) : Option Instr :=
  if funct3 w = 0b010 then some (.flw (rd w) (rs1 w) (immI w))
  else if funct3 w = 0b011 then some (.fld (rd w) (rs1 w) (immI w))
  else none

open WField in
/-- STORE-FP (44_f_extension.md R202). -/
def decodeStoreFp (w : Word) : Option Instr :=
  if funct3 w = 0b010 then some (.fsw (rs2 w) (rs1 w) (immS w))
  else if funct3 w = 0b011 then some (.fsd (rs2 w) (rs1 w) (immS w))
  else none

open WField in
/-- A fused opcode: `fmt` 00 is single and 01 double (44_f_extension.md R202). -/
def decodeFused (w : Word) (single double : RoundingMode → Reg → Reg → Reg → Reg → Instr) : Option Instr :=
  if fmt w = 0b00 then withRm w fun rm => single rm (rd w) (rs1 w) (rs2 w) (rs3 w)
  else if fmt w = 0b01 then withRm w fun rm => double rm (rd w) (rs1 w) (rs2 w) (rs3 w)
  else none

open WField in
/-- OP-FP with `fmt` 00 (44_f_extension.md R202, R211 to R230) and FCVT.S.D (45_d_extension.md R251). -/
def decodeOpFpSingle (w : Word) : Option Instr :=
  if rs3 w = 0b00000 then withRm w fun rm => .faddS rm (rd w) (rs1 w) (rs2 w)
  else if rs3 w = 0b00001 then withRm w fun rm => .fsubS rm (rd w) (rs1 w) (rs2 w)
  else if rs3 w = 0b00010 then withRm w fun rm => .fmulS rm (rd w) (rs1 w) (rs2 w)
  else if rs3 w = 0b00011 then withRm w fun rm => .fdivS rm (rd w) (rs1 w) (rs2 w)
  else if rs3 w = 0b01011 then if rs2 w = 0 then withRm w fun rm => .fsqrtS rm (rd w) (rs1 w) else none
  else if rs3 w = 0b00100 then
    if funct3 w = 0b000 then some (.fsgnjS (rd w) (rs1 w) (rs2 w))
    else if funct3 w = 0b001 then some (.fsgnjnS (rd w) (rs1 w) (rs2 w))
    else if funct3 w = 0b010 then some (.fsgnjxS (rd w) (rs1 w) (rs2 w))
    else none
  else if rs3 w = 0b00101 then
    if funct3 w = 0b000 then some (.fminS (rd w) (rs1 w) (rs2 w))
    else if funct3 w = 0b001 then some (.fmaxS (rd w) (rs1 w) (rs2 w))
    else none
  else if rs3 w = 0b01000 then if rs2 w = 0b00001 then withRm w fun rm => .fcvtSD rm (rd w) (rs1 w) else none
  else if rs3 w = 0b10100 then
    if funct3 w = 0b010 then some (.feqS (rd w) (rs1 w) (rs2 w))
    else if funct3 w = 0b001 then some (.fltS (rd w) (rs1 w) (rs2 w))
    else if funct3 w = 0b000 then some (.fleS (rd w) (rs1 w) (rs2 w))
    else none
  else if rs3 w = 0b11100 then
    if rs2 w = 0 ∧ funct3 w = 0b001 then some (.fclassS (rd w) (rs1 w))
    else if rs2 w = 0 ∧ funct3 w = 0b000 then some (.fmvXW (rd w) (rs1 w))
    else none
  else if rs3 w = 0b11000 then
    if rs2 w = 0b00000 then withRm w fun rm => .fcvtWS rm (rd w) (rs1 w)
    else if rs2 w = 0b00001 then withRm w fun rm => .fcvtWuS rm (rd w) (rs1 w)
    else none
  else if rs3 w = 0b11010 then
    if rs2 w = 0b00000 then withRm w fun rm => .fcvtSW rm (rd w) (rs1 w)
    else if rs2 w = 0b00001 then withRm w fun rm => .fcvtSWu rm (rd w) (rs1 w)
    else none
  else if rs3 w = 0b11110 then
    if rs2 w = 0 ∧ funct3 w = 0b000 then some (.fmvWX (rd w) (rs1 w)) else none
  else none

open WField in
/-- OP-FP with `fmt` 01 (45_d_extension.md R232, R241 to R260): the exact conversions require funct3 000. -/
def decodeOpFpDouble (w : Word) : Option Instr :=
  if rs3 w = 0b00000 then withRm w fun rm => .faddD rm (rd w) (rs1 w) (rs2 w)
  else if rs3 w = 0b00001 then withRm w fun rm => .fsubD rm (rd w) (rs1 w) (rs2 w)
  else if rs3 w = 0b00010 then withRm w fun rm => .fmulD rm (rd w) (rs1 w) (rs2 w)
  else if rs3 w = 0b00011 then withRm w fun rm => .fdivD rm (rd w) (rs1 w) (rs2 w)
  else if rs3 w = 0b01011 then if rs2 w = 0 then withRm w fun rm => .fsqrtD rm (rd w) (rs1 w) else none
  else if rs3 w = 0b00100 then
    if funct3 w = 0b000 then some (.fsgnjD (rd w) (rs1 w) (rs2 w))
    else if funct3 w = 0b001 then some (.fsgnjnD (rd w) (rs1 w) (rs2 w))
    else if funct3 w = 0b010 then some (.fsgnjxD (rd w) (rs1 w) (rs2 w))
    else none
  else if rs3 w = 0b00101 then
    if funct3 w = 0b000 then some (.fminD (rd w) (rs1 w) (rs2 w))
    else if funct3 w = 0b001 then some (.fmaxD (rd w) (rs1 w) (rs2 w))
    else none
  else if rs3 w = 0b01000 then if rs2 w = 0 ∧ funct3 w = 0b000 then some (.fcvtDS (rd w) (rs1 w)) else none
  else if rs3 w = 0b10100 then
    if funct3 w = 0b010 then some (.feqD (rd w) (rs1 w) (rs2 w))
    else if funct3 w = 0b001 then some (.fltD (rd w) (rs1 w) (rs2 w))
    else if funct3 w = 0b000 then some (.fleD (rd w) (rs1 w) (rs2 w))
    else none
  else if rs3 w = 0b11100 then
    if rs2 w = 0 ∧ funct3 w = 0b001 then some (.fclassD (rd w) (rs1 w)) else none
  else if rs3 w = 0b11000 then
    if rs2 w = 0b00000 then withRm w fun rm => .fcvtWD rm (rd w) (rs1 w)
    else if rs2 w = 0b00001 then withRm w fun rm => .fcvtWuD rm (rd w) (rs1 w)
    else none
  else if rs3 w = 0b11010 then
    if rs2 w = 0b00000 ∧ funct3 w = 0b000 then some (.fcvtDW (rd w) (rs1 w))
    else if rs2 w = 0b00001 ∧ funct3 w = 0b000 then some (.fcvtDWu (rd w) (rs1 w))
    else none
  else none

open WField in
/-- A 32-bit word by its major opcode (30_encoding.md R78); an opcode without a row is rejected (R79). -/
def decode32 (w : Word) : Option Instr :=
  if opcode w = 0b0000011 then decodeLoad w
  else if opcode w = 0b0000111 then decodeLoadFp w
  else if opcode w = 0b0001111 then decodeMiscMem w
  else if opcode w = 0b0010011 then decodeOpImm w
  else if opcode w = 0b0010111 then some (.auipc (rd w) (immU w))
  else if opcode w = 0b0100011 then decodeStore w
  else if opcode w = 0b0100111 then decodeStoreFp w
  else if opcode w = 0b0101111 then decodeAmo w
  else if opcode w = 0b0110011 then decodeOp w
  else if opcode w = 0b0110111 then some (.lui (rd w) (immU w))
  else if opcode w = 0b1000011 then decodeFused w .fmaddS .fmaddD
  else if opcode w = 0b1000111 then decodeFused w .fmsubS .fmsubD
  else if opcode w = 0b1001011 then decodeFused w .fnmsubS .fnmsubD
  else if opcode w = 0b1001111 then decodeFused w .fnmaddS .fnmaddD
  else if opcode w = 0b1010011 then
    if fmt w = 0b00 then decodeOpFpSingle w else if fmt w = 0b01 then decodeOpFpDouble w else none
  else if opcode w = 0b1100011 then decodeBranch w
  else if opcode w = 0b1100111 then if funct3 w = 0b000 then some (.jalr (rd w) (rs1 w) (immI w)) else none
  else if opcode w = 0b1101111 then some (.jal (rd w) (immJ w))
  else if opcode w = 0b1110011 then decodeSystem w
  else none

/-! ### The fields and immediates of a parcel (30_encoding.md R82, R93 to R105) -/

namespace PField

/-- The quadrant `h[1:0]`. -/
def op (h : Parcel) : BitVec 2 := h.extractLsb' 0 2

/-- `h[15:13]`. -/
def funct3 (h : Parcel) : BitVec 3 := h.extractLsb' 13 3

/-- `h[12]`. -/
def bit12 (h : Parcel) : BitVec 1 := h.extractLsb' 12 1

/-- `h[11:7]`, a full register number. -/
def rd (h : Parcel) : Reg := h.extractLsb' 7 5

/-- `h[6:2]`, a full register number or the low five bits of a CI immediate. -/
def rs2 (h : Parcel) : Reg := h.extractLsb' 2 5

/-- `h[9:7]`, a 3-bit register number. -/
def rs1' (h : Parcel) : CReg := h.extractLsb' 7 3

/-- `h[4:2]`, a 3-bit register number. -/
def rs2' (h : Parcel) : CReg := h.extractLsb' 2 3

/-- The sub-selector `h[11:10]`. -/
def funct2 (h : Parcel) : BitVec 2 := h.extractLsb' 10 2

/-- The sub-selector `h[6:5]`. -/
def sub2 (h : Parcel) : BitVec 2 := h.extractLsb' 5 2

/-- The CI immediate, also the upper bits of C.LUI's (30_encoding.md R93, R95). -/
def immCI (h : Parcel) : BitVec 6 := h.extractLsb' 12 1 ++ h.extractLsb' 2 5

/-- The C.ADDI16SP immediate (30_encoding.md R94). -/
def immSp16 (h : Parcel) : BitVec 10 :=
  h.extractLsb' 12 1 ++ h.extractLsb' 3 2 ++ h.extractLsb' 5 1 ++ h.extractLsb' 2 1 ++ h.extractLsb' 6 1 ++ 0b0000#4

/-- The C.ADDI4SPN immediate (30_encoding.md R96). -/
def immSpn (h : Parcel) : BitVec 10 :=
  h.extractLsb' 7 4 ++ h.extractLsb' 11 2 ++ h.extractLsb' 5 1 ++ h.extractLsb' 6 1 ++ 0b00#2

/-- The CL and CS word offset (30_encoding.md R97). -/
def offsetW (h : Parcel) : BitVec 7 := h.extractLsb' 5 1 ++ h.extractLsb' 10 3 ++ h.extractLsb' 6 1 ++ 0b00#2

/-- The CL and CS doubleword offset (30_encoding.md R98). -/
def offsetD (h : Parcel) : BitVec 8 := h.extractLsb' 5 2 ++ h.extractLsb' 10 3 ++ 0b000#3

/-- The CI stack word offset (30_encoding.md R99). -/
def offsetLwsp (h : Parcel) : BitVec 8 :=
  h.extractLsb' 2 2 ++ h.extractLsb' 12 1 ++ h.extractLsb' 4 3 ++ 0b00#2

/-- The CI stack doubleword offset (30_encoding.md R100). -/
def offsetFldsp (h : Parcel) : BitVec 9 :=
  h.extractLsb' 2 3 ++ h.extractLsb' 12 1 ++ h.extractLsb' 5 2 ++ 0b000#3

/-- The CSS stack word offset (30_encoding.md R101). -/
def offsetSwsp (h : Parcel) : BitVec 8 := h.extractLsb' 7 2 ++ h.extractLsb' 9 4 ++ 0b00#2

/-- The CSS stack doubleword offset (30_encoding.md R102). -/
def offsetFsdsp (h : Parcel) : BitVec 9 := h.extractLsb' 7 3 ++ h.extractLsb' 10 3 ++ 0b000#3

/-- The CJ offset, before its sign extension (30_encoding.md R103). -/
def offsetJ (h : Parcel) : BitVec 12 :=
  h.extractLsb' 12 1 ++ h.extractLsb' 8 1 ++ h.extractLsb' 9 2 ++ h.extractLsb' 6 1 ++ h.extractLsb' 7 1 ++
    h.extractLsb' 2 1 ++ h.extractLsb' 11 1 ++ h.extractLsb' 3 3 ++ 0b0#1

/-- The CB branch offset, before its sign extension (30_encoding.md R104). -/
def offsetB (h : Parcel) : BitVec 9 :=
  h.extractLsb' 12 1 ++ h.extractLsb' 5 2 ++ h.extractLsb' 2 1 ++ h.extractLsb' 10 2 ++ h.extractLsb' 3 2 ++ 0b0#1

end PField

/-! ### The dispatch of parcels (30_encoding.md R106, R107) -/

open PField in
/-- Quadrant 0. -/
def decodeQ0 (h : Parcel) (x : Xlen) : Option Instr :=
  if funct3 h = 0b000 then if immSpn h ≠ 0 then some (.cAddi4spn (rs2' h) (immSpn h)) else none
  else if funct3 h = 0b001 then some (.cFld (rs2' h) (rs1' h) (offsetD h))
  else if funct3 h = 0b010 then some (.cLw (rs2' h) (rs1' h) (offsetW h))
  else if funct3 h = 0b011 then if x = .rv32 then some (.cFlw (rs2' h) (rs1' h) (offsetW h)) else none
  else if funct3 h = 0b101 then some (.cFsd (rs2' h) (rs1' h) (offsetD h))
  else if funct3 h = 0b110 then some (.cSw (rs2' h) (rs1' h) (offsetW h))
  else if funct3 h = 0b111 then if x = .rv32 then some (.cFsw (rs2' h) (rs1' h) (offsetW h)) else none
  else none

open PField in
/-- Quadrant 1, funct3 100: shifts, C.ANDI and the CA forms. -/
def decodeQ1Alu (h : Parcel) : Option Instr :=
  if funct2 h = 0b00 then if bit12 h = 0 then some (.cSrli (rs1' h) (rs2 h)) else none
  else if funct2 h = 0b01 then if bit12 h = 0 then some (.cSrai (rs1' h) (rs2 h)) else none
  else if funct2 h = 0b10 then some (.cAndi (rs1' h) (immCI h))
  else if bit12 h = 0 then
    if sub2 h = 0b00 then some (.cSub (rs1' h) (rs2' h))
    else if sub2 h = 0b01 then some (.cXor (rs1' h) (rs2' h))
    else if sub2 h = 0b10 then some (.cOr (rs1' h) (rs2' h))
    else some (.cAnd (rs1' h) (rs2' h))
  else none

open PField in
/-- Quadrant 1. -/
def decodeQ1 (h : Parcel) (x : Xlen) : Option Instr :=
  if funct3 h = 0b000 then
    if rd h = 0 then some (.cNop (immCI h)) else some (.cAddi (rd h) (immCI h))
  else if funct3 h = 0b001 then if x = .rv32 then some (.cJal (offsetJ h)) else none
  else if funct3 h = 0b010 then some (.cLi (rd h) (immCI h))
  else if funct3 h = 0b011 then
    if rd h = 2 then if immSp16 h ≠ 0 then some (.cAddi16sp (immSp16 h)) else none
    else if immCI h ≠ 0 then some (.cLui (rd h) (immCI h)) else none
  else if funct3 h = 0b100 then decodeQ1Alu h
  else if funct3 h = 0b101 then some (.cJ (offsetJ h))
  else if funct3 h = 0b110 then some (.cBeqz (rs1' h) (offsetB h))
  else some (.cBnez (rs1' h) (offsetB h))

open PField in
/-- Quadrant 2, funct3 100: jumps, moves, additions and C.EBREAK. -/
def decodeQ2Reg (h : Parcel) : Option Instr :=
  if bit12 h = 0 then
    if rs2 h = 0 then if rd h ≠ 0 then some (.cJr (rd h)) else none
    else some (.cMv (rd h) (rs2 h))
  else if rs2 h = 0 then if rd h = 0 then some .cEbreak else some (.cJalr (rd h))
  else some (.cAdd (rd h) (rs2 h))

open PField in
/-- Quadrant 2. -/
def decodeQ2 (h : Parcel) (x : Xlen) : Option Instr :=
  if funct3 h = 0b000 then if bit12 h = 0 then some (.cSlli (rd h) (rs2 h)) else none
  else if funct3 h = 0b001 then some (.cFldsp (rd h) (offsetFldsp h))
  else if funct3 h = 0b010 then if rd h ≠ 0 then some (.cLwsp (rd h) (offsetLwsp h)) else none
  else if funct3 h = 0b011 then if x = .rv32 then some (.cFlwsp (rd h) (offsetLwsp h)) else none
  else if funct3 h = 0b100 then decodeQ2Reg h
  else if funct3 h = 0b101 then some (.cFsdsp (rs2 h) (offsetFsdsp h))
  else if funct3 h = 0b110 then some (.cSwsp (rs2 h) (offsetSwsp h))
  else if x = .rv32 then some (.cFswsp (rs2 h) (offsetSwsp h)) else none

/-- A parcel, by its quadrant (46_compressed.md R265). -/
def decode16 (h : Parcel) (x : Xlen) : Option Instr :=
  if PField.op h = 0b00 then decodeQ0 h x
  else if PField.op h = 0b01 then decodeQ1 h x
  else if PField.op h = 0b10 then decodeQ2 h x
  else none

/-! ### `decode` -/

/-- `w[1:0] = 11`: a 32-bit word and not a parcel (30_encoding.md R60). -/
def isLong (w : Word) : Bool := w.extractLsb' 0 2 == 0b11#2

/-- The parcel `h = w[15:0]`. -/
def lowParcel (w : Word) : Parcel := w.extractLsb' 0 16

/-- The row that accepts `(w, x)`, with its operands (30_encoding.md R60, R79, R109). -/
def decodeInstr (w : Word) (x : Xlen) : Option Instr :=
  if isLong w then decode32 w else decode16 (lowParcel w) x

/-- Register `8 + r'` (30_encoding.md R92). -/
def CReg.toReg (r : CReg) : Reg := 0b01#2 ++ r

/-- Which form a row is (10_state.md R25). -/
def Instr.compressed (i : Instr) : IsCompressed :=
  match i with
  | .addi _ _ _ => .no
  | .slti _ _ _ => .no
  | .sltiu _ _ _ => .no
  | .xori _ _ _ => .no
  | .ori _ _ _ => .no
  | .andi _ _ _ => .no
  | .slli _ _ _ => .no
  | .srli _ _ _ => .no
  | .srai _ _ _ => .no
  | .add _ _ _ => .no
  | .sub _ _ _ => .no
  | .sll _ _ _ => .no
  | .slt _ _ _ => .no
  | .sltu _ _ _ => .no
  | .xor _ _ _ => .no
  | .srl _ _ _ => .no
  | .sra _ _ _ => .no
  | .or _ _ _ => .no
  | .and _ _ _ => .no
  | .lb _ _ _ => .no
  | .lh _ _ _ => .no
  | .lw _ _ _ => .no
  | .lbu _ _ _ => .no
  | .lhu _ _ _ => .no
  | .sb _ _ _ => .no
  | .sh _ _ _ => .no
  | .sw _ _ _ => .no
  | .beq _ _ _ => .no
  | .bne _ _ _ => .no
  | .blt _ _ _ => .no
  | .bge _ _ _ => .no
  | .bltu _ _ _ => .no
  | .bgeu _ _ _ => .no
  | .jal _ _ => .no
  | .jalr _ _ _ => .no
  | .lui _ _ => .no
  | .auipc _ _ => .no
  | .fence _ _ => .no
  | .fenceTso => .no
  | .fenceI => .no
  | .ecall => .no
  | .ebreak => .no
  | .mul _ _ _ => .no
  | .mulh _ _ _ => .no
  | .mulhsu _ _ _ => .no
  | .mulhu _ _ _ => .no
  | .div _ _ _ => .no
  | .divu _ _ _ => .no
  | .rem _ _ _ => .no
  | .remu _ _ _ => .no
  | .lrW _ _ _ _ => .no
  | .scW _ _ _ _ _ => .no
  | .amoswapW _ _ _ _ _ => .no
  | .amoaddW _ _ _ _ _ => .no
  | .amoxorW _ _ _ _ _ => .no
  | .amoandW _ _ _ _ _ => .no
  | .amoorW _ _ _ _ _ => .no
  | .amominW _ _ _ _ _ => .no
  | .amomaxW _ _ _ _ _ => .no
  | .amominuW _ _ _ _ _ => .no
  | .amomaxuW _ _ _ _ _ => .no
  | .csrrw _ _ _ => .no
  | .csrrs _ _ _ => .no
  | .csrrc _ _ _ => .no
  | .csrrwi _ _ _ => .no
  | .csrrsi _ _ _ => .no
  | .csrrci _ _ _ => .no
  | .pause => .no
  | .flw _ _ _ => .no
  | .fsw _ _ _ => .no
  | .fmaddS _ _ _ _ _ => .no
  | .fmsubS _ _ _ _ _ => .no
  | .fnmsubS _ _ _ _ _ => .no
  | .fnmaddS _ _ _ _ _ => .no
  | .faddS _ _ _ _ => .no
  | .fsubS _ _ _ _ => .no
  | .fmulS _ _ _ _ => .no
  | .fdivS _ _ _ _ => .no
  | .fsqrtS _ _ _ => .no
  | .fsgnjS _ _ _ => .no
  | .fsgnjnS _ _ _ => .no
  | .fsgnjxS _ _ _ => .no
  | .fminS _ _ _ => .no
  | .fmaxS _ _ _ => .no
  | .feqS _ _ _ => .no
  | .fltS _ _ _ => .no
  | .fleS _ _ _ => .no
  | .fclassS _ _ => .no
  | .fcvtWS _ _ _ => .no
  | .fcvtWuS _ _ _ => .no
  | .fcvtSW _ _ _ => .no
  | .fcvtSWu _ _ _ => .no
  | .fmvXW _ _ => .no
  | .fmvWX _ _ => .no
  | .fld _ _ _ => .no
  | .fsd _ _ _ => .no
  | .fmaddD _ _ _ _ _ => .no
  | .fmsubD _ _ _ _ _ => .no
  | .fnmsubD _ _ _ _ _ => .no
  | .fnmaddD _ _ _ _ _ => .no
  | .faddD _ _ _ _ => .no
  | .fsubD _ _ _ _ => .no
  | .fmulD _ _ _ _ => .no
  | .fdivD _ _ _ _ => .no
  | .fsqrtD _ _ _ => .no
  | .fsgnjD _ _ _ => .no
  | .fsgnjnD _ _ _ => .no
  | .fsgnjxD _ _ _ => .no
  | .fminD _ _ _ => .no
  | .fmaxD _ _ _ => .no
  | .fcvtSD _ _ _ => .no
  | .fcvtDS _ _ => .no
  | .feqD _ _ _ => .no
  | .fltD _ _ _ => .no
  | .fleD _ _ _ => .no
  | .fclassD _ _ => .no
  | .fcvtWD _ _ _ => .no
  | .fcvtWuD _ _ _ => .no
  | .fcvtDW _ _ => .no
  | .fcvtDWu _ _ => .no
  | .cAddi4spn _ _ => .yes
  | .cFld _ _ _ => .yes
  | .cLw _ _ _ => .yes
  | .cFlw _ _ _ => .yes
  | .cFsd _ _ _ => .yes
  | .cSw _ _ _ => .yes
  | .cFsw _ _ _ => .yes
  | .cNop _ => .yes
  | .cAddi _ _ => .yes
  | .cJal _ => .yes
  | .cLi _ _ => .yes
  | .cAddi16sp _ => .yes
  | .cLui _ _ => .yes
  | .cSrli _ _ => .yes
  | .cSrai _ _ => .yes
  | .cAndi _ _ => .yes
  | .cSub _ _ => .yes
  | .cXor _ _ => .yes
  | .cOr _ _ => .yes
  | .cAnd _ _ => .yes
  | .cJ _ => .yes
  | .cBeqz _ _ => .yes
  | .cBnez _ _ => .yes
  | .cSlli _ _ => .yes
  | .cFldsp _ _ => .yes
  | .cLwsp _ _ => .yes
  | .cFlwsp _ _ => .yes
  | .cJr _ => .yes
  | .cMv _ _ => .yes
  | .cEbreak => .yes
  | .cJalr _ => .yes
  | .cAdd _ _ => .yes
  | .cFsdsp _ _ => .yes
  | .cSwsp _ _ => .yes
  | .cFswsp _ _ => .yes

/-- The instruction's length in bytes: 2 for `Yes`, 4 for `No` (10_state.md R25). -/
def IsCompressed.bytes : IsCompressed → Nat
  | .yes => 2
  | .no => 4

/-- The 32-bit instruction a compressed row stands for (46_compressed.md R266); a 32-bit row stands for itself. -/
def Instr.expand (i : Instr) : Instr :=
  match i with
  | .addi rd rs1 imm => .addi rd rs1 imm
  | .slti rd rs1 imm => .slti rd rs1 imm
  | .sltiu rd rs1 imm => .sltiu rd rs1 imm
  | .xori rd rs1 imm => .xori rd rs1 imm
  | .ori rd rs1 imm => .ori rd rs1 imm
  | .andi rd rs1 imm => .andi rd rs1 imm
  | .slli rd rs1 shamt => .slli rd rs1 shamt
  | .srli rd rs1 shamt => .srli rd rs1 shamt
  | .srai rd rs1 shamt => .srai rd rs1 shamt
  | .add rd rs1 rs2 => .add rd rs1 rs2
  | .sub rd rs1 rs2 => .sub rd rs1 rs2
  | .sll rd rs1 rs2 => .sll rd rs1 rs2
  | .slt rd rs1 rs2 => .slt rd rs1 rs2
  | .sltu rd rs1 rs2 => .sltu rd rs1 rs2
  | .xor rd rs1 rs2 => .xor rd rs1 rs2
  | .srl rd rs1 rs2 => .srl rd rs1 rs2
  | .sra rd rs1 rs2 => .sra rd rs1 rs2
  | .or rd rs1 rs2 => .or rd rs1 rs2
  | .and rd rs1 rs2 => .and rd rs1 rs2
  | .lb rd base offset => .lb rd base offset
  | .lh rd base offset => .lh rd base offset
  | .lw rd base offset => .lw rd base offset
  | .lbu rd base offset => .lbu rd base offset
  | .lhu rd base offset => .lhu rd base offset
  | .sb src base offset => .sb src base offset
  | .sh src base offset => .sh src base offset
  | .sw src base offset => .sw src base offset
  | .beq rs1 rs2 offset => .beq rs1 rs2 offset
  | .bne rs1 rs2 offset => .bne rs1 rs2 offset
  | .blt rs1 rs2 offset => .blt rs1 rs2 offset
  | .bge rs1 rs2 offset => .bge rs1 rs2 offset
  | .bltu rs1 rs2 offset => .bltu rs1 rs2 offset
  | .bgeu rs1 rs2 offset => .bgeu rs1 rs2 offset
  | .jal rd offset => .jal rd offset
  | .jalr rd base offset => .jalr rd base offset
  | .lui rd upper => .lui rd upper
  | .auipc rd upper => .auipc rd upper
  | .fence pred succ => .fence pred succ
  | .fenceTso => .fenceTso
  | .fenceI => .fenceI
  | .ecall => .ecall
  | .ebreak => .ebreak
  | .mul rd rs1 rs2 => .mul rd rs1 rs2
  | .mulh rd rs1 rs2 => .mulh rd rs1 rs2
  | .mulhsu rd rs1 rs2 => .mulhsu rd rs1 rs2
  | .mulhu rd rs1 rs2 => .mulhu rd rs1 rs2
  | .div rd rs1 rs2 => .div rd rs1 rs2
  | .divu rd rs1 rs2 => .divu rd rs1 rs2
  | .rem rd rs1 rs2 => .rem rd rs1 rs2
  | .remu rd rs1 rs2 => .remu rd rs1 rs2
  | .lrW aq rl rd addr => .lrW aq rl rd addr
  | .scW aq rl rd addr src => .scW aq rl rd addr src
  | .amoswapW aq rl rd addr src => .amoswapW aq rl rd addr src
  | .amoaddW aq rl rd addr src => .amoaddW aq rl rd addr src
  | .amoxorW aq rl rd addr src => .amoxorW aq rl rd addr src
  | .amoandW aq rl rd addr src => .amoandW aq rl rd addr src
  | .amoorW aq rl rd addr src => .amoorW aq rl rd addr src
  | .amominW aq rl rd addr src => .amominW aq rl rd addr src
  | .amomaxW aq rl rd addr src => .amomaxW aq rl rd addr src
  | .amominuW aq rl rd addr src => .amominuW aq rl rd addr src
  | .amomaxuW aq rl rd addr src => .amomaxuW aq rl rd addr src
  | .csrrw rd csr rs1 => .csrrw rd csr rs1
  | .csrrs rd csr rs1 => .csrrs rd csr rs1
  | .csrrc rd csr rs1 => .csrrc rd csr rs1
  | .csrrwi rd csr imm => .csrrwi rd csr imm
  | .csrrsi rd csr imm => .csrrsi rd csr imm
  | .csrrci rd csr imm => .csrrci rd csr imm
  | .pause => .pause
  | .flw rd base offset => .flw rd base offset
  | .fsw src base offset => .fsw src base offset
  | .fmaddS rm rd rs1 rs2 rs3 => .fmaddS rm rd rs1 rs2 rs3
  | .fmsubS rm rd rs1 rs2 rs3 => .fmsubS rm rd rs1 rs2 rs3
  | .fnmsubS rm rd rs1 rs2 rs3 => .fnmsubS rm rd rs1 rs2 rs3
  | .fnmaddS rm rd rs1 rs2 rs3 => .fnmaddS rm rd rs1 rs2 rs3
  | .faddS rm rd rs1 rs2 => .faddS rm rd rs1 rs2
  | .fsubS rm rd rs1 rs2 => .fsubS rm rd rs1 rs2
  | .fmulS rm rd rs1 rs2 => .fmulS rm rd rs1 rs2
  | .fdivS rm rd rs1 rs2 => .fdivS rm rd rs1 rs2
  | .fsqrtS rm rd rs1 => .fsqrtS rm rd rs1
  | .fsgnjS rd rs1 rs2 => .fsgnjS rd rs1 rs2
  | .fsgnjnS rd rs1 rs2 => .fsgnjnS rd rs1 rs2
  | .fsgnjxS rd rs1 rs2 => .fsgnjxS rd rs1 rs2
  | .fminS rd rs1 rs2 => .fminS rd rs1 rs2
  | .fmaxS rd rs1 rs2 => .fmaxS rd rs1 rs2
  | .feqS rd rs1 rs2 => .feqS rd rs1 rs2
  | .fltS rd rs1 rs2 => .fltS rd rs1 rs2
  | .fleS rd rs1 rs2 => .fleS rd rs1 rs2
  | .fclassS rd rs1 => .fclassS rd rs1
  | .fcvtWS rm rd rs1 => .fcvtWS rm rd rs1
  | .fcvtWuS rm rd rs1 => .fcvtWuS rm rd rs1
  | .fcvtSW rm rd rs1 => .fcvtSW rm rd rs1
  | .fcvtSWu rm rd rs1 => .fcvtSWu rm rd rs1
  | .fmvXW rd rs1 => .fmvXW rd rs1
  | .fmvWX rd rs1 => .fmvWX rd rs1
  | .fld rd base offset => .fld rd base offset
  | .fsd src base offset => .fsd src base offset
  | .fmaddD rm rd rs1 rs2 rs3 => .fmaddD rm rd rs1 rs2 rs3
  | .fmsubD rm rd rs1 rs2 rs3 => .fmsubD rm rd rs1 rs2 rs3
  | .fnmsubD rm rd rs1 rs2 rs3 => .fnmsubD rm rd rs1 rs2 rs3
  | .fnmaddD rm rd rs1 rs2 rs3 => .fnmaddD rm rd rs1 rs2 rs3
  | .faddD rm rd rs1 rs2 => .faddD rm rd rs1 rs2
  | .fsubD rm rd rs1 rs2 => .fsubD rm rd rs1 rs2
  | .fmulD rm rd rs1 rs2 => .fmulD rm rd rs1 rs2
  | .fdivD rm rd rs1 rs2 => .fdivD rm rd rs1 rs2
  | .fsqrtD rm rd rs1 => .fsqrtD rm rd rs1
  | .fsgnjD rd rs1 rs2 => .fsgnjD rd rs1 rs2
  | .fsgnjnD rd rs1 rs2 => .fsgnjnD rd rs1 rs2
  | .fsgnjxD rd rs1 rs2 => .fsgnjxD rd rs1 rs2
  | .fminD rd rs1 rs2 => .fminD rd rs1 rs2
  | .fmaxD rd rs1 rs2 => .fmaxD rd rs1 rs2
  | .fcvtSD rm rd rs1 => .fcvtSD rm rd rs1
  | .fcvtDS rd rs1 => .fcvtDS rd rs1
  | .feqD rd rs1 rs2 => .feqD rd rs1 rs2
  | .fltD rd rs1 rs2 => .fltD rd rs1 rs2
  | .fleD rd rs1 rs2 => .fleD rd rs1 rs2
  | .fclassD rd rs1 => .fclassD rd rs1
  | .fcvtWD rm rd rs1 => .fcvtWD rm rd rs1
  | .fcvtWuD rm rd rs1 => .fcvtWuD rm rd rs1
  | .fcvtDW rd rs1 => .fcvtDW rd rs1
  | .fcvtDWu rd rs1 => .fcvtDWu rd rs1
  | .cAddi4spn rd' nzuimm => .addi (CReg.toReg rd') 2 (nzuimm.setWidth 12)
  | .cFld rd' rs1' offset => .fld (CReg.toReg rd') (CReg.toReg rs1') (offset.setWidth 12)
  | .cLw rd' rs1' offset => .lw (CReg.toReg rd') (CReg.toReg rs1') (offset.setWidth 12)
  | .cFlw rd' rs1' offset => .flw (CReg.toReg rd') (CReg.toReg rs1') (offset.setWidth 12)
  | .cFsd rs2' rs1' offset => .fsd (CReg.toReg rs2') (CReg.toReg rs1') (offset.setWidth 12)
  | .cSw rs2' rs1' offset => .sw (CReg.toReg rs2') (CReg.toReg rs1') (offset.setWidth 12)
  | .cFsw rs2' rs1' offset => .fsw (CReg.toReg rs2') (CReg.toReg rs1') (offset.setWidth 12)
  | .cNop imm => .addi 0 0 (imm.signExtend 12)
  | .cAddi rd imm => .addi rd rd (imm.signExtend 12)
  | .cJal offset => .jal 1 (offset.signExtend 21)
  | .cLi rd imm => .addi rd 0 (imm.signExtend 12)
  | .cAddi16sp nzimm => .addi 2 2 (nzimm.signExtend 12)
  | .cLui rd upper => .lui rd (upper.signExtend 20)
  | .cSrli rd' shamt => .srli (CReg.toReg rd') (CReg.toReg rd') shamt
  | .cSrai rd' shamt => .srai (CReg.toReg rd') (CReg.toReg rd') shamt
  | .cAndi rd' imm => .andi (CReg.toReg rd') (CReg.toReg rd') (imm.signExtend 12)
  | .cSub rd' rs2' => .sub (CReg.toReg rd') (CReg.toReg rd') (CReg.toReg rs2')
  | .cXor rd' rs2' => .xor (CReg.toReg rd') (CReg.toReg rd') (CReg.toReg rs2')
  | .cOr rd' rs2' => .or (CReg.toReg rd') (CReg.toReg rd') (CReg.toReg rs2')
  | .cAnd rd' rs2' => .and (CReg.toReg rd') (CReg.toReg rd') (CReg.toReg rs2')
  | .cJ offset => .jal 0 (offset.signExtend 21)
  | .cBeqz rs1' offset => .beq (CReg.toReg rs1') 0 (offset.signExtend 13)
  | .cBnez rs1' offset => .bne (CReg.toReg rs1') 0 (offset.signExtend 13)
  | .cSlli rd shamt => .slli rd rd shamt
  | .cFldsp rd offset => .fld rd 2 (offset.setWidth 12)
  | .cLwsp rd offset => .lw rd 2 (offset.setWidth 12)
  | .cFlwsp rd offset => .flw rd 2 (offset.setWidth 12)
  | .cJr rs1 => .jalr 0 rs1 0
  | .cMv rd rs2 => .add rd 0 rs2
  | .cEbreak => .ebreak
  | .cJalr rs1 => .jalr 1 rs1 0
  | .cAdd rd rs2 => .add rd rd rs2
  | .cFsdsp rs2 offset => .fsd rs2 2 (offset.setWidth 12)
  | .cSwsp rs2 offset => .sw rs2 2 (offset.setWidth 12)
  | .cFswsp rs2 offset => .fsw rs2 2 (offset.setWidth 12)

/-- The `Imm` of kind Signed whose pattern is the sign extension of `v` to 32 bits (10_state.md R32, R33). -/
def immS {n : Nat} (v : BitVec n) : Imm := { value := v.signExtend 32, kind := .signed }

/-- The `Imm` of kind Unsigned with the upper bits `v` and twelve zero bits below (30_encoding.md R72, 10_state.md R33). -/
def immU (v : BitVec 20) : Imm := { value := v ++ 0#12, kind := .unsigned }

/-- The number an `Imm` reads as (10_state.md R32). -/
def Imm.toInt (i : Imm) : Int :=
  match i.kind with
  | .signed => i.value.toInt
  | .unsigned => i.value.toNat

/-- The 64-bit view of an `Imm`: by its kind (10_state.md R32). It does not say how a consumer extends a `uimm` (R33). -/
def Imm.view64 (i : Imm) : BitVec 64 :=
  match i.kind with
  | .signed => i.value.signExtend 64
  | .unsigned => i.value.setWidth 64

/-- The `Imm` of kind Signed whose pattern is the zero extension of `v`: a compressed offset or C.ADDI4SPN's immediate, which
the ISA zero-extends (30_encoding.md R96 to R102, 10_state.md R33). -/
def immZ {n : Nat} (v : BitVec n) : Imm := { value := v.setWidth 32, kind := .signed }

/-- C.LUI's `Imm`: the sign extension of `v` and twelve zero bits, of kind Unsigned (30_encoding.md R95). -/
def immHi (v : BitVec 6) : Imm := { value := (v ++ 0#12).signExtend 32, kind := .unsigned }

/-- The record of a row (the Decode lines of 40 to 46). -/
def Instr.record (i : Instr) : Record :=
  match i with
  | .addi rd rs1 imm => .addi rd rs1 (immS imm)
  | .slti rd rs1 imm => .slti rd rs1 (immS imm)
  | .sltiu rd rs1 imm => .sltiu rd rs1 (immS imm)
  | .xori rd rs1 imm => .xori rd rs1 (immS imm)
  | .ori rd rs1 imm => .ori rd rs1 (immS imm)
  | .andi rd rs1 imm => .andi rd rs1 (immS imm)
  | .slli rd rs1 shamt => .slli rd rs1 shamt
  | .srli rd rs1 shamt => .srli rd rs1 shamt
  | .srai rd rs1 shamt => .srai rd rs1 shamt
  | .add rd rs1 rs2 => .add rd rs1 rs2
  | .sub rd rs1 rs2 => .sub rd rs1 rs2
  | .sll rd rs1 rs2 => .sll rd rs1 rs2
  | .slt rd rs1 rs2 => .slt rd rs1 rs2
  | .sltu rd rs1 rs2 => .sltu rd rs1 rs2
  | .xor rd rs1 rs2 => .xor rd rs1 rs2
  | .srl rd rs1 rs2 => .srl rd rs1 rs2
  | .sra rd rs1 rs2 => .sra rd rs1 rs2
  | .or rd rs1 rs2 => .or rd rs1 rs2
  | .and rd rs1 rs2 => .and rd rs1 rs2
  | .lb rd base offset => .lb rd base (immS offset)
  | .lh rd base offset => .lh rd base (immS offset)
  | .lw rd base offset => .lw rd base (immS offset)
  | .lbu rd base offset => .lbu rd base (immS offset)
  | .lhu rd base offset => .lhu rd base (immS offset)
  | .sb src base offset => .sb src base (immS offset)
  | .sh src base offset => .sh src base (immS offset)
  | .sw src base offset => .sw src base (immS offset)
  | .beq rs1 rs2 offset => .beq rs1 rs2 (immS offset)
  | .bne rs1 rs2 offset => .bne rs1 rs2 (immS offset)
  | .blt rs1 rs2 offset => .blt rs1 rs2 (immS offset)
  | .bge rs1 rs2 offset => .bge rs1 rs2 (immS offset)
  | .bltu rs1 rs2 offset => .bltu rs1 rs2 (immS offset)
  | .bgeu rs1 rs2 offset => .bgeu rs1 rs2 (immS offset)
  | .jal rd offset => .jal rd (immS offset)
  | .jalr rd base offset => .jalr rd base (immS offset)
  | .lui rd upper => .lui rd (immU upper)
  | .auipc rd upper => .auipc rd (immU upper)
  | .fence pred succ => .fence pred succ
  | .fenceTso => .fenceTso
  | .fenceI => .fenceI
  | .ecall => .ecall
  | .ebreak => .ebreak
  | .mul rd rs1 rs2 => .mul rd rs1 rs2
  | .mulh rd rs1 rs2 => .mulh rd rs1 rs2
  | .mulhsu rd rs1 rs2 => .mulhsu rd rs1 rs2
  | .mulhu rd rs1 rs2 => .mulhu rd rs1 rs2
  | .div rd rs1 rs2 => .div rd rs1 rs2
  | .divu rd rs1 rs2 => .divu rd rs1 rs2
  | .rem rd rs1 rs2 => .rem rd rs1 rs2
  | .remu rd rs1 rs2 => .remu rd rs1 rs2
  | .lrW aq rl rd addr => .lrW aq rl rd addr
  | .scW aq rl rd addr src => .scW aq rl rd addr src
  | .amoswapW aq rl rd addr src => .amoswapW aq rl rd addr src
  | .amoaddW aq rl rd addr src => .amoaddW aq rl rd addr src
  | .amoxorW aq rl rd addr src => .amoxorW aq rl rd addr src
  | .amoandW aq rl rd addr src => .amoandW aq rl rd addr src
  | .amoorW aq rl rd addr src => .amoorW aq rl rd addr src
  | .amominW aq rl rd addr src => .amominW aq rl rd addr src
  | .amomaxW aq rl rd addr src => .amomaxW aq rl rd addr src
  | .amominuW aq rl rd addr src => .amominuW aq rl rd addr src
  | .amomaxuW aq rl rd addr src => .amomaxuW aq rl rd addr src
  | .csrrw rd csr rs1 => .csrrw rd csr rs1
  | .csrrs rd csr rs1 => .csrrs rd csr rs1
  | .csrrc rd csr rs1 => .csrrc rd csr rs1
  | .csrrwi rd csr imm => .csrrwi rd csr imm
  | .csrrsi rd csr imm => .csrrsi rd csr imm
  | .csrrci rd csr imm => .csrrci rd csr imm
  | .pause => .pause
  | .flw rd base offset => .fload .s rd base (immS offset)
  | .fsw src base offset => .fstore .s src base (immS offset)
  | .fmaddS rm rd rs1 rs2 rs3 => .fmadd .s rm rd rs1 rs2 rs3
  | .fmsubS rm rd rs1 rs2 rs3 => .fmsub .s rm rd rs1 rs2 rs3
  | .fnmsubS rm rd rs1 rs2 rs3 => .fnmsub .s rm rd rs1 rs2 rs3
  | .fnmaddS rm rd rs1 rs2 rs3 => .fnmadd .s rm rd rs1 rs2 rs3
  | .faddS rm rd rs1 rs2 => .fadd .s rm rd rs1 rs2
  | .fsubS rm rd rs1 rs2 => .fsub .s rm rd rs1 rs2
  | .fmulS rm rd rs1 rs2 => .fmul .s rm rd rs1 rs2
  | .fdivS rm rd rs1 rs2 => .fdiv .s rm rd rs1 rs2
  | .fsqrtS rm rd rs1 => .fsqrt .s rm rd rs1
  | .fsgnjS rd rs1 rs2 => .fsgnj .s rd rs1 rs2
  | .fsgnjnS rd rs1 rs2 => .fsgnjn .s rd rs1 rs2
  | .fsgnjxS rd rs1 rs2 => .fsgnjx .s rd rs1 rs2
  | .fminS rd rs1 rs2 => .fmin .s rd rs1 rs2
  | .fmaxS rd rs1 rs2 => .fmax .s rd rs1 rs2
  | .feqS rd rs1 rs2 => .feq .s rd rs1 rs2
  | .fltS rd rs1 rs2 => .flt .s rd rs1 rs2
  | .fleS rd rs1 rs2 => .fle .s rd rs1 rs2
  | .fclassS rd rs1 => .fclass .s rd rs1
  | .fcvtWS rm rd rs1 => .fcvtW .s rm rd rs1
  | .fcvtWuS rm rd rs1 => .fcvtWu .s rm rd rs1
  | .fcvtSW rm rd rs1 => .fcvtFW .s rm rd rs1
  | .fcvtSWu rm rd rs1 => .fcvtFWu .s rm rd rs1
  | .fmvXW rd rs1 => .fmvXW rd rs1
  | .fmvWX rd rs1 => .fmvWX rd rs1
  | .fld rd base offset => .fload .d rd base (immS offset)
  | .fsd src base offset => .fstore .d src base (immS offset)
  | .fmaddD rm rd rs1 rs2 rs3 => .fmadd .d rm rd rs1 rs2 rs3
  | .fmsubD rm rd rs1 rs2 rs3 => .fmsub .d rm rd rs1 rs2 rs3
  | .fnmsubD rm rd rs1 rs2 rs3 => .fnmsub .d rm rd rs1 rs2 rs3
  | .fnmaddD rm rd rs1 rs2 rs3 => .fnmadd .d rm rd rs1 rs2 rs3
  | .faddD rm rd rs1 rs2 => .fadd .d rm rd rs1 rs2
  | .fsubD rm rd rs1 rs2 => .fsub .d rm rd rs1 rs2
  | .fmulD rm rd rs1 rs2 => .fmul .d rm rd rs1 rs2
  | .fdivD rm rd rs1 rs2 => .fdiv .d rm rd rs1 rs2
  | .fsqrtD rm rd rs1 => .fsqrt .d rm rd rs1
  | .fsgnjD rd rs1 rs2 => .fsgnj .d rd rs1 rs2
  | .fsgnjnD rd rs1 rs2 => .fsgnjn .d rd rs1 rs2
  | .fsgnjxD rd rs1 rs2 => .fsgnjx .d rd rs1 rs2
  | .fminD rd rs1 rs2 => .fmin .d rd rs1 rs2
  | .fmaxD rd rs1 rs2 => .fmax .d rd rs1 rs2
  | .fcvtSD rm rd rs1 => .fcvtSD rm rd rs1
  | .fcvtDS rd rs1 => .fcvtDS rd rs1
  | .feqD rd rs1 rs2 => .feq .d rd rs1 rs2
  | .fltD rd rs1 rs2 => .flt .d rd rs1 rs2
  | .fleD rd rs1 rs2 => .fle .d rd rs1 rs2
  | .fclassD rd rs1 => .fclass .d rd rs1
  | .fcvtWD rm rd rs1 => .fcvtW .d rm rd rs1
  | .fcvtWuD rm rd rs1 => .fcvtWu .d rm rd rs1
  | .fcvtDW rd rs1 => .fcvtFW .d .rne rd rs1
  | .fcvtDWu rd rs1 => .fcvtFWu .d .rne rd rs1
  | .cAddi4spn rd' nzuimm => .addi (CReg.toReg rd') 2 (immZ nzuimm)
  | .cFld rd' rs1' offset => .fload .d (CReg.toReg rd') (CReg.toReg rs1') (immZ offset)
  | .cLw rd' rs1' offset => .lw (CReg.toReg rd') (CReg.toReg rs1') (immZ offset)
  | .cFlw rd' rs1' offset => .fload .s (CReg.toReg rd') (CReg.toReg rs1') (immZ offset)
  | .cFsd rs2' rs1' offset => .fstore .d (CReg.toReg rs2') (CReg.toReg rs1') (immZ offset)
  | .cSw rs2' rs1' offset => .sw (CReg.toReg rs2') (CReg.toReg rs1') (immZ offset)
  | .cFsw rs2' rs1' offset => .fstore .s (CReg.toReg rs2') (CReg.toReg rs1') (immZ offset)
  | .cNop imm => .addi 0 0 (immS imm)
  | .cAddi rd imm => .addi rd rd (immS imm)
  | .cJal offset => .jal 1 (immS offset)
  | .cLi rd imm => .addi rd 0 (immS imm)
  | .cAddi16sp nzimm => .addi 2 2 (immS nzimm)
  | .cLui rd upper => .lui rd (immHi upper)
  | .cSrli rd' shamt => .srli (CReg.toReg rd') (CReg.toReg rd') shamt
  | .cSrai rd' shamt => .srai (CReg.toReg rd') (CReg.toReg rd') shamt
  | .cAndi rd' imm => .andi (CReg.toReg rd') (CReg.toReg rd') (immS imm)
  | .cSub rd' rs2' => .sub (CReg.toReg rd') (CReg.toReg rd') (CReg.toReg rs2')
  | .cXor rd' rs2' => .xor (CReg.toReg rd') (CReg.toReg rd') (CReg.toReg rs2')
  | .cOr rd' rs2' => .or (CReg.toReg rd') (CReg.toReg rd') (CReg.toReg rs2')
  | .cAnd rd' rs2' => .and (CReg.toReg rd') (CReg.toReg rd') (CReg.toReg rs2')
  | .cJ offset => .jal 0 (immS offset)
  | .cBeqz rs1' offset => .beq (CReg.toReg rs1') 0 (immS offset)
  | .cBnez rs1' offset => .bne (CReg.toReg rs1') 0 (immS offset)
  | .cSlli rd shamt => .slli rd rd shamt
  | .cFldsp rd offset => .fload .d rd 2 (immZ offset)
  | .cLwsp rd offset => .lw rd 2 (immZ offset)
  | .cFlwsp rd offset => .fload .s rd 2 (immZ offset)
  | .cJr rs1 => .jalr 0 rs1 (immS 0#12)
  | .cMv rd rs2 => .add rd 0 rs2
  | .cEbreak => .ebreak
  | .cJalr rs1 => .jalr 1 rs1 (immS 0#12)
  | .cAdd rd rs2 => .add rd rd rs2
  | .cFsdsp rs2 offset => .fstore .d rs2 2 (immZ offset)
  | .cSwsp rs2 offset => .sw rs2 2 (immZ offset)
  | .cFswsp rs2 offset => .fstore .s rs2 2 (immZ offset)

/-- `decode(word, xlen)` (10_state.md R22). -/
def decode (w : Word) (x : Xlen) : DecodeResult :=
  match decodeInstr w x with
  | some i => .ok i.record i.compressed
  | none => .decodeError

/-- The value of the one-bit hardware port `xlen`: 0 is `Rv32` and 1 is `Rv64` (10_state.md R21). -/
def Xlen.ofPort (b : BitVec 1) : Xlen := if b = 0#1 then .rv32 else .rv64

/-- The bit on the port `xlen` for a value (10_state.md R21). -/
def Xlen.port : Xlen → BitVec 1
  | .rv32 => 0#1
  | .rv64 => 1#1

/-- `decode` as the hardware has it, with the one-bit port `xlen` (10_state.md R21). -/
def decodePort (w : Word) (xlen : BitVec 1) : DecodeResult := decode w (.ofPort xlen)

/-- The word the caller forms from bytes at rising addresses, little-endian; a missing byte is zero (20_memory.md R51, R52). -/
def wordOfBytes : List Byte → Word
  | b0 :: b1 :: b2 :: b3 :: _ => b3 ++ b2 ++ b1 ++ b0
  | [b0, b1, b2] => 0#8 ++ b2 ++ b1 ++ b0
  | [b0, b1] => 0#16 ++ b1 ++ b0
  | [b0] => 0#24 ++ b0
  | [] => 0#32

/-- The decode walk over a buffer (20_memory.md R52, 95_test_vectors.md L3): it advances by the length of each record and ends
at the end of the buffer or at the first error. The fuel bounds the number of records. -/
def decodeWalk (x : Xlen) : Nat → List Byte → List DecodeResult
  | 0, _ => []
  | _, [] => []
  | fuel + 1, bytes =>
    match decode (wordOfBytes bytes) x with
    | .decodeError => [.decodeError]
    | .ok r c => .ok r c :: decodeWalk x fuel (bytes.drop c.bytes)

/-- The instruction the decoder reads from an instruction whose bits are `w`, numbered as opcode_table.json numbers them; the
bits above `nbits` are zero. -/
def decodeTableWord (nbits w : Nat) : Option Instr := decodeInstr (BitVec.ofNat 32 (w % 2 ^ nbits)) .rv32

/-! ### The encoder -/

/-- Format R (30_encoding.md R62); R4 and AMO words put `rs3` with `fmt`, and `funct5` with `aq` and `rl`, in `f7` (R63, R76). -/
def rWord (f7 : BitVec 7) (rs2 rs1 : Reg) (f3 : BitVec 3) (rd : Reg) (op : BitVec 7) : Word :=
  f7 ++ rs2 ++ rs1 ++ f3 ++ rd ++ op

/-- Format I, also the CSR form (30_encoding.md R64, R75). -/
def iWord (imm : BitVec 12) (rs1 : Reg) (f3 : BitVec 3) (rd : Reg) (op : BitVec 7) : Word := imm ++ rs1 ++ f3 ++ rd ++ op

/-- Format S (30_encoding.md R65). -/
def sWord (imm : BitVec 12) (rs2 rs1 : Reg) (f3 : BitVec 3) (op : BitVec 7) : Word :=
  imm.extractLsb' 5 7 ++ rs2 ++ rs1 ++ f3 ++ imm.extractLsb' 0 5 ++ op

/-- Format B (30_encoding.md R66). -/
def bWord (imm : BitVec 13) (rs2 rs1 : Reg) (f3 : BitVec 3) (op : BitVec 7) : Word :=
  imm.extractLsb' 12 1 ++ imm.extractLsb' 5 6 ++ rs2 ++ rs1 ++ f3 ++ imm.extractLsb' 1 4 ++ imm.extractLsb' 11 1 ++ op

/-- Format U (30_encoding.md R67). -/
def uWord (imm : BitVec 20) (rd : Reg) (op : BitVec 7) : Word := imm ++ rd ++ op

/-- Format J (30_encoding.md R68). -/
def jWord (imm : BitVec 21) (rd : Reg) (op : BitVec 7) : Word :=
  imm.extractLsb' 20 1 ++ imm.extractLsb' 1 10 ++ imm.extractLsb' 11 1 ++ imm.extractLsb' 12 8 ++ rd ++ op

/-- The FENCE form (30_encoding.md R77). -/
def fenceWord (fm : BitVec 4) (pred succ : FenceSet) (rs1 : Reg) (f3 : BitVec 3) (rd : Reg) (op : BitVec 7) : Word :=
  fm ++ pred ++ succ ++ rs1 ++ f3 ++ rd ++ op

/-- The word of a parcel; its upper half is ignored, and the encoder writes zeros there (46_compressed.md R265). -/
def parcelWord (h : Parcel) : Word := 0#16 ++ h

/-- Format CR (30_encoding.md R83). -/
def crWord (f4 : BitVec 4) (rd rs2 : Reg) (op : BitVec 2) : Word := parcelWord (f4 ++ rd ++ rs2 ++ op)

/-- Format CI, with the immediate bits in the places `h[12]` and `h[6:2]` (30_encoding.md R84). -/
def ciWord (f3 : BitVec 3) (i12 : BitVec 1) (rd : Reg) (i6 : BitVec 5) (op : BitVec 2) : Word :=
  parcelWord (f3 ++ i12 ++ rd ++ i6 ++ op)

/-- Format CSS (30_encoding.md R85). -/
def cssWord (f3 : BitVec 3) (i12 : BitVec 6) (rs2 : Reg) (op : BitVec 2) : Word := parcelWord (f3 ++ i12 ++ rs2 ++ op)

/-- Format CIW (30_encoding.md R86). -/
def ciwWord (f3 : BitVec 3) (i12 : BitVec 8) (rd : CReg) (op : BitVec 2) : Word := parcelWord (f3 ++ i12 ++ rd ++ op)

/-- Formats CL and CS (30_encoding.md R87, R88). -/
def clWord (f3 : BitVec 3) (i12 : BitVec 3) (rs1 : CReg) (i6 : BitVec 2) (r : CReg) (op : BitVec 2) : Word :=
  parcelWord (f3 ++ i12 ++ rs1 ++ i6 ++ r ++ op)

/-- Format CA (30_encoding.md R89). -/
def caWord (f6 : BitVec 6) (rd : CReg) (f2 : BitVec 2) (rs2 : CReg) (op : BitVec 2) : Word :=
  parcelWord (f6 ++ rd ++ f2 ++ rs2 ++ op)

/-- Format CB, branches (30_encoding.md R90). -/
def cbWord (f3 : BitVec 3) (o12 : BitVec 3) (rs1 : CReg) (o6 : BitVec 5) (op : BitVec 2) : Word :=
  parcelWord (f3 ++ o12 ++ rs1 ++ o6 ++ op)

/-- Format CB, shifts and C.ANDI (30_encoding.md R90). -/
def cbAluWord (f3 : BitVec 3) (i12 : BitVec 1) (f2 : BitVec 2) (rd : CReg) (i6 : BitVec 5) (op : BitVec 2) : Word :=
  parcelWord (f3 ++ i12 ++ f2 ++ rd ++ i6 ++ op)

/-- Format CJ (30_encoding.md R91). -/
def cjWord (f3 : BitVec 3) (target : BitVec 11) (op : BitVec 2) : Word := parcelWord (f3 ++ target ++ op)

/-- The target bits of a CJ parcel: the scatter of 30_encoding.md R103. -/
def cjTarget (o : BitVec 12) : BitVec 11 :=
  o.extractLsb' 11 1 ++ o.extractLsb' 4 1 ++ o.extractLsb' 8 2 ++ o.extractLsb' 10 1 ++ o.extractLsb' 6 1 ++
    o.extractLsb' 7 1 ++ o.extractLsb' 1 3 ++ o.extractLsb' 5 1

/-- `h[12:10]` of a CB branch (30_encoding.md R104). -/
def cbHigh (o : BitVec 9) : BitVec 3 := o.extractLsb' 8 1 ++ o.extractLsb' 3 2

/-- `h[6:2]` of a CB branch (30_encoding.md R104). -/
def cbLow (o : BitVec 9) : BitVec 5 := o.extractLsb' 6 2 ++ o.extractLsb' 1 2 ++ o.extractLsb' 5 1

/-- `h[6:5]` of a CL or CS word access (30_encoding.md R97). -/
def clLowW (o : BitVec 7) : BitVec 2 := o.extractLsb' 2 1 ++ o.extractLsb' 6 1

/-- `h[6:2]` of C.LWSP and C.FLWSP (30_encoding.md R99). -/
def lwspLow (o : BitVec 8) : BitVec 5 := o.extractLsb' 2 3 ++ o.extractLsb' 6 2

/-- `h[6:2]` of C.FLDSP (30_encoding.md R100). -/
def fldspLow (o : BitVec 9) : BitVec 5 := o.extractLsb' 3 2 ++ o.extractLsb' 6 3

/-- `h[12:7]` of C.SWSP and C.FSWSP (30_encoding.md R101). -/
def swspHigh (o : BitVec 8) : BitVec 6 := o.extractLsb' 2 4 ++ o.extractLsb' 6 2

/-- `h[12:7]` of C.FSDSP (30_encoding.md R102). -/
def fsdspHigh (o : BitVec 9) : BitVec 6 := o.extractLsb' 3 3 ++ o.extractLsb' 6 3

/-- `h[6:2]` of C.ADDI16SP (30_encoding.md R94). -/
def sp16Low (n : BitVec 10) : BitVec 5 := n.extractLsb' 4 1 ++ n.extractLsb' 6 1 ++ n.extractLsb' 7 2 ++ n.extractLsb' 5 1

/-- `h[12:5]` of C.ADDI4SPN (30_encoding.md R96). -/
def spnHigh (n : BitVec 10) : BitVec 8 := n.extractLsb' 4 2 ++ n.extractLsb' 6 4 ++ n.extractLsb' 2 1 ++ n.extractLsb' 3 1

/-- The word of an instruction: a parcel stands in the low half. It is the word of a row where `i.wf`. -/
def encode (i : Instr) : Word :=
  match i with
  | .addi rd rs1 imm => iWord imm rs1 0b000 rd 0b0010011
  | .slti rd rs1 imm => iWord imm rs1 0b010 rd 0b0010011
  | .sltiu rd rs1 imm => iWord imm rs1 0b011 rd 0b0010011
  | .xori rd rs1 imm => iWord imm rs1 0b100 rd 0b0010011
  | .ori rd rs1 imm => iWord imm rs1 0b110 rd 0b0010011
  | .andi rd rs1 imm => iWord imm rs1 0b111 rd 0b0010011
  | .slli rd rs1 shamt => rWord 0b0000000 shamt rs1 0b001 rd 0b0010011
  | .srli rd rs1 shamt => rWord 0b0000000 shamt rs1 0b101 rd 0b0010011
  | .srai rd rs1 shamt => rWord 0b0100000 shamt rs1 0b101 rd 0b0010011
  | .add rd rs1 rs2 => rWord 0b0000000 rs2 rs1 0b000 rd 0b0110011
  | .sub rd rs1 rs2 => rWord 0b0100000 rs2 rs1 0b000 rd 0b0110011
  | .sll rd rs1 rs2 => rWord 0b0000000 rs2 rs1 0b001 rd 0b0110011
  | .slt rd rs1 rs2 => rWord 0b0000000 rs2 rs1 0b010 rd 0b0110011
  | .sltu rd rs1 rs2 => rWord 0b0000000 rs2 rs1 0b011 rd 0b0110011
  | .xor rd rs1 rs2 => rWord 0b0000000 rs2 rs1 0b100 rd 0b0110011
  | .srl rd rs1 rs2 => rWord 0b0000000 rs2 rs1 0b101 rd 0b0110011
  | .sra rd rs1 rs2 => rWord 0b0100000 rs2 rs1 0b101 rd 0b0110011
  | .or rd rs1 rs2 => rWord 0b0000000 rs2 rs1 0b110 rd 0b0110011
  | .and rd rs1 rs2 => rWord 0b0000000 rs2 rs1 0b111 rd 0b0110011
  | .lb rd base offset => iWord offset base 0b000 rd 0b0000011
  | .lh rd base offset => iWord offset base 0b001 rd 0b0000011
  | .lw rd base offset => iWord offset base 0b010 rd 0b0000011
  | .lbu rd base offset => iWord offset base 0b100 rd 0b0000011
  | .lhu rd base offset => iWord offset base 0b101 rd 0b0000011
  | .sb src base offset => sWord offset src base 0b000 0b0100011
  | .sh src base offset => sWord offset src base 0b001 0b0100011
  | .sw src base offset => sWord offset src base 0b010 0b0100011
  | .beq rs1 rs2 offset => bWord offset rs2 rs1 0b000 0b1100011
  | .bne rs1 rs2 offset => bWord offset rs2 rs1 0b001 0b1100011
  | .blt rs1 rs2 offset => bWord offset rs2 rs1 0b100 0b1100011
  | .bge rs1 rs2 offset => bWord offset rs2 rs1 0b101 0b1100011
  | .bltu rs1 rs2 offset => bWord offset rs2 rs1 0b110 0b1100011
  | .bgeu rs1 rs2 offset => bWord offset rs2 rs1 0b111 0b1100011
  | .jal rd offset => jWord offset rd 0b1101111
  | .jalr rd base offset => iWord offset base 0b000 rd 0b1100111
  | .lui rd upper => uWord upper rd 0b0110111
  | .auipc rd upper => uWord upper rd 0b0010111
  | .fence pred succ => fenceWord 0b0000 pred succ 0 0b000 0 0b0001111
  | .fenceTso => fenceWord 0b1000 0b0011 0b0011 0 0b000 0 0b0001111
  | .fenceI => fenceWord 0b0000 0b0000 0b0000 0 0b001 0 0b0001111
  | .ecall => iWord 0b000000000000 0 0b000 0 0b1110011
  | .ebreak => iWord 0b000000000001 0 0b000 0 0b1110011
  | .mul rd rs1 rs2 => rWord 0b0000001 rs2 rs1 0b000 rd 0b0110011
  | .mulh rd rs1 rs2 => rWord 0b0000001 rs2 rs1 0b001 rd 0b0110011
  | .mulhsu rd rs1 rs2 => rWord 0b0000001 rs2 rs1 0b010 rd 0b0110011
  | .mulhu rd rs1 rs2 => rWord 0b0000001 rs2 rs1 0b011 rd 0b0110011
  | .div rd rs1 rs2 => rWord 0b0000001 rs2 rs1 0b100 rd 0b0110011
  | .divu rd rs1 rs2 => rWord 0b0000001 rs2 rs1 0b101 rd 0b0110011
  | .rem rd rs1 rs2 => rWord 0b0000001 rs2 rs1 0b110 rd 0b0110011
  | .remu rd rs1 rs2 => rWord 0b0000001 rs2 rs1 0b111 rd 0b0110011
  | .lrW aq rl rd addr => rWord (0b00010#5 ++ aq ++ rl) 0 addr 0b010 rd 0b0101111
  | .scW aq rl rd addr src => rWord (0b00011#5 ++ aq ++ rl) src addr 0b010 rd 0b0101111
  | .amoswapW aq rl rd addr src => rWord (0b00001#5 ++ aq ++ rl) src addr 0b010 rd 0b0101111
  | .amoaddW aq rl rd addr src => rWord (0b00000#5 ++ aq ++ rl) src addr 0b010 rd 0b0101111
  | .amoxorW aq rl rd addr src => rWord (0b00100#5 ++ aq ++ rl) src addr 0b010 rd 0b0101111
  | .amoandW aq rl rd addr src => rWord (0b01100#5 ++ aq ++ rl) src addr 0b010 rd 0b0101111
  | .amoorW aq rl rd addr src => rWord (0b01000#5 ++ aq ++ rl) src addr 0b010 rd 0b0101111
  | .amominW aq rl rd addr src => rWord (0b10000#5 ++ aq ++ rl) src addr 0b010 rd 0b0101111
  | .amomaxW aq rl rd addr src => rWord (0b10100#5 ++ aq ++ rl) src addr 0b010 rd 0b0101111
  | .amominuW aq rl rd addr src => rWord (0b11000#5 ++ aq ++ rl) src addr 0b010 rd 0b0101111
  | .amomaxuW aq rl rd addr src => rWord (0b11100#5 ++ aq ++ rl) src addr 0b010 rd 0b0101111
  | .csrrw rd csr rs1 => iWord csr rs1 0b001 rd 0b1110011
  | .csrrs rd csr rs1 => iWord csr rs1 0b010 rd 0b1110011
  | .csrrc rd csr rs1 => iWord csr rs1 0b011 rd 0b1110011
  | .csrrwi rd csr imm => iWord csr imm 0b101 rd 0b1110011
  | .csrrsi rd csr imm => iWord csr imm 0b110 rd 0b1110011
  | .csrrci rd csr imm => iWord csr imm 0b111 rd 0b1110011
  | .pause => fenceWord 0b0000 0b0001 0b0000 0 0b000 0 0b0001111
  | .flw rd base offset => iWord offset base 0b010 rd 0b0000111
  | .fsw src base offset => sWord offset src base 0b010 0b0100111
  | .fmaddS rm rd rs1 rs2 rs3 => rWord (rs3 ++ 0b00#2) rs2 rs1 rm.code rd 0b1000011
  | .fmsubS rm rd rs1 rs2 rs3 => rWord (rs3 ++ 0b00#2) rs2 rs1 rm.code rd 0b1000111
  | .fnmsubS rm rd rs1 rs2 rs3 => rWord (rs3 ++ 0b00#2) rs2 rs1 rm.code rd 0b1001011
  | .fnmaddS rm rd rs1 rs2 rs3 => rWord (rs3 ++ 0b00#2) rs2 rs1 rm.code rd 0b1001111
  | .faddS rm rd rs1 rs2 => rWord 0b0000000 rs2 rs1 rm.code rd 0b1010011
  | .fsubS rm rd rs1 rs2 => rWord 0b0000100 rs2 rs1 rm.code rd 0b1010011
  | .fmulS rm rd rs1 rs2 => rWord 0b0001000 rs2 rs1 rm.code rd 0b1010011
  | .fdivS rm rd rs1 rs2 => rWord 0b0001100 rs2 rs1 rm.code rd 0b1010011
  | .fsqrtS rm rd rs1 => rWord 0b0101100 0b00000 rs1 rm.code rd 0b1010011
  | .fsgnjS rd rs1 rs2 => rWord 0b0010000 rs2 rs1 0b000 rd 0b1010011
  | .fsgnjnS rd rs1 rs2 => rWord 0b0010000 rs2 rs1 0b001 rd 0b1010011
  | .fsgnjxS rd rs1 rs2 => rWord 0b0010000 rs2 rs1 0b010 rd 0b1010011
  | .fminS rd rs1 rs2 => rWord 0b0010100 rs2 rs1 0b000 rd 0b1010011
  | .fmaxS rd rs1 rs2 => rWord 0b0010100 rs2 rs1 0b001 rd 0b1010011
  | .feqS rd rs1 rs2 => rWord 0b1010000 rs2 rs1 0b010 rd 0b1010011
  | .fltS rd rs1 rs2 => rWord 0b1010000 rs2 rs1 0b001 rd 0b1010011
  | .fleS rd rs1 rs2 => rWord 0b1010000 rs2 rs1 0b000 rd 0b1010011
  | .fclassS rd rs1 => rWord 0b1110000 0b00000 rs1 0b001 rd 0b1010011
  | .fcvtWS rm rd rs1 => rWord 0b1100000 0b00000 rs1 rm.code rd 0b1010011
  | .fcvtWuS rm rd rs1 => rWord 0b1100000 0b00001 rs1 rm.code rd 0b1010011
  | .fcvtSW rm rd rs1 => rWord 0b1101000 0b00000 rs1 rm.code rd 0b1010011
  | .fcvtSWu rm rd rs1 => rWord 0b1101000 0b00001 rs1 rm.code rd 0b1010011
  | .fmvXW rd rs1 => rWord 0b1110000 0b00000 rs1 0b000 rd 0b1010011
  | .fmvWX rd rs1 => rWord 0b1111000 0b00000 rs1 0b000 rd 0b1010011
  | .fld rd base offset => iWord offset base 0b011 rd 0b0000111
  | .fsd src base offset => sWord offset src base 0b011 0b0100111
  | .fmaddD rm rd rs1 rs2 rs3 => rWord (rs3 ++ 0b01#2) rs2 rs1 rm.code rd 0b1000011
  | .fmsubD rm rd rs1 rs2 rs3 => rWord (rs3 ++ 0b01#2) rs2 rs1 rm.code rd 0b1000111
  | .fnmsubD rm rd rs1 rs2 rs3 => rWord (rs3 ++ 0b01#2) rs2 rs1 rm.code rd 0b1001011
  | .fnmaddD rm rd rs1 rs2 rs3 => rWord (rs3 ++ 0b01#2) rs2 rs1 rm.code rd 0b1001111
  | .faddD rm rd rs1 rs2 => rWord 0b0000001 rs2 rs1 rm.code rd 0b1010011
  | .fsubD rm rd rs1 rs2 => rWord 0b0000101 rs2 rs1 rm.code rd 0b1010011
  | .fmulD rm rd rs1 rs2 => rWord 0b0001001 rs2 rs1 rm.code rd 0b1010011
  | .fdivD rm rd rs1 rs2 => rWord 0b0001101 rs2 rs1 rm.code rd 0b1010011
  | .fsqrtD rm rd rs1 => rWord 0b0101101 0b00000 rs1 rm.code rd 0b1010011
  | .fsgnjD rd rs1 rs2 => rWord 0b0010001 rs2 rs1 0b000 rd 0b1010011
  | .fsgnjnD rd rs1 rs2 => rWord 0b0010001 rs2 rs1 0b001 rd 0b1010011
  | .fsgnjxD rd rs1 rs2 => rWord 0b0010001 rs2 rs1 0b010 rd 0b1010011
  | .fminD rd rs1 rs2 => rWord 0b0010101 rs2 rs1 0b000 rd 0b1010011
  | .fmaxD rd rs1 rs2 => rWord 0b0010101 rs2 rs1 0b001 rd 0b1010011
  | .fcvtSD rm rd rs1 => rWord 0b0100000 0b00001 rs1 rm.code rd 0b1010011
  | .fcvtDS rd rs1 => rWord 0b0100001 0b00000 rs1 0b000 rd 0b1010011
  | .feqD rd rs1 rs2 => rWord 0b1010001 rs2 rs1 0b010 rd 0b1010011
  | .fltD rd rs1 rs2 => rWord 0b1010001 rs2 rs1 0b001 rd 0b1010011
  | .fleD rd rs1 rs2 => rWord 0b1010001 rs2 rs1 0b000 rd 0b1010011
  | .fclassD rd rs1 => rWord 0b1110001 0b00000 rs1 0b001 rd 0b1010011
  | .fcvtWD rm rd rs1 => rWord 0b1100001 0b00000 rs1 rm.code rd 0b1010011
  | .fcvtWuD rm rd rs1 => rWord 0b1100001 0b00001 rs1 rm.code rd 0b1010011
  | .fcvtDW rd rs1 => rWord 0b1101001 0b00000 rs1 0b000 rd 0b1010011
  | .fcvtDWu rd rs1 => rWord 0b1101001 0b00001 rs1 0b000 rd 0b1010011
  | .cAddi4spn rd' nzuimm => ciwWord 0b000 (spnHigh nzuimm) rd' 0b00
  | .cFld rd' rs1' offset => clWord 0b001 (offset.extractLsb' 3 3) rs1' (offset.extractLsb' 6 2) rd' 0b00
  | .cLw rd' rs1' offset => clWord 0b010 (offset.extractLsb' 3 3) rs1' (clLowW offset) rd' 0b00
  | .cFlw rd' rs1' offset => clWord 0b011 (offset.extractLsb' 3 3) rs1' (clLowW offset) rd' 0b00
  | .cFsd rs2' rs1' offset => clWord 0b101 (offset.extractLsb' 3 3) rs1' (offset.extractLsb' 6 2) rs2' 0b00
  | .cSw rs2' rs1' offset => clWord 0b110 (offset.extractLsb' 3 3) rs1' (clLowW offset) rs2' 0b00
  | .cFsw rs2' rs1' offset => clWord 0b111 (offset.extractLsb' 3 3) rs1' (clLowW offset) rs2' 0b00
  | .cNop imm => ciWord 0b000 (imm.extractLsb' 5 1) 0 (imm.extractLsb' 0 5) 0b01
  | .cAddi rd imm => ciWord 0b000 (imm.extractLsb' 5 1) rd (imm.extractLsb' 0 5) 0b01
  | .cJal offset => cjWord 0b001 (cjTarget offset) 0b01
  | .cLi rd imm => ciWord 0b010 (imm.extractLsb' 5 1) rd (imm.extractLsb' 0 5) 0b01
  | .cAddi16sp nzimm => ciWord 0b011 (nzimm.extractLsb' 9 1) 2 (sp16Low nzimm) 0b01
  | .cLui rd upper => ciWord 0b011 (upper.extractLsb' 5 1) rd (upper.extractLsb' 0 5) 0b01
  | .cSrli rd' shamt => cbAluWord 0b100 0 0b00 rd' shamt 0b01
  | .cSrai rd' shamt => cbAluWord 0b100 0 0b01 rd' shamt 0b01
  | .cAndi rd' imm => cbAluWord 0b100 (imm.extractLsb' 5 1) 0b10 rd' (imm.extractLsb' 0 5) 0b01
  | .cSub rd' rs2' => caWord 0b100011 rd' 0b00 rs2' 0b01
  | .cXor rd' rs2' => caWord 0b100011 rd' 0b01 rs2' 0b01
  | .cOr rd' rs2' => caWord 0b100011 rd' 0b10 rs2' 0b01
  | .cAnd rd' rs2' => caWord 0b100011 rd' 0b11 rs2' 0b01
  | .cJ offset => cjWord 0b101 (cjTarget offset) 0b01
  | .cBeqz rs1' offset => cbWord 0b110 (cbHigh offset) rs1' (cbLow offset) 0b01
  | .cBnez rs1' offset => cbWord 0b111 (cbHigh offset) rs1' (cbLow offset) 0b01
  | .cSlli rd shamt => ciWord 0b000 0 rd shamt 0b10
  | .cFldsp rd offset => ciWord 0b001 (offset.extractLsb' 5 1) rd (fldspLow offset) 0b10
  | .cLwsp rd offset => ciWord 0b010 (offset.extractLsb' 5 1) rd (lwspLow offset) 0b10
  | .cFlwsp rd offset => ciWord 0b011 (offset.extractLsb' 5 1) rd (lwspLow offset) 0b10
  | .cJr rs1 => crWord 0b1000 rs1 0 0b10
  | .cMv rd rs2 => crWord 0b1000 rd rs2 0b10
  | .cEbreak => crWord 0b1001 0 0 0b10
  | .cJalr rs1 => crWord 0b1001 rs1 0 0b10
  | .cAdd rd rs2 => crWord 0b1001 rd rs2 0b10
  | .cFsdsp rs2 offset => cssWord 0b101 (fsdspHigh offset) rs2 0b10
  | .cSwsp rs2 offset => cssWord 0b110 (swspHigh offset) rs2 0b10
  | .cFswsp rs2 offset => cssWord 0b111 (swspHigh offset) rs2 0b10

/-- The match and mask of the row, as opcode_table.json prints them; of a parcel they are those of `h = w[15:0]`. -/
def Instr.pattern (i : Instr) : Word × Word :=
  match i with
  | .addi _ _ _ => (0x00000013, 0x0000707f)
  | .slti _ _ _ => (0x00002013, 0x0000707f)
  | .sltiu _ _ _ => (0x00003013, 0x0000707f)
  | .xori _ _ _ => (0x00004013, 0x0000707f)
  | .ori _ _ _ => (0x00006013, 0x0000707f)
  | .andi _ _ _ => (0x00007013, 0x0000707f)
  | .slli _ _ _ => (0x00001013, 0xfe00707f)
  | .srli _ _ _ => (0x00005013, 0xfe00707f)
  | .srai _ _ _ => (0x40005013, 0xfe00707f)
  | .add _ _ _ => (0x00000033, 0xfe00707f)
  | .sub _ _ _ => (0x40000033, 0xfe00707f)
  | .sll _ _ _ => (0x00001033, 0xfe00707f)
  | .slt _ _ _ => (0x00002033, 0xfe00707f)
  | .sltu _ _ _ => (0x00003033, 0xfe00707f)
  | .xor _ _ _ => (0x00004033, 0xfe00707f)
  | .srl _ _ _ => (0x00005033, 0xfe00707f)
  | .sra _ _ _ => (0x40005033, 0xfe00707f)
  | .or _ _ _ => (0x00006033, 0xfe00707f)
  | .and _ _ _ => (0x00007033, 0xfe00707f)
  | .lb _ _ _ => (0x00000003, 0x0000707f)
  | .lh _ _ _ => (0x00001003, 0x0000707f)
  | .lw _ _ _ => (0x00002003, 0x0000707f)
  | .lbu _ _ _ => (0x00004003, 0x0000707f)
  | .lhu _ _ _ => (0x00005003, 0x0000707f)
  | .sb _ _ _ => (0x00000023, 0x0000707f)
  | .sh _ _ _ => (0x00001023, 0x0000707f)
  | .sw _ _ _ => (0x00002023, 0x0000707f)
  | .beq _ _ _ => (0x00000063, 0x0000707f)
  | .bne _ _ _ => (0x00001063, 0x0000707f)
  | .blt _ _ _ => (0x00004063, 0x0000707f)
  | .bge _ _ _ => (0x00005063, 0x0000707f)
  | .bltu _ _ _ => (0x00006063, 0x0000707f)
  | .bgeu _ _ _ => (0x00007063, 0x0000707f)
  | .jal _ _ => (0x0000006f, 0x0000007f)
  | .jalr _ _ _ => (0x00000067, 0x0000707f)
  | .lui _ _ => (0x00000037, 0x0000007f)
  | .auipc _ _ => (0x00000017, 0x0000007f)
  | .fence _ _ => (0x0000000f, 0xf00fffff)
  | .fenceTso => (0x8330000f, 0xffffffff)
  | .fenceI => (0x0000100f, 0xffffffff)
  | .ecall => (0x00000073, 0xffffffff)
  | .ebreak => (0x00100073, 0xffffffff)
  | .mul _ _ _ => (0x02000033, 0xfe00707f)
  | .mulh _ _ _ => (0x02001033, 0xfe00707f)
  | .mulhsu _ _ _ => (0x02002033, 0xfe00707f)
  | .mulhu _ _ _ => (0x02003033, 0xfe00707f)
  | .div _ _ _ => (0x02004033, 0xfe00707f)
  | .divu _ _ _ => (0x02005033, 0xfe00707f)
  | .rem _ _ _ => (0x02006033, 0xfe00707f)
  | .remu _ _ _ => (0x02007033, 0xfe00707f)
  | .lrW _ _ _ _ => (0x1000202f, 0xf9f0707f)
  | .scW _ _ _ _ _ => (0x1800202f, 0xf800707f)
  | .amoswapW _ _ _ _ _ => (0x0800202f, 0xf800707f)
  | .amoaddW _ _ _ _ _ => (0x0000202f, 0xf800707f)
  | .amoxorW _ _ _ _ _ => (0x2000202f, 0xf800707f)
  | .amoandW _ _ _ _ _ => (0x6000202f, 0xf800707f)
  | .amoorW _ _ _ _ _ => (0x4000202f, 0xf800707f)
  | .amominW _ _ _ _ _ => (0x8000202f, 0xf800707f)
  | .amomaxW _ _ _ _ _ => (0xa000202f, 0xf800707f)
  | .amominuW _ _ _ _ _ => (0xc000202f, 0xf800707f)
  | .amomaxuW _ _ _ _ _ => (0xe000202f, 0xf800707f)
  | .csrrw _ _ _ => (0x00001073, 0x0000707f)
  | .csrrs _ _ _ => (0x00002073, 0x0000707f)
  | .csrrc _ _ _ => (0x00003073, 0x0000707f)
  | .csrrwi _ _ _ => (0x00005073, 0x0000707f)
  | .csrrsi _ _ _ => (0x00006073, 0x0000707f)
  | .csrrci _ _ _ => (0x00007073, 0x0000707f)
  | .pause => (0x0100000f, 0xffffffff)
  | .flw _ _ _ => (0x00002007, 0x0000707f)
  | .fsw _ _ _ => (0x00002027, 0x0000707f)
  | .fmaddS _ _ _ _ _ => (0x00000043, 0x0600007f)
  | .fmsubS _ _ _ _ _ => (0x00000047, 0x0600007f)
  | .fnmsubS _ _ _ _ _ => (0x0000004b, 0x0600007f)
  | .fnmaddS _ _ _ _ _ => (0x0000004f, 0x0600007f)
  | .faddS _ _ _ _ => (0x00000053, 0xfe00007f)
  | .fsubS _ _ _ _ => (0x08000053, 0xfe00007f)
  | .fmulS _ _ _ _ => (0x10000053, 0xfe00007f)
  | .fdivS _ _ _ _ => (0x18000053, 0xfe00007f)
  | .fsqrtS _ _ _ => (0x58000053, 0xfff0007f)
  | .fsgnjS _ _ _ => (0x20000053, 0xfe00707f)
  | .fsgnjnS _ _ _ => (0x20001053, 0xfe00707f)
  | .fsgnjxS _ _ _ => (0x20002053, 0xfe00707f)
  | .fminS _ _ _ => (0x28000053, 0xfe00707f)
  | .fmaxS _ _ _ => (0x28001053, 0xfe00707f)
  | .feqS _ _ _ => (0xa0002053, 0xfe00707f)
  | .fltS _ _ _ => (0xa0001053, 0xfe00707f)
  | .fleS _ _ _ => (0xa0000053, 0xfe00707f)
  | .fclassS _ _ => (0xe0001053, 0xfff0707f)
  | .fcvtWS _ _ _ => (0xc0000053, 0xfff0007f)
  | .fcvtWuS _ _ _ => (0xc0100053, 0xfff0007f)
  | .fcvtSW _ _ _ => (0xd0000053, 0xfff0007f)
  | .fcvtSWu _ _ _ => (0xd0100053, 0xfff0007f)
  | .fmvXW _ _ => (0xe0000053, 0xfff0707f)
  | .fmvWX _ _ => (0xf0000053, 0xfff0707f)
  | .fld _ _ _ => (0x00003007, 0x0000707f)
  | .fsd _ _ _ => (0x00003027, 0x0000707f)
  | .fmaddD _ _ _ _ _ => (0x02000043, 0x0600007f)
  | .fmsubD _ _ _ _ _ => (0x02000047, 0x0600007f)
  | .fnmsubD _ _ _ _ _ => (0x0200004b, 0x0600007f)
  | .fnmaddD _ _ _ _ _ => (0x0200004f, 0x0600007f)
  | .faddD _ _ _ _ => (0x02000053, 0xfe00007f)
  | .fsubD _ _ _ _ => (0x0a000053, 0xfe00007f)
  | .fmulD _ _ _ _ => (0x12000053, 0xfe00007f)
  | .fdivD _ _ _ _ => (0x1a000053, 0xfe00007f)
  | .fsqrtD _ _ _ => (0x5a000053, 0xfff0007f)
  | .fsgnjD _ _ _ => (0x22000053, 0xfe00707f)
  | .fsgnjnD _ _ _ => (0x22001053, 0xfe00707f)
  | .fsgnjxD _ _ _ => (0x22002053, 0xfe00707f)
  | .fminD _ _ _ => (0x2a000053, 0xfe00707f)
  | .fmaxD _ _ _ => (0x2a001053, 0xfe00707f)
  | .fcvtSD _ _ _ => (0x40100053, 0xfff0007f)
  | .fcvtDS _ _ => (0x42000053, 0xfff0707f)
  | .feqD _ _ _ => (0xa2002053, 0xfe00707f)
  | .fltD _ _ _ => (0xa2001053, 0xfe00707f)
  | .fleD _ _ _ => (0xa2000053, 0xfe00707f)
  | .fclassD _ _ => (0xe2001053, 0xfff0707f)
  | .fcvtWD _ _ _ => (0xc2000053, 0xfff0007f)
  | .fcvtWuD _ _ _ => (0xc2100053, 0xfff0007f)
  | .fcvtDW _ _ => (0xd2000053, 0xfff0707f)
  | .fcvtDWu _ _ => (0xd2100053, 0xfff0707f)
  | .cAddi4spn _ _ => (0x0000, 0xe003)
  | .cFld _ _ _ => (0x2000, 0xe003)
  | .cLw _ _ _ => (0x4000, 0xe003)
  | .cFlw _ _ _ => (0x6000, 0xe003)
  | .cFsd _ _ _ => (0xa000, 0xe003)
  | .cSw _ _ _ => (0xc000, 0xe003)
  | .cFsw _ _ _ => (0xe000, 0xe003)
  | .cNop _ => (0x0001, 0xef83)
  | .cAddi _ _ => (0x0001, 0xe003)
  | .cJal _ => (0x2001, 0xe003)
  | .cLi _ _ => (0x4001, 0xe003)
  | .cAddi16sp _ => (0x6101, 0xef83)
  | .cLui _ _ => (0x6001, 0xe003)
  | .cSrli _ _ => (0x8001, 0xfc03)
  | .cSrai _ _ => (0x8401, 0xfc03)
  | .cAndi _ _ => (0x8801, 0xec03)
  | .cSub _ _ => (0x8c01, 0xfc63)
  | .cXor _ _ => (0x8c21, 0xfc63)
  | .cOr _ _ => (0x8c41, 0xfc63)
  | .cAnd _ _ => (0x8c61, 0xfc63)
  | .cJ _ => (0xa001, 0xe003)
  | .cBeqz _ _ => (0xc001, 0xe003)
  | .cBnez _ _ => (0xe001, 0xe003)
  | .cSlli _ _ => (0x0002, 0xf003)
  | .cFldsp _ _ => (0x2002, 0xe003)
  | .cLwsp _ _ => (0x4002, 0xe003)
  | .cFlwsp _ _ => (0x6002, 0xe003)
  | .cJr _ => (0x8002, 0xf07f)
  | .cMv _ _ => (0x8002, 0xf003)
  | .cEbreak => (0x9002, 0xffff)
  | .cJalr _ => (0x9002, 0xf07f)
  | .cAdd _ _ => (0x9002, 0xf003)
  | .cFsdsp _ _ => (0xa002, 0xe003)
  | .cSwsp _ _ => (0xc002, 0xe003)
  | .cFswsp _ _ => (0xe002, 0xe003)

end Sys2Proof
end

