-- ==== Sys2Proof/Machine/Format.lean ====
section
/-! DEFINITION. The formatter, the block's second function (47_formatter.md). -/

namespace Sys2Proof

/-- The ABI name of an integer register (47_formatter.md R322). -/
def xName (r : Reg) : String :=
  match r.toNat with
  | 0 => "zero"
  | 1 => "ra"
  | 2 => "sp"
  | 3 => "gp"
  | 4 => "tp"
  | 5 => "t0"
  | 6 => "t1"
  | 7 => "t2"
  | 8 => "s0"
  | 9 => "s1"
  | 10 => "a0"
  | 11 => "a1"
  | 12 => "a2"
  | 13 => "a3"
  | 14 => "a4"
  | 15 => "a5"
  | 16 => "a6"
  | 17 => "a7"
  | 18 => "s2"
  | 19 => "s3"
  | 20 => "s4"
  | 21 => "s5"
  | 22 => "s6"
  | 23 => "s7"
  | 24 => "s8"
  | 25 => "s9"
  | 26 => "s10"
  | 27 => "s11"
  | 28 => "t3"
  | 29 => "t4"
  | 30 => "t5"
  | _ => "t6"

/-- The ABI name of an FP register (47_formatter.md R323). -/
def fName (r : Reg) : String :=
  match r.toNat with
  | 0 => "ft0"
  | 1 => "ft1"
  | 2 => "ft2"
  | 3 => "ft3"
  | 4 => "ft4"
  | 5 => "ft5"
  | 6 => "ft6"
  | 7 => "ft7"
  | 8 => "fs0"
  | 9 => "fs1"
  | 10 => "fa0"
  | 11 => "fa1"
  | 12 => "fa2"
  | 13 => "fa3"
  | 14 => "fa4"
  | 15 => "fa5"
  | 16 => "fa6"
  | 17 => "fa7"
  | 18 => "fs2"
  | 19 => "fs3"
  | 20 => "fs4"
  | 21 => "fs5"
  | 22 => "fs6"
  | 23 => "fs7"
  | 24 => "fs8"
  | 25 => "fs9"
  | 26 => "fs10"
  | 27 => "fs11"
  | 28 => "ft8"
  | 29 => "ft9"
  | 30 => "ft10"
  | _ => "ft11"

/-- A number in decimal, with no leading zero (47_formatter.md R324, R325). -/
def decimal (n : Nat) : String := n.repr

/-- An integer in decimal, with a leading `-` when negative (47_formatter.md R324). -/
def signedDecimal (v : Int) : String := if v < 0 then "-" ++ decimal v.natAbs else decimal v.natAbs

/-- An immediate, read per its kind (47_formatter.md R324). -/
def immText (i : Imm) : String := signedDecimal i.toInt

/-- A `U5` (47_formatter.md R325). -/
def u5Text (v : U5) : String := decimal v.toNat

/-- An upper immediate: the decimal value of `uimm[31:12]` (47_formatter.md R326). -/
def upperText (i : Imm) : String := decimal (i.value.extractLsb' 12 20).toNat

/-- A CSR: its name where `CSR_NAMES` has the address, else the decimal address (47_formatter.md R327). -/
def csrText (names : List (Nat × String)) (c : Csr) : String :=
  match names.lookup c.toNat with
  | some n => n
  | none => decimal c.toNat

/-- The letter of one member of a fence set, or nothing. -/
def fenceLetter (v : FenceSet) (bit : Nat) (letter : String) : String := if v.getLsbD bit then letter else ""

/-- A fence set, in the order `i`, `o`, `r`, `w`; the empty set is `0` (47_formatter.md R328). -/
def fenceText (v : FenceSet) : String :=
  if v = 0 then "0"
  else fenceLetter v 3 "i" ++ fenceLetter v 2 "o" ++ fenceLetter v 1 "r" ++ fenceLetter v 0 "w"

/-- The ordering suffix (47_formatter.md R329). -/
def ordText (aq rl : Bit) : String :=
  if aq = 1 then (if rl = 1 then ".aqrl" else ".aq") else if rl = 1 then ".rl" else ""

/-- The rounding mode, left implicit when it is `Dyn` (47_formatter.md R331). -/
def rmText : RoundingMode → String
  | .rne => ", rne"
  | .rtz => ", rtz"
  | .rdn => ", rdn"
  | .rup => ", rup"
  | .rmm => ", rmm"
  | .dyn => ""

/-- The suffix of a mnemonic that names the precision (47_formatter.md R332). -/
def fmtText : Fmt → String
  | .s => "s"
  | .d => "d"

/-- The operands `a, b` (47_formatter.md R321). -/
def two (a b : String) : String := a ++ ", " ++ b

/-- The operands `a, b, c`. -/
def three (a b c : String) : String := a ++ ", " ++ b ++ ", " ++ c

/-- The operands `a, b, c, d`. -/
def four (a b c d : String) : String := a ++ ", " ++ b ++ ", " ++ c ++ ", " ++ d

/-- A memory operand `offset(base)`. -/
def memOperand (offset : Imm) (base : Reg) : String := immText offset ++ "(" ++ xName base ++ ")"

/-- `format(record)` (47_formatter.md R320, R321, R330, R332): the template of the rule that produces the record's tag. -/
def format (names : List (Nat × String)) (r : Record) : String :=
  match r with
  | .addi dest src1 imm => "addi " ++ three (xName dest) (xName src1) (immText imm)
  | .slti dest src1 imm => "slti " ++ three (xName dest) (xName src1) (immText imm)
  | .sltiu dest src1 imm => "sltiu " ++ three (xName dest) (xName src1) (immText imm)
  | .xori dest src1 imm => "xori " ++ three (xName dest) (xName src1) (immText imm)
  | .ori dest src1 imm => "ori " ++ three (xName dest) (xName src1) (immText imm)
  | .andi dest src1 imm => "andi " ++ three (xName dest) (xName src1) (immText imm)
  | .slli dest src1 shamt => "slli " ++ three (xName dest) (xName src1) (u5Text shamt)
  | .srli dest src1 shamt => "srli " ++ three (xName dest) (xName src1) (u5Text shamt)
  | .srai dest src1 shamt => "srai " ++ three (xName dest) (xName src1) (u5Text shamt)
  | .add dest src1 src2 => "add " ++ three (xName dest) (xName src1) (xName src2)
  | .sub dest src1 src2 => "sub " ++ three (xName dest) (xName src1) (xName src2)
  | .sll dest src1 src2 => "sll " ++ three (xName dest) (xName src1) (xName src2)
  | .slt dest src1 src2 => "slt " ++ three (xName dest) (xName src1) (xName src2)
  | .sltu dest src1 src2 => "sltu " ++ three (xName dest) (xName src1) (xName src2)
  | .xor dest src1 src2 => "xor " ++ three (xName dest) (xName src1) (xName src2)
  | .srl dest src1 src2 => "srl " ++ three (xName dest) (xName src1) (xName src2)
  | .sra dest src1 src2 => "sra " ++ three (xName dest) (xName src1) (xName src2)
  | .or dest src1 src2 => "or " ++ three (xName dest) (xName src1) (xName src2)
  | .and dest src1 src2 => "and " ++ three (xName dest) (xName src1) (xName src2)
  | .lb dest base offset => "lb " ++ two (xName dest) (memOperand offset base)
  | .lh dest base offset => "lh " ++ two (xName dest) (memOperand offset base)
  | .lw dest base offset => "lw " ++ two (xName dest) (memOperand offset base)
  | .lbu dest base offset => "lbu " ++ two (xName dest) (memOperand offset base)
  | .lhu dest base offset => "lhu " ++ two (xName dest) (memOperand offset base)
  | .sb src base offset => "sb " ++ two (xName src) (memOperand offset base)
  | .sh src base offset => "sh " ++ two (xName src) (memOperand offset base)
  | .sw src base offset => "sw " ++ two (xName src) (memOperand offset base)
  | .beq src1 src2 offset => "beq " ++ three (xName src1) (xName src2) (immText offset)
  | .bne src1 src2 offset => "bne " ++ three (xName src1) (xName src2) (immText offset)
  | .blt src1 src2 offset => "blt " ++ three (xName src1) (xName src2) (immText offset)
  | .bge src1 src2 offset => "bge " ++ three (xName src1) (xName src2) (immText offset)
  | .bltu src1 src2 offset => "bltu " ++ three (xName src1) (xName src2) (immText offset)
  | .bgeu src1 src2 offset => "bgeu " ++ three (xName src1) (xName src2) (immText offset)
  | .jal dest offset => "jal " ++ two (xName dest) (immText offset)
  | .jalr dest base offset => "jalr " ++ two (xName dest) (memOperand offset base)
  | .lui dest uimm => "lui " ++ two (xName dest) (upperText uimm)
  | .auipc dest uimm => "auipc " ++ two (xName dest) (upperText uimm)
  | .fence pred succ => "fence " ++ two (fenceText pred) (fenceText succ)
  | .fenceTso => "fence.tso"
  | .fenceI => "fence.i"
  | .ecall => "ecall"
  | .ebreak => "ebreak"
  | .mul dest src1 src2 => "mul " ++ three (xName dest) (xName src1) (xName src2)
  | .mulh dest src1 src2 => "mulh " ++ three (xName dest) (xName src1) (xName src2)
  | .mulhsu dest src1 src2 => "mulhsu " ++ three (xName dest) (xName src1) (xName src2)
  | .mulhu dest src1 src2 => "mulhu " ++ three (xName dest) (xName src1) (xName src2)
  | .div dest src1 src2 => "div " ++ three (xName dest) (xName src1) (xName src2)
  | .divu dest src1 src2 => "divu " ++ three (xName dest) (xName src1) (xName src2)
  | .rem dest src1 src2 => "rem " ++ three (xName dest) (xName src1) (xName src2)
  | .remu dest src1 src2 => "remu " ++ three (xName dest) (xName src1) (xName src2)
  | .lrW aq rl dest addr => "lr.w" ++ ordText aq rl ++ " " ++ two (xName dest) ("(" ++ xName addr ++ ")")
  | .scW aq rl dest addr src => "sc.w" ++ ordText aq rl ++ " " ++ three (xName dest) (xName src) ("(" ++ xName addr ++ ")")
  | .amoswapW aq rl dest addr src => "amoswap.w" ++ ordText aq rl ++ " " ++ three (xName dest) (xName src) ("(" ++ xName addr ++ ")")
  | .amoaddW aq rl dest addr src => "amoadd.w" ++ ordText aq rl ++ " " ++ three (xName dest) (xName src) ("(" ++ xName addr ++ ")")
  | .amoxorW aq rl dest addr src => "amoxor.w" ++ ordText aq rl ++ " " ++ three (xName dest) (xName src) ("(" ++ xName addr ++ ")")
  | .amoandW aq rl dest addr src => "amoand.w" ++ ordText aq rl ++ " " ++ three (xName dest) (xName src) ("(" ++ xName addr ++ ")")
  | .amoorW aq rl dest addr src => "amoor.w" ++ ordText aq rl ++ " " ++ three (xName dest) (xName src) ("(" ++ xName addr ++ ")")
  | .amominW aq rl dest addr src => "amomin.w" ++ ordText aq rl ++ " " ++ three (xName dest) (xName src) ("(" ++ xName addr ++ ")")
  | .amomaxW aq rl dest addr src => "amomax.w" ++ ordText aq rl ++ " " ++ three (xName dest) (xName src) ("(" ++ xName addr ++ ")")
  | .amominuW aq rl dest addr src => "amominu.w" ++ ordText aq rl ++ " " ++ three (xName dest) (xName src) ("(" ++ xName addr ++ ")")
  | .amomaxuW aq rl dest addr src => "amomaxu.w" ++ ordText aq rl ++ " " ++ three (xName dest) (xName src) ("(" ++ xName addr ++ ")")
  | .csrrw dest csr src1 => "csrrw " ++ three (xName dest) (csrText names csr) (xName src1)
  | .csrrs dest csr src1 => "csrrs " ++ three (xName dest) (csrText names csr) (xName src1)
  | .csrrc dest csr src1 => "csrrc " ++ three (xName dest) (csrText names csr) (xName src1)
  | .csrrwi dest csr imm => "csrrwi " ++ three (xName dest) (csrText names csr) (u5Text imm)
  | .csrrsi dest csr imm => "csrrsi " ++ three (xName dest) (csrText names csr) (u5Text imm)
  | .csrrci dest csr imm => "csrrci " ++ three (xName dest) (csrText names csr) (u5Text imm)
  | .pause => "pause"
  | .fload .s dest base offset => "flw " ++ two (fName dest) (memOperand offset base)
  | .fload .d dest base offset => "fld " ++ two (fName dest) (memOperand offset base)
  | .fstore .s src base offset => "fsw " ++ two (fName src) (memOperand offset base)
  | .fstore .d src base offset => "fsd " ++ two (fName src) (memOperand offset base)
  | .fmadd fmt rm dest src1 src2 src3 => "fmadd." ++ fmtText fmt ++ " " ++ four (fName dest) (fName src1) (fName src2) (fName src3) ++ rmText rm
  | .fmsub fmt rm dest src1 src2 src3 => "fmsub." ++ fmtText fmt ++ " " ++ four (fName dest) (fName src1) (fName src2) (fName src3) ++ rmText rm
  | .fnmsub fmt rm dest src1 src2 src3 => "fnmsub." ++ fmtText fmt ++ " " ++ four (fName dest) (fName src1) (fName src2) (fName src3) ++ rmText rm
  | .fnmadd fmt rm dest src1 src2 src3 => "fnmadd." ++ fmtText fmt ++ " " ++ four (fName dest) (fName src1) (fName src2) (fName src3) ++ rmText rm
  | .fadd fmt rm dest src1 src2 => "fadd." ++ fmtText fmt ++ " " ++ three (fName dest) (fName src1) (fName src2) ++ rmText rm
  | .fsub fmt rm dest src1 src2 => "fsub." ++ fmtText fmt ++ " " ++ three (fName dest) (fName src1) (fName src2) ++ rmText rm
  | .fmul fmt rm dest src1 src2 => "fmul." ++ fmtText fmt ++ " " ++ three (fName dest) (fName src1) (fName src2) ++ rmText rm
  | .fdiv fmt rm dest src1 src2 => "fdiv." ++ fmtText fmt ++ " " ++ three (fName dest) (fName src1) (fName src2) ++ rmText rm
  | .fsqrt fmt rm dest src1 => "fsqrt." ++ fmtText fmt ++ " " ++ two (fName dest) (fName src1) ++ rmText rm
  | .fsgnj fmt dest src1 src2 => "fsgnj." ++ fmtText fmt ++ " " ++ three (fName dest) (fName src1) (fName src2)
  | .fsgnjn fmt dest src1 src2 => "fsgnjn." ++ fmtText fmt ++ " " ++ three (fName dest) (fName src1) (fName src2)
  | .fsgnjx fmt dest src1 src2 => "fsgnjx." ++ fmtText fmt ++ " " ++ three (fName dest) (fName src1) (fName src2)
  | .fmin fmt dest src1 src2 => "fmin." ++ fmtText fmt ++ " " ++ three (fName dest) (fName src1) (fName src2)
  | .fmax fmt dest src1 src2 => "fmax." ++ fmtText fmt ++ " " ++ three (fName dest) (fName src1) (fName src2)
  | .feq fmt dest src1 src2 => "feq." ++ fmtText fmt ++ " " ++ three (xName dest) (fName src1) (fName src2)
  | .flt fmt dest src1 src2 => "flt." ++ fmtText fmt ++ " " ++ three (xName dest) (fName src1) (fName src2)
  | .fle fmt dest src1 src2 => "fle." ++ fmtText fmt ++ " " ++ three (xName dest) (fName src1) (fName src2)
  | .fclass fmt dest src1 => "fclass." ++ fmtText fmt ++ " " ++ two (xName dest) (fName src1)
  | .fcvtW fmt rm dest src1 => "fcvt.w." ++ fmtText fmt ++ " " ++ two (xName dest) (fName src1) ++ rmText rm
  | .fcvtWu fmt rm dest src1 => "fcvt.wu." ++ fmtText fmt ++ " " ++ two (xName dest) (fName src1) ++ rmText rm
  | .fcvtFW .s rm dest src1 => "fcvt.s.w " ++ two (fName dest) (xName src1) ++ rmText rm
  | .fcvtFW .d _ dest src1 => "fcvt.d.w " ++ two (fName dest) (xName src1)
  | .fcvtFWu .s rm dest src1 => "fcvt.s.wu " ++ two (fName dest) (xName src1) ++ rmText rm
  | .fcvtFWu .d _ dest src1 => "fcvt.d.wu " ++ two (fName dest) (xName src1)
  | .fmvXW dest src1 => "fmv.x.w " ++ two (xName dest) (fName src1)
  | .fmvWX dest src1 => "fmv.w.x " ++ two (fName dest) (xName src1)
  | .fcvtSD rm dest src1 => "fcvt.s.d " ++ two (fName dest) (fName src1) ++ rmText rm
  | .fcvtDS dest src1 => "fcvt.d.s " ++ two (fName dest) (fName src1)

end Sys2Proof
end

