-- ==== Sys2Proof/Machine/CsrNames.lean ====
section
/-! DEFINITION. The default of the parameter `CSR_NAMES` (47_formatter.md R327), and the default parameters. -/

namespace Sys2Proof.Machine

/-- The names `before3after` to `before31after` at 29 addresses from `base` (47_formatter.md R327, "In each range"). -/
def numberedCsrs (base : Nat) (before after : String) : List (Nat × String) :=
  (List.range 29).map fun k => (base + k, before ++ (k + 3).repr ++ after)

/-- The named CSRs outside the ranges (47_formatter.md R327). -/
def singleCsrs : List (Nat × String) :=
  [(0x001, "fflags"), (0x002, "frm"), (0x003, "fcsr")] ++
  [(0x100, "sstatus"), (0x104, "sie"), (0x105, "stvec"), (0x106, "scounteren"), (0x10A, "senvcfg"), (0x140, "sscratch"),
   (0x141, "sepc"), (0x142, "scause"), (0x143, "stval"), (0x144, "sip"), (0x180, "satp")] ++
  [(0x300, "mstatus"), (0x301, "misa"), (0x302, "medeleg"), (0x303, "mideleg"), (0x304, "mie"), (0x305, "mtvec"),
   (0x306, "mcounteren"), (0x310, "mstatush"), (0x320, "mcountinhibit")] ++
  [(0x340, "mscratch"), (0x341, "mepc"), (0x342, "mcause"), (0x343, "mtval"), (0x344, "mip")] ++
  [(0xC00, "cycle"), (0xC01, "time"), (0xC02, "instret")] ++
  [(0xC80, "cycleh"), (0xC81, "timeh"), (0xC82, "instreth")] ++
  [(0xB00, "mcycle"), (0xB02, "minstret"), (0xB80, "mcycleh"), (0xB82, "minstreth")] ++
  [(0xF11, "mvendorid"), (0xF12, "marchid"), (0xF13, "mimpid"), (0xF14, "mhartid"), (0xF15, "mconfigptr")]

/-- The default `CSR_NAMES` (47_formatter.md R327). -/
def defaultCsrNames : List (Nat × String) :=
  singleCsrs ++ numberedCsrs 0x323 "mhpmevent" "" ++ numberedCsrs 0xC03 "hpmcounter" "" ++
    numberedCsrs 0xC83 "hpmcounter" "h" ++ numberedCsrs 0xB03 "mhpmcounter" "" ++ numberedCsrs 0xB83 "mhpmcounter" "h"

/-- The parameters of the reset state. DESIGN CHOICE (log entry 4), unsafe where a claim rests on a value: the spec leaves each
open. The CSRs that exist are the ones the default table names. -/
def defaultConfig : Config where
  csrNames := defaultCsrNames
  csrPresent := defaultCsrNames.map Prod.fst
  misaligned := .perform
  misalignedAtomicFaults := false
  misalignedLast := false
  reservationLog2 := 0
  trapKeepsReservation := false
  lrKeepsReservation := false
  illegalTvalZero := false
  regions := []

end Sys2Proof.Machine
end

