-- ==== Sys2Proof/Machine/State.lean ====
section
/-! DEFINITION. The state: what the block was given and answered, and the consumer that executes its records (INVENTORY.md
lists every field with its rule), with the state after reset and the two types of stop. -/

namespace Sys2Proof.Machine

/-- An LR/SC reservation: a set of bytes, here `size` bytes from `base` (20_memory.md R58). -/
structure Reservation where
  base : Nat
  size : Nat
  deriving DecidableEq, Repr

/-- The reasons to stop with a fault: there is none. `DecodeError` is an output, every exception is taken as a trap, and no
function "can reach a stuck or faulted state" (60_exceptions.md R354, R356). -/
inductive Fault : Type
  deriving DecidableEq, Repr

/-- The reasons to give no meaning. -/
inductive Refusal where
  /-- Raised by the dispatch for an instruction that has no meaning yet; the mnemonic names it. Safe: nothing is claimed of it. -/
  | notModelled (mnemonic : String)
  deriving DecidableEq, Repr

/-- The machine: the block's last input and output, and the consumer. Registers and addresses are stored in 64 bits; under
`Rv32` their value is the low 32 bits (10_state.md R31). -/
structure State where
  /-- The parameters; no step changes them (00_scope.md R7, 93_implementation_defined.md I20 to I27). -/
  cfg : Config
  /-- The block's input `xlen` and the consumer's XLEN (10_state.md R21, R26). -/
  xlen : Xlen
  /-- The block's input `word`, as of the last step (10_state.md R21). -/
  word : Word
  /-- The output of `decode`, as of the last step (10_state.md R22). -/
  result : Option DecodeResult
  /-- The output of `format`, as of the last step; empty when there was no record (10_state.md R23). -/
  text : String
  /-- The program counter (10_state.md R42). -/
  pc : XWord
  /-- The integer registers (10_state.md R31). -/
  x : Vector XWord 32
  /-- The FP registers (10_state.md R31, 45_d_extension.md R233). -/
  f : Vector FWord 32
  /-- The exception flags NV, DZ, OF, UF, NX from bit 4 down (44_f_extension.md R231). -/
  fflags : BitVec 5
  /-- The dynamic rounding mode (44_f_extension.md R231). -/
  frm : BitVec 3
  /-- The other CSRs, by address, in canonical form: an unlisted one holds 0 (10_state.md R44). Of a counter, the value last
  written (log entry 9). -/
  csrs : List (Nat × XWord)
  /-- The privilege mode (60_exceptions.md R360). -/
  mode : Mode
  /-- Whether the FP unit is on (60_exceptions.md R356). -/
  fpOn : Bool
  /-- The reservations held (20_memory.md R58). -/
  reservations : List Reservation
  /-- Memory, by byte address, in canonical form: an unlisted byte reads 0 (20_memory.md R55, 95_test_vectors.md L3). -/
  mem : List Host.Cell
  /-- Memory as this hart's fetches are sure to see it: as of the last `FenceI` (20_memory.md R57, R59). -/
  imem : List Host.Cell
  /-- The draw number of the free values, the model's own (log entry 29). -/
  tick : Nat
  deriving DecidableEq, Repr

/-- The state after reset (70_reset_and_hazards.md R370, R373; 95_test_vectors.md L3). Values the spec does not give are named
in log entries 2, 3 and 4. -/
def State.reset : State where
  cfg := defaultConfig
  xlen := .rv32
  word := 0
  result := none
  text := ""
  pc := 0
  x := Vector.replicate 32 0
  f := Vector.replicate 32 0
  fflags := 0
  frm := 0
  csrs := [(0x301, 0x4014112D)]
  mode := .m
  fpOn := true
  reservations := []
  mem := []
  imem := []
  tick := 0

end Sys2Proof.Machine
end

