-- ==== Sys2Proof/Machine/Operands.lean ====
section
/-! DEFINITION. The operands and the integer arithmetic: values of XLEN bits held in 64, and the function each integer
instruction computes (the Consumer meaning lines of 40_base_integer.md, 41_m_extension.md R169 and 42_a_extension.md). -/

namespace Sys2Proof.Machine

/-- The low XLEN bits of a value, zeros above: what a register or address of that width holds (10_state.md R31, R42). -/
def narrow (x : Xlen) (v : XWord) : XWord :=
  match x with
  | .rv32 => (v.setWidth 32).setWidth 64
  | .rv64 => v

/-- The low XLEN bits of a value, sign-extended to 64. -/
def widen (x : Xlen) (v : XWord) : XWord :=
  match x with
  | .rv32 => (v.setWidth 32).signExtend 64
  | .rv64 => v

/-- The value read as unsigned. -/
def unsignedVal (x : Xlen) (v : XWord) : Nat := (narrow x v).toNat

/-- The value read as two's complement. -/
def signedVal (x : Xlen) (v : XWord) : Int := (widen x v).toInt

/-- `sext_XLEN` of an immediate; its low XLEN bits are the ones used (00_scope.md R10). -/
def sextImm {n : Nat} (v : BitVec n) : XWord := v.signExtend 64

/-- `zext_XLEN` of a compressed offset, a CSR immediate or a stored word. -/
def zextImm {n : Nat} (v : BitVec n) : XWord := v.setWidth 64

/-- The upper immediate of LUI and AUIPC, sign-extended (40_base_integer.md R155, R156, 10_state.md R33). -/
def upperImm (v : BitVec 20) : XWord := (v ++ 0#12).signExtend 64

/-- A truth value as 1 or 0 (40_base_integer.md R121, R132). -/
def boolWord (b : Bool) : XWord := if b then 1 else 0

/-! ### The functions of OP and OP-IMM. A register write keeps the low XLEN bits. -/

/-- Addition (40_base_integer.md R120, R129). -/
def aluAdd (_ : Xlen) (a b : XWord) : XWord := a + b

/-- Subtraction (40_base_integer.md R130). -/
def aluSub (_ : Xlen) (a b : XWord) : XWord := a - b

/-- Signed comparison (40_base_integer.md R121, R132). -/
def aluSlt (x : Xlen) (a b : XWord) : XWord := boolWord (signedVal x a < signedVal x b)

/-- Unsigned comparison (40_base_integer.md R122, R133). -/
def aluSltu (x : Xlen) (a b : XWord) : XWord := boolWord (unsignedVal x a < unsignedVal x b)

/-- Exclusive or (40_base_integer.md R123, R134). -/
def aluXor (_ : Xlen) (a b : XWord) : XWord := a ^^^ b

/-- Or (40_base_integer.md R124, R137). -/
def aluOr (_ : Xlen) (a b : XWord) : XWord := a ||| b

/-- And (40_base_integer.md R125, R138). -/
def aluAnd (_ : Xlen) (a b : XWord) : XWord := a &&& b

/-- The shift amount: the low five bits, under either XLEN (40_base_integer.md R131, R135, R136; log entry 14). -/
def shiftAmount (b : XWord) : Nat := b.toNat % 32

/-- Left shift (40_base_integer.md R126, R131). -/
def aluSll (_ : Xlen) (a b : XWord) : XWord := a <<< shiftAmount b

/-- Logical right shift (40_base_integer.md R127, R135). -/
def aluSrl (x : Xlen) (a b : XWord) : XWord := narrow x a >>> shiftAmount b

/-- Arithmetic right shift (40_base_integer.md R128, R136). -/
def aluSra (x : Xlen) (a b : XWord) : XWord := (widen x a).sshiftRight (shiftAmount b)

/-! ### The functions of the M extension (41_m_extension.md R169) -/

/-- The low XLEN bits of the product (41_m_extension.md R170). -/
def aluMul (_ : Xlen) (a b : XWord) : XWord := a * b

/-- The high XLEN bits of the signed product (41_m_extension.md R171). -/
def aluMulh (x : Xlen) (a b : XWord) : XWord := BitVec.ofInt 64 (signedVal x a * signedVal x b / 2 ^ x.bits)

/-- The high XLEN bits of the signed by unsigned product (41_m_extension.md R172). -/
def aluMulhsu (x : Xlen) (a b : XWord) : XWord := BitVec.ofInt 64 (signedVal x a * unsignedVal x b / 2 ^ x.bits)

/-- The high XLEN bits of the unsigned product (41_m_extension.md R173). -/
def aluMulhu (x : Xlen) (a b : XWord) : XWord := BitVec.ofNat 64 (unsignedVal x a * unsignedVal x b / 2 ^ x.bits)

/-- Signed quotient, toward zero; all ones for a divisor of 0 (41_m_extension.md R174). -/
def aluDiv (x : Xlen) (a b : XWord) : XWord :=
  if signedVal x b = 0 then BitVec.allOnes 64 else BitVec.ofInt 64 ((signedVal x a).tdiv (signedVal x b))

/-- Unsigned quotient; all ones for a divisor of 0 (41_m_extension.md R175). -/
def aluDivu (x : Xlen) (a b : XWord) : XWord :=
  if unsignedVal x b = 0 then BitVec.allOnes 64 else BitVec.ofNat 64 (unsignedVal x a / unsignedVal x b)

/-- Signed remainder, with the sign of the dividend; the dividend for a divisor of 0 (41_m_extension.md R176). -/
def aluRem (x : Xlen) (a b : XWord) : XWord :=
  if signedVal x b = 0 then a else BitVec.ofInt 64 ((signedVal x a).tmod (signedVal x b))

/-- Unsigned remainder; the dividend for a divisor of 0 (41_m_extension.md R177). -/
def aluRemu (x : Xlen) (a b : XWord) : XWord :=
  if unsignedVal x b = 0 then a else BitVec.ofNat 64 (unsignedVal x a % unsignedVal x b)

/-! ### The conditions of the branches -/

/-- BEQ (40_base_integer.md R147). -/
def condEq (x : Xlen) (a b : XWord) : Bool := narrow x a == narrow x b

/-- BNE (40_base_integer.md R148). -/
def condNe (x : Xlen) (a b : XWord) : Bool := narrow x a != narrow x b

/-- BLT (40_base_integer.md R149). -/
def condLt (x : Xlen) (a b : XWord) : Bool := signedVal x a < signedVal x b

/-- BGE (40_base_integer.md R150). -/
def condGe (x : Xlen) (a b : XWord) : Bool := signedVal x b ≤ signedVal x a

/-- BLTU (40_base_integer.md R151). -/
def condLtu (x : Xlen) (a b : XWord) : Bool := unsignedVal x a < unsignedVal x b

/-- BGEU (40_base_integer.md R152). -/
def condGeu (x : Xlen) (a b : XWord) : Bool := unsignedVal x b ≤ unsignedVal x a

/-! ### The functions of the AMOs: of the old word and the register's low word (42_a_extension.md R182 to R190) -/

/-- AMOSWAP.W (42_a_extension.md R182). -/
def amoSwap (_ b : BitVec 32) : BitVec 32 := b

/-- AMOADD.W (42_a_extension.md R183). -/
def amoAdd (a b : BitVec 32) : BitVec 32 := a + b

/-- AMOXOR.W (42_a_extension.md R184). -/
def amoXor (a b : BitVec 32) : BitVec 32 := a ^^^ b

/-- AMOAND.W (42_a_extension.md R185). -/
def amoAnd (a b : BitVec 32) : BitVec 32 := a &&& b

/-- AMOOR.W (42_a_extension.md R186). -/
def amoOr (a b : BitVec 32) : BitVec 32 := a ||| b

/-- AMOMIN.W (42_a_extension.md R187). -/
def amoMin (a b : BitVec 32) : BitVec 32 := if a.toInt ≤ b.toInt then a else b

/-- AMOMAX.W (42_a_extension.md R188). -/
def amoMax (a b : BitVec 32) : BitVec 32 := if a.toInt ≤ b.toInt then b else a

/-- AMOMINU.W (42_a_extension.md R189). -/
def amoMinu (a b : BitVec 32) : BitVec 32 := if a.toNat ≤ b.toNat then a else b

/-- AMOMAXU.W (42_a_extension.md R190). -/
def amoMaxu (a b : BitVec 32) : BitVec 32 := if a.toNat ≤ b.toNat then b else a

/-- What an integer load of `n` bytes gives: the bytes sign-extended (40_base_integer.md R139 to R141). -/
def sextLoad (n v : Nat) : XWord := (BitVec.ofNat (8 * n) v).signExtend 64

/-- What an unsigned load of `n` bytes gives (40_base_integer.md R142, R143). -/
def zextLoad (n v : Nat) : XWord := (BitVec.ofNat (8 * n) v).setWidth 64

end Sys2Proof.Machine
end

