-- ==== Sys2Proof/Machine/Ops.lean ====
section
/-! DEFINITION. The named operations over registers, memory and CSRs; taking an exception; and how an instruction completes. -/

namespace Sys2Proof.Machine

/-! ### Sparse storage in canonical form: keys strictly rising, no entry equal to the default -/

/-- The value at a key. -/
def cellGet {α : Type} (d : α) : List (Nat × α) → Nat → α
  | [], _ => d
  | (k, v) :: rest, a => if k = a then v else cellGet d rest a

/-- The storage with the value at a key replaced; a value equal to the default is not listed. -/
def cellSet {α : Type} [DecidableEq α] (d : α) : List (Nat × α) → Nat → α → List (Nat × α)
  | [], a, v => if v = d then [] else [(a, v)]
  | (k, w) :: rest, a, v =>
    if a < k then (if v = d then (k, w) :: rest else (a, v) :: (k, w) :: rest)
    else if a = k then (if v = d then rest else (a, v) :: rest)
    else (k, w) :: cellSet d rest a v

/-- Every key is above `lo`, the keys rise strictly, and no entry is the default. -/
def cellsAbove {α : Type} [DecidableEq α] (d : α) : Option Nat → List (Nat × α) → Bool
  | _, [] => true
  | lo, (k, v) :: rest => lo.all (· < k) && v != d && cellsAbove d (some k) rest

/-- The storage is in canonical form. -/
def cellsWf {α : Type} [DecidableEq α] (d : α) (l : List (Nat × α)) : Bool := cellsAbove d none l

/-! ### Memory (20_memory.md R54, R55) -/

/-- What a byte that nothing has written reads as (95_test_vectors.md L3, "data memory ... all 0"; log entry 21). -/
def unlistedByte : Byte := 0

/-- Memory is in canonical form. -/
def Memory.wf (m : List Host.Cell) : Bool := cellsWf unlistedByte m

/-- The byte at an address. -/
def byteAt (m : List Host.Cell) (a : Nat) : Byte := cellGet unlistedByte m a

/-- Memory with the byte at an address replaced. -/
def setByte (m : List Host.Cell) (a : Nat) (b : Byte) : List Host.Cell := cellSet unlistedByte m a b

/-- The address of the byte an address names: addresses wrap modulo 2^XLEN (10_state.md R42). -/
def addrKey (x : Xlen) (a : XWord) : Nat := (narrow x a).toNat

/-- `MemRead(addr, n)`: `n` bytes little-endian, as a number (00_scope.md R12). -/
def loadNat (x : Xlen) (m : List Host.Cell) : Nat → XWord → Nat
  | 0, _ => 0
  | n + 1, a => (byteAt m (addrKey x a)).toNat + 256 * loadNat x m n (a + 1)

/-- `MemWrite(addr, n, v)`: the low `n` bytes of `v`, little-endian (00_scope.md R12). -/
def storeNat (x : Xlen) (m : List Host.Cell) : Nat → XWord → Nat → List Host.Cell
  | 0, _, _ => m
  | n + 1, a, v => storeNat x (setByte m (addrKey x a) (BitVec.ofNat 8 v)) n (a + 1) (v / 256)

/-- Whether a byte address is one of the `n` bytes from `a`. -/
def inAccess (x : Xlen) (a : XWord) : Nat → Nat → Bool
  | 0, _ => false
  | n + 1, k => addrKey x a == k || inAccess x (a + 1) n k

/-- Whether a barrier stops accesses of a kind, made in the hart's mode, at a byte address (a parameter, 20_memory.md R55; log
entry 38). -/
def stops (s : State) (b : Barrier) (kind : AccessKind) (k : Nat) : Bool :=
  s.cfg.regions.any fun r =>
    r.barrier == b && r.kinds.contains kind && r.modes.contains s.mode && decide (r.base ≤ k ∧ k < r.base + r.size)

/-- Whether a barrier stops an access at any of its bytes. -/
def meets (s : State) (b : Barrier) (kind : AccessKind) (a : XWord) : Nat → Bool
  | 0 => false
  | n + 1 => stops s b kind (addrKey s.xlen a) || meets s b kind (a + 1) n

/-- Whether an access of `n` bytes is naturally aligned (20_memory.md R53, R54). -/
def aligned (s : State) (a : XWord) (n : Nat) : Bool := addrKey s.xlen a % n == 0

/-- The address-misaligned codes 0, 4 and 6 (60_exceptions.md R357). -/
def misalignedCode : AccessKind → Nat
  | .fetch => 0
  | .load => 4
  | .store => 6
  | .loadReserved => 4
  | .storeConditional => 6
  | .amo => 6

/-- The access-fault codes 1, 5 and 7 (60_exceptions.md R357; for the byte accesses log entry 39). -/
def accessFaultCode : AccessKind → Nat
  | .fetch => 1
  | .load => 5
  | .store => 7
  | .loadReserved => 5
  | .storeConditional => 7
  | .amo => 7

/-- The page-fault codes 12, 13 and 15 (60_exceptions.md R357). -/
def pageFaultCode : AccessKind → Nat
  | .fetch => 12
  | .load => 13
  | .store => 15
  | .loadReserved => 13
  | .storeConditional => 15
  | .amo => 15

/-- The breakpoint code (60_exceptions.md R357). -/
def breakpointCode : Nat := 3

/-- What an access of a kind does where it is misaligned: the parameter's choice, and for an atomic access always a trap
(20_memory.md R53, R54, 60_exceptions.md R357 code 6; log entry 16). A fetch has no alignment to break: the pc is even, and the
C extension is present (R357 code 0). -/
def misalignedResponse (s : State) : AccessKind → Misaligned
  | .fetch => .perform
  | .load => s.cfg.misaligned
  | .store => s.cfg.misaligned
  | .loadReserved => if s.cfg.misalignedAtomicFaults then .accessFault else .misalignedException
  | .storeConditional => if s.cfg.misalignedAtomicFaults then .accessFault else .misalignedException
  | .amo => if s.cfg.misalignedAtomicFaults then .accessFault else .misalignedException

/-- Whether an access is misaligned and meets with a response other than being performed. -/
def misalignedWith (s : State) (kind : AccessKind) (a : XWord) (n : Nat) (r : Misaligned) : Bool :=
  !aligned s a n && misalignedResponse s kind == r

/-- The exception an access of `n` bytes at `a` raises, if any, in the order of 60_exceptions.md R358: an address breakpoint; the
address-misaligned exception where it is checked before translation; a page fault, then an access fault, from translation; an
access fault; the address-misaligned exception otherwise (log entries 25 and 27). -/
def accessException (s : State) (kind : AccessKind) (a : XWord) (n : Nat) : Option Nat :=
  if meets s .breakpoint kind a n then some breakpointCode
  else if misalignedWith s kind a n .misalignedException && !s.cfg.misalignedLast then some (misalignedCode kind)
  else if meets s .pageFault kind a n then some (pageFaultCode kind)
  else if meets s .translationFault kind a n then some (accessFaultCode kind)
  else if meets s .accessFault kind a n || misalignedWith s kind a n .accessFault then some (accessFaultCode kind)
  else if misalignedWith s kind a n .misalignedException then some (misalignedCode kind)
  else none

/-- The trap value of such an exception: the pc for a breakpoint, else the address, which is that of the first byte of the access
(60_exceptions.md R357; which byte's address it is, and that an address breakpoint records the pc, are log entries 40 and 25). -/
def accessTval (s : State) (code : Nat) (a : XWord) : XWord := if code = breakpointCode then s.pc else narrow s.xlen a

/-- The state with `n` bytes stored. -/
def storeMem (s : State) (a : XWord) (n v : Nat) : State := { s with mem := storeNat s.xlen s.mem n a v }

/-! ### Registers (10_state.md R31) -/

/-- `x[r]`: x0 reads 0, and a register holds XLEN bits. -/
def readX (s : State) (r : Reg) : XWord := if r = 0 then 0 else narrow s.xlen (s.x[r.toNat]'r.isLt)

/-- `x[r] <- v`: a write to x0 is discarded. -/
def writeX (s : State) (r : Reg) (v : XWord) : State :=
  if r = 0 then s else { s with x := s.x.set r.toNat (narrow s.xlen v) r.isLt }

/-- `f[r]`. -/
def readF (s : State) (r : Reg) : FWord := s.f[r.toNat]'r.isLt

/-- `f[r] <- v`. -/
def writeF (s : State) (r : Reg) (v : FWord) : State := { s with f := s.f.set r.toNat v r.isLt }

/-! ### CSRs (10_state.md R44, 43_zicsr_zihintpause.md R193 to R200) -/

/-- The CSR at an address of the file: an unlisted one holds 0. -/
def csrFileGet (s : State) (a : Nat) : XWord := cellGet 0 s.csrs a

/-- The file with the CSR at an address replaced, at XLEN bits. -/
def csrFileSet (s : State) (a : Nat) (v : XWord) : State := { s with csrs := cellSet 0 s.csrs a (narrow s.xlen v) }

/-- Whether an address is a counter's (47_formatter.md R327): 0xC00 to 0xC1F and 0xC80 to 0xC9F, and 0xB00, 0xB02 to 0xB1F, 0xB80
and 0xB82 to 0xB9F. -/
def isCounter (c : Csr) : Bool :=
  c.extractLsb' 5 2 == 0#2 &&
    (c.extractLsb' 8 4 == 0xC#4 || (c.extractLsb' 8 4 == 0xB#4 && c.extractLsb' 0 5 != 1#5))

/-- What a CSR reads as. fflags, frm and fcsr are views of the FP state (44_f_extension.md R231; layout in log entry 11). A
counter has moved by a free amount from the value last written (log entry 9). -/
def csrValue (s : State) (c : Csr) : XWord :=
  if c = 0x001 then s.fflags.setWidth 64
  else if c = 0x002 then s.frm.setWidth 64
  else if c = 0x003 then (s.frm ++ s.fflags).setWidth 64
  else if isCounter c then narrow s.xlen (csrFileGet s c.toNat + Config.counterAdvance s.tick c.toNat)
  else narrow s.xlen (csrFileGet s c.toNat)

/-- `CSR[c] <- v`. -/
def csrWrite (s : State) (c : Csr) (v : XWord) : State :=
  if c = 0x001 then { s with fflags := v.setWidth 5 }
  else if c = 0x002 then { s with frm := v.setWidth 3 }
  else if c = 0x003 then { s with fflags := v.setWidth 5, frm := v.extractLsb' 5 3 }
  else csrFileSet s c.toNat v

/-- The privilege level of a mode, as `csr[9:8]` counts it (43_zicsr_zihintpause.md R193). -/
def Mode.level : Mode → Nat
  | .u => 0
  | .s => 1
  | .m => 3

/-- The two bits of a mode in mstatus (log entry 5). -/
def Mode.code : Mode → XWord
  | .u => 0
  | .s => 1
  | .m => 3

/-- Whether a CSR access is legal in the state: the CSR exists, the mode may access it, and a write is not to a read-only CSR
(60_exceptions.md R356, 43_zicsr_zihintpause.md R193). -/
def csrLegal (s : State) (c : Csr) (writes : Bool) : Bool :=
  s.cfg.csrPresent.contains c.toNat && decide ((c.extractLsb' 8 2).toNat ≤ s.mode.level) &&
    !(writes && c.extractLsb' 10 2 == 0b11#2)

/-! ### Taking an exception -/

/-- mstatus after a trap to machine mode: MPIE (bit 7) takes MIE (bit 3), MIE becomes 0, and MPP (bits 12:11) takes the mode. -/
def trapStatus (status : XWord) (mode : Mode) : XWord :=
  (status &&& ~~~(0x1888#64)) ||| ((status >>> 3 &&& 1#64) <<< 7) ||| (mode.code <<< 11)

/-- `raise <Exception>(info)`: takes the exception with a code and a trap value of 60_exceptions.md R357. PRESUMED (log entry 5):
the spec says what is raised and with which value, not how the hart enters the handler; this is the family's entry to machine
mode. mepc 0x341 takes the pc, mcause 0x342 the code, mtval 0x343 the value, mstatus 0x300 as `trapStatus`; the mode becomes M
and the pc the base in mtvec 0x305. Reservations survive where the parameter says so (20_memory.md R58). There is no return
beside it: no instruction of the table returns from a trap (60_exceptions.md R360). -/
def takeException (s : State) (code : Nat) (tval : XWord) : State :=
  let saved := csrFileSet (csrFileSet (csrFileSet (csrFileSet s 0x341 s.pc) 0x342 (BitVec.ofNat 64 code)) 0x343 tval) 0x300
    (trapStatus (csrFileGet s 0x300) s.mode)
  { saved with
    mode := .m
    pc := narrow s.xlen (csrFileGet s 0x305 &&& ~~~(3#64))
    reservations := if s.cfg.trapKeepsReservation then s.reservations else [] }

/-- The bits of the instruction the block was given: the word, or the parcel zero-extended (60_exceptions.md R356). -/
def instructionBits (w : Word) : XWord := if isLong w then w.setWidth 64 else (lowParcel w).setWidth 64

/-- The trap value of an illegal instruction: the instruction bits, or 0 (60_exceptions.md R357 code 2, a parameter). -/
def illegalTval (s : State) : XWord := if s.cfg.illegalTvalZero then 0 else instructionBits s.word

/-! ### How an instruction completes -/

/-- What the block answers for an instruction: its record, and the record's text (10_state.md R22, R23). -/
def emit (i : Instr) (s : State) : State :=
  { s with result := some (.ok i.record i.compressed), text := format s.cfg.csrNames i.record }

/-- The address of the instruction after `i` (10_state.md R42). -/
def nextPc (i : Instr) (s : State) : XWord := narrow s.xlen (s.pc + BitVec.ofNat 64 i.compressed.bytes)

/-- The instruction takes an exception; the block's answer stands. -/
def raise (i : Instr) (code : Nat) (tval : XWord) (s : State) : Host.Outcome State Fault Refusal :=
  .next (takeException (emit i s) code tval)

/-- The record is illegal in the state (60_exceptions.md R356): exception 2. -/
def illegal (i : Instr) (s : State) : Host.Outcome State Fault Refusal := raise i 2 (illegalTval s) s

/-- The instruction has its effect on the state `t`, which carries what it wrote, and the pc advances. -/
def retire (i : Instr) (s t : State) : Host.Outcome State Fault Refusal := .next { emit i t with pc := nextPc i s }

/-- The instruction writes an integer register. -/
def retireX (i : Instr) (rd : Reg) (v : XWord) (s : State) : Host.Outcome State Fault Refusal := retire i s (writeX s rd v)

/-- The instruction transfers control to `target` after writing the address of the next instruction to `rd`
(40_base_integer.md R153, R154; for a compressed jump, log entry 13). -/
def jumpTo (i : Instr) (rd : Reg) (target : XWord) (s : State) : Host.Outcome State Fault Refusal :=
  .next { emit i (writeX s rd (nextPc i s)) with pc := narrow s.xlen target }

/-- A branch: to `pc + offset` where the condition holds (40_base_integer.md R147 to R152). -/
def branchOn (i : Instr) (taken : Bool) (offset : XWord) (s : State) : Host.Outcome State Fault Refusal :=
  if taken then .next { emit i s with pc := narrow s.xlen (s.pc + offset) } else retire i s s

/-- An access to data: `body` where it raises no exception, else the exception (60_exceptions.md R357, R358). An access that
raises one has no other effect: none of the bytes of a store is written (log entry 40). -/
def withAccess (i : Instr) (kind : AccessKind) (a : XWord) (n : Nat) (s : State)
    (body : Host.Outcome State Fault Refusal) : Host.Outcome State Fault Refusal :=
  match accessException s kind a n with
  | some code => raise i code (accessTval s code a) s
  | none => body

/-- An integer load (40_base_integer.md R139 to R143): `n` bytes at `base + offset`, extended by `ext`. Every address is
plain memory: a read has no side effect (20_memory.md R54; log entry 41). -/
def loadX (i : Instr) (n : Nat) (ext : Nat → Nat → XWord) (rd base : Reg) (offset : XWord) (s : State) :
    Host.Outcome State Fault Refusal :=
  let a := readX s base + offset
  withAccess i .load a n s (retireX i rd (ext n (loadNat s.xlen s.mem n a)) s)

/-- A store of the low `n` bytes of a value (40_base_integer.md R144 to R146). -/
def storeValue (i : Instr) (n : Nat) (v : Nat) (base : Reg) (offset : XWord) (s : State) :
    Host.Outcome State Fault Refusal :=
  let a := readX s base + offset
  withAccess i .store a n s (retire i s (storeMem s a n v))

/-- The word at an address. -/
def loadWord (s : State) (a : XWord) : BitVec 32 := BitVec.ofNat 32 (loadNat s.xlen s.mem 4 a)

/-- An AMO (42_a_extension.md R182 to R190): the old word to `rd`, sign-extended, and `f` of it and the
low word of the register to memory (under Rv64 log entry 42). -/
def amo (i : Instr) (f : BitVec 32 → BitVec 32 → BitVec 32) (rd addr src : Reg) (s : State) :
    Host.Outcome State Fault Refusal :=
  let a := readX s addr
  withAccess i .amo a 4 s
    (retire i s (writeX (storeMem s a 4 (f (loadWord s a) ((readX s src).setWidth 32)).toNat) rd
      ((loadWord s a).signExtend 64)))

/-- The reservation a load at `a` registers: the naturally aligned block of the parameter's size (20_memory.md R58; log
entry 17). -/
def reservationAt (s : State) (a : XWord) : Reservation :=
  let size := 4 * 2 ^ s.cfg.reservationLog2
  { base := addrKey s.xlen a / size * size, size := size }

/-- The reservations after a load registers one: the others survive where the parameter says so (20_memory.md R58). -/
def reserve (s : State) (a : XWord) : State :=
  { s with reservations := reservationAt s a ::
      (if s.cfg.lrKeepsReservation then s.reservations.filter (· != reservationAt s a) else []) }

/-- Whether a reservation held contains the word at `a` (20_memory.md R58). -/
def reserved (s : State) (a : XWord) : Bool :=
  s.reservations.any fun r => r.base ≤ addrKey s.xlen a && addrKey s.xlen a + 4 ≤ r.base + r.size

/-- An SC.W releases the reservation (20_memory.md R58). Where several are held it releases them all, whichever it
used (DESIGN CHOICE, log entry 17). -/
def release (s : State) : State := { s with reservations := [] }

/-- What a failing SC.W writes: any value but 0 (20_memory.md R58, 93_implementation_defined.md I23; log entry 18). -/
def scFailureValue (s : State) : XWord :=
  let v := narrow s.xlen (Config.scFailure s.tick)
  if v = 0 then 1 else v

/-- A load-reserved (42_a_extension.md R180): the word to `rd`, sign-extended, and a reservation. -/
def loadReserved (i : Instr) (rd addr : Reg) (s : State) : Host.Outcome State Fault Refusal :=
  let a := readX s addr
  withAccess i .loadReserved a 4 s (retire i s (writeX (reserve s a) rd ((loadWord s a).signExtend 64)))

/-- A store-conditional (42_a_extension.md R181): it stores and writes 0 where a reservation holds the word, else it makes no
access, though a misaligned address still traps, and writes a value that is not 0. Either way it releases the reservations
(20_memory.md R58; log entry 19). -/
def storeConditional (i : Instr) (rd addr src : Reg) (s : State) : Host.Outcome State Fault Refusal :=
  let a := readX s addr
  if reserved s a then
    withAccess i .storeConditional a 4 s (retire i s (writeX (release (storeMem s a 4 (readX s src).toNat)) rd 0))
  else if !aligned s a 4 then
    raise i (if s.cfg.misalignedAtomicFaults then accessFaultCode .storeConditional else misalignedCode .storeConditional)
      (narrow s.xlen a) s
  else retire i s (writeX (release s) rd (scFailureValue s))

/-- The Zicsr instructions (43_zicsr_zihintpause.md R195 to R200): the old value to `rd`, and `new`, a function of it, to the
CSR where the instruction writes. -/
def csrAccess (i : Instr) (rd : Reg) (c : Csr) (writes : Bool) (new : XWord → XWord) (s : State) :
    Host.Outcome State Fault Refusal :=
  if csrLegal s c writes then
    let old := csrValue s c
    retire i s (writeX (if writes then csrWrite s c (new old) else s) rd old)
  else illegal i s

end Sys2Proof.Machine
end

