-- ==== Sys2Proof/Machine/Atomic.lean ====
section
/-! DEFINITION. The meanings of the A extension (42_a_extension.md). With one hart the ordering flags change nothing it can see (log entry 22). -/

namespace Sys2Proof.Machine

/-- `lr.w` (42_a_extension.md R180). -/
def execLrW (aq rl : Bit) (rd addr : Reg) (s : State) : Host.Outcome State Fault Refusal :=
  loadReserved (.lrW aq rl rd addr) rd addr s

/-- `sc.w` (42_a_extension.md R181). -/
def execScW (aq rl : Bit) (rd addr src : Reg) (s : State) : Host.Outcome State Fault Refusal :=
  storeConditional (.scW aq rl rd addr src) rd addr src s

/-- `amoswap.w` (42_a_extension.md R182). -/
def execAmoswapW (aq rl : Bit) (rd addr src : Reg) (s : State) : Host.Outcome State Fault Refusal :=
  amo (.amoswapW aq rl rd addr src) amoSwap rd addr src s

/-- `amoadd.w` (42_a_extension.md R183). -/
def execAmoaddW (aq rl : Bit) (rd addr src : Reg) (s : State) : Host.Outcome State Fault Refusal :=
  amo (.amoaddW aq rl rd addr src) amoAdd rd addr src s

/-- `amoxor.w` (42_a_extension.md R184). -/
def execAmoxorW (aq rl : Bit) (rd addr src : Reg) (s : State) : Host.Outcome State Fault Refusal :=
  amo (.amoxorW aq rl rd addr src) amoXor rd addr src s

/-- `amoand.w` (42_a_extension.md R185). -/
def execAmoandW (aq rl : Bit) (rd addr src : Reg) (s : State) : Host.Outcome State Fault Refusal :=
  amo (.amoandW aq rl rd addr src) amoAnd rd addr src s

/-- `amoor.w` (42_a_extension.md R186). -/
def execAmoorW (aq rl : Bit) (rd addr src : Reg) (s : State) : Host.Outcome State Fault Refusal :=
  amo (.amoorW aq rl rd addr src) amoOr rd addr src s

/-- `amomin.w` (42_a_extension.md R187). -/
def execAmominW (aq rl : Bit) (rd addr src : Reg) (s : State) : Host.Outcome State Fault Refusal :=
  amo (.amominW aq rl rd addr src) amoMin rd addr src s

/-- `amomax.w` (42_a_extension.md R188). -/
def execAmomaxW (aq rl : Bit) (rd addr src : Reg) (s : State) : Host.Outcome State Fault Refusal :=
  amo (.amomaxW aq rl rd addr src) amoMax rd addr src s

/-- `amominu.w` (42_a_extension.md R189). -/
def execAmominuW (aq rl : Bit) (rd addr src : Reg) (s : State) : Host.Outcome State Fault Refusal :=
  amo (.amominuW aq rl rd addr src) amoMinu rd addr src s

/-- `amomaxu.w` (42_a_extension.md R190). -/
def execAmomaxuW (aq rl : Bit) (rd addr src : Reg) (s : State) : Host.Outcome State Fault Refusal :=
  amo (.amomaxuW aq rl rd addr src) amoMaxu rd addr src s

end Sys2Proof.Machine
end

