-- ==== Sys2Proof/Machine/Ieee.lean ====
section
/-! DEFINITION. The arithmetic of binary32 and binary64 over bit patterns held as natural numbers (44_f_extension.md R231, "IEEE
754-2008"). Each operation computes exactly and rounds once. Log entry 12 names what RISC-V settles and the spec does not
repeat: which flags an operation raises, and that tininess is detected after rounding. -/

namespace Sys2Proof.Ieee

/-- A binary format: the widths of its exponent and fraction. -/
structure FFormat where
  expBits : Nat
  fracBits : Nat
  deriving DecidableEq, Repr

/-- binary32 (10_state.md R36). -/
def single : FFormat := { expBits := 8, fracBits := 23 }

/-- binary64 (10_state.md R36). -/
def double : FFormat := { expBits := 11, fracBits := 52 }

/-- The format of a precision. -/
def ofFmt : Fmt → FFormat
  | .s => single
  | .d => double

/-- The largest exponent field, that of infinities and NaNs. -/
def FFormat.maxExp (F : FFormat) : Nat := 2 ^ F.expBits - 1

/-- The exponent of the last place of a subnormal number. -/
def FFormat.minQ (F : FFormat) : Int := 2 - 2 ^ (F.expBits - 1) - F.fracBits

/-- The pattern of +infinity. -/
def FFormat.infMag (F : FFormat) : Nat := F.maxExp * 2 ^ F.fracBits

/-- The weight of the sign bit. -/
def FFormat.signWeight (F : FFormat) : Nat := 2 ^ (F.expBits + F.fracBits)

/-- The canonical NaN: `0x7FC00000` and `0x7FF8000000000000` (44_f_extension.md R231). -/
def FFormat.canonicalNan (F : FFormat) : Nat := F.infMag + 2 ^ (F.fracBits - 1)

/-- What a pattern stands for: a finite value is `mant * 2 ^ exp`, negated when `neg`. -/
inductive FVal where
  | nan (signaling : Bool)
  | inf (neg : Bool)
  | fin (neg : Bool) (mant : Nat) (exp : Int)
  deriving DecidableEq, Repr

/-- The sign bit of a pattern. -/
def FFormat.signBit (F : FFormat) (b : Nat) : Bool := b / F.signWeight % 2 == 1

/-- The exponent field of a pattern. -/
def FFormat.expField (F : FFormat) (b : Nat) : Nat := b / 2 ^ F.fracBits % 2 ^ F.expBits

/-- The fraction field of a pattern. -/
def FFormat.fracField (F : FFormat) (b : Nat) : Nat := b % 2 ^ F.fracBits

/-- A pattern with the sign bit set or clear, over a magnitude. -/
def FFormat.withSign (F : FFormat) (neg : Bool) (mag : Nat) : Nat := if neg then F.signWeight + mag else mag

/-- What a pattern stands for (44_f_extension.md R231). A NaN is signaling where its leading fraction bit is 0 (PRESUMED, log
entry 43). -/
def FFormat.unpack (F : FFormat) (b : Nat) : FVal :=
  let neg := F.signBit b
  let e := F.expField b
  let m := F.fracField b
  if e = F.maxExp then
    if m = 0 then .inf neg else .nan (m < 2 ^ (F.fracBits - 1))
  else if e = 0 then .fin neg m F.minQ
  else .fin neg (2 ^ F.fracBits + m) (F.minQ + e - 1)

/-- A result and the exception flags it raises, NV, DZ, OF, UF, NX from bit 4 down. -/
structure FResult where
  bits : Nat
  flags : BitVec 5
  deriving DecidableEq, Repr

/-- Invalid operation. -/
def NV : BitVec 5 := 0b10000

/-- Division by zero. -/
def DZ : BitVec 5 := 0b01000

/-- Overflow. -/
def OF : BitVec 5 := 0b00100

/-- Underflow. -/
def UF : BitVec 5 := 0b00010

/-- Inexact. -/
def NX : BitVec 5 := 0b00001

/-- Whether a magnitude with last digit `odd`, followed by `rem` out of `2 * half`, rounds away from zero (10_state.md R37). `Dyn`
never reaches this point: it stands for the mode of `frm`. -/
def roundsUp (rm : RoundingMode) (neg odd : Bool) (rem half : Nat) : Bool :=
  match rm with
  | .rne => half < rem || (rem == half && odd)
  | .rtz => false
  | .rdn => neg && rem != 0
  | .rup => !neg && rem != 0
  | .rmm => half ≤ rem
  | .dyn => false

/-- `m / 2 ^ k` rounded to an integer. -/
def roundShift (rm : RoundingMode) (neg : Bool) (m k : Nat) : Nat :=
  if k = 0 then m
  else
    let q := m / 2 ^ k
    if roundsUp rm neg (q % 2 == 1) (m % 2 ^ k) (2 ^ (k - 1)) then q + 1 else q

/-- What an overflow gives: infinity, or the largest finite number where the mode rounds toward zero (10_state.md R37). -/
def FFormat.overflow (F : FFormat) (rm : RoundingMode) (neg : Bool) : FResult :=
  let toInf := match rm with
    | .rne => true
    | .rmm => true
    | .rtz => false
    | .rdn => neg
    | .rup => !neg
    | .dyn => true
  { bits := F.withSign neg (if toInf then F.infMag else F.infMag - 1), flags := OF ||| NX }

/-- The number `m * 2 ^ e` with a sign, rounded once; `m` is not 0. The number is tiny when, rounded with no bound on the
exponent, it lies below the smallest normal number. -/
def FFormat.round (F : FFormat) (rm : RoundingMode) (neg : Bool) (m : Nat) (e : Int) : FResult :=
  let q := e + Nat.log2 m - F.fracBits
  let q' := max q F.minQ
  let shift := (q' - e).toNat
  let scaled := if q' < e then m * 2 ^ (e - q').toNat else m
  let sig := roundShift rm neg scaled shift
  let mag := (q' - F.minQ).toNat * 2 ^ F.fracBits + sig
  let inexact := scaled % 2 ^ shift != 0
  let fullSig := roundShift rm neg (if q < e then m * 2 ^ (e - q).toNat else m) (q - e).toNat
  let tiny := q < F.minQ && !(q == F.minQ - 1 && fullSig == 2 ^ (F.fracBits + 1))
  if F.infMag ≤ mag then F.overflow rm neg
  else
    { bits := F.withSign neg mag
      flags := if inexact then (if tiny then UF ||| NX else NX) else 0 }

/-- An exact zero. -/
def FFormat.zero (F : FFormat) (neg : Bool) : FResult := { bits := F.withSign neg 0, flags := 0 }

/-- An infinity. -/
def FFormat.infinity (F : FFormat) (neg : Bool) : FResult := { bits := F.withSign neg F.infMag, flags := 0 }

/-- A NaN result is canonical; NV is raised where `invalid` (44_f_extension.md R231, "no payload propagation"). -/
def FFormat.nan (F : FFormat) (invalid : Bool) : FResult :=
  { bits := F.canonicalNan, flags := if invalid then NV else 0 }

/-- The sign of an exact zero sum: that of the terms where they agree, else minus under `Rdn` alone. -/
def zeroSumSign (rm : RoundingMode) (na nb : Bool) : Bool := if na == nb then na else rm == .rdn

/-- The signed integer of a magnitude. -/
def signedMant (neg : Bool) (m : Nat) : Int := if neg then -(m : Int) else m

/-- The sum of two finite values, rounded once. -/
def FFormat.sumFin (F : FFormat) (rm : RoundingMode) (na : Bool) (ma : Nat) (ea : Int) (nb : Bool) (mb : Nat) (eb : Int) :
    FResult :=
  let e := min ea eb
  let t := signedMant na (ma * 2 ^ (ea - e).toNat) + signedMant nb (mb * 2 ^ (eb - e).toNat)
  if t = 0 then F.zero (zeroSumSign rm na nb) else F.round rm (t < 0) t.natAbs e

/-- The sum of two values. -/
def FFormat.sum (F : FFormat) (rm : RoundingMode) (a b : FVal) : FResult :=
  match a, b with
  | .nan sa, .nan sb => F.nan (sa || sb)
  | .nan sa, .inf _ => F.nan sa
  | .nan sa, .fin _ _ _ => F.nan sa
  | .inf _, .nan sb => F.nan sb
  | .fin _ _ _, .nan sb => F.nan sb
  | .inf na, .inf nb => if na == nb then F.infinity na else F.nan true
  | .inf na, .fin _ _ _ => F.infinity na
  | .fin _ _ _, .inf nb => F.infinity nb
  | .fin na ma ea, .fin nb mb eb => F.sumFin rm na ma ea nb mb eb

/-- A value with its sign changed. -/
def FVal.negate : FVal → FVal
  | .nan s => .nan s
  | .inf n => .inf (!n)
  | .fin n m e => .fin (!n) m e

/-- `a + b` (44_f_extension.md R211). -/
def FFormat.add (F : FFormat) (rm : RoundingMode) (a b : Nat) : FResult := F.sum rm (F.unpack a) (F.unpack b)

/-- `a - b` (44_f_extension.md R212). -/
def FFormat.sub (F : FFormat) (rm : RoundingMode) (a b : Nat) : FResult := F.sum rm (F.unpack a) (F.unpack b).negate

/-- The exact product of two values, and whether it is an invalid operation, or none where the result is a NaN. -/
def product (a b : FVal) : Option FVal × Bool :=
  match a, b with
  | .nan sa, .nan sb => (none, sa || sb)
  | .nan sa, .inf _ => (none, sa)
  | .nan sa, .fin _ _ _ => (none, sa)
  | .inf _, .nan sb => (none, sb)
  | .fin _ _ _, .nan sb => (none, sb)
  | .inf na, .inf nb => (some (.inf (na != nb)), false)
  | .inf na, .fin nb mb _ => if mb = 0 then (none, true) else (some (.inf (na != nb)), false)
  | .fin na ma _, .inf nb => if ma = 0 then (none, true) else (some (.inf (na != nb)), false)
  | .fin na ma ea, .fin nb mb eb => (some (.fin (na != nb) (ma * mb) (ea + eb)), false)

/-- A value rounded to the format. -/
def FFormat.pack (F : FFormat) (rm : RoundingMode) (v : FVal) : FResult :=
  match v with
  | .nan s => F.nan s
  | .inf n => F.infinity n
  | .fin n m e => if m = 0 then F.zero n else F.round rm n m e

/-- `a * b` (44_f_extension.md R213). -/
def FFormat.mul (F : FFormat) (rm : RoundingMode) (a b : Nat) : FResult :=
  match product (F.unpack a) (F.unpack b) with
  | (some p, _) => F.pack rm p
  | (none, invalid) => F.nan invalid

/-- Whether a value is a signaling NaN. -/
def FVal.isSignaling : FVal → Bool
  | .nan s => s
  | .inf _ => false
  | .fin _ _ _ => false

/-- `± (a * b) ± c` with one rounding (44_f_extension.md R207 to R210). -/
def FFormat.fused (F : FFormat) (rm : RoundingMode) (negProduct negAddend : Bool) (a b c : Nat) : FResult :=
  let vc := if negAddend then (F.unpack c).negate else F.unpack c
  match product (F.unpack a) (F.unpack b) with
  | (some p, _) => F.sum rm (if negProduct then p.negate else p) vc
  | (none, invalid) => F.nan (invalid || vc.isSignaling)

/-- A magnitude with a last digit that says whether a remainder is left: it rounds as the exact number does. -/
def sticky (q rem : Nat) : Nat := 2 * q + (if rem = 0 then 0 else 1)

/-- The quotient of two finite values that are not 0, rounded once. -/
def FFormat.divFin (F : FFormat) (rm : RoundingMode) (neg : Bool) (ma : Nat) (ea : Int) (mb : Nat) (eb : Int) : FResult :=
  let k := F.fracBits + 3 + Nat.log2 mb
  let n := ma * 2 ^ k
  F.round rm neg (sticky (n / mb) (n % mb)) (ea - eb - k - 1)

/-- `a / b` (44_f_extension.md R214). -/
def FFormat.div (F : FFormat) (rm : RoundingMode) (a b : Nat) : FResult :=
  match F.unpack a, F.unpack b with
  | .nan sa, .nan sb => F.nan (sa || sb)
  | .nan sa, .inf _ => F.nan sa
  | .nan sa, .fin _ _ _ => F.nan sa
  | .inf _, .nan sb => F.nan sb
  | .fin _ _ _, .nan sb => F.nan sb
  | .inf _, .inf _ => F.nan true
  | .inf na, .fin nb _ _ => F.infinity (na != nb)
  | .fin na _ _, .inf nb => F.zero (na != nb)
  | .fin na ma ea, .fin nb mb eb =>
    if mb = 0 then
      if ma = 0 then F.nan true else { F.infinity (na != nb) with flags := DZ }
    else if ma = 0 then F.zero (na != nb)
    else F.divFin rm (na != nb) ma ea mb eb

/-- The square root rounded down, one binary digit at a time from digit `k` down. -/
def isqrtFrom : Nat → Nat → Nat → Nat
  | 0, _, r => r
  | k + 1, n, r => if (r + 2 ^ k) * (r + 2 ^ k) ≤ n then isqrtFrom k n (r + 2 ^ k) else isqrtFrom k n r

/-- The square root rounded down. -/
def isqrt (n : Nat) : Nat := isqrtFrom (Nat.log2 n / 2 + 1) n 0

/-- The square root of a finite value that is positive, rounded once. -/
def FFormat.sqrtFin (F : FFormat) (rm : RoundingMode) (m : Nat) (e : Int) : FResult :=
  let k := 2 * (F.fracBits + 3) + (e % 2).toNat
  let n := m * 2 ^ k
  let r := isqrt n
  F.round rm false (sticky r (n - r * r)) ((e - k) / 2 - 1)

/-- The square root (44_f_extension.md R215). -/
def FFormat.sqrt (F : FFormat) (rm : RoundingMode) (a : Nat) : FResult :=
  match F.unpack a with
  | .nan s => F.nan s
  | .inf neg => if neg then F.nan true else F.infinity false
  | .fin neg m e =>
    if m = 0 then F.zero neg
    else if neg then F.nan true
    else F.sqrtFin rm m e

/-- Whether `a < b` for two values that are no NaN; the two zeros are equal. -/
def FVal.less (a b : FVal) : Bool :=
  match a, b with
  | .nan _, _ => false
  | .inf _, .nan _ => false
  | .fin _ _ _, .nan _ => false
  | .inf na, .inf nb => na && !nb
  | .inf na, .fin _ _ _ => na
  | .fin _ _ _, .inf nb => !nb
  | .fin na ma ea, .fin nb mb eb =>
    let e := min ea eb
    signedMant na (ma * 2 ^ (ea - e).toNat) < signedMant nb (mb * 2 ^ (eb - e).toNat)

/-- Whether a value is a NaN. -/
def FVal.isNan : FVal → Bool
  | .nan _ => true
  | .inf _ => false
  | .fin _ _ _ => false

/-- The sign of a value. -/
def FVal.sign : FVal → Bool
  | .nan _ => false
  | .inf n => n
  | .fin n _ _ => n

/-- NV where one of two values is a signaling NaN. -/
def signalingFlags (a b : FVal) : BitVec 5 := if a.isSignaling || b.isSignaling then NV else 0

/-- NV where one of two values is any NaN. -/
def nanFlags (a b : FVal) : BitVec 5 := if a.isNan || b.isNan then NV else 0

/-- Whether `a` comes before `b` in the order that puts -0 below +0. -/
def FVal.before (a b : FVal) : Bool := a.less b || (!b.less a && a.sign && !b.sign)

/-- The smaller, or the larger, of two: the operand that is no NaN when one is (44_f_extension.md R219, R220, R231). -/
def FFormat.minMax (F : FFormat) (larger : Bool) (a b : Nat) : FResult :=
  let va := F.unpack a
  let vb := F.unpack b
  let pick :=
    if va.isNan then (if vb.isNan then F.canonicalNan else b)
    else if vb.isNan then a
    else if (if larger then vb.before va else va.before vb) then a else b
  { bits := pick, flags := signalingFlags va vb }

/-- `a == b`, quiet (44_f_extension.md R221). -/
def FFormat.eq (F : FFormat) (a b : Nat) : FResult :=
  let va := F.unpack a
  let vb := F.unpack b
  let holds := !va.isNan && !vb.isNan && !va.less vb && !vb.less va
  { bits := if holds then 1 else 0, flags := signalingFlags va vb }

/-- `a < b`, signaling on any NaN (44_f_extension.md R222). -/
def FFormat.lt (F : FFormat) (a b : Nat) : FResult :=
  let va := F.unpack a
  let vb := F.unpack b
  { bits := if va.less vb then 1 else 0, flags := nanFlags va vb }

/-- `a <= b`, signaling on any NaN (44_f_extension.md R223). -/
def FFormat.le (F : FFormat) (a b : Nat) : FResult :=
  let va := F.unpack a
  let vb := F.unpack b
  { bits := if !va.isNan && !vb.isNan && !vb.less va then 1 else 0, flags := nanFlags va vb }

/-- The number of the class of a pattern: bit 0 is -infinity, 9 a quiet NaN (44_f_extension.md R231). -/
def FFormat.classBit (F : FFormat) (a : Nat) : Nat :=
  match F.unpack a with
  | .nan s => if s then 8 else 9
  | .inf n => if n then 0 else 7
  | .fin n m _ =>
    if m = 0 then (if n then 3 else 4)
    else if m < 2 ^ F.fracBits then (if n then 2 else 5)
    else if n then 1 else 6

/-- The class mask (44_f_extension.md R224). -/
def FFormat.classify (F : FFormat) (a : Nat) : Nat := 2 ^ F.classBit a

/-- The magnitude of a finite value rounded to an integer, and whether it was inexact. -/
def roundToInt (rm : RoundingMode) (neg : Bool) (m : Nat) (e : Int) : Nat × Bool :=
  if 0 ≤ e then (m * 2 ^ e.toNat, false)
  else (roundShift rm neg m (-e).toNat, m % 2 ^ (-e).toNat != 0)

/-- A value converted to an integer from `lo` to `hi`: it saturates and raises NV out of range, and a NaN gives `hi`
(44_f_extension.md R225, R226, R231). -/
def FFormat.toInt (F : FFormat) (rm : RoundingMode) (lo hi : Int) (a : Nat) : Int × BitVec 5 :=
  match F.unpack a with
  | .nan _ => (hi, NV)
  | .inf n => (if n then lo else hi, NV)
  | .fin n m e =>
    let (mag, inexact) := roundToInt rm n m e
    let v := signedMant n mag
    if v < lo then (lo, NV)
    else if hi < v then (hi, NV)
    else (v, if inexact then NX else 0)

/-- An integer converted to the format (44_f_extension.md R227, R228). -/
def FFormat.ofInt (F : FFormat) (rm : RoundingMode) (v : Int) : FResult :=
  if v = 0 then F.zero false else F.round rm (v < 0) v.natAbs 0

/-- A pattern of format `G` converted to format `F` (45_d_extension.md R251, R252). -/
def FFormat.convert (F G : FFormat) (rm : RoundingMode) (a : Nat) : FResult := F.pack rm (G.unpack a)

/-- The magnitude of `a` under the sign `neg` (44_f_extension.md R216 to R218). -/
def FFormat.injectSign (F : FFormat) (neg : Bool) (a : Nat) : Nat := F.withSign neg (a % F.signWeight)

end Sys2Proof.Ieee
end

