-- ==== Sys2Proof/Machine/Flags.lean ====
section
/-! DEFINITION. The FP side: the exception flags and the rounding mode, NaN-boxing, and how an F or D instruction completes
(44_f_extension.md R231). RISC-V has no condition codes (10_state.md R43): these are all the flags there are. -/

namespace Sys2Proof.Machine

/-- The flags an operation raises accumulate in `fflags` (44_f_extension.md R231). -/
def accrue (s : State) (flags : BitVec 5) : State := { s with fflags := s.fflags ||| flags }

/-- The mode an instruction rounds in: its own, or that of `frm` for `Dyn`, none where `frm` holds 101, 110 or 111
(44_f_extension.md R203, R231). -/
def resolveRm (s : State) (rm : RoundingMode) : Option RoundingMode :=
  if rm = .dyn then
    match RoundingMode.ofCode s.frm with
    | some m => if m = .dyn then none else some m
    | none => none
  else some rm

/-- A single in a 64-bit register: the upper 32 bits are ones (44_f_extension.md R231). -/
def boxS (v : BitVec 32) : FWord := BitVec.allOnes 32 ++ v

/-- The single a register holds: the canonical NaN where it is not boxed (44_f_extension.md R231). -/
def unboxS (v : FWord) : BitVec 32 := if v.extractLsb' 32 32 = BitVec.allOnes 32 then v.setWidth 32 else 0x7FC00000

/-- `f[r]` as a pattern of a format. -/
def readFp (s : State) (p : Fmt) (r : Reg) : Nat :=
  match p with
  | .s => (unboxS (readF s r)).toNat
  | .d => (readF s r).toNat

/-- `f[r] <- v`, a pattern of a format. -/
def writeFp (s : State) (p : Fmt) (r : Reg) (v : Nat) : State :=
  match p with
  | .s => writeF s r (boxS (BitVec.ofNat 32 v))
  | .d => writeF s r (BitVec.ofNat 64 v)

/-- An F or D instruction is illegal while the FP unit is off (60_exceptions.md R356). -/
def whenFpOn (i : Instr) (s : State) (body : Host.Outcome State Fault Refusal) : Host.Outcome State Fault Refusal :=
  if s.fpOn then body else illegal i s

/-- An instruction with a rounding mode is illegal where that is `Dyn` and `frm` holds no mode (60_exceptions.md R356). -/
def withMode (i : Instr) (rm : RoundingMode) (s : State) (body : RoundingMode → Host.Outcome State Fault Refusal) :
    Host.Outcome State Fault Refusal :=
  whenFpOn i s
    (match resolveRm s rm with
    | some m => body m
    | none => illegal i s)

/-- The result of an operation goes to an FP register, and its flags accumulate. -/
def retireFp (i : Instr) (p : Fmt) (rd : Reg) (r : Ieee.FResult) (s : State) : Host.Outcome State Fault Refusal :=
  retire i s (accrue (writeFp s p rd r.bits) r.flags)

/-- The result of an operation goes to an integer register, and its flags accumulate. -/
def retireFpX (i : Instr) (rd : Reg) (v : XWord) (flags : BitVec 5) (s : State) : Host.Outcome State Fault Refusal :=
  retire i s (accrue (writeX s rd v) flags)

/-- A binary operation with a rounding mode (44_f_extension.md R211 to R214). -/
def fpBinary (i : Instr) (p : Fmt) (op : Ieee.FFormat → RoundingMode → Nat → Nat → Ieee.FResult) (rm : RoundingMode)
    (rd rs1 rs2 : Reg) (s : State) : Host.Outcome State Fault Refusal :=
  withMode i rm s fun m => retireFp i p rd (op (Ieee.ofFmt p) m (readFp s p rs1) (readFp s p rs2)) s

/-- The square root (44_f_extension.md R215). -/
def fpSqrt (i : Instr) (p : Fmt) (rm : RoundingMode) (rd rs1 : Reg) (s : State) : Host.Outcome State Fault Refusal :=
  withMode i rm s fun m => retireFp i p rd ((Ieee.ofFmt p).sqrt m (readFp s p rs1)) s

/-- A fused operation (44_f_extension.md R207 to R210). -/
def fpFused (i : Instr) (p : Fmt) (negProduct negAddend : Bool) (rm : RoundingMode) (rd rs1 rs2 rs3 : Reg) (s : State) :
    Host.Outcome State Fault Refusal :=
  withMode i rm s fun m =>
    retireFp i p rd
      ((Ieee.ofFmt p).fused m negProduct negAddend (readFp s p rs1) (readFp s p rs2) (readFp s p rs3)) s

/-- A sign injection: the sign is `sign` of the two signs; no flag changes (44_f_extension.md R216 to R218). -/
def fpSign (i : Instr) (p : Fmt) (sign : Bool → Bool → Bool) (rd rs1 rs2 : Reg) (s : State) :
    Host.Outcome State Fault Refusal :=
  whenFpOn i s
    (retire i s (writeFp s p rd ((Ieee.ofFmt p).injectSign
      (sign ((Ieee.ofFmt p).signBit (readFp s p rs1)) ((Ieee.ofFmt p).signBit (readFp s p rs2))) (readFp s p rs1))))

/-- The smaller or larger of two (44_f_extension.md R219, R220). -/
def fpMinMax (i : Instr) (p : Fmt) (larger : Bool) (rd rs1 rs2 : Reg) (s : State) : Host.Outcome State Fault Refusal :=
  whenFpOn i s (retireFp i p rd ((Ieee.ofFmt p).minMax larger (readFp s p rs1) (readFp s p rs2)) s)

/-- A comparison (44_f_extension.md R221 to R223). -/
def fpCompare (i : Instr) (p : Fmt) (op : Ieee.FFormat → Nat → Nat → Ieee.FResult) (rd rs1 rs2 : Reg) (s : State) :
    Host.Outcome State Fault Refusal :=
  let r := op (Ieee.ofFmt p) (readFp s p rs1) (readFp s p rs2)
  whenFpOn i s (retireFpX i rd (BitVec.ofNat 64 r.bits) r.flags s)

/-- The class mask; no flag changes (44_f_extension.md R224). -/
def fpClassify (i : Instr) (p : Fmt) (rd rs1 : Reg) (s : State) : Host.Outcome State Fault Refusal :=
  whenFpOn i s (retireX i rd (BitVec.ofNat 64 ((Ieee.ofFmt p).classify (readFp s p rs1))) s)

/-- A conversion to a 32-bit integer from `lo` to `hi`, sign-extended from 32 bits (44_f_extension.md R225, R226). -/
def fpToInt (i : Instr) (p : Fmt) (lo hi : Int) (rm : RoundingMode) (rd rs1 : Reg) (s : State) :
    Host.Outcome State Fault Refusal :=
  withMode i rm s fun m =>
    let r := (Ieee.ofFmt p).toInt m lo hi (readFp s p rs1)
    retireFpX i rd ((BitVec.ofInt 32 r.1).signExtend 64) r.2 s

/-- A conversion from an integer (44_f_extension.md R227, R228). -/
def fpOfInt (i : Instr) (p : Fmt) (v : Int) (rm : RoundingMode) (rd : Reg) (s : State) : Host.Outcome State Fault Refusal :=
  withMode i rm s fun m => retireFp i p rd ((Ieee.ofFmt p).ofInt m v) s

/-- A conversion from one precision to another (45_d_extension.md R251, R252). -/
def fpConvert (i : Instr) (dst src : Fmt) (rm : RoundingMode) (rd rs1 : Reg) (s : State) :
    Host.Outcome State Fault Refusal :=
  withMode i rm s fun m => retireFp i dst rd ((Ieee.ofFmt dst).convert (Ieee.ofFmt src) m (readFp s src rs1)) s

/-- The bytes of a value of a format: 4 or 8. -/
def fmtBytes : Fmt → Nat
  | .s => 4
  | .d => 8

/-- An FP load (44_f_extension.md R205, 45_d_extension.md R235): 4 bytes boxed, or 8. -/
def fpLoad (i : Instr) (p : Fmt) (rd base : Reg) (offset : XWord) (s : State) : Host.Outcome State Fault Refusal :=
  let a := readX s base + offset
  whenFpOn i s
    (withAccess i .load a (fmtBytes p) s (retire i s (writeFp s p rd (loadNat s.xlen s.mem (fmtBytes p) a))))

/-- An FP store (44_f_extension.md R206, 45_d_extension.md R236): the low 4 bytes of the register, or all 8; no unboxing. -/
def fpStore (i : Instr) (p : Fmt) (src base : Reg) (offset : XWord) (s : State) : Host.Outcome State Fault Refusal :=
  whenFpOn i s (storeValue i (fmtBytes p) (readF s src).toNat base offset s)

end Sys2Proof.Machine
end

