-- ==== Sys2Proof/Machine/Compressed.lean ====
section
/-! DEFINITION. The meanings of the C extension (46_compressed.md R266): each row has the meaning of its expansion, at two bytes (10_state.md R42). -/

namespace Sys2Proof.Machine

/-- `c.addi4spn` (46_compressed.md R270). -/
def execCAddi4spn (rd' : CReg) (nzuimm : BitVec 10) (s : State) : Host.Outcome State Fault Refusal :=
  retireX (.cAddi4spn rd' nzuimm) (CReg.toReg rd') (aluAdd s.xlen (readX s 2) (zextImm nzuimm)) s

/-- `c.fld` (46_compressed.md R271). -/
def execCFld (rd' rs1' : CReg) (offset : BitVec 8) (s : State) : Host.Outcome State Fault Refusal :=
  fpLoad (.cFld rd' rs1' offset) .d (CReg.toReg rd') (CReg.toReg rs1') (zextImm offset) s

/-- `c.lw` (46_compressed.md R272). -/
def execCLw (rd' rs1' : CReg) (offset : BitVec 7) (s : State) : Host.Outcome State Fault Refusal :=
  loadX (.cLw rd' rs1' offset) 4 sextLoad (CReg.toReg rd') (CReg.toReg rs1') (zextImm offset) s

/-- `c.flw` (46_compressed.md R273). -/
def execCFlw (rd' rs1' : CReg) (offset : BitVec 7) (s : State) : Host.Outcome State Fault Refusal :=
  fpLoad (.cFlw rd' rs1' offset) .s (CReg.toReg rd') (CReg.toReg rs1') (zextImm offset) s

/-- `c.fsd` (46_compressed.md R274). -/
def execCFsd (rs2' rs1' : CReg) (offset : BitVec 8) (s : State) : Host.Outcome State Fault Refusal :=
  fpStore (.cFsd rs2' rs1' offset) .d (CReg.toReg rs2') (CReg.toReg rs1') (zextImm offset) s

/-- `c.sw` (46_compressed.md R275). -/
def execCSw (rs2' rs1' : CReg) (offset : BitVec 7) (s : State) : Host.Outcome State Fault Refusal :=
  storeValue (.cSw rs2' rs1' offset) 4 (readX s (CReg.toReg rs2')).toNat (CReg.toReg rs1') (zextImm offset) s

/-- `c.fsw` (46_compressed.md R276). -/
def execCFsw (rs2' rs1' : CReg) (offset : BitVec 7) (s : State) : Host.Outcome State Fault Refusal :=
  fpStore (.cFsw rs2' rs1' offset) .s (CReg.toReg rs2') (CReg.toReg rs1') (zextImm offset) s

/-- `c.nop` (46_compressed.md R277). -/
def execCNop (imm : BitVec 6) (s : State) : Host.Outcome State Fault Refusal :=
  retireX (.cNop imm) 0 (aluAdd s.xlen (readX s 0) (sextImm imm)) s

/-- `c.addi` (46_compressed.md R278). -/
def execCAddi (rd : Reg) (imm : BitVec 6) (s : State) : Host.Outcome State Fault Refusal :=
  retireX (.cAddi rd imm) rd (aluAdd s.xlen (readX s rd) (sextImm imm)) s

/-- `c.jal` (46_compressed.md R279). The link is the address of the next instruction (log entry 13). -/
def execCJal (offset : BitVec 12) (s : State) : Host.Outcome State Fault Refusal :=
  jumpTo (.cJal offset) 1 (s.pc + sextImm offset) s

/-- `c.li` (46_compressed.md R280). -/
def execCLi (rd : Reg) (imm : BitVec 6) (s : State) : Host.Outcome State Fault Refusal :=
  retireX (.cLi rd imm) rd (aluAdd s.xlen (readX s 0) (sextImm imm)) s

/-- `c.addi16sp` (46_compressed.md R281). -/
def execCAddi16sp (nzimm : BitVec 10) (s : State) : Host.Outcome State Fault Refusal :=
  retireX (.cAddi16sp nzimm) 2 (aluAdd s.xlen (readX s 2) (sextImm nzimm)) s

/-- `c.lui` (46_compressed.md R282). -/
def execCLui (rd : Reg) (upper : BitVec 6) (s : State) : Host.Outcome State Fault Refusal :=
  retireX (.cLui rd upper) rd (upperImm (upper.signExtend 20)) s

/-- `c.srli` (46_compressed.md R283). -/
def execCSrli (rd' : CReg) (shamt : U5) (s : State) : Host.Outcome State Fault Refusal :=
  retireX (.cSrli rd' shamt) (CReg.toReg rd') (aluSrl s.xlen (readX s (CReg.toReg rd')) (zextImm shamt)) s

/-- `c.srai` (46_compressed.md R284). -/
def execCSrai (rd' : CReg) (shamt : U5) (s : State) : Host.Outcome State Fault Refusal :=
  retireX (.cSrai rd' shamt) (CReg.toReg rd') (aluSra s.xlen (readX s (CReg.toReg rd')) (zextImm shamt)) s

/-- `c.andi` (46_compressed.md R285). -/
def execCAndi (rd' : CReg) (imm : BitVec 6) (s : State) : Host.Outcome State Fault Refusal :=
  retireX (.cAndi rd' imm) (CReg.toReg rd') (aluAnd s.xlen (readX s (CReg.toReg rd')) (sextImm imm)) s

/-- `c.sub` (46_compressed.md R286). -/
def execCSub (rd' rs2' : CReg) (s : State) : Host.Outcome State Fault Refusal :=
  retireX (.cSub rd' rs2') (CReg.toReg rd') (aluSub s.xlen (readX s (CReg.toReg rd')) (readX s (CReg.toReg rs2'))) s

/-- `c.xor` (46_compressed.md R287). -/
def execCXor (rd' rs2' : CReg) (s : State) : Host.Outcome State Fault Refusal :=
  retireX (.cXor rd' rs2') (CReg.toReg rd') (aluXor s.xlen (readX s (CReg.toReg rd')) (readX s (CReg.toReg rs2'))) s

/-- `c.or` (46_compressed.md R288). -/
def execCOr (rd' rs2' : CReg) (s : State) : Host.Outcome State Fault Refusal :=
  retireX (.cOr rd' rs2') (CReg.toReg rd') (aluOr s.xlen (readX s (CReg.toReg rd')) (readX s (CReg.toReg rs2'))) s

/-- `c.and` (46_compressed.md R289). -/
def execCAnd (rd' rs2' : CReg) (s : State) : Host.Outcome State Fault Refusal :=
  retireX (.cAnd rd' rs2') (CReg.toReg rd') (aluAnd s.xlen (readX s (CReg.toReg rd')) (readX s (CReg.toReg rs2'))) s

/-- `c.j` (46_compressed.md R290). -/
def execCJ (offset : BitVec 12) (s : State) : Host.Outcome State Fault Refusal :=
  jumpTo (.cJ offset) 0 (s.pc + sextImm offset) s

/-- `c.beqz` (46_compressed.md R291). -/
def execCBeqz (rs1' : CReg) (offset : BitVec 9) (s : State) : Host.Outcome State Fault Refusal :=
  branchOn (.cBeqz rs1' offset) (condEq s.xlen (readX s (CReg.toReg rs1')) (readX s 0)) (sextImm offset) s

/-- `c.bnez` (46_compressed.md R292). -/
def execCBnez (rs1' : CReg) (offset : BitVec 9) (s : State) : Host.Outcome State Fault Refusal :=
  branchOn (.cBnez rs1' offset) (condNe s.xlen (readX s (CReg.toReg rs1')) (readX s 0)) (sextImm offset) s

/-- `c.slli` (46_compressed.md R293). -/
def execCSlli (rd : Reg) (shamt : U5) (s : State) : Host.Outcome State Fault Refusal :=
  retireX (.cSlli rd shamt) rd (aluSll s.xlen (readX s rd) (zextImm shamt)) s

/-- `c.fldsp` (46_compressed.md R294). -/
def execCFldsp (rd : Reg) (offset : BitVec 9) (s : State) : Host.Outcome State Fault Refusal :=
  fpLoad (.cFldsp rd offset) .d rd 2 (zextImm offset) s

/-- `c.lwsp` (46_compressed.md R295). -/
def execCLwsp (rd : Reg) (offset : BitVec 8) (s : State) : Host.Outcome State Fault Refusal :=
  loadX (.cLwsp rd offset) 4 sextLoad rd 2 (zextImm offset) s

/-- `c.flwsp` (46_compressed.md R296). -/
def execCFlwsp (rd : Reg) (offset : BitVec 8) (s : State) : Host.Outcome State Fault Refusal :=
  fpLoad (.cFlwsp rd offset) .s rd 2 (zextImm offset) s

/-- `c.jr` (46_compressed.md R297). -/
def execCJr (rs1 : Reg) (s : State) : Host.Outcome State Fault Refusal :=
  jumpTo (.cJr rs1) 0 (readX s rs1 &&& ~~~1#64) s

/-- `c.mv` (46_compressed.md R298). -/
def execCMv (rd rs2 : Reg) (s : State) : Host.Outcome State Fault Refusal :=
  retireX (.cMv rd rs2) rd (aluAdd s.xlen (readX s 0) (readX s rs2)) s

/-- `c.ebreak` (46_compressed.md R299). It takes exception 3, with the pc as trap value (60_exceptions.md R357). -/
def execCEbreak (s : State) : Host.Outcome State Fault Refusal :=
  raise .cEbreak 3 s.pc s

/-- `c.jalr` (46_compressed.md R300). The link is the address of the next instruction (log entry 13). -/
def execCJalr (rs1 : Reg) (s : State) : Host.Outcome State Fault Refusal :=
  jumpTo (.cJalr rs1) 1 (readX s rs1 &&& ~~~1#64) s

/-- `c.add` (46_compressed.md R301). -/
def execCAdd (rd rs2 : Reg) (s : State) : Host.Outcome State Fault Refusal :=
  retireX (.cAdd rd rs2) rd (aluAdd s.xlen (readX s rd) (readX s rs2)) s

/-- `c.fsdsp` (46_compressed.md R302). -/
def execCFsdsp (rs2 : Reg) (offset : BitVec 9) (s : State) : Host.Outcome State Fault Refusal :=
  fpStore (.cFsdsp rs2 offset) .d rs2 2 (zextImm offset) s

/-- `c.swsp` (46_compressed.md R303). -/
def execCSwsp (rs2 : Reg) (offset : BitVec 8) (s : State) : Host.Outcome State Fault Refusal :=
  storeValue (.cSwsp rs2 offset) 4 (readX s rs2).toNat 2 (zextImm offset) s

/-- `c.fswsp` (46_compressed.md R304). -/
def execCFswsp (rs2 : Reg) (offset : BitVec 8) (s : State) : Host.Outcome State Fault Refusal :=
  fpStore (.cFswsp rs2 offset) .s rs2 2 (zextImm offset) s

end Sys2Proof.Machine
end

