-- ==== Sys2Proof/Machine/Control.lean ====
section
/-! DEFINITION. The meanings of the branches and jumps (40_base_integer.md R147 to R154). -/

namespace Sys2Proof.Machine

/-- `beq` (40_base_integer.md R147). -/
def execBeq (rs1 rs2 : Reg) (offset : BitVec 13) (s : State) : Host.Outcome State Fault Refusal :=
  branchOn (.beq rs1 rs2 offset) (condEq s.xlen (readX s rs1) (readX s rs2)) (sextImm offset) s

/-- `bne` (40_base_integer.md R148). -/
def execBne (rs1 rs2 : Reg) (offset : BitVec 13) (s : State) : Host.Outcome State Fault Refusal :=
  branchOn (.bne rs1 rs2 offset) (condNe s.xlen (readX s rs1) (readX s rs2)) (sextImm offset) s

/-- `blt` (40_base_integer.md R149). -/
def execBlt (rs1 rs2 : Reg) (offset : BitVec 13) (s : State) : Host.Outcome State Fault Refusal :=
  branchOn (.blt rs1 rs2 offset) (condLt s.xlen (readX s rs1) (readX s rs2)) (sextImm offset) s

/-- `bge` (40_base_integer.md R150). -/
def execBge (rs1 rs2 : Reg) (offset : BitVec 13) (s : State) : Host.Outcome State Fault Refusal :=
  branchOn (.bge rs1 rs2 offset) (condGe s.xlen (readX s rs1) (readX s rs2)) (sextImm offset) s

/-- `bltu` (40_base_integer.md R151). -/
def execBltu (rs1 rs2 : Reg) (offset : BitVec 13) (s : State) : Host.Outcome State Fault Refusal :=
  branchOn (.bltu rs1 rs2 offset) (condLtu s.xlen (readX s rs1) (readX s rs2)) (sextImm offset) s

/-- `bgeu` (40_base_integer.md R152). -/
def execBgeu (rs1 rs2 : Reg) (offset : BitVec 13) (s : State) : Host.Outcome State Fault Refusal :=
  branchOn (.bgeu rs1 rs2 offset) (condGeu s.xlen (readX s rs1) (readX s rs2)) (sextImm offset) s

/-- `jal` (40_base_integer.md R153). -/
def execJal (rd : Reg) (offset : BitVec 21) (s : State) : Host.Outcome State Fault Refusal :=
  jumpTo (.jal rd offset) rd (s.pc + sextImm offset) s

/-- `jalr` (40_base_integer.md R154). -/
def execJalr (rd base : Reg) (offset : BitVec 12) (s : State) : Host.Outcome State Fault Refusal :=
  jumpTo (.jalr rd base offset) rd ((readX s base + sextImm offset) &&& ~~~1#64) s

end Sys2Proof.Machine
end

