-- ==== Sys2Proof/Machine/FloatD.lean ====
section
/-! DEFINITION. The meanings of the D extension (45_d_extension.md). -/

namespace Sys2Proof.Machine

/-- `fld` (45_d_extension.md R235). -/
def execFld (rd base : Reg) (offset : BitVec 12) (s : State) : Host.Outcome State Fault Refusal :=
  fpLoad (.fld rd base offset) .d rd base (sextImm offset) s

/-- `fsd` (45_d_extension.md R236). -/
def execFsd (src base : Reg) (offset : BitVec 12) (s : State) : Host.Outcome State Fault Refusal :=
  fpStore (.fsd src base offset) .d src base (sextImm offset) s

/-- `fmadd.d` (45_d_extension.md R237). -/
def execFmaddD (rm : RoundingMode) (rd rs1 rs2 rs3 : Reg) (s : State) : Host.Outcome State Fault Refusal :=
  fpFused (.fmaddD rm rd rs1 rs2 rs3) .d false false rm rd rs1 rs2 rs3 s

/-- `fmsub.d` (45_d_extension.md R238). -/
def execFmsubD (rm : RoundingMode) (rd rs1 rs2 rs3 : Reg) (s : State) : Host.Outcome State Fault Refusal :=
  fpFused (.fmsubD rm rd rs1 rs2 rs3) .d false true rm rd rs1 rs2 rs3 s

/-- `fnmsub.d` (45_d_extension.md R239). -/
def execFnmsubD (rm : RoundingMode) (rd rs1 rs2 rs3 : Reg) (s : State) : Host.Outcome State Fault Refusal :=
  fpFused (.fnmsubD rm rd rs1 rs2 rs3) .d true false rm rd rs1 rs2 rs3 s

/-- `fnmadd.d` (45_d_extension.md R240). -/
def execFnmaddD (rm : RoundingMode) (rd rs1 rs2 rs3 : Reg) (s : State) : Host.Outcome State Fault Refusal :=
  fpFused (.fnmaddD rm rd rs1 rs2 rs3) .d true true rm rd rs1 rs2 rs3 s

/-- `fadd.d` (45_d_extension.md R241). -/
def execFaddD (rm : RoundingMode) (rd rs1 rs2 : Reg) (s : State) : Host.Outcome State Fault Refusal :=
  fpBinary (.faddD rm rd rs1 rs2) .d Ieee.FFormat.add rm rd rs1 rs2 s

/-- `fsub.d` (45_d_extension.md R242). -/
def execFsubD (rm : RoundingMode) (rd rs1 rs2 : Reg) (s : State) : Host.Outcome State Fault Refusal :=
  fpBinary (.fsubD rm rd rs1 rs2) .d Ieee.FFormat.sub rm rd rs1 rs2 s

/-- `fmul.d` (45_d_extension.md R243). -/
def execFmulD (rm : RoundingMode) (rd rs1 rs2 : Reg) (s : State) : Host.Outcome State Fault Refusal :=
  fpBinary (.fmulD rm rd rs1 rs2) .d Ieee.FFormat.mul rm rd rs1 rs2 s

/-- `fdiv.d` (45_d_extension.md R244). -/
def execFdivD (rm : RoundingMode) (rd rs1 rs2 : Reg) (s : State) : Host.Outcome State Fault Refusal :=
  fpBinary (.fdivD rm rd rs1 rs2) .d Ieee.FFormat.div rm rd rs1 rs2 s

/-- `fsqrt.d` (45_d_extension.md R245). -/
def execFsqrtD (rm : RoundingMode) (rd rs1 : Reg) (s : State) : Host.Outcome State Fault Refusal :=
  fpSqrt (.fsqrtD rm rd rs1) .d rm rd rs1 s

/-- `fsgnj.d` (45_d_extension.md R246). -/
def execFsgnjD (rd rs1 rs2 : Reg) (s : State) : Host.Outcome State Fault Refusal :=
  fpSign (.fsgnjD rd rs1 rs2) .d (fun _ b => b) rd rs1 rs2 s

/-- `fsgnjn.d` (45_d_extension.md R247). -/
def execFsgnjnD (rd rs1 rs2 : Reg) (s : State) : Host.Outcome State Fault Refusal :=
  fpSign (.fsgnjnD rd rs1 rs2) .d (fun _ b => !b) rd rs1 rs2 s

/-- `fsgnjx.d` (45_d_extension.md R248). -/
def execFsgnjxD (rd rs1 rs2 : Reg) (s : State) : Host.Outcome State Fault Refusal :=
  fpSign (.fsgnjxD rd rs1 rs2) .d (fun a b => a != b) rd rs1 rs2 s

/-- `fmin.d` (45_d_extension.md R249). -/
def execFminD (rd rs1 rs2 : Reg) (s : State) : Host.Outcome State Fault Refusal :=
  fpMinMax (.fminD rd rs1 rs2) .d false rd rs1 rs2 s

/-- `fmax.d` (45_d_extension.md R250). -/
def execFmaxD (rd rs1 rs2 : Reg) (s : State) : Host.Outcome State Fault Refusal :=
  fpMinMax (.fmaxD rd rs1 rs2) .d true rd rs1 rs2 s

/-- `fcvt.s.d` (45_d_extension.md R251). -/
def execFcvtSD (rm : RoundingMode) (rd rs1 : Reg) (s : State) : Host.Outcome State Fault Refusal :=
  fpConvert (.fcvtSD rm rd rs1) .s .d rm rd rs1 s

/-- `fcvt.d.s` (45_d_extension.md R252). It is exact. -/
def execFcvtDS (rd rs1 : Reg) (s : State) : Host.Outcome State Fault Refusal :=
  fpConvert (.fcvtDS rd rs1) .d .s .rne rd rs1 s

/-- `feq.d` (45_d_extension.md R253). -/
def execFeqD (rd rs1 rs2 : Reg) (s : State) : Host.Outcome State Fault Refusal :=
  fpCompare (.feqD rd rs1 rs2) .d Ieee.FFormat.eq rd rs1 rs2 s

/-- `flt.d` (45_d_extension.md R254). -/
def execFltD (rd rs1 rs2 : Reg) (s : State) : Host.Outcome State Fault Refusal :=
  fpCompare (.fltD rd rs1 rs2) .d Ieee.FFormat.lt rd rs1 rs2 s

/-- `fle.d` (45_d_extension.md R255). -/
def execFleD (rd rs1 rs2 : Reg) (s : State) : Host.Outcome State Fault Refusal :=
  fpCompare (.fleD rd rs1 rs2) .d Ieee.FFormat.le rd rs1 rs2 s

/-- `fclass.d` (45_d_extension.md R256). -/
def execFclassD (rd rs1 : Reg) (s : State) : Host.Outcome State Fault Refusal :=
  fpClassify (.fclassD rd rs1) .d rd rs1 s

/-- `fcvt.w.d` (45_d_extension.md R257). -/
def execFcvtWD (rm : RoundingMode) (rd rs1 : Reg) (s : State) : Host.Outcome State Fault Refusal :=
  fpToInt (.fcvtWD rm rd rs1) .d (-2 ^ 31) (2 ^ 31 - 1) rm rd rs1 s

/-- `fcvt.wu.d` (45_d_extension.md R258). -/
def execFcvtWuD (rm : RoundingMode) (rd rs1 : Reg) (s : State) : Host.Outcome State Fault Refusal :=
  fpToInt (.fcvtWuD rm rd rs1) .d 0 (2 ^ 32 - 1) rm rd rs1 s

/-- `fcvt.d.w` (45_d_extension.md R259). It is exact. -/
def execFcvtDW (rd rs1 : Reg) (s : State) : Host.Outcome State Fault Refusal :=
  fpOfInt (.fcvtDW rd rs1) .d ((readX s rs1).setWidth 32).toInt .rne rd s

/-- `fcvt.d.wu` (45_d_extension.md R260). It is exact. -/
def execFcvtDWu (rd rs1 : Reg) (s : State) : Host.Outcome State Fault Refusal :=
  fpOfInt (.fcvtDWu rd rs1) .d ((readX s rs1).setWidth 32).toNat .rne rd s

end Sys2Proof.Machine
end

