-- ==== Sys2Proof/Machine/FloatS.lean ====
section
/-! DEFINITION. The meanings of the F extension (44_f_extension.md). -/

namespace Sys2Proof.Machine

/-- `flw` (44_f_extension.md R205). -/
def execFlw (rd base : Reg) (offset : BitVec 12) (s : State) : Host.Outcome State Fault Refusal :=
  fpLoad (.flw rd base offset) .s rd base (sextImm offset) s

/-- `fsw` (44_f_extension.md R206). -/
def execFsw (src base : Reg) (offset : BitVec 12) (s : State) : Host.Outcome State Fault Refusal :=
  fpStore (.fsw src base offset) .s src base (sextImm offset) s

/-- `fmadd.s` (44_f_extension.md R207). -/
def execFmaddS (rm : RoundingMode) (rd rs1 rs2 rs3 : Reg) (s : State) : Host.Outcome State Fault Refusal :=
  fpFused (.fmaddS rm rd rs1 rs2 rs3) .s false false rm rd rs1 rs2 rs3 s

/-- `fmsub.s` (44_f_extension.md R208). -/
def execFmsubS (rm : RoundingMode) (rd rs1 rs2 rs3 : Reg) (s : State) : Host.Outcome State Fault Refusal :=
  fpFused (.fmsubS rm rd rs1 rs2 rs3) .s false true rm rd rs1 rs2 rs3 s

/-- `fnmsub.s` (44_f_extension.md R209). -/
def execFnmsubS (rm : RoundingMode) (rd rs1 rs2 rs3 : Reg) (s : State) : Host.Outcome State Fault Refusal :=
  fpFused (.fnmsubS rm rd rs1 rs2 rs3) .s true false rm rd rs1 rs2 rs3 s

/-- `fnmadd.s` (44_f_extension.md R210). -/
def execFnmaddS (rm : RoundingMode) (rd rs1 rs2 rs3 : Reg) (s : State) : Host.Outcome State Fault Refusal :=
  fpFused (.fnmaddS rm rd rs1 rs2 rs3) .s true true rm rd rs1 rs2 rs3 s

/-- `fadd.s` (44_f_extension.md R211). -/
def execFaddS (rm : RoundingMode) (rd rs1 rs2 : Reg) (s : State) : Host.Outcome State Fault Refusal :=
  fpBinary (.faddS rm rd rs1 rs2) .s Ieee.FFormat.add rm rd rs1 rs2 s

/-- `fsub.s` (44_f_extension.md R212). -/
def execFsubS (rm : RoundingMode) (rd rs1 rs2 : Reg) (s : State) : Host.Outcome State Fault Refusal :=
  fpBinary (.fsubS rm rd rs1 rs2) .s Ieee.FFormat.sub rm rd rs1 rs2 s

/-- `fmul.s` (44_f_extension.md R213). -/
def execFmulS (rm : RoundingMode) (rd rs1 rs2 : Reg) (s : State) : Host.Outcome State Fault Refusal :=
  fpBinary (.fmulS rm rd rs1 rs2) .s Ieee.FFormat.mul rm rd rs1 rs2 s

/-- `fdiv.s` (44_f_extension.md R214). -/
def execFdivS (rm : RoundingMode) (rd rs1 rs2 : Reg) (s : State) : Host.Outcome State Fault Refusal :=
  fpBinary (.fdivS rm rd rs1 rs2) .s Ieee.FFormat.div rm rd rs1 rs2 s

/-- `fsqrt.s` (44_f_extension.md R215). -/
def execFsqrtS (rm : RoundingMode) (rd rs1 : Reg) (s : State) : Host.Outcome State Fault Refusal :=
  fpSqrt (.fsqrtS rm rd rs1) .s rm rd rs1 s

/-- `fsgnj.s` (44_f_extension.md R216). -/
def execFsgnjS (rd rs1 rs2 : Reg) (s : State) : Host.Outcome State Fault Refusal :=
  fpSign (.fsgnjS rd rs1 rs2) .s (fun _ b => b) rd rs1 rs2 s

/-- `fsgnjn.s` (44_f_extension.md R217). -/
def execFsgnjnS (rd rs1 rs2 : Reg) (s : State) : Host.Outcome State Fault Refusal :=
  fpSign (.fsgnjnS rd rs1 rs2) .s (fun _ b => !b) rd rs1 rs2 s

/-- `fsgnjx.s` (44_f_extension.md R218). -/
def execFsgnjxS (rd rs1 rs2 : Reg) (s : State) : Host.Outcome State Fault Refusal :=
  fpSign (.fsgnjxS rd rs1 rs2) .s (fun a b => a != b) rd rs1 rs2 s

/-- `fmin.s` (44_f_extension.md R219). -/
def execFminS (rd rs1 rs2 : Reg) (s : State) : Host.Outcome State Fault Refusal :=
  fpMinMax (.fminS rd rs1 rs2) .s false rd rs1 rs2 s

/-- `fmax.s` (44_f_extension.md R220). -/
def execFmaxS (rd rs1 rs2 : Reg) (s : State) : Host.Outcome State Fault Refusal :=
  fpMinMax (.fmaxS rd rs1 rs2) .s true rd rs1 rs2 s

/-- `feq.s` (44_f_extension.md R221). -/
def execFeqS (rd rs1 rs2 : Reg) (s : State) : Host.Outcome State Fault Refusal :=
  fpCompare (.feqS rd rs1 rs2) .s Ieee.FFormat.eq rd rs1 rs2 s

/-- `flt.s` (44_f_extension.md R222). -/
def execFltS (rd rs1 rs2 : Reg) (s : State) : Host.Outcome State Fault Refusal :=
  fpCompare (.fltS rd rs1 rs2) .s Ieee.FFormat.lt rd rs1 rs2 s

/-- `fle.s` (44_f_extension.md R223). -/
def execFleS (rd rs1 rs2 : Reg) (s : State) : Host.Outcome State Fault Refusal :=
  fpCompare (.fleS rd rs1 rs2) .s Ieee.FFormat.le rd rs1 rs2 s

/-- `fclass.s` (44_f_extension.md R224). -/
def execFclassS (rd rs1 : Reg) (s : State) : Host.Outcome State Fault Refusal :=
  fpClassify (.fclassS rd rs1) .s rd rs1 s

/-- `fcvt.w.s` (44_f_extension.md R225). -/
def execFcvtWS (rm : RoundingMode) (rd rs1 : Reg) (s : State) : Host.Outcome State Fault Refusal :=
  fpToInt (.fcvtWS rm rd rs1) .s (-2 ^ 31) (2 ^ 31 - 1) rm rd rs1 s

/-- `fcvt.wu.s` (44_f_extension.md R226). -/
def execFcvtWuS (rm : RoundingMode) (rd rs1 : Reg) (s : State) : Host.Outcome State Fault Refusal :=
  fpToInt (.fcvtWuS rm rd rs1) .s 0 (2 ^ 32 - 1) rm rd rs1 s

/-- `fcvt.s.w` (44_f_extension.md R227). -/
def execFcvtSW (rm : RoundingMode) (rd rs1 : Reg) (s : State) : Host.Outcome State Fault Refusal :=
  fpOfInt (.fcvtSW rm rd rs1) .s ((readX s rs1).setWidth 32).toInt rm rd s

/-- `fcvt.s.wu` (44_f_extension.md R228). -/
def execFcvtSWu (rm : RoundingMode) (rd rs1 : Reg) (s : State) : Host.Outcome State Fault Refusal :=
  fpOfInt (.fcvtSWu rm rd rs1) .s ((readX s rs1).setWidth 32).toNat rm rd s

/-- `fmv.x.w` (44_f_extension.md R229). -/
def execFmvXW (rd rs1 : Reg) (s : State) : Host.Outcome State Fault Refusal :=
  whenFpOn (.fmvXW rd rs1) s (retireX (.fmvXW rd rs1) rd (((readF s rs1).setWidth 32).signExtend 64) s)

/-- `fmv.w.x` (44_f_extension.md R230). -/
def execFmvWX (rd rs1 : Reg) (s : State) : Host.Outcome State Fault Refusal :=
  whenFpOn (.fmvWX rd rs1) s (retire (.fmvWX rd rs1) s (writeF s rd (boxS ((readX s rs1).setWidth 32))))

end Sys2Proof.Machine
end

