-- ==== Sys2Proof/Machine/Integer.lean ====
section
/-! DEFINITION. The meanings of the integer computational instructions and upper immediates (40_base_integer.md R120 to R138, R155, R156). -/

namespace Sys2Proof.Machine

/-- `addi` (40_base_integer.md R120). -/
def execAddi (rd rs1 : Reg) (imm : BitVec 12) (s : State) : Host.Outcome State Fault Refusal :=
  retireX (.addi rd rs1 imm) rd (aluAdd s.xlen (readX s rs1) (sextImm imm)) s

/-- `slti` (40_base_integer.md R121). -/
def execSlti (rd rs1 : Reg) (imm : BitVec 12) (s : State) : Host.Outcome State Fault Refusal :=
  retireX (.slti rd rs1 imm) rd (aluSlt s.xlen (readX s rs1) (sextImm imm)) s

/-- `sltiu` (40_base_integer.md R122). -/
def execSltiu (rd rs1 : Reg) (imm : BitVec 12) (s : State) : Host.Outcome State Fault Refusal :=
  retireX (.sltiu rd rs1 imm) rd (aluSltu s.xlen (readX s rs1) (sextImm imm)) s

/-- `xori` (40_base_integer.md R123). -/
def execXori (rd rs1 : Reg) (imm : BitVec 12) (s : State) : Host.Outcome State Fault Refusal :=
  retireX (.xori rd rs1 imm) rd (aluXor s.xlen (readX s rs1) (sextImm imm)) s

/-- `ori` (40_base_integer.md R124). -/
def execOri (rd rs1 : Reg) (imm : BitVec 12) (s : State) : Host.Outcome State Fault Refusal :=
  retireX (.ori rd rs1 imm) rd (aluOr s.xlen (readX s rs1) (sextImm imm)) s

/-- `andi` (40_base_integer.md R125). -/
def execAndi (rd rs1 : Reg) (imm : BitVec 12) (s : State) : Host.Outcome State Fault Refusal :=
  retireX (.andi rd rs1 imm) rd (aluAnd s.xlen (readX s rs1) (sextImm imm)) s

/-- `slli` (40_base_integer.md R126). -/
def execSlli (rd rs1 : Reg) (shamt : U5) (s : State) : Host.Outcome State Fault Refusal :=
  retireX (.slli rd rs1 shamt) rd (aluSll s.xlen (readX s rs1) (zextImm shamt)) s

/-- `srli` (40_base_integer.md R127). -/
def execSrli (rd rs1 : Reg) (shamt : U5) (s : State) : Host.Outcome State Fault Refusal :=
  retireX (.srli rd rs1 shamt) rd (aluSrl s.xlen (readX s rs1) (zextImm shamt)) s

/-- `srai` (40_base_integer.md R128). -/
def execSrai (rd rs1 : Reg) (shamt : U5) (s : State) : Host.Outcome State Fault Refusal :=
  retireX (.srai rd rs1 shamt) rd (aluSra s.xlen (readX s rs1) (zextImm shamt)) s

/-- `add` (40_base_integer.md R129). -/
def execAdd (rd rs1 rs2 : Reg) (s : State) : Host.Outcome State Fault Refusal :=
  retireX (.add rd rs1 rs2) rd (aluAdd s.xlen (readX s rs1) (readX s rs2)) s

/-- `sub` (40_base_integer.md R130). -/
def execSub (rd rs1 rs2 : Reg) (s : State) : Host.Outcome State Fault Refusal :=
  retireX (.sub rd rs1 rs2) rd (aluSub s.xlen (readX s rs1) (readX s rs2)) s

/-- `sll` (40_base_integer.md R131). -/
def execSll (rd rs1 rs2 : Reg) (s : State) : Host.Outcome State Fault Refusal :=
  retireX (.sll rd rs1 rs2) rd (aluSll s.xlen (readX s rs1) (readX s rs2)) s

/-- `slt` (40_base_integer.md R132). -/
def execSlt (rd rs1 rs2 : Reg) (s : State) : Host.Outcome State Fault Refusal :=
  retireX (.slt rd rs1 rs2) rd (aluSlt s.xlen (readX s rs1) (readX s rs2)) s

/-- `sltu` (40_base_integer.md R133). -/
def execSltu (rd rs1 rs2 : Reg) (s : State) : Host.Outcome State Fault Refusal :=
  retireX (.sltu rd rs1 rs2) rd (aluSltu s.xlen (readX s rs1) (readX s rs2)) s

/-- `xor` (40_base_integer.md R134). -/
def execXor (rd rs1 rs2 : Reg) (s : State) : Host.Outcome State Fault Refusal :=
  retireX (.xor rd rs1 rs2) rd (aluXor s.xlen (readX s rs1) (readX s rs2)) s

/-- `srl` (40_base_integer.md R135). -/
def execSrl (rd rs1 rs2 : Reg) (s : State) : Host.Outcome State Fault Refusal :=
  retireX (.srl rd rs1 rs2) rd (aluSrl s.xlen (readX s rs1) (readX s rs2)) s

/-- `sra` (40_base_integer.md R136). -/
def execSra (rd rs1 rs2 : Reg) (s : State) : Host.Outcome State Fault Refusal :=
  retireX (.sra rd rs1 rs2) rd (aluSra s.xlen (readX s rs1) (readX s rs2)) s

/-- `or` (40_base_integer.md R137). -/
def execOr (rd rs1 rs2 : Reg) (s : State) : Host.Outcome State Fault Refusal :=
  retireX (.or rd rs1 rs2) rd (aluOr s.xlen (readX s rs1) (readX s rs2)) s

/-- `and` (40_base_integer.md R138). -/
def execAnd (rd rs1 rs2 : Reg) (s : State) : Host.Outcome State Fault Refusal :=
  retireX (.and rd rs1 rs2) rd (aluAnd s.xlen (readX s rs1) (readX s rs2)) s

/-- `lui` (40_base_integer.md R155). -/
def execLui (rd : Reg) (upper : BitVec 20) (s : State) : Host.Outcome State Fault Refusal :=
  retireX (.lui rd upper) rd (upperImm upper) s

/-- `auipc` (40_base_integer.md R156). -/
def execAuipc (rd : Reg) (upper : BitVec 20) (s : State) : Host.Outcome State Fault Refusal :=
  retireX (.auipc rd upper) rd (s.pc + upperImm upper) s

end Sys2Proof.Machine
end

