-- ==== Sys2Proof/Machine/LoadStore.lean ====
section
/-! DEFINITION. The meanings of the integer loads and stores (40_base_integer.md R139 to R146). -/

namespace Sys2Proof.Machine

/-- `lb` (40_base_integer.md R139). -/
def execLb (rd base : Reg) (offset : BitVec 12) (s : State) : Host.Outcome State Fault Refusal :=
  loadX (.lb rd base offset) 1 sextLoad rd base (sextImm offset) s

/-- `lh` (40_base_integer.md R140). -/
def execLh (rd base : Reg) (offset : BitVec 12) (s : State) : Host.Outcome State Fault Refusal :=
  loadX (.lh rd base offset) 2 sextLoad rd base (sextImm offset) s

/-- `lw` (40_base_integer.md R141). -/
def execLw (rd base : Reg) (offset : BitVec 12) (s : State) : Host.Outcome State Fault Refusal :=
  loadX (.lw rd base offset) 4 sextLoad rd base (sextImm offset) s

/-- `lbu` (40_base_integer.md R142). -/
def execLbu (rd base : Reg) (offset : BitVec 12) (s : State) : Host.Outcome State Fault Refusal :=
  loadX (.lbu rd base offset) 1 zextLoad rd base (sextImm offset) s

/-- `lhu` (40_base_integer.md R143). -/
def execLhu (rd base : Reg) (offset : BitVec 12) (s : State) : Host.Outcome State Fault Refusal :=
  loadX (.lhu rd base offset) 2 zextLoad rd base (sextImm offset) s

/-- `sb` (40_base_integer.md R144). -/
def execSb (src base : Reg) (offset : BitVec 12) (s : State) : Host.Outcome State Fault Refusal :=
  storeValue (.sb src base offset) 1 (readX s src).toNat base (sextImm offset) s

/-- `sh` (40_base_integer.md R145). -/
def execSh (src base : Reg) (offset : BitVec 12) (s : State) : Host.Outcome State Fault Refusal :=
  storeValue (.sh src base offset) 2 (readX s src).toNat base (sextImm offset) s

/-- `sw` (40_base_integer.md R146). -/
def execSw (src base : Reg) (offset : BitVec 12) (s : State) : Host.Outcome State Fault Refusal :=
  storeValue (.sw src base offset) 4 (readX s src).toNat base (sextImm offset) s

end Sys2Proof.Machine
end

