-- ==== Sys2Proof/Machine/MulDiv.lean ====
section
/-! DEFINITION. The meanings of the M extension (41_m_extension.md). -/

namespace Sys2Proof.Machine

/-- `mul` (41_m_extension.md R170). -/
def execMul (rd rs1 rs2 : Reg) (s : State) : Host.Outcome State Fault Refusal :=
  retireX (.mul rd rs1 rs2) rd (aluMul s.xlen (readX s rs1) (readX s rs2)) s

/-- `mulh` (41_m_extension.md R171). -/
def execMulh (rd rs1 rs2 : Reg) (s : State) : Host.Outcome State Fault Refusal :=
  retireX (.mulh rd rs1 rs2) rd (aluMulh s.xlen (readX s rs1) (readX s rs2)) s

/-- `mulhsu` (41_m_extension.md R172). -/
def execMulhsu (rd rs1 rs2 : Reg) (s : State) : Host.Outcome State Fault Refusal :=
  retireX (.mulhsu rd rs1 rs2) rd (aluMulhsu s.xlen (readX s rs1) (readX s rs2)) s

/-- `mulhu` (41_m_extension.md R173). -/
def execMulhu (rd rs1 rs2 : Reg) (s : State) : Host.Outcome State Fault Refusal :=
  retireX (.mulhu rd rs1 rs2) rd (aluMulhu s.xlen (readX s rs1) (readX s rs2)) s

/-- `div` (41_m_extension.md R174). -/
def execDiv (rd rs1 rs2 : Reg) (s : State) : Host.Outcome State Fault Refusal :=
  retireX (.div rd rs1 rs2) rd (aluDiv s.xlen (readX s rs1) (readX s rs2)) s

/-- `divu` (41_m_extension.md R175). -/
def execDivu (rd rs1 rs2 : Reg) (s : State) : Host.Outcome State Fault Refusal :=
  retireX (.divu rd rs1 rs2) rd (aluDivu s.xlen (readX s rs1) (readX s rs2)) s

/-- `rem` (41_m_extension.md R176). -/
def execRem (rd rs1 rs2 : Reg) (s : State) : Host.Outcome State Fault Refusal :=
  retireX (.rem rd rs1 rs2) rd (aluRem s.xlen (readX s rs1) (readX s rs2)) s

/-- `remu` (41_m_extension.md R177). -/
def execRemu (rd rs1 rs2 : Reg) (s : State) : Host.Outcome State Fault Refusal :=
  retireX (.remu rd rs1 rs2) rd (aluRemu s.xlen (readX s rs1) (readX s rs2)) s

end Sys2Proof.Machine
end

