-- ==== Sys2Proof/Machine/System.lean ====
section
/-! DEFINITION. The meanings of the fences, the environment call and breakpoint, Zicsr and PAUSE (40_base_integer.md R157 to R161, 43_zicsr_zihintpause.md). -/

namespace Sys2Proof.Machine

/-- The code of an environment call, by mode (60_exceptions.md R357). -/
def ecallCode : Mode → Nat
  | .u => 8
  | .s => 9
  | .m => 11

/-- `fence` (40_base_integer.md R157). One hart sees its own accesses in program order (20_memory.md R56; log entry 22): only the pc advances. -/
def execFence (pred succ : FenceSet) (s : State) : Host.Outcome State Fault Refusal :=
  retire (.fence pred succ) s s

/-- `fence.tso` (40_base_integer.md R158). One hart sees its own accesses in program order (20_memory.md R56; log entry 22): only the pc advances. -/
def execFenceTso (s : State) : Host.Outcome State Fault Refusal :=
  retire .fenceTso s s

/-- `fence.i` (40_base_integer.md R159). What this hart has stored is what it fetches from now on (20_memory.md R57). -/
def execFenceI (s : State) : Host.Outcome State Fault Refusal :=
  retire .fenceI s { s with imem := s.mem }

/-- `ecall` (40_base_integer.md R160). It takes the exception (60_exceptions.md R357 codes 8, 9, 11). -/
def execEcall (s : State) : Host.Outcome State Fault Refusal :=
  raise .ecall (ecallCode s.mode) 0 s

/-- `ebreak` (40_base_integer.md R161). It takes exception 3, with the pc as trap value (60_exceptions.md R357). -/
def execEbreak (s : State) : Host.Outcome State Fault Refusal :=
  raise .ebreak 3 s.pc s

/-- `csrrw` (43_zicsr_zihintpause.md R195). -/
def execCsrrw (rd : Reg) (csr : Csr) (rs1 : Reg) (s : State) : Host.Outcome State Fault Refusal :=
  csrAccess (.csrrw rd csr rs1) rd csr true (fun _ => readX s rs1) s

/-- `csrrs` (43_zicsr_zihintpause.md R196). -/
def execCsrrs (rd : Reg) (csr : Csr) (rs1 : Reg) (s : State) : Host.Outcome State Fault Refusal :=
  csrAccess (.csrrs rd csr rs1) rd csr (rs1 != 0) (fun old => old ||| readX s rs1) s

/-- `csrrc` (43_zicsr_zihintpause.md R197). -/
def execCsrrc (rd : Reg) (csr : Csr) (rs1 : Reg) (s : State) : Host.Outcome State Fault Refusal :=
  csrAccess (.csrrc rd csr rs1) rd csr (rs1 != 0) (fun old => old &&& ~~~readX s rs1) s

/-- `csrrwi` (43_zicsr_zihintpause.md R198). -/
def execCsrrwi (rd : Reg) (csr : Csr) (imm : U5) (s : State) : Host.Outcome State Fault Refusal :=
  csrAccess (.csrrwi rd csr imm) rd csr true (fun _ => zextImm imm) s

/-- `csrrsi` (43_zicsr_zihintpause.md R199). -/
def execCsrrsi (rd : Reg) (csr : Csr) (imm : U5) (s : State) : Host.Outcome State Fault Refusal :=
  csrAccess (.csrrsi rd csr imm) rd csr (imm != 0) (fun old => old ||| zextImm imm) s

/-- `csrrci` (43_zicsr_zihintpause.md R200). -/
def execCsrrci (rd : Reg) (csr : Csr) (imm : U5) (s : State) : Host.Outcome State Fault Refusal :=
  csrAccess (.csrrci rd csr imm) rd csr (imm != 0) (fun old => old &&& ~~~zextImm imm) s

/-- `pause` (43_zicsr_zihintpause.md R201). It orders nothing. -/
def execPause (s : State) : Host.Outcome State Fault Refusal :=
  retire .pause s s

end Sys2Proof.Machine
end

