-- ==== Sys2Proof/Machine/Dispatch.lean ====
section
/-! DEFINITION. The dispatch: one arm for each instruction. -/

namespace Sys2Proof.Machine

/-- The meaning of an instruction. -/
def exec (i : Instr) (s : State) : Host.Outcome State Fault Refusal :=
  match i with
  | .addi rd rs1 imm => Sys2Proof.Machine.execAddi rd rs1 imm s
  | .slti rd rs1 imm => Sys2Proof.Machine.execSlti rd rs1 imm s
  | .sltiu rd rs1 imm => Sys2Proof.Machine.execSltiu rd rs1 imm s
  | .xori rd rs1 imm => Sys2Proof.Machine.execXori rd rs1 imm s
  | .ori rd rs1 imm => Sys2Proof.Machine.execOri rd rs1 imm s
  | .andi rd rs1 imm => Sys2Proof.Machine.execAndi rd rs1 imm s
  | .slli rd rs1 shamt => Sys2Proof.Machine.execSlli rd rs1 shamt s
  | .srli rd rs1 shamt => Sys2Proof.Machine.execSrli rd rs1 shamt s
  | .srai rd rs1 shamt => Sys2Proof.Machine.execSrai rd rs1 shamt s
  | .add rd rs1 rs2 => Sys2Proof.Machine.execAdd rd rs1 rs2 s
  | .sub rd rs1 rs2 => Sys2Proof.Machine.execSub rd rs1 rs2 s
  | .sll rd rs1 rs2 => Sys2Proof.Machine.execSll rd rs1 rs2 s
  | .slt rd rs1 rs2 => Sys2Proof.Machine.execSlt rd rs1 rs2 s
  | .sltu rd rs1 rs2 => Sys2Proof.Machine.execSltu rd rs1 rs2 s
  | .xor rd rs1 rs2 => Sys2Proof.Machine.execXor rd rs1 rs2 s
  | .srl rd rs1 rs2 => Sys2Proof.Machine.execSrl rd rs1 rs2 s
  | .sra rd rs1 rs2 => Sys2Proof.Machine.execSra rd rs1 rs2 s
  | .or rd rs1 rs2 => Sys2Proof.Machine.execOr rd rs1 rs2 s
  | .and rd rs1 rs2 => Sys2Proof.Machine.execAnd rd rs1 rs2 s
  | .lb rd base offset => Sys2Proof.Machine.execLb rd base offset s
  | .lh rd base offset => Sys2Proof.Machine.execLh rd base offset s
  | .lw rd base offset => Sys2Proof.Machine.execLw rd base offset s
  | .lbu rd base offset => Sys2Proof.Machine.execLbu rd base offset s
  | .lhu rd base offset => Sys2Proof.Machine.execLhu rd base offset s
  | .sb src base offset => Sys2Proof.Machine.execSb src base offset s
  | .sh src base offset => Sys2Proof.Machine.execSh src base offset s
  | .sw src base offset => Sys2Proof.Machine.execSw src base offset s
  | .beq rs1 rs2 offset => Sys2Proof.Machine.execBeq rs1 rs2 offset s
  | .bne rs1 rs2 offset => Sys2Proof.Machine.execBne rs1 rs2 offset s
  | .blt rs1 rs2 offset => Sys2Proof.Machine.execBlt rs1 rs2 offset s
  | .bge rs1 rs2 offset => Sys2Proof.Machine.execBge rs1 rs2 offset s
  | .bltu rs1 rs2 offset => Sys2Proof.Machine.execBltu rs1 rs2 offset s
  | .bgeu rs1 rs2 offset => Sys2Proof.Machine.execBgeu rs1 rs2 offset s
  | .jal rd offset => Sys2Proof.Machine.execJal rd offset s
  | .jalr rd base offset => Sys2Proof.Machine.execJalr rd base offset s
  | .lui rd upper => Sys2Proof.Machine.execLui rd upper s
  | .auipc rd upper => Sys2Proof.Machine.execAuipc rd upper s
  | .fence pred succ => Sys2Proof.Machine.execFence pred succ s
  | .fenceTso => Sys2Proof.Machine.execFenceTso s
  | .fenceI => Sys2Proof.Machine.execFenceI s
  | .ecall => Sys2Proof.Machine.execEcall s
  | .ebreak => Sys2Proof.Machine.execEbreak s
  | .mul rd rs1 rs2 => Sys2Proof.Machine.execMul rd rs1 rs2 s
  | .mulh rd rs1 rs2 => Sys2Proof.Machine.execMulh rd rs1 rs2 s
  | .mulhsu rd rs1 rs2 => Sys2Proof.Machine.execMulhsu rd rs1 rs2 s
  | .mulhu rd rs1 rs2 => Sys2Proof.Machine.execMulhu rd rs1 rs2 s
  | .div rd rs1 rs2 => Sys2Proof.Machine.execDiv rd rs1 rs2 s
  | .divu rd rs1 rs2 => Sys2Proof.Machine.execDivu rd rs1 rs2 s
  | .rem rd rs1 rs2 => Sys2Proof.Machine.execRem rd rs1 rs2 s
  | .remu rd rs1 rs2 => Sys2Proof.Machine.execRemu rd rs1 rs2 s
  | .lrW aq rl rd addr => Sys2Proof.Machine.execLrW aq rl rd addr s
  | .scW aq rl rd addr src => Sys2Proof.Machine.execScW aq rl rd addr src s
  | .amoswapW aq rl rd addr src => Sys2Proof.Machine.execAmoswapW aq rl rd addr src s
  | .amoaddW aq rl rd addr src => Sys2Proof.Machine.execAmoaddW aq rl rd addr src s
  | .amoxorW aq rl rd addr src => Sys2Proof.Machine.execAmoxorW aq rl rd addr src s
  | .amoandW aq rl rd addr src => Sys2Proof.Machine.execAmoandW aq rl rd addr src s
  | .amoorW aq rl rd addr src => Sys2Proof.Machine.execAmoorW aq rl rd addr src s
  | .amominW aq rl rd addr src => Sys2Proof.Machine.execAmominW aq rl rd addr src s
  | .amomaxW aq rl rd addr src => Sys2Proof.Machine.execAmomaxW aq rl rd addr src s
  | .amominuW aq rl rd addr src => Sys2Proof.Machine.execAmominuW aq rl rd addr src s
  | .amomaxuW aq rl rd addr src => Sys2Proof.Machine.execAmomaxuW aq rl rd addr src s
  | .csrrw rd csr rs1 => Sys2Proof.Machine.execCsrrw rd csr rs1 s
  | .csrrs rd csr rs1 => Sys2Proof.Machine.execCsrrs rd csr rs1 s
  | .csrrc rd csr rs1 => Sys2Proof.Machine.execCsrrc rd csr rs1 s
  | .csrrwi rd csr imm => Sys2Proof.Machine.execCsrrwi rd csr imm s
  | .csrrsi rd csr imm => Sys2Proof.Machine.execCsrrsi rd csr imm s
  | .csrrci rd csr imm => Sys2Proof.Machine.execCsrrci rd csr imm s
  | .pause => Sys2Proof.Machine.execPause s
  | .flw rd base offset => Sys2Proof.Machine.execFlw rd base offset s
  | .fsw src base offset => Sys2Proof.Machine.execFsw src base offset s
  | .fmaddS rm rd rs1 rs2 rs3 => Sys2Proof.Machine.execFmaddS rm rd rs1 rs2 rs3 s
  | .fmsubS rm rd rs1 rs2 rs3 => Sys2Proof.Machine.execFmsubS rm rd rs1 rs2 rs3 s
  | .fnmsubS rm rd rs1 rs2 rs3 => Sys2Proof.Machine.execFnmsubS rm rd rs1 rs2 rs3 s
  | .fnmaddS rm rd rs1 rs2 rs3 => Sys2Proof.Machine.execFnmaddS rm rd rs1 rs2 rs3 s
  | .faddS rm rd rs1 rs2 => Sys2Proof.Machine.execFaddS rm rd rs1 rs2 s
  | .fsubS rm rd rs1 rs2 => Sys2Proof.Machine.execFsubS rm rd rs1 rs2 s
  | .fmulS rm rd rs1 rs2 => Sys2Proof.Machine.execFmulS rm rd rs1 rs2 s
  | .fdivS rm rd rs1 rs2 => Sys2Proof.Machine.execFdivS rm rd rs1 rs2 s
  | .fsqrtS rm rd rs1 => Sys2Proof.Machine.execFsqrtS rm rd rs1 s
  | .fsgnjS rd rs1 rs2 => Sys2Proof.Machine.execFsgnjS rd rs1 rs2 s
  | .fsgnjnS rd rs1 rs2 => Sys2Proof.Machine.execFsgnjnS rd rs1 rs2 s
  | .fsgnjxS rd rs1 rs2 => Sys2Proof.Machine.execFsgnjxS rd rs1 rs2 s
  | .fminS rd rs1 rs2 => Sys2Proof.Machine.execFminS rd rs1 rs2 s
  | .fmaxS rd rs1 rs2 => Sys2Proof.Machine.execFmaxS rd rs1 rs2 s
  | .feqS rd rs1 rs2 => Sys2Proof.Machine.execFeqS rd rs1 rs2 s
  | .fltS rd rs1 rs2 => Sys2Proof.Machine.execFltS rd rs1 rs2 s
  | .fleS rd rs1 rs2 => Sys2Proof.Machine.execFleS rd rs1 rs2 s
  | .fclassS rd rs1 => Sys2Proof.Machine.execFclassS rd rs1 s
  | .fcvtWS rm rd rs1 => Sys2Proof.Machine.execFcvtWS rm rd rs1 s
  | .fcvtWuS rm rd rs1 => Sys2Proof.Machine.execFcvtWuS rm rd rs1 s
  | .fcvtSW rm rd rs1 => Sys2Proof.Machine.execFcvtSW rm rd rs1 s
  | .fcvtSWu rm rd rs1 => Sys2Proof.Machine.execFcvtSWu rm rd rs1 s
  | .fmvXW rd rs1 => Sys2Proof.Machine.execFmvXW rd rs1 s
  | .fmvWX rd rs1 => Sys2Proof.Machine.execFmvWX rd rs1 s
  | .fld rd base offset => Sys2Proof.Machine.execFld rd base offset s
  | .fsd src base offset => Sys2Proof.Machine.execFsd src base offset s
  | .fmaddD rm rd rs1 rs2 rs3 => Sys2Proof.Machine.execFmaddD rm rd rs1 rs2 rs3 s
  | .fmsubD rm rd rs1 rs2 rs3 => Sys2Proof.Machine.execFmsubD rm rd rs1 rs2 rs3 s
  | .fnmsubD rm rd rs1 rs2 rs3 => Sys2Proof.Machine.execFnmsubD rm rd rs1 rs2 rs3 s
  | .fnmaddD rm rd rs1 rs2 rs3 => Sys2Proof.Machine.execFnmaddD rm rd rs1 rs2 rs3 s
  | .faddD rm rd rs1 rs2 => Sys2Proof.Machine.execFaddD rm rd rs1 rs2 s
  | .fsubD rm rd rs1 rs2 => Sys2Proof.Machine.execFsubD rm rd rs1 rs2 s
  | .fmulD rm rd rs1 rs2 => Sys2Proof.Machine.execFmulD rm rd rs1 rs2 s
  | .fdivD rm rd rs1 rs2 => Sys2Proof.Machine.execFdivD rm rd rs1 rs2 s
  | .fsqrtD rm rd rs1 => Sys2Proof.Machine.execFsqrtD rm rd rs1 s
  | .fsgnjD rd rs1 rs2 => Sys2Proof.Machine.execFsgnjD rd rs1 rs2 s
  | .fsgnjnD rd rs1 rs2 => Sys2Proof.Machine.execFsgnjnD rd rs1 rs2 s
  | .fsgnjxD rd rs1 rs2 => Sys2Proof.Machine.execFsgnjxD rd rs1 rs2 s
  | .fminD rd rs1 rs2 => Sys2Proof.Machine.execFminD rd rs1 rs2 s
  | .fmaxD rd rs1 rs2 => Sys2Proof.Machine.execFmaxD rd rs1 rs2 s
  | .fcvtSD rm rd rs1 => Sys2Proof.Machine.execFcvtSD rm rd rs1 s
  | .fcvtDS rd rs1 => Sys2Proof.Machine.execFcvtDS rd rs1 s
  | .feqD rd rs1 rs2 => Sys2Proof.Machine.execFeqD rd rs1 rs2 s
  | .fltD rd rs1 rs2 => Sys2Proof.Machine.execFltD rd rs1 rs2 s
  | .fleD rd rs1 rs2 => Sys2Proof.Machine.execFleD rd rs1 rs2 s
  | .fclassD rd rs1 => Sys2Proof.Machine.execFclassD rd rs1 s
  | .fcvtWD rm rd rs1 => Sys2Proof.Machine.execFcvtWD rm rd rs1 s
  | .fcvtWuD rm rd rs1 => Sys2Proof.Machine.execFcvtWuD rm rd rs1 s
  | .fcvtDW rd rs1 => Sys2Proof.Machine.execFcvtDW rd rs1 s
  | .fcvtDWu rd rs1 => Sys2Proof.Machine.execFcvtDWu rd rs1 s
  | .cAddi4spn rd' nzuimm => Sys2Proof.Machine.execCAddi4spn rd' nzuimm s
  | .cFld rd' rs1' offset => Sys2Proof.Machine.execCFld rd' rs1' offset s
  | .cLw rd' rs1' offset => Sys2Proof.Machine.execCLw rd' rs1' offset s
  | .cFlw rd' rs1' offset => Sys2Proof.Machine.execCFlw rd' rs1' offset s
  | .cFsd rs2' rs1' offset => Sys2Proof.Machine.execCFsd rs2' rs1' offset s
  | .cSw rs2' rs1' offset => Sys2Proof.Machine.execCSw rs2' rs1' offset s
  | .cFsw rs2' rs1' offset => Sys2Proof.Machine.execCFsw rs2' rs1' offset s
  | .cNop imm => Sys2Proof.Machine.execCNop imm s
  | .cAddi rd imm => Sys2Proof.Machine.execCAddi rd imm s
  | .cJal offset => Sys2Proof.Machine.execCJal offset s
  | .cLi rd imm => Sys2Proof.Machine.execCLi rd imm s
  | .cAddi16sp nzimm => Sys2Proof.Machine.execCAddi16sp nzimm s
  | .cLui rd upper => Sys2Proof.Machine.execCLui rd upper s
  | .cSrli rd' shamt => Sys2Proof.Machine.execCSrli rd' shamt s
  | .cSrai rd' shamt => Sys2Proof.Machine.execCSrai rd' shamt s
  | .cAndi rd' imm => Sys2Proof.Machine.execCAndi rd' imm s
  | .cSub rd' rs2' => Sys2Proof.Machine.execCSub rd' rs2' s
  | .cXor rd' rs2' => Sys2Proof.Machine.execCXor rd' rs2' s
  | .cOr rd' rs2' => Sys2Proof.Machine.execCOr rd' rs2' s
  | .cAnd rd' rs2' => Sys2Proof.Machine.execCAnd rd' rs2' s
  | .cJ offset => Sys2Proof.Machine.execCJ offset s
  | .cBeqz rs1' offset => Sys2Proof.Machine.execCBeqz rs1' offset s
  | .cBnez rs1' offset => Sys2Proof.Machine.execCBnez rs1' offset s
  | .cSlli rd shamt => Sys2Proof.Machine.execCSlli rd shamt s
  | .cFldsp rd offset => Sys2Proof.Machine.execCFldsp rd offset s
  | .cLwsp rd offset => Sys2Proof.Machine.execCLwsp rd offset s
  | .cFlwsp rd offset => Sys2Proof.Machine.execCFlwsp rd offset s
  | .cJr rs1 => Sys2Proof.Machine.execCJr rs1 s
  | .cMv rd rs2 => Sys2Proof.Machine.execCMv rd rs2 s
  | .cEbreak => Sys2Proof.Machine.execCEbreak s
  | .cJalr rs1 => Sys2Proof.Machine.execCJalr rs1 s
  | .cAdd rd rs2 => Sys2Proof.Machine.execCAdd rd rs2 s
  | .cFsdsp rs2 offset => Sys2Proof.Machine.execCFsdsp rs2 offset s
  | .cSwsp rs2 offset => Sys2Proof.Machine.execCSwsp rs2 offset s
  | .cFswsp rs2 offset => Sys2Proof.Machine.execCFswsp rs2 offset s

end Sys2Proof.Machine
end

