-- ==== Sys2Proof/Machine/Fetch.lean ====
section
/-! DEFINITION. Fetching: the word the caller presents to the block (20_memory.md R51, R52), what happens where it cannot be
fetched or does not decode, and how a word is placed where the next fetch reads it. -/

namespace Sys2Proof.Machine

/-- The byte a fetch sees. Where this hart's stores since the last `FenceI` have changed the byte, it may see either value
(20_memory.md R57, R59; log entry 20). -/
def fetchByte (s : State) (k : Nat) : Byte :=
  if byteAt s.mem k = byteAt s.imem k then byteAt s.mem k
  else if Config.fetchSeesStore s.tick k then byteAt s.mem k
  else byteAt s.imem k

/-- The word at the pc, little-endian (20_memory.md R51). -/
def fetchWord (s : State) : Word :=
  fetchByte s (addrKey s.xlen (s.pc + 3)) ++ fetchByte s (addrKey s.xlen (s.pc + 2)) ++
    fetchByte s (addrKey s.xlen (s.pc + 1)) ++ fetchByte s (addrKey s.xlen s.pc)

/-- The exception the fetch of the instruction at the pc raises, if any: two bytes are checked for a parcel, four for a word
(20_memory.md R52, 60_exceptions.md R357, R358 items 1 to 3; log entry 26). -/
def fetchException (s : State) : Option Nat := accessException s .fetch s.pc (if isLong (fetchWord s) then 4 else 2)

/-- Whether the instruction at the pc can be fetched. -/
def fetchable (s : State) : Bool := (fetchException s).isNone

/-- The caller presents the word (10_state.md R21); the free values of this step are drawn at the new number. -/
def present (s : State) : State := { s with word := fetchWord s, tick := s.tick + 1 }

/-- The word yields `DecodeError`: the block answers it, there is no text, and the hart raises an illegal-instruction exception
(60_exceptions.md R356). -/
def reject (s : State) : State :=
  takeException { s with result := some .decodeError, text := "" } 2 (illegalTval s)

/-- The instruction cannot be fetched: the exception, with the address as trap value (60_exceptions.md R357; log entry 26). The
block is not called. -/
def fetchFault (s : State) (code : Nat) : State := takeException { s with tick := s.tick + 1 } code (narrow s.xlen s.pc)

/-- Memory with the low four bytes of a number at an address. -/
def placeBytes (x : Xlen) (m : List Host.Cell) (a : XWord) (w : Nat) : List Host.Cell := storeNat x m 4 a w

/-- An instruction of `nbits` bits placed at the pc, in memory and in what a fetch is sure to see: a load from outside the machine
(log entry 28). The bits above `nbits` are zero. -/
def placeInstruction (s : State) (nbits w : Nat) : State :=
  { s with
    mem := placeBytes s.xlen s.mem s.pc (w % 2 ^ nbits)
    imem := placeBytes s.xlen s.imem s.pc (w % 2 ^ nbits) }

end Sys2Proof.Machine
end

