-- ==== Sys2Proof/Machine/Step.lean ====
section
/-! DEFINITION. One step: fetch, decode, execute. -/

namespace Sys2Proof.Machine

/-- One step of the machine: the word at the pc is presented to the block (20_memory.md R51), and the consumer executes the
record, or takes the exception `DecodeError` or the fetch raises (60_exceptions.md R356, R357). -/
def step (s : State) : Host.Outcome State Fault Refusal :=
  match fetchException s with
  | some code => .next (fetchFault s code)
  | none =>
    match decodeInstr (present s).word (present s).xlen with
    | some i => exec i (present s)
    | none => .next (reject (present s))

/-- The state with an instruction placed where `step` fetches its next one. -/
def State.withFetchWord (s : State) (nbits w : Nat) : State := placeInstruction s nbits w

end Sys2Proof.Machine
end

