-- ==== Sys2Proof/Safety.lean ====
section
/-! DEFINITION. The terms the claims use: the numbers registers hold, what an instruction leaves as it was, what a completed
instruction and a taken exception look like, and the invariants of a run. -/

namespace Sys2Proof.Machine

/-! ### Numbers -/

/-- A number of `w` bits read as two's complement. -/
def twos (w n : Nat) : Int := if n < 2 ^ (w - 1) then n else (n : Int) - 2 ^ w

/-- The XLEN-bit pattern of an integer. -/
def modX (x : Xlen) (v : Int) : Nat := (v % 2 ^ x.bits).toNat

/-- The unsigned number in `x[r]`. -/
def regU (s : State) (r : Reg) : Nat := (readX s r).toNat

/-- The signed number in `x[r]`. -/
def regS (s : State) (r : Reg) : Int := twos s.xlen.bits (regU s r)

/-! ### What stays as it was -/

/-- The parameters and the inputs. -/
def KeepsInputs (s t : State) : Prop := t.cfg = s.cfg ∧ t.xlen = s.xlen ∧ t.word = s.word ∧ t.tick = s.tick

/-- Every integer register. -/
def KeepsX (s t : State) : Prop := ∀ r : Reg, readX t r = readX s r

/-- Every integer register but one. -/
def KeepsXBut (rd : Reg) (s t : State) : Prop := ∀ r : Reg, r ≠ rd → readX t r = readX s r

/-- Every FP register. -/
def KeepsF (s t : State) : Prop := ∀ r : Reg, readF t r = readF s r

/-- Every FP register but one. -/
def KeepsFBut (rd : Reg) (s t : State) : Prop := ∀ r : Reg, r ≠ rd → readF t r = readF s r

/-- The exception flags and the rounding mode. -/
def KeepsFcsr (s t : State) : Prop := t.fflags = s.fflags ∧ t.frm = s.frm

/-- The CSR file, the mode and the FP unit's switch. -/
def KeepsSystem (s t : State) : Prop := (∀ a, csrFileGet t a = csrFileGet s a) ∧ t.mode = s.mode ∧ t.fpOn = s.fpOn

/-- Every byte of memory. -/
def KeepsMem (s t : State) : Prop := ∀ a, byteAt t.mem a = byteAt s.mem a

/-- Every byte as a fetch is sure to see it. -/
def KeepsImem (s t : State) : Prop := ∀ a, byteAt t.imem a = byteAt s.imem a

/-- The reservations. -/
def KeepsReservations (s t : State) : Prop := t.reservations = s.reservations

/-! ### What a completed instruction looks like -/

/-- The block has answered the record of `i` and its text. -/
def Answers (i : Instr) (s t : State) : Prop :=
  t.result = some (.ok i.record i.compressed) ∧ t.text = format s.cfg.csrNames i.record

/-- The pc is that of the next instruction. -/
def Advances (i : Instr) (s t : State) : Prop := t.pc.toNat = (s.pc.toNat + i.compressed.bytes) % 2 ^ s.xlen.bits

/-- An instruction that changes `rd` alone: it holds the XLEN-bit pattern of `v`, and x0 holds 0. -/
structure IntEffect (i : Instr) (rd : Reg) (v : Int) (s t : State) : Prop where
  answers : Answers i s t
  advances : Advances i s t
  dest : regU t rd = if rd = 0 then 0 else modX s.xlen v
  others : KeepsXBut rd s t
  inputs : KeepsInputs s t
  fp : KeepsF s t
  fcsr : KeepsFcsr s t
  system : KeepsSystem s t
  memory : KeepsMem s t
  fetched : KeepsImem s t
  reservations : KeepsReservations s t

/-- `exec` answers a next state in which `rd` alone has changed, to the pattern of `v`. -/
def CompletesInt (i : Instr) (rd : Reg) (v : Int) (s : State) : Prop := ∃ t, exec i s = .next t ∧ IntEffect i rd v s t

/-- A transfer of control: `link` holds the address of the next instruction (x0 where there is none), and the pc is the
XLEN-bit pattern of `target`. -/
structure JumpEffect (i : Instr) (link : Reg) (target : Int) (s t : State) : Prop where
  answers : Answers i s t
  pc : t.pc.toNat = modX s.xlen target
  linked : regU t link = if link = 0 then 0 else (s.pc.toNat + i.compressed.bytes) % 2 ^ s.xlen.bits
  others : KeepsXBut link s t
  inputs : KeepsInputs s t
  fp : KeepsF s t
  fcsr : KeepsFcsr s t
  system : KeepsSystem s t
  memory : KeepsMem s t
  fetched : KeepsImem s t
  reservations : KeepsReservations s t

/-- `exec` answers a next state after a transfer of control. -/
def CompletesJump (i : Instr) (link : Reg) (target : Int) (s : State) : Prop :=
  ∃ t, exec i s = .next t ∧ JumpEffect i link target s t

/-- A branch goes to `target` where its condition holds, and to the next instruction where not. -/
def CompletesBranch (i : Instr) (taken : Prop) (target : Int) (s : State) : Prop :=
  (taken → CompletesJump i 0 target s) ∧ (¬taken → CompletesJump i 0 (s.pc.toNat + i.compressed.bytes) s)

/-- The `n` bytes from `a` hold the low bytes of `v`, little-endian, and every other byte is as it was. -/
def Stores (s t : State) (a : XWord) (n v : Nat) : Prop :=
  (∀ k, k < n → byteAt t.mem (addrKey s.xlen (a + BitVec.ofNat 64 k)) = BitVec.ofNat 8 (v / 256 ^ k)) ∧
    ∀ key, inAccess s.xlen a n key = false → byteAt t.mem key = byteAt s.mem key

/-- A store of the low `n` bytes of `v` at `a`, and nothing else. -/
structure StoreEffect (i : Instr) (a : XWord) (n v : Nat) (s t : State) : Prop where
  answers : Answers i s t
  advances : Advances i s t
  stored : Stores s t a n v
  ints : KeepsX s t
  inputs : KeepsInputs s t
  fp : KeepsF s t
  fcsr : KeepsFcsr s t
  system : KeepsSystem s t
  fetched : KeepsImem s t
  reservations : KeepsReservations s t

/-- `exec` answers a next state in which the bytes stored alone have changed. -/
def CompletesStore (i : Instr) (a : XWord) (n v : Nat) (s : State) : Prop :=
  ∃ t, exec i s = .next t ∧ StoreEffect i a n v s t

/-- An access of `n` bytes at `a` raises no exception: it is aligned or performed all the same, and no barrier stops it at any
of its bytes. -/
def AccessOk (s : State) (kind : AccessKind) (a : XWord) (n : Nat) : Prop :=
  (aligned s a n = true ∨ misalignedResponse s kind = .perform) ∧ ∀ b : Barrier, meets s b kind a n = false

/-- A barrier stops an access of `n` bytes at `a` at one of its bytes. -/
def Met (s : State) (b : Barrier) (kind : AccessKind) (a : XWord) (n : Nat) : Prop :=
  ∃ k, k < n ∧ stops s b kind (addrKey s.xlen (a + BitVec.ofNat 64 k)) = true

/-- An FP result: `rd` holds `v`, and `flags` accumulate. -/
structure FpEffect (i : Instr) (rd : Reg) (v : FWord) (flags : BitVec 5) (s t : State) : Prop where
  answers : Answers i s t
  advances : Advances i s t
  dest : readF t rd = v
  others : KeepsFBut rd s t
  flagsRaised : t.fflags = s.fflags ||| flags
  mode : t.frm = s.frm
  ints : KeepsX s t
  inputs : KeepsInputs s t
  system : KeepsSystem s t
  memory : KeepsMem s t
  fetched : KeepsImem s t
  reservations : KeepsReservations s t

/-- `exec` answers a next state in which `rd` holds `v` and `flags` have accumulated. -/
def CompletesFp (i : Instr) (rd : Reg) (v : FWord) (flags : BitVec 5) (s : State) : Prop :=
  ∃ t, exec i s = .next t ∧ FpEffect i rd v flags s t

/-- An FP instruction whose result goes to an integer register. -/
structure FpIntEffect (i : Instr) (rd : Reg) (v : Int) (flags : BitVec 5) (s t : State) : Prop where
  answers : Answers i s t
  advances : Advances i s t
  dest : regU t rd = if rd = 0 then 0 else modX s.xlen v
  others : KeepsXBut rd s t
  flagsRaised : t.fflags = s.fflags ||| flags
  mode : t.frm = s.frm
  fp : KeepsF s t
  inputs : KeepsInputs s t
  system : KeepsSystem s t
  memory : KeepsMem s t
  fetched : KeepsImem s t
  reservations : KeepsReservations s t

/-- `exec` answers a next state in which `rd` holds the pattern of `v` and `flags` have accumulated. -/
def CompletesFpInt (i : Instr) (rd : Reg) (v : Int) (flags : BitVec 5) (s : State) : Prop :=
  ∃ t, exec i s = .next t ∧ FpIntEffect i rd v flags s t

/-- The FP register of a result in a format: a single is boxed. -/
def boxed (p : Fmt) (bits : Nat) : FWord :=
  match p with
  | .s => boxS (BitVec.ofNat 32 bits)
  | .d => BitVec.ofNat 64 bits

/-- `exec` answers the result of an operation in a format. -/
def CompletesResult (i : Instr) (p : Fmt) (rd : Reg) (r : Ieee.FResult) (s : State) : Prop :=
  CompletesFp i rd (boxed p r.bits) r.flags s

/-- The state in which an F or D instruction with rounding mode `rm` rounds in mode `m`: the unit is on, and `rm` is `m`, or
`Dyn` while `frm` holds `m`. -/
def RoundsIn (s : State) (rm m : RoundingMode) : Prop :=
  s.fpOn = true ∧ m ≠ .dyn ∧ (rm = m ∨ (rm = .dyn ∧ s.frm = m.code))

/-- The six Zicsr instructions on a CSR: each with whether it writes the CSR, its operand, and the new value as a function of
the old value and the operand (43_zicsr_zihintpause.md R195 to R200). -/
def zicsrForms (s : State) (rd rs1 : Reg) (c : Csr) (imm : U5) : List (Instr × Bool × XWord × (XWord → XWord → XWord)) :=
  [(.csrrw rd c rs1, true, readX s rs1, fun _ v => v),
   (.csrrs rd c rs1, decide (rs1 ≠ 0), readX s rs1, fun old v => old ||| v),
   (.csrrc rd c rs1, decide (rs1 ≠ 0), readX s rs1, fun old v => old &&& ~~~v),
   (.csrrwi rd c imm, true, imm.setWidth 64, fun _ v => v),
   (.csrrsi rd c imm, decide (imm ≠ 0), imm.setWidth 64, fun old v => old ||| v),
   (.csrrci rd c imm, decide (imm ≠ 0), imm.setWidth 64, fun old v => old &&& ~~~v)]

/-! ### What a taken exception looks like (log entry 5) -/

/-- The exception `code` has been taken with the trap value `tval`: the registers it saves into, the status, the mode, the pc,
and everything else as it was. -/
structure TrapEffect (code : Nat) (tval : XWord) (s t : State) : Prop where
  mepc : csrFileGet t 0x341 = narrow s.xlen s.pc
  mcause : csrFileGet t 0x342 = BitVec.ofNat 64 code
  mtval : csrFileGet t 0x343 = narrow s.xlen tval
  mpie : (csrFileGet t 0x300).getLsbD 7 = (csrFileGet s 0x300).getLsbD 3
  mie : (csrFileGet t 0x300).getLsbD 3 = false
  mpp : (csrFileGet t 0x300).extractLsb' 11 2 = s.mode.code.setWidth 2
  status : ∀ k, k < s.xlen.bits → k ≠ 3 → k ≠ 7 → k ≠ 11 → k ≠ 12 →
    (csrFileGet t 0x300).getLsbD k = (csrFileGet s 0x300).getLsbD k
  csrs : ∀ a, a ≠ 0x300 → a ≠ 0x341 → a ≠ 0x342 → a ≠ 0x343 → csrFileGet t a = csrFileGet s a
  mode : t.mode = .m
  pc : t.pc = narrow s.xlen (csrFileGet s 0x305 &&& ~~~(3#64))
  reservations : t.reservations = if s.cfg.trapKeepsReservation then s.reservations else []
  ints : KeepsX s t
  fp : KeepsF s t
  fcsr : KeepsFcsr s t
  unit : t.fpOn = s.fpOn
  memory : KeepsMem s t
  fetched : KeepsImem s t

/-- `exec` answers the block's record and takes the exception. -/
def Traps (i : Instr) (code : Nat) (tval : XWord) (s : State) : Prop :=
  ∃ t, exec i s = .next t ∧ Answers i s t ∧ KeepsInputs s t ∧ TrapEffect code tval s t

/-- An access of `n` bytes at `a` is misaligned, and that raises the address-misaligned exception before any translation. -/
def MisalignedFirst (s : State) (kind : AccessKind) (a : XWord) (n : Nat) : Prop :=
  addrKey s.xlen a % n ≠ 0 ∧ misalignedResponse s kind = .misalignedException ∧ s.cfg.misalignedLast = false

/-- The exceptions of an instruction that makes an access of `n` bytes at `a`, in the order of 60_exceptions.md R358 items 4 to 8:
its codes are `misaligned`, `fault` and `page`, and the trap value is the pc for an address breakpoint, else the address. -/
structure TrapsByPriority (i : Instr) (kind : AccessKind) (misaligned fault page : Nat) (a : XWord) (n : Nat) (s : State) : Prop where
  breakpoint : Met s .breakpoint kind a n → Traps i 3 s.pc s
  misalignedFirst : ¬Met s .breakpoint kind a n → MisalignedFirst s kind a n → Traps i misaligned a s
  pageFault : ¬Met s .breakpoint kind a n → ¬MisalignedFirst s kind a n → Met s .pageFault kind a n → Traps i page a s
  accessFault : ¬Met s .breakpoint kind a n → ¬MisalignedFirst s kind a n → ¬Met s .pageFault kind a n →
    Met s .translationFault kind a n ∨ Met s .accessFault kind a n ∨
      (addrKey s.xlen a % n ≠ 0 ∧ misalignedResponse s kind = .accessFault) → Traps i fault a s
  misalignedLast : (∀ b, ¬Met s b kind a n) → addrKey s.xlen a % n ≠ 0 → misalignedResponse s kind = .misalignedException →
    s.cfg.misalignedLast = true → Traps i misaligned a s

/-! ### The invariants of a run -/

/-- The sparse storage is in canonical form, memory holds no byte outside the address space, and the CSR file none of the CSRs
that are kept elsewhere. -/
structure StorageInv (s : State) : Prop where
  mem : Memory.wf s.mem = true
  imem : Memory.wf s.imem = true
  csrs : cellsWf 0 s.csrs = true
  memKeys : ∀ c ∈ s.mem, c.1 < 2 ^ s.xlen.bits
  imemKeys : ∀ c ∈ s.imem, c.1 < 2 ^ s.xlen.bits
  csrKeys : ∀ c ∈ s.csrs, c.1 < 4096 ∧ c.1 ∉ [1, 2, 3]

/-- Every stored register, CSR and pc is a value of XLEN bits, x0 holds 0, and the pc is even (20_memory.md R53). -/
structure WidthInv (s : State) : Prop where
  pcEven : s.pc.getLsbD 0 = false
  pcFits : narrow s.xlen s.pc = s.pc
  xFits : ∀ k (h : k < 32), narrow s.xlen s.x[k] = s.x[k]
  xZero : s.x[0] = 0
  csrsFit : ∀ c ∈ s.csrs, narrow s.xlen c.2 = c.2

/-- The text is that of the record answered, and empty where there is none. -/
def AnswerInv (s : State) : Prop :=
  match s.result with
  | some (.ok r _) => s.text = format s.cfg.csrNames r
  | some .decodeError => s.text = ""
  | none => s.text = ""

end Sys2Proof.Machine

namespace Sys2Proof.Ieee

/-! ### The values of the FP formats -/

/-- An FP value is finite and is the rational number `v`. -/
def FVal.HasValue (f : FVal) (v : ℚ) : Prop :=
  match f with
  | .nan _ => False
  | .inf _ => False
  | .fin neg m e => v = (signedMant neg m : ℚ) * (2 : ℚ) ^ e

/-- An FP value that is no NaN is at a place of the rational line with its two ends: the infinities are the ends. -/
def FVal.HasPlace (f : FVal) (v : WithBot (WithTop ℚ)) : Prop :=
  match f with
  | .nan _ => False
  | .inf neg => v = if neg then ⊥ else ⊤
  | .fin neg m e => ∃ q : ℚ, q = (signedMant neg m : ℚ) * (2 : ℚ) ^ e ∧ v = ((q : WithTop ℚ) : WithBot (WithTop ℚ))

/-- The pattern `bits`, of value `v`, is the one mode `m` picks for `exact`: down and up the largest value not above and the
smallest not below, toward zero the largest magnitude not above with no change of sign, and the nearest modes a value no other is
closer than, a tie going to an even pattern or to the larger magnitude (10_state.md R37). -/
def FFormat.Picks (F : FFormat) (m : RoundingMode) (exact : ℝ) (bits : Nat) (v : ℚ) : Prop :=
  (m = .rdn → (v : ℝ) ≤ exact) ∧ (m = .rup → exact ≤ v) ∧ (m = .rtz → |(v : ℝ)| ≤ |exact| ∧ 0 ≤ v * exact) ∧
    ∀ (c : Nat) (w : ℚ), (F.unpack c).HasValue w →
      (m = .rdn → (w : ℝ) ≤ exact → w ≤ v) ∧ (m = .rup → exact ≤ w → v ≤ w) ∧ (m = .rtz → |(w : ℝ)| ≤ |exact| → |w| ≤ |v|) ∧
      (m = .rne ∨ m = .rmm → |v - exact| ≤ |w - exact|) ∧
      (m = .rne → |v - exact| = |w - exact| → w ≠ v → bits % 2 = 0) ∧
      (m = .rmm → |v - exact| = |w - exact| → w ≠ v → |w| ≤ |v|)

/-- A result overflows: `exact` is larger than every finite value of the format, OF and NX are raised, and the result is the
infinity of its sign, or the largest finite value where the mode rounds toward zero on that side. -/
def FFormat.Overflows (F : FFormat) (m : RoundingMode) (exact : ℝ) (r : FResult) : Prop :=
  (∀ (c : Nat) (w : ℚ), (F.unpack c).HasValue w → |(w : ℝ)| < |exact|) ∧ r.flags = OF ||| NX ∧
    (0 < exact → r.bits = F.withSign false (if m = .rtz ∨ m = .rdn then F.infMag - 1 else F.infMag)) ∧
    (exact < 0 → r.bits = F.withSign true (if m = .rtz ∨ m = .rup then F.infMag - 1 else F.infMag))

/-- A result is the number `exact` rounded once in mode `m`: without OF it is finite and the value the mode picks, and NX says
whether it is inexact; with OF it overflows. NV and DZ are not raised. -/
def FFormat.Rounds (F : FFormat) (m : RoundingMode) (exact : ℝ) (r : FResult) : Prop :=
  (r.flags &&& OF = 0 → ∃ v : ℚ, (F.unpack r.bits).HasValue v ∧ (r.flags &&& NX ≠ 0 ↔ (v : ℝ) ≠ exact) ∧ F.Picks m exact r.bits v) ∧
    (r.flags &&& OF ≠ 0 → F.Overflows m exact r) ∧ r.flags &&& (NV ||| DZ) = 0

/-- An integer is the number `v` rounded in mode `m` (10_state.md R37). -/
def RoundsToInt (m : RoundingMode) (v : ℚ) (z : Int) : Prop :=
  (m = .rne → |v - z| ≤ 1 / 2 ∧ (|v - z| = 1 / 2 → z % 2 = 0)) ∧
    (m = .rtz → |(z : ℚ)| ≤ |v| ∧ |v| < |(z : ℚ)| + 1 ∧ 0 ≤ z * v) ∧
    (m = .rdn → z ≤ v ∧ v < z + 1) ∧ (m = .rup → v ≤ z ∧ z < v + 1) ∧
    (m = .rmm → |v - z| ≤ 1 / 2 ∧ (|v - z| = 1 / 2 → |v| ≤ |(z : ℚ)|))

end Sys2Proof.Ieee
end

