-- ==== Sys2Proof/Certificates/Slice0/Obligations.lean ====
section
/-! DEFINITION. The statements for the provers. Each docstring says what is stated; OBLIGATIONS.json names the rules. -/

open Sys2Proof Sys2Proof.Machine

/-- For every well-formed instruction of a 32-bit row and either Xlen, the decoder reads the instruction from its encoding,
with every operand. -/
def Obligations.DecodeEncodeWords : Prop :=
  ∀ (i : Instr) (x : Xlen), i.compressed = .no → i.wf = true → decodeInstr (encode i) x = some i

/-- For every well-formed instruction of a 16-bit row and an Xlen under which the row applies, the decoder reads the
instruction from its encoding, with every operand. -/
def Obligations.DecodeEncodeParcels : Prop :=
  ∀ (i : Instr) (x : Xlen), i.compressed = .yes → i.wf = true → i.availableIn x = true →
    decodeInstr (encode i) x = some i

/-- Whatever the decoder reads from a word is well-formed, its row applies under the Xlen, and its encoding is the word, or
for a parcel the low half of the word. -/
def Obligations.DecodedEncodesBack : Prop :=
  ∀ (w : Word) (x : Xlen) (i : Instr), decodeInstr w x = some i →
    i.wf = true ∧ i.availableIn x = true ∧ encode i = (if w.extractLsb' 0 2 = 0b11#2 then w else w &&& 0x0000FFFF#32)

/-- decode yields DecodeError exactly when no well-formed instruction whose row applies under the Xlen has the word, or the
low half of a parcel, as its encoding. -/
def Obligations.ErrorExactlyWithoutRow : Prop :=
  ∀ (w : Word) (x : Xlen), decode w x = .decodeError ↔
    ∀ i : Instr, i.wf = true → i.availableIn x = true →
      encode i ≠ (if w.extractLsb' 0 2 = 0b11#2 then w else w &&& 0x0000FFFF#32)

/-- A record comes with Yes exactly when the two low bits of the word are not 11, that is when it is the record of a
compressed row; its length is then 2 bytes, else 4. Every record answered with Yes is also answered with No, by another
word. -/
def Obligations.LengthFromLowBits : Prop :=
  ∀ (w : Word) (x : Xlen) (r : Record) (c : IsCompressed), decode w x = .ok r c →
    (c = .yes ↔ w.extractLsb' 0 2 ≠ 0b11#2) ∧
      (c = .yes ↔ ∃ i : Instr, decodeInstr w x = some i ∧ i.compressed = .yes ∧ i.record = r) ∧
      c.bytes = (if w.extractLsb' 0 2 = 0b11#2 then 4 else 2) ∧
      ∃ w' : Word, decode w' x = .ok r .no

/-- Where the two low bits are not 11, decode depends on the low half alone, and answers the record of the one compressed
row that accepts the parcel with Yes, or DecodeError where none accepts the parcel. -/
def Obligations.UpperHalfIgnored : Prop :=
  ∀ (w : Word) (x : Xlen), w.extractLsb' 0 2 ≠ 0b11#2 →
    decode w x = decode (w &&& 0x0000FFFF#32) x ∧
      ((∃ i : Instr, i.compressed = .yes ∧ i.wf = true ∧ i.availableIn x = true ∧ encode i = w &&& 0x0000FFFF#32 ∧
          decode w x = .ok i.record .yes ∧ ∀ j : Instr, j.compressed = .yes → j.wf = true → j.availableIn x = true →
            encode j = w &&& 0x0000FFFF#32 → j = i) ∨
        (decode w x = .decodeError ∧
          ∀ i : Instr, i.compressed = .yes → i.wf = true → i.availableIn x = true → encode i ≠ w &&& 0x0000FFFF#32))

/-- For every compressed instruction the decoder reads from a word, the word decodes to Ok(r, Yes) and the encoding of its
32-bit expansion to Ok(r, No), with the same record r. -/
def Obligations.Canonicalization : Prop :=
  ∀ (w : Word) (x : Xlen) (i : Instr), w.extractLsb' 0 2 ≠ 0b11#2 → decodeInstr w x = some i →
    i.expand.compressed = .no ∧
      ∃ r : Record, decode w x = .ok r .yes ∧ decode (encode i.expand) x = .ok r .no

/-- A word with opcode 0010011 decodes by funct3: ADDI, SLTI, SLTIU, XORI, ORI and ANDI with every value of the other bits,
SLLI, SRLI and SRAI for their one value of w[31:25], and DecodeError for any other. -/
def Obligations.OpImmDispatch : Prop :=
  ∀ (w : Word) (x : Xlen), w.extractLsb' 0 7 = 0b0010011#7 →
    (w.extractLsb' 12 3 = 0b000#3 → decode w x = .ok (.addi (w.extractLsb' 7 5) (w.extractLsb' 15 5) ⟨(w.extractLsb' 20 12).signExtend 32, .signed⟩) .no) ∧
    (w.extractLsb' 12 3 = 0b010#3 → decode w x = .ok (.slti (w.extractLsb' 7 5) (w.extractLsb' 15 5) ⟨(w.extractLsb' 20 12).signExtend 32, .signed⟩) .no) ∧
    (w.extractLsb' 12 3 = 0b011#3 → decode w x = .ok (.sltiu (w.extractLsb' 7 5) (w.extractLsb' 15 5) ⟨(w.extractLsb' 20 12).signExtend 32, .signed⟩) .no) ∧
    (w.extractLsb' 12 3 = 0b100#3 → decode w x = .ok (.xori (w.extractLsb' 7 5) (w.extractLsb' 15 5) ⟨(w.extractLsb' 20 12).signExtend 32, .signed⟩) .no) ∧
    (w.extractLsb' 12 3 = 0b110#3 → decode w x = .ok (.ori (w.extractLsb' 7 5) (w.extractLsb' 15 5) ⟨(w.extractLsb' 20 12).signExtend 32, .signed⟩) .no) ∧
    (w.extractLsb' 12 3 = 0b111#3 → decode w x = .ok (.andi (w.extractLsb' 7 5) (w.extractLsb' 15 5) ⟨(w.extractLsb' 20 12).signExtend 32, .signed⟩) .no) ∧
    (w.extractLsb' 12 3 = 0b001#3 → decode w x = if w.extractLsb' 25 7 = 0b0000000#7 then .ok (.slli (w.extractLsb' 7 5) (w.extractLsb' 15 5) (w.extractLsb' 20 5)) .no else .decodeError) ∧
    (w.extractLsb' 12 3 = 0b101#3 → decode w x = if w.extractLsb' 25 7 = 0b0000000#7 then .ok (.srli (w.extractLsb' 7 5) (w.extractLsb' 15 5) (w.extractLsb' 20 5)) .no
        else if w.extractLsb' 25 7 = 0b0100000#7 then .ok (.srai (w.extractLsb' 7 5) (w.extractLsb' 15 5) (w.extractLsb' 20 5)) .no else .decodeError)

/-- A word with opcode 0110011 decodes by all seven bits of funct7 and by funct3: the base operations, SUB and SRA, the
eight M operations, and DecodeError for any other combination. -/
def Obligations.OpDispatch : Prop :=
  ∀ (w : Word) (x : Xlen), w.extractLsb' 0 7 = 0b0110011#7 →
    (w.extractLsb' 25 7 = 0b0000000#7 → w.extractLsb' 12 3 = 0b000#3 → decode w x = .ok (.add (w.extractLsb' 7 5) (w.extractLsb' 15 5) (w.extractLsb' 20 5)) .no) ∧
    (w.extractLsb' 25 7 = 0b0000000#7 → w.extractLsb' 12 3 = 0b001#3 → decode w x = .ok (.sll (w.extractLsb' 7 5) (w.extractLsb' 15 5) (w.extractLsb' 20 5)) .no) ∧
    (w.extractLsb' 25 7 = 0b0000000#7 → w.extractLsb' 12 3 = 0b010#3 → decode w x = .ok (.slt (w.extractLsb' 7 5) (w.extractLsb' 15 5) (w.extractLsb' 20 5)) .no) ∧
    (w.extractLsb' 25 7 = 0b0000000#7 → w.extractLsb' 12 3 = 0b011#3 → decode w x = .ok (.sltu (w.extractLsb' 7 5) (w.extractLsb' 15 5) (w.extractLsb' 20 5)) .no) ∧
    (w.extractLsb' 25 7 = 0b0000000#7 → w.extractLsb' 12 3 = 0b100#3 → decode w x = .ok (.xor (w.extractLsb' 7 5) (w.extractLsb' 15 5) (w.extractLsb' 20 5)) .no) ∧
    (w.extractLsb' 25 7 = 0b0000000#7 → w.extractLsb' 12 3 = 0b101#3 → decode w x = .ok (.srl (w.extractLsb' 7 5) (w.extractLsb' 15 5) (w.extractLsb' 20 5)) .no) ∧
    (w.extractLsb' 25 7 = 0b0000000#7 → w.extractLsb' 12 3 = 0b110#3 → decode w x = .ok (.or (w.extractLsb' 7 5) (w.extractLsb' 15 5) (w.extractLsb' 20 5)) .no) ∧
    (w.extractLsb' 25 7 = 0b0000000#7 → w.extractLsb' 12 3 = 0b111#3 → decode w x = .ok (.and (w.extractLsb' 7 5) (w.extractLsb' 15 5) (w.extractLsb' 20 5)) .no) ∧
    (w.extractLsb' 25 7 = 0b0100000#7 → decode w x = if w.extractLsb' 12 3 = 0b000#3 then .ok (.sub (w.extractLsb' 7 5) (w.extractLsb' 15 5) (w.extractLsb' 20 5)) .no
        else if w.extractLsb' 12 3 = 0b101#3 then .ok (.sra (w.extractLsb' 7 5) (w.extractLsb' 15 5) (w.extractLsb' 20 5)) .no else .decodeError) ∧
    (w.extractLsb' 25 7 = 0b0000001#7 → w.extractLsb' 12 3 = 0b000#3 → decode w x = .ok (.mul (w.extractLsb' 7 5) (w.extractLsb' 15 5) (w.extractLsb' 20 5)) .no) ∧
    (w.extractLsb' 25 7 = 0b0000001#7 → w.extractLsb' 12 3 = 0b001#3 → decode w x = .ok (.mulh (w.extractLsb' 7 5) (w.extractLsb' 15 5) (w.extractLsb' 20 5)) .no) ∧
    (w.extractLsb' 25 7 = 0b0000001#7 → w.extractLsb' 12 3 = 0b010#3 → decode w x = .ok (.mulhsu (w.extractLsb' 7 5) (w.extractLsb' 15 5) (w.extractLsb' 20 5)) .no) ∧
    (w.extractLsb' 25 7 = 0b0000001#7 → w.extractLsb' 12 3 = 0b011#3 → decode w x = .ok (.mulhu (w.extractLsb' 7 5) (w.extractLsb' 15 5) (w.extractLsb' 20 5)) .no) ∧
    (w.extractLsb' 25 7 = 0b0000001#7 → w.extractLsb' 12 3 = 0b100#3 → decode w x = .ok (.div (w.extractLsb' 7 5) (w.extractLsb' 15 5) (w.extractLsb' 20 5)) .no) ∧
    (w.extractLsb' 25 7 = 0b0000001#7 → w.extractLsb' 12 3 = 0b101#3 → decode w x = .ok (.divu (w.extractLsb' 7 5) (w.extractLsb' 15 5) (w.extractLsb' 20 5)) .no) ∧
    (w.extractLsb' 25 7 = 0b0000001#7 → w.extractLsb' 12 3 = 0b110#3 → decode w x = .ok (.rem (w.extractLsb' 7 5) (w.extractLsb' 15 5) (w.extractLsb' 20 5)) .no) ∧
    (w.extractLsb' 25 7 = 0b0000001#7 → w.extractLsb' 12 3 = 0b111#3 → decode w x = .ok (.remu (w.extractLsb' 7 5) (w.extractLsb' 15 5) (w.extractLsb' 20 5)) .no) ∧
    (w.extractLsb' 25 7 ≠ 0b0000000#7 → w.extractLsb' 25 7 ≠ 0b0100000#7 → w.extractLsb' 25 7 ≠ 0b0000001#7 → decode w x = .decodeError)

/-- A word with opcode 0001111 decodes in the order of the rule: the exact PAUSE and FENCE.TSO words, FENCE with its
reserved fields zero and both sets non-empty, the exact FENCE.I word, and DecodeError for any other. -/
def Obligations.MiscMemDispatch : Prop :=
  ∀ (w : Word) (x : Xlen), w.extractLsb' 0 7 = 0b0001111#7 →
    decode w x =
      if w = 0x0100000F#32 then .ok .pause .no
      else if w = 0x8330000F#32 then .ok .fenceTso .no
      else if w.extractLsb' 12 3 = 0b000#3 then
        (if w.extractLsb' 28 4 = 0#4 ∧ w.extractLsb' 15 5 = 0#5 ∧ w.extractLsb' 7 5 = 0#5 ∧ w.extractLsb' 24 4 ≠ 0#4 ∧
            w.extractLsb' 20 4 ≠ 0#4 then .ok (.fence (w.extractLsb' 24 4) (w.extractLsb' 20 4)) .no
        else .decodeError)
      else if w = 0x0000100F#32 then .ok .fenceI .no
      else .decodeError

/-- A word with opcode 1110011 decodes by funct3: 000 accepts the exact words ECALL and EBREAK and nothing else, 100
nothing, and the other six are the Zicsr instructions. In each of those the CSR address is w[31:20] and the destination
w[11:7]; w[19:15] is a register where w[14] is 0 and the number 0 to 31 where it is 1. -/
def Obligations.SystemDispatch : Prop :=
  ∀ (w : Word) (x : Xlen), w.extractLsb' 0 7 = 0b1110011#7 →
    (w.extractLsb' 12 3 = 0b000#3 →
      decode w x = if w = 0x00000073#32 then .ok .ecall .no else if w = 0x00100073#32 then .ok .ebreak .no else .decodeError) ∧
    (w.extractLsb' 12 3 = 0b100#3 → decode w x = .decodeError) ∧
    (w.extractLsb' 12 3 = 0b001#3 → decode w x = .ok (.csrrw (w.extractLsb' 7 5) (w.extractLsb' 20 12) (w.extractLsb' 15 5)) .no) ∧
    (w.extractLsb' 12 3 = 0b010#3 → decode w x = .ok (.csrrs (w.extractLsb' 7 5) (w.extractLsb' 20 12) (w.extractLsb' 15 5)) .no) ∧
    (w.extractLsb' 12 3 = 0b011#3 → decode w x = .ok (.csrrc (w.extractLsb' 7 5) (w.extractLsb' 20 12) (w.extractLsb' 15 5)) .no) ∧
    (w.extractLsb' 12 3 = 0b101#3 → decode w x = .ok (.csrrwi (w.extractLsb' 7 5) (w.extractLsb' 20 12) (w.extractLsb' 15 5)) .no) ∧
    (w.extractLsb' 12 3 = 0b110#3 → decode w x = .ok (.csrrsi (w.extractLsb' 7 5) (w.extractLsb' 20 12) (w.extractLsb' 15 5)) .no) ∧
    (w.extractLsb' 12 3 = 0b111#3 → decode w x = .ok (.csrrci (w.extractLsb' 7 5) (w.extractLsb' 20 12) (w.extractLsb' 15 5)) .no)

/-- A word with opcode 0101111 decodes only with funct3 010, by funct5, with aq and rl copied from w[26] and w[25]; LR.W
needs rs2 = 0; every other funct3 and funct5 yields DecodeError, under either Xlen. -/
def Obligations.AmoDispatch : Prop :=
  ∀ (w : Word) (x : Xlen), w.extractLsb' 0 7 = 0b0101111#7 →
    (w.extractLsb' 12 3 ≠ 0b010#3 → decode w x = .decodeError) ∧
    (w.extractLsb' 12 3 = 0b010#3 →
      (w.extractLsb' 27 5 = 0b00010#5 →
        decode w x = if w.extractLsb' 20 5 = 0#5 then
          .ok (.lrW (w.extractLsb' 26 1) (w.extractLsb' 25 1) (w.extractLsb' 7 5) (w.extractLsb' 15 5)) .no else .decodeError) ∧
      (w.extractLsb' 27 5 = 0b00011#5 → decode w x =
        .ok (.scW (w.extractLsb' 26 1) (w.extractLsb' 25 1) (w.extractLsb' 7 5) (w.extractLsb' 15 5) (w.extractLsb' 20 5)) .no) ∧
      (w.extractLsb' 27 5 = 0b00001#5 → decode w x =
        .ok (.amoswapW (w.extractLsb' 26 1) (w.extractLsb' 25 1) (w.extractLsb' 7 5) (w.extractLsb' 15 5) (w.extractLsb' 20 5)) .no) ∧
      (w.extractLsb' 27 5 = 0b00000#5 → decode w x =
        .ok (.amoaddW (w.extractLsb' 26 1) (w.extractLsb' 25 1) (w.extractLsb' 7 5) (w.extractLsb' 15 5) (w.extractLsb' 20 5)) .no) ∧
      (w.extractLsb' 27 5 = 0b00100#5 → decode w x =
        .ok (.amoxorW (w.extractLsb' 26 1) (w.extractLsb' 25 1) (w.extractLsb' 7 5) (w.extractLsb' 15 5) (w.extractLsb' 20 5)) .no) ∧
      (w.extractLsb' 27 5 = 0b01100#5 → decode w x =
        .ok (.amoandW (w.extractLsb' 26 1) (w.extractLsb' 25 1) (w.extractLsb' 7 5) (w.extractLsb' 15 5) (w.extractLsb' 20 5)) .no) ∧
      (w.extractLsb' 27 5 = 0b01000#5 → decode w x =
        .ok (.amoorW (w.extractLsb' 26 1) (w.extractLsb' 25 1) (w.extractLsb' 7 5) (w.extractLsb' 15 5) (w.extractLsb' 20 5)) .no) ∧
      (w.extractLsb' 27 5 = 0b10000#5 → decode w x =
        .ok (.amominW (w.extractLsb' 26 1) (w.extractLsb' 25 1) (w.extractLsb' 7 5) (w.extractLsb' 15 5) (w.extractLsb' 20 5)) .no) ∧
      (w.extractLsb' 27 5 = 0b10100#5 → decode w x =
        .ok (.amomaxW (w.extractLsb' 26 1) (w.extractLsb' 25 1) (w.extractLsb' 7 5) (w.extractLsb' 15 5) (w.extractLsb' 20 5)) .no) ∧
      (w.extractLsb' 27 5 = 0b11000#5 → decode w x =
        .ok (.amominuW (w.extractLsb' 26 1) (w.extractLsb' 25 1) (w.extractLsb' 7 5) (w.extractLsb' 15 5) (w.extractLsb' 20 5)) .no) ∧
      (w.extractLsb' 27 5 = 0b11100#5 → decode w x =
        .ok (.amomaxuW (w.extractLsb' 26 1) (w.extractLsb' 25 1) (w.extractLsb' 7 5) (w.extractLsb' 15 5) (w.extractLsb' 20 5)) .no) ∧
      (w.extractLsb' 27 5 ∉ [0b00010#5, 0b00011#5, 0b00001#5, 0b00000#5, 0b00100#5, 0b01100#5, 0b01000#5, 0b10000#5, 0b10100#5, 0b11000#5, 0b11100#5] →
        decode w x = .decodeError))

/-- A word with one of these opcodes decodes by funct3 to its load or store, with the registers of its format and the I or S
immediate gathered from the bits of the word and sign-extended; every other funct3 yields DecodeError. -/
def Obligations.LoadStoreDispatch : Prop :=
  ∀ (w : Word) (x : Xlen),
    (w.extractLsb' 0 7 = 0b0000011#7 →
      (w.extractLsb' 12 3 = 0b000#3 → decode w x = .ok (.lb (w.extractLsb' 7 5) (w.extractLsb' 15 5) ⟨(w.extractLsb' 20 12).signExtend 32, .signed⟩) .no) ∧
      (w.extractLsb' 12 3 = 0b001#3 → decode w x = .ok (.lh (w.extractLsb' 7 5) (w.extractLsb' 15 5) ⟨(w.extractLsb' 20 12).signExtend 32, .signed⟩) .no) ∧
      (w.extractLsb' 12 3 = 0b010#3 → decode w x = .ok (.lw (w.extractLsb' 7 5) (w.extractLsb' 15 5) ⟨(w.extractLsb' 20 12).signExtend 32, .signed⟩) .no) ∧
      (w.extractLsb' 12 3 = 0b100#3 → decode w x = .ok (.lbu (w.extractLsb' 7 5) (w.extractLsb' 15 5) ⟨(w.extractLsb' 20 12).signExtend 32, .signed⟩) .no) ∧
      (w.extractLsb' 12 3 = 0b101#3 → decode w x = .ok (.lhu (w.extractLsb' 7 5) (w.extractLsb' 15 5) ⟨(w.extractLsb' 20 12).signExtend 32, .signed⟩) .no) ∧
      (w.extractLsb' 12 3 ∉ [0b000#3, 0b001#3, 0b010#3, 0b100#3, 0b101#3] → decode w x = .decodeError)) ∧
    (w.extractLsb' 0 7 = 0b0100011#7 →
      (w.extractLsb' 12 3 = 0b000#3 → decode w x = .ok (.sb (w.extractLsb' 20 5) (w.extractLsb' 15 5) ⟨(w.extractLsb' 25 7 ++ w.extractLsb' 7 5).signExtend 32, .signed⟩) .no) ∧
      (w.extractLsb' 12 3 = 0b001#3 → decode w x = .ok (.sh (w.extractLsb' 20 5) (w.extractLsb' 15 5) ⟨(w.extractLsb' 25 7 ++ w.extractLsb' 7 5).signExtend 32, .signed⟩) .no) ∧
      (w.extractLsb' 12 3 = 0b010#3 → decode w x = .ok (.sw (w.extractLsb' 20 5) (w.extractLsb' 15 5) ⟨(w.extractLsb' 25 7 ++ w.extractLsb' 7 5).signExtend 32, .signed⟩) .no) ∧
      (w.extractLsb' 12 3 ∉ [0b000#3, 0b001#3, 0b010#3] → decode w x = .decodeError)) ∧
    (w.extractLsb' 0 7 = 0b0000111#7 →
      (w.extractLsb' 12 3 = 0b010#3 → decode w x = .ok (.fload .s (w.extractLsb' 7 5) (w.extractLsb' 15 5) ⟨(w.extractLsb' 20 12).signExtend 32, .signed⟩) .no) ∧
      (w.extractLsb' 12 3 = 0b011#3 → decode w x = .ok (.fload .d (w.extractLsb' 7 5) (w.extractLsb' 15 5) ⟨(w.extractLsb' 20 12).signExtend 32, .signed⟩) .no) ∧
      (w.extractLsb' 12 3 ∉ [0b010#3, 0b011#3] → decode w x = .decodeError)) ∧
    (w.extractLsb' 0 7 = 0b0100111#7 →
      (w.extractLsb' 12 3 = 0b010#3 → decode w x = .ok (.fstore .s (w.extractLsb' 20 5) (w.extractLsb' 15 5) ⟨(w.extractLsb' 25 7 ++ w.extractLsb' 7 5).signExtend 32, .signed⟩) .no) ∧
      (w.extractLsb' 12 3 = 0b011#3 → decode w x = .ok (.fstore .d (w.extractLsb' 20 5) (w.extractLsb' 15 5) ⟨(w.extractLsb' 25 7 ++ w.extractLsb' 7 5).signExtend 32, .signed⟩) .no) ∧
      (w.extractLsb' 12 3 ∉ [0b010#3, 0b011#3] → decode w x = .decodeError))

/-- A word with one of these opcodes decodes to its transfer or upper-immediate record, with the B, J, I or U immediate
gathered from the bits of the word; BRANCH by funct3, of which 010 and 011 yield DecodeError, and JALR for funct3 000
alone. -/
def Obligations.ControlDispatch : Prop :=
  ∀ (w : Word) (x : Xlen),
    (w.extractLsb' 0 7 = 0b1100011#7 →
      (w.extractLsb' 12 3 = 0b000#3 → decode w x = .ok (.beq (w.extractLsb' 15 5) (w.extractLsb' 20 5) ⟨(w.extractLsb' 31 1 ++ w.extractLsb' 7 1 ++ w.extractLsb' 25 6 ++ w.extractLsb' 8 4 ++ 0#1).signExtend 32, .signed⟩) .no) ∧
      (w.extractLsb' 12 3 = 0b001#3 → decode w x = .ok (.bne (w.extractLsb' 15 5) (w.extractLsb' 20 5) ⟨(w.extractLsb' 31 1 ++ w.extractLsb' 7 1 ++ w.extractLsb' 25 6 ++ w.extractLsb' 8 4 ++ 0#1).signExtend 32, .signed⟩) .no) ∧
      (w.extractLsb' 12 3 = 0b100#3 → decode w x = .ok (.blt (w.extractLsb' 15 5) (w.extractLsb' 20 5) ⟨(w.extractLsb' 31 1 ++ w.extractLsb' 7 1 ++ w.extractLsb' 25 6 ++ w.extractLsb' 8 4 ++ 0#1).signExtend 32, .signed⟩) .no) ∧
      (w.extractLsb' 12 3 = 0b101#3 → decode w x = .ok (.bge (w.extractLsb' 15 5) (w.extractLsb' 20 5) ⟨(w.extractLsb' 31 1 ++ w.extractLsb' 7 1 ++ w.extractLsb' 25 6 ++ w.extractLsb' 8 4 ++ 0#1).signExtend 32, .signed⟩) .no) ∧
      (w.extractLsb' 12 3 = 0b110#3 → decode w x = .ok (.bltu (w.extractLsb' 15 5) (w.extractLsb' 20 5) ⟨(w.extractLsb' 31 1 ++ w.extractLsb' 7 1 ++ w.extractLsb' 25 6 ++ w.extractLsb' 8 4 ++ 0#1).signExtend 32, .signed⟩) .no) ∧
      (w.extractLsb' 12 3 = 0b111#3 → decode w x = .ok (.bgeu (w.extractLsb' 15 5) (w.extractLsb' 20 5) ⟨(w.extractLsb' 31 1 ++ w.extractLsb' 7 1 ++ w.extractLsb' 25 6 ++ w.extractLsb' 8 4 ++ 0#1).signExtend 32, .signed⟩) .no) ∧
      (w.extractLsb' 12 3 ∉ [0b000#3, 0b001#3, 0b100#3, 0b101#3, 0b110#3, 0b111#3] → decode w x = .decodeError)) ∧
    (w.extractLsb' 0 7 = 0b1101111#7 → decode w x = .ok (.jal (w.extractLsb' 7 5) ⟨(w.extractLsb' 31 1 ++ w.extractLsb' 12 8 ++ w.extractLsb' 20 1 ++ w.extractLsb' 21 10 ++ 0#1).signExtend 32, .signed⟩) .no) ∧
    (w.extractLsb' 0 7 = 0b1100111#7 → decode w x = if w.extractLsb' 12 3 = 0b000#3 then .ok (.jalr (w.extractLsb' 7 5) (w.extractLsb' 15 5) ⟨(w.extractLsb' 20 12).signExtend 32, .signed⟩) .no else .decodeError) ∧
    (w.extractLsb' 0 7 = 0b0110111#7 → decode w x = .ok (.lui (w.extractLsb' 7 5) ⟨w.extractLsb' 12 20 ++ 0#12, .unsigned⟩) .no) ∧
    (w.extractLsb' 0 7 = 0b0010111#7 → decode w x = .ok (.auipc (w.extractLsb' 7 5) ⟨w.extractLsb' 12 20 ++ 0#12, .unsigned⟩) .no)

/-- A word with one of these opcodes decodes by fmt (00 single, 01 double, 10 and 11 DecodeError), by funct5 and where a row
fixes them by rs2 and funct3; where the record carries a mode, funct3 gives it and 101 and 110 yield DecodeError, and
the exact conversions need 000. Every combination with no row yields DecodeError. -/
def Obligations.FpDispatch : Prop :=
  ∀ (w : Word) (x : Xlen),
    (w.extractLsb' 0 7 ∈ [0b1000011#7, 0b1000111#7, 0b1001011#7, 0b1001111#7, 0b1010011#7] → w.extractLsb' 25 2 = 0b10#2 ∨ w.extractLsb' 25 2 = 0b11#2 → decode w x = .decodeError) ∧
    (∀ (p : Fmt) (f : BitVec 2), (p, f) ∈ [(Fmt.s, 0b00#2), (Fmt.d, 0b01#2)] → w.extractLsb' 25 2 = f →
      (∀ (m : RoundingMode) (c : BitVec 3), (m, c) ∈ [(RoundingMode.rne, 0b000#3), (.rtz, 0b001#3), (.rdn, 0b010#3), (.rup, 0b011#3), (.rmm, 0b100#3), (.dyn, 0b111#3)] → w.extractLsb' 12 3 = c →
        (w.extractLsb' 0 7 = 0b1000011#7 → decode w x = .ok (.fmadd p m (w.extractLsb' 7 5) (w.extractLsb' 15 5) (w.extractLsb' 20 5) (w.extractLsb' 27 5)) .no) ∧
        (w.extractLsb' 0 7 = 0b1000111#7 → decode w x = .ok (.fmsub p m (w.extractLsb' 7 5) (w.extractLsb' 15 5) (w.extractLsb' 20 5) (w.extractLsb' 27 5)) .no) ∧
        (w.extractLsb' 0 7 = 0b1001011#7 → decode w x = .ok (.fnmsub p m (w.extractLsb' 7 5) (w.extractLsb' 15 5) (w.extractLsb' 20 5) (w.extractLsb' 27 5)) .no) ∧
        (w.extractLsb' 0 7 = 0b1001111#7 → decode w x = .ok (.fnmadd p m (w.extractLsb' 7 5) (w.extractLsb' 15 5) (w.extractLsb' 20 5) (w.extractLsb' 27 5)) .no)) ∧
      (w.extractLsb' 12 3 = 0b101#3 ∨ w.extractLsb' 12 3 = 0b110#3 → w.extractLsb' 0 7 ∈ [0b1000011#7, 0b1000111#7, 0b1001011#7, 0b1001111#7] → decode w x = .decodeError)) ∧
    (w.extractLsb' 0 7 = 0b1010011#7 → ∀ (p : Fmt) (f : BitVec 2), (p, f) ∈ [(Fmt.s, 0b00#2), (Fmt.d, 0b01#2)] → w.extractLsb' 25 2 = f →
      (∀ (m : RoundingMode) (c : BitVec 3), (m, c) ∈ [(RoundingMode.rne, 0b000#3), (.rtz, 0b001#3), (.rdn, 0b010#3), (.rup, 0b011#3), (.rmm, 0b100#3), (.dyn, 0b111#3)] → w.extractLsb' 12 3 = c →
        (w.extractLsb' 27 5 = 0b00000#5 → decode w x = .ok (.fadd p m (w.extractLsb' 7 5) (w.extractLsb' 15 5) (w.extractLsb' 20 5)) .no) ∧
        (w.extractLsb' 27 5 = 0b00001#5 → decode w x = .ok (.fsub p m (w.extractLsb' 7 5) (w.extractLsb' 15 5) (w.extractLsb' 20 5)) .no) ∧
        (w.extractLsb' 27 5 = 0b00010#5 → decode w x = .ok (.fmul p m (w.extractLsb' 7 5) (w.extractLsb' 15 5) (w.extractLsb' 20 5)) .no) ∧
        (w.extractLsb' 27 5 = 0b00011#5 → decode w x = .ok (.fdiv p m (w.extractLsb' 7 5) (w.extractLsb' 15 5) (w.extractLsb' 20 5)) .no) ∧
        (w.extractLsb' 27 5 = 0b01011#5 → decode w x = if w.extractLsb' 20 5 = 0#5 then .ok (.fsqrt p m (w.extractLsb' 7 5) (w.extractLsb' 15 5)) .no else .decodeError) ∧
        (w.extractLsb' 27 5 = 0b11000#5 → decode w x = if w.extractLsb' 20 5 = 0#5 then .ok (.fcvtW p m (w.extractLsb' 7 5) (w.extractLsb' 15 5)) .no
          else if w.extractLsb' 20 5 = 1#5 then .ok (.fcvtWu p m (w.extractLsb' 7 5) (w.extractLsb' 15 5)) .no else .decodeError) ∧
        (w.extractLsb' 27 5 = 0b11010#5 → decode w x = if p = .d ∧ m ≠ .rne then .decodeError else if w.extractLsb' 20 5 = 0#5 then .ok (.fcvtFW p m (w.extractLsb' 7 5) (w.extractLsb' 15 5)) .no
          else if w.extractLsb' 20 5 = 1#5 then .ok (.fcvtFWu p m (w.extractLsb' 7 5) (w.extractLsb' 15 5)) .no else .decodeError) ∧
        (w.extractLsb' 27 5 = 0b01000#5 → p = .s → decode w x = if w.extractLsb' 20 5 = 1#5 then .ok (.fcvtSD m (w.extractLsb' 7 5) (w.extractLsb' 15 5)) .no else .decodeError) ∧
        (w.extractLsb' 27 5 = 0b01000#5 → p = .d → decode w x = if m = .rne ∧ w.extractLsb' 20 5 = 0#5 then .ok (.fcvtDS (w.extractLsb' 7 5) (w.extractLsb' 15 5)) .no else .decodeError)) ∧
      (w.extractLsb' 12 3 = 0b101#3 ∨ w.extractLsb' 12 3 = 0b110#3 →
        w.extractLsb' 27 5 ∈ [0b00000#5, 0b00001#5, 0b00010#5, 0b00011#5, 0b01011#5, 0b11000#5, 0b11010#5, 0b01000#5] → decode w x = .decodeError) ∧
      (w.extractLsb' 27 5 = 0b00100#5 → decode w x = if w.extractLsb' 12 3 = 0b000#3 then .ok (.fsgnj p (w.extractLsb' 7 5) (w.extractLsb' 15 5) (w.extractLsb' 20 5)) .no
        else if w.extractLsb' 12 3 = 0b001#3 then .ok (.fsgnjn p (w.extractLsb' 7 5) (w.extractLsb' 15 5) (w.extractLsb' 20 5)) .no
        else if w.extractLsb' 12 3 = 0b010#3 then .ok (.fsgnjx p (w.extractLsb' 7 5) (w.extractLsb' 15 5) (w.extractLsb' 20 5)) .no
        else .decodeError) ∧
      (w.extractLsb' 27 5 = 0b00101#5 → decode w x = if w.extractLsb' 12 3 = 0b000#3 then .ok (.fmin p (w.extractLsb' 7 5) (w.extractLsb' 15 5) (w.extractLsb' 20 5)) .no
        else if w.extractLsb' 12 3 = 0b001#3 then .ok (.fmax p (w.extractLsb' 7 5) (w.extractLsb' 15 5) (w.extractLsb' 20 5)) .no
        else .decodeError) ∧
      (w.extractLsb' 27 5 = 0b10100#5 → decode w x = if w.extractLsb' 12 3 = 0b010#3 then .ok (.feq p (w.extractLsb' 7 5) (w.extractLsb' 15 5) (w.extractLsb' 20 5)) .no
        else if w.extractLsb' 12 3 = 0b001#3 then .ok (.flt p (w.extractLsb' 7 5) (w.extractLsb' 15 5) (w.extractLsb' 20 5)) .no
        else if w.extractLsb' 12 3 = 0b000#3 then .ok (.fle p (w.extractLsb' 7 5) (w.extractLsb' 15 5) (w.extractLsb' 20 5)) .no
        else .decodeError) ∧
      (w.extractLsb' 27 5 = 0b11100#5 → decode w x = if w.extractLsb' 20 5 = 0#5 ∧ w.extractLsb' 12 3 = 0b001#3 then .ok (.fclass p (w.extractLsb' 7 5) (w.extractLsb' 15 5)) .no
        else if p = .s ∧ w.extractLsb' 20 5 = 0#5 ∧ w.extractLsb' 12 3 = 0b000#3 then .ok (.fmvXW (w.extractLsb' 7 5) (w.extractLsb' 15 5)) .no else .decodeError) ∧
      (w.extractLsb' 27 5 = 0b11110#5 → decode w x = if p = .s ∧ w.extractLsb' 20 5 = 0#5 ∧ w.extractLsb' 12 3 = 0b000#3 then .ok (.fmvWX (w.extractLsb' 7 5) (w.extractLsb' 15 5)) .no else .decodeError) ∧
      (w.extractLsb' 27 5 ∉ [0b00000#5, 0b00001#5, 0b00010#5, 0b00011#5, 0b01011#5, 0b11000#5, 0b11010#5, 0b01000#5, 0b00100#5, 0b00101#5,
          0b10100#5, 0b11100#5, 0b11110#5] → decode w x = .decodeError))

/-- Each reserved parcel of the rule, (a) to (i), yields DecodeError under both Xlen values, and the five RV32-only slots of
(j) under Rv64. -/
def Obligations.ReservedParcels : Prop :=
  ∀ (w : Word) (x : Xlen),
    ((w.extractLsb' 0 2 = 0b00#2 ∧ w.extractLsb' 13 3 = 0b000#3 ∧ w.extractLsb' 5 8 = 0#8) ∨
      (w.extractLsb' 0 2 = 0b00#2 ∧ w.extractLsb' 13 3 = 0b100#3) ∨
      (w.extractLsb' 0 2 = 0b01#2 ∧ w.extractLsb' 13 3 = 0b011#3 ∧ w.extractLsb' 7 5 = 2#5 ∧ w.extractLsb' 12 1 = 0#1 ∧
        w.extractLsb' 2 5 = 0#5) ∨
      (w.extractLsb' 0 2 = 0b01#2 ∧ w.extractLsb' 13 3 = 0b011#3 ∧ w.extractLsb' 7 5 ≠ 2#5 ∧ w.extractLsb' 12 1 = 0#1 ∧
        w.extractLsb' 2 5 = 0#5) ∨
      (w.extractLsb' 0 2 = 0b01#2 ∧ w.extractLsb' 13 3 = 0b100#3 ∧
        (w.extractLsb' 10 2 = 0b00#2 ∨ w.extractLsb' 10 2 = 0b01#2) ∧ w.extractLsb' 12 1 = 1#1) ∨
      (w.extractLsb' 0 2 = 0b01#2 ∧ w.extractLsb' 13 3 = 0b100#3 ∧ w.extractLsb' 10 2 = 0b11#2 ∧ w.extractLsb' 12 1 = 1#1) ∨
      (w.extractLsb' 0 2 = 0b10#2 ∧ w.extractLsb' 13 3 = 0b000#3 ∧ w.extractLsb' 12 1 = 1#1) ∨
      (w.extractLsb' 0 2 = 0b10#2 ∧ w.extractLsb' 13 3 = 0b010#3 ∧ w.extractLsb' 7 5 = 0#5) ∨
      (w.extractLsb' 0 2 = 0b10#2 ∧ w.extractLsb' 13 3 = 0b100#3 ∧ w.extractLsb' 12 1 = 0#1 ∧ w.extractLsb' 7 5 = 0#5 ∧
        w.extractLsb' 2 5 = 0#5) ∨
      (x = .rv64 ∧
        ((w.extractLsb' 0 2 = 0b00#2 ∧ (w.extractLsb' 13 3 = 0b011#3 ∨ w.extractLsb' 13 3 = 0b111#3)) ∨
          (w.extractLsb' 0 2 = 0b01#2 ∧ w.extractLsb' 13 3 = 0b001#3) ∨
          (w.extractLsb' 0 2 = 0b10#2 ∧ (w.extractLsb' 13 3 = 0b011#3 ∨ w.extractLsb' 13 3 = 0b111#3))))) →
    decode w x = .decodeError

/-- A parcel that is not reserved decodes, by quadrant, funct3 and the sub-selectors, to the record of its expansion with
Yes: the registers of its format, three-bit numbers naming x8 to x15 or f8 to f15, and each immediate gathered from the
bits of the parcel; the five Rv32-only slots under Rv32. -/
def Obligations.CompressedDispatch : Prop :=
  ∀ (w : Word) (x : Xlen),
    (w.extractLsb' 0 2 = 0b00#2 →
      (w.extractLsb' 13 3 = 0b000#3 → (w.extractLsb' 7 4 ++ w.extractLsb' 11 2 ++ w.extractLsb' 5 1 ++ w.extractLsb' 6 1 ++ 0#2) ≠ 0#10 → decode w x = .ok (.addi (0b01#2 ++ w.extractLsb' 2 3) 2 ⟨(w.extractLsb' 7 4 ++ w.extractLsb' 11 2 ++ w.extractLsb' 5 1 ++ w.extractLsb' 6 1 ++ 0#2).setWidth 32, .signed⟩) .yes) ∧
      (w.extractLsb' 13 3 = 0b001#3 → decode w x = .ok (.fload .d (0b01#2 ++ w.extractLsb' 2 3) (0b01#2 ++ w.extractLsb' 7 3) ⟨(w.extractLsb' 5 2 ++ w.extractLsb' 10 3 ++ 0#3).setWidth 32, .signed⟩) .yes) ∧
      (w.extractLsb' 13 3 = 0b010#3 → decode w x = .ok (.lw (0b01#2 ++ w.extractLsb' 2 3) (0b01#2 ++ w.extractLsb' 7 3) ⟨(w.extractLsb' 5 1 ++ w.extractLsb' 10 3 ++ w.extractLsb' 6 1 ++ 0#2).setWidth 32, .signed⟩) .yes) ∧
      (w.extractLsb' 13 3 = 0b011#3 → x = .rv32 → decode w x = .ok (.fload .s (0b01#2 ++ w.extractLsb' 2 3) (0b01#2 ++ w.extractLsb' 7 3) ⟨(w.extractLsb' 5 1 ++ w.extractLsb' 10 3 ++ w.extractLsb' 6 1 ++ 0#2).setWidth 32, .signed⟩) .yes) ∧
      (w.extractLsb' 13 3 = 0b101#3 → decode w x = .ok (.fstore .d (0b01#2 ++ w.extractLsb' 2 3) (0b01#2 ++ w.extractLsb' 7 3) ⟨(w.extractLsb' 5 2 ++ w.extractLsb' 10 3 ++ 0#3).setWidth 32, .signed⟩) .yes) ∧
      (w.extractLsb' 13 3 = 0b110#3 → decode w x = .ok (.sw (0b01#2 ++ w.extractLsb' 2 3) (0b01#2 ++ w.extractLsb' 7 3) ⟨(w.extractLsb' 5 1 ++ w.extractLsb' 10 3 ++ w.extractLsb' 6 1 ++ 0#2).setWidth 32, .signed⟩) .yes) ∧
      (w.extractLsb' 13 3 = 0b111#3 → x = .rv32 → decode w x = .ok (.fstore .s (0b01#2 ++ w.extractLsb' 2 3) (0b01#2 ++ w.extractLsb' 7 3) ⟨(w.extractLsb' 5 1 ++ w.extractLsb' 10 3 ++ w.extractLsb' 6 1 ++ 0#2).setWidth 32, .signed⟩) .yes)) ∧
    (w.extractLsb' 0 2 = 0b01#2 →
      (w.extractLsb' 13 3 = 0b000#3 → decode w x = .ok (.addi (w.extractLsb' 7 5) (w.extractLsb' 7 5) ⟨(w.extractLsb' 12 1 ++ w.extractLsb' 2 5).signExtend 32, .signed⟩) .yes) ∧
      (w.extractLsb' 13 3 = 0b001#3 → x = .rv32 → decode w x = .ok (.jal 1 ⟨(w.extractLsb' 12 1 ++ w.extractLsb' 8 1 ++ w.extractLsb' 9 2 ++ w.extractLsb' 6 1 ++ w.extractLsb' 7 1 ++ w.extractLsb' 2 1 ++ w.extractLsb' 11 1 ++ w.extractLsb' 3 3 ++ 0#1).signExtend 32, .signed⟩) .yes) ∧
      (w.extractLsb' 13 3 = 0b010#3 → decode w x = .ok (.addi (w.extractLsb' 7 5) 0 ⟨(w.extractLsb' 12 1 ++ w.extractLsb' 2 5).signExtend 32, .signed⟩) .yes) ∧
      (w.extractLsb' 13 3 = 0b011#3 → w.extractLsb' 7 5 = 2#5 → (w.extractLsb' 12 1 ++ w.extractLsb' 3 2 ++ w.extractLsb' 5 1 ++ w.extractLsb' 2 1 ++ w.extractLsb' 6 1 ++ 0#4) ≠ 0#10 → decode w x = .ok (.addi 2 2 ⟨(w.extractLsb' 12 1 ++ w.extractLsb' 3 2 ++ w.extractLsb' 5 1 ++ w.extractLsb' 2 1 ++ w.extractLsb' 6 1 ++ 0#4).signExtend 32, .signed⟩) .yes) ∧
      (w.extractLsb' 13 3 = 0b011#3 → w.extractLsb' 7 5 ≠ 2#5 → (w.extractLsb' 12 1 ++ w.extractLsb' 2 5) ≠ 0#6 → decode w x = .ok (.lui (w.extractLsb' 7 5) ⟨(w.extractLsb' 12 1 ++ w.extractLsb' 2 5 ++ 0#12).signExtend 32, .unsigned⟩) .yes) ∧
      (w.extractLsb' 13 3 = 0b100#3 → w.extractLsb' 10 2 = 0b00#2 → w.extractLsb' 12 1 = 0#1 → decode w x = .ok (.srli (0b01#2 ++ w.extractLsb' 7 3) (0b01#2 ++ w.extractLsb' 7 3) (w.extractLsb' 2 5)) .yes) ∧
      (w.extractLsb' 13 3 = 0b100#3 → w.extractLsb' 10 2 = 0b01#2 → w.extractLsb' 12 1 = 0#1 → decode w x = .ok (.srai (0b01#2 ++ w.extractLsb' 7 3) (0b01#2 ++ w.extractLsb' 7 3) (w.extractLsb' 2 5)) .yes) ∧
      (w.extractLsb' 13 3 = 0b100#3 → w.extractLsb' 10 2 = 0b10#2 → decode w x = .ok (.andi (0b01#2 ++ w.extractLsb' 7 3) (0b01#2 ++ w.extractLsb' 7 3) ⟨(w.extractLsb' 12 1 ++ w.extractLsb' 2 5).signExtend 32, .signed⟩) .yes) ∧
      (w.extractLsb' 13 3 = 0b100#3 → w.extractLsb' 10 2 = 0b11#2 → w.extractLsb' 12 1 = 0#1 → w.extractLsb' 5 2 = 0b00#2 → decode w x = .ok (.sub (0b01#2 ++ w.extractLsb' 7 3) (0b01#2 ++ w.extractLsb' 7 3) (0b01#2 ++ w.extractLsb' 2 3)) .yes) ∧
      (w.extractLsb' 13 3 = 0b100#3 → w.extractLsb' 10 2 = 0b11#2 → w.extractLsb' 12 1 = 0#1 → w.extractLsb' 5 2 = 0b01#2 → decode w x = .ok (.xor (0b01#2 ++ w.extractLsb' 7 3) (0b01#2 ++ w.extractLsb' 7 3) (0b01#2 ++ w.extractLsb' 2 3)) .yes) ∧
      (w.extractLsb' 13 3 = 0b100#3 → w.extractLsb' 10 2 = 0b11#2 → w.extractLsb' 12 1 = 0#1 → w.extractLsb' 5 2 = 0b10#2 → decode w x = .ok (.or (0b01#2 ++ w.extractLsb' 7 3) (0b01#2 ++ w.extractLsb' 7 3) (0b01#2 ++ w.extractLsb' 2 3)) .yes) ∧
      (w.extractLsb' 13 3 = 0b100#3 → w.extractLsb' 10 2 = 0b11#2 → w.extractLsb' 12 1 = 0#1 → w.extractLsb' 5 2 = 0b11#2 → decode w x = .ok (.and (0b01#2 ++ w.extractLsb' 7 3) (0b01#2 ++ w.extractLsb' 7 3) (0b01#2 ++ w.extractLsb' 2 3)) .yes) ∧
      (w.extractLsb' 13 3 = 0b101#3 → decode w x = .ok (.jal 0 ⟨(w.extractLsb' 12 1 ++ w.extractLsb' 8 1 ++ w.extractLsb' 9 2 ++ w.extractLsb' 6 1 ++ w.extractLsb' 7 1 ++ w.extractLsb' 2 1 ++ w.extractLsb' 11 1 ++ w.extractLsb' 3 3 ++ 0#1).signExtend 32, .signed⟩) .yes) ∧
      (w.extractLsb' 13 3 = 0b110#3 → decode w x = .ok (.beq (0b01#2 ++ w.extractLsb' 7 3) 0 ⟨(w.extractLsb' 12 1 ++ w.extractLsb' 5 2 ++ w.extractLsb' 2 1 ++ w.extractLsb' 10 2 ++ w.extractLsb' 3 2 ++ 0#1).signExtend 32, .signed⟩) .yes) ∧
      (w.extractLsb' 13 3 = 0b111#3 → decode w x = .ok (.bne (0b01#2 ++ w.extractLsb' 7 3) 0 ⟨(w.extractLsb' 12 1 ++ w.extractLsb' 5 2 ++ w.extractLsb' 2 1 ++ w.extractLsb' 10 2 ++ w.extractLsb' 3 2 ++ 0#1).signExtend 32, .signed⟩) .yes)) ∧
    (w.extractLsb' 0 2 = 0b10#2 →
      (w.extractLsb' 13 3 = 0b000#3 → w.extractLsb' 12 1 = 0#1 → decode w x = .ok (.slli (w.extractLsb' 7 5) (w.extractLsb' 7 5) (w.extractLsb' 2 5)) .yes) ∧
      (w.extractLsb' 13 3 = 0b001#3 → decode w x = .ok (.fload .d (w.extractLsb' 7 5) 2 ⟨(w.extractLsb' 2 3 ++ w.extractLsb' 12 1 ++ w.extractLsb' 5 2 ++ 0#3).setWidth 32, .signed⟩) .yes) ∧
      (w.extractLsb' 13 3 = 0b010#3 → w.extractLsb' 7 5 ≠ 0#5 → decode w x = .ok (.lw (w.extractLsb' 7 5) 2 ⟨(w.extractLsb' 2 2 ++ w.extractLsb' 12 1 ++ w.extractLsb' 4 3 ++ 0#2).setWidth 32, .signed⟩) .yes) ∧
      (w.extractLsb' 13 3 = 0b011#3 → x = .rv32 → decode w x = .ok (.fload .s (w.extractLsb' 7 5) 2 ⟨(w.extractLsb' 2 2 ++ w.extractLsb' 12 1 ++ w.extractLsb' 4 3 ++ 0#2).setWidth 32, .signed⟩) .yes) ∧
      (w.extractLsb' 13 3 = 0b100#3 → w.extractLsb' 12 1 = 0#1 → w.extractLsb' 2 5 = 0#5 → w.extractLsb' 7 5 ≠ 0#5 → decode w x = .ok (.jalr 0 (w.extractLsb' 7 5) ⟨0#32, .signed⟩) .yes) ∧
      (w.extractLsb' 13 3 = 0b100#3 → w.extractLsb' 12 1 = 0#1 → w.extractLsb' 2 5 ≠ 0#5 → decode w x = .ok (.add (w.extractLsb' 7 5) 0 (w.extractLsb' 2 5)) .yes) ∧
      (w.extractLsb' 13 3 = 0b100#3 → w.extractLsb' 12 1 = 1#1 → w.extractLsb' 2 5 = 0#5 → w.extractLsb' 7 5 = 0#5 → decode w x = .ok (.ebreak) .yes) ∧
      (w.extractLsb' 13 3 = 0b100#3 → w.extractLsb' 12 1 = 1#1 → w.extractLsb' 2 5 = 0#5 → w.extractLsb' 7 5 ≠ 0#5 → decode w x = .ok (.jalr 1 (w.extractLsb' 7 5) ⟨0#32, .signed⟩) .yes) ∧
      (w.extractLsb' 13 3 = 0b100#3 → w.extractLsb' 12 1 = 1#1 → w.extractLsb' 2 5 ≠ 0#5 → decode w x = .ok (.add (w.extractLsb' 7 5) (w.extractLsb' 7 5) (w.extractLsb' 2 5)) .yes) ∧
      (w.extractLsb' 13 3 = 0b101#3 → decode w x = .ok (.fstore .d (w.extractLsb' 2 5) 2 ⟨(w.extractLsb' 7 3 ++ w.extractLsb' 10 3 ++ 0#3).setWidth 32, .signed⟩) .yes) ∧
      (w.extractLsb' 13 3 = 0b110#3 → decode w x = .ok (.sw (w.extractLsb' 2 5) 2 ⟨(w.extractLsb' 7 2 ++ w.extractLsb' 9 4 ++ 0#2).setWidth 32, .signed⟩) .yes) ∧
      (w.extractLsb' 13 3 = 0b111#3 → x = .rv32 → decode w x = .ok (.fstore .s (w.extractLsb' 2 5) 2 ⟨(w.extractLsb' 7 2 ++ w.extractLsb' 9 4 ++ 0#2).setWidth 32, .signed⟩) .yes))

/-- The slots of C.JAL, C.FLW, C.FSW, C.FLWSP and C.FSWSP decode under Rv32 and yield DecodeError under Rv64; every other
word decodes the same under both. -/
def Obligations.XlenChangesFiveSlots : Prop :=
  ∀ w : Word,
    ((w.extractLsb' 0 2 = 0b01#2 ∧ w.extractLsb' 13 3 = 0b001#3 → ∃ o, decode w .rv32 = .ok (.jal 1 o) .yes) ∧
      (w.extractLsb' 0 2 = 0b00#2 ∧ w.extractLsb' 13 3 = 0b011#3 → ∃ d b o, decode w .rv32 = .ok (.fload .s d b o) .yes) ∧
      (w.extractLsb' 0 2 = 0b00#2 ∧ w.extractLsb' 13 3 = 0b111#3 → ∃ d b o, decode w .rv32 = .ok (.fstore .s d b o) .yes) ∧
      (w.extractLsb' 0 2 = 0b10#2 ∧ w.extractLsb' 13 3 = 0b011#3 → ∃ d o, decode w .rv32 = .ok (.fload .s d 2 o) .yes) ∧
      (w.extractLsb' 0 2 = 0b10#2 ∧ w.extractLsb' 13 3 = 0b111#3 → ∃ d o, decode w .rv32 = .ok (.fstore .s d 2 o) .yes)) ∧
    (((w.extractLsb' 0 2 = 0b01#2 ∧ w.extractLsb' 13 3 = 0b001#3) ∨
      (w.extractLsb' 0 2 = 0b00#2 ∧ (w.extractLsb' 13 3 = 0b011#3 ∨ w.extractLsb' 13 3 = 0b111#3)) ∨
      (w.extractLsb' 0 2 = 0b10#2 ∧ (w.extractLsb' 13 3 = 0b011#3 ∨ w.extractLsb' 13 3 = 0b111#3))) → decode w .rv64 = .decodeError) ∧
    (¬((w.extractLsb' 0 2 = 0b01#2 ∧ w.extractLsb' 13 3 = 0b001#3) ∨
      (w.extractLsb' 0 2 = 0b00#2 ∧ (w.extractLsb' 13 3 = 0b011#3 ∨ w.extractLsb' 13 3 = 0b111#3)) ∨
      (w.extractLsb' 0 2 = 0b10#2 ∧ (w.extractLsb' 13 3 = 0b011#3 ∨ w.extractLsb' 13 3 = 0b111#3))) → decode w .rv32 = decode w .rv64)

/-- One word of each family, written out from its encoding, decodes to the instruction it stands for. -/
def Obligations.DecodeSampleWords : Prop :=
  decodeInstr 0b11111110000000010000000100010011#32 .rv32 = some (.addi 2 2 (-32)) ∧
    decodeInstr 0b00000000000000001010001100010111#32 .rv32 = some (.auipc 6 10) ∧
    decodeInstr 0b00000010110001011000010100110011#32 .rv32 = some (.mul 10 11 12) ∧
    decodeInstr 0b00011110110001011010010100101111#32 .rv32 = some (.scW 1 1 10 11 12) ∧
    decodeInstr 0b00110000000000101101010101110011#32 .rv32 = some (.csrrwi 10 0x300 5) ∧
    decodeInstr 0b00000000101001010111010111010011#32 .rv32 = some (.faddS .dyn 11 10 10) ∧
    decodeInstr 0b11010010000001011000010101010011#32 .rv32 = some (.fcvtDW 10 11) ∧
    decodeInstr 0b00000000000000000001000100000001#32 .rv32 = some (.cAddi 2 (-32))

/-- With the default CSR names, the text of every record the decoder answers has at most 36 characters, and a fused form
with four long names and a mode has 36. -/
def Obligations.FormatBounded : Prop :=
  (∀ (w : Word) (x : Xlen) (r : Record) (c : IsCompressed), decode w x = .ok r c →
      (format defaultCsrNames r).length ≤ 36) ∧
    (format defaultCsrNames (.fnmadd .d .rmm 30 30 30 30)).length = 36

/-- The names of the 32 integer and 32 FP registers; decimals without leading zeros, negative ones with a minus; an upper
immediate as its number over 4096; a CSR by the name of the table, by default exactly that of the rule, else in decimal;
the letters of a fence set in order; the ordering suffix; the mode, implicit for Dyn. -/
def Obligations.FormatOperandTexts : Prop :=
  (List.range 32).map (fun k => xName (BitVec.ofNat 5 k)) =
     ["zero", "ra", "sp", "gp", "tp", "t0", "t1", "t2", "s0", "s1", "a0", "a1", "a2", "a3", "a4", "a5", "a6", "a7",
      "s2", "s3", "s4", "s5", "s6", "s7", "s8", "s9", "s10", "s11", "t3", "t4", "t5", "t6"] ∧
    (List.range 32).map (fun k => fName (BitVec.ofNat 5 k)) =
     ["ft0", "ft1", "ft2", "ft3", "ft4", "ft5", "ft6", "ft7", "fs0", "fs1", "fa0", "fa1", "fa2", "fa3", "fa4",
      "fa5", "fa6", "fa7", "fs2", "fs3", "fs4", "fs5", "fs6", "fs7", "fs8", "fs9", "fs10", "fs11", "ft8", "ft9",
      "ft10", "ft11"] ∧
    (∀ n : Nat, decimal n = if n < 10 then String.singleton (Char.ofNat (48 + n)) else decimal (n / 10) ++ decimal (n % 10)) ∧
    (∀ i : Imm, immText i =
      if i.kind = .signed ∧ 2 ^ 31 ≤ i.value.toNat then "-" ++ decimal (2 ^ 32 - i.value.toNat) else decimal i.value.toNat) ∧
    (∀ u : U5, u5Text u = decimal u.toNat) ∧
    (∀ i : Imm, upperText i = decimal (i.value.toNat / 4096)) ∧
    (∀ (names : List (Nat × String)) (c : Csr),
      (∀ n, names.lookup c.toNat = some n → csrText names c = n) ∧
      (names.lookup c.toNat = none → csrText names c = decimal c.toNat)) ∧
    (∀ (a : Nat) (n : String), defaultCsrNames.lookup a = some n ↔
      (a, n) ∈ [(0x001, "fflags"), (0x002, "frm"), (0x003, "fcsr"), (0xC00, "cycle"), (0xC01, "time"), (0xC02, "instret"),
        (0xC80, "cycleh"), (0xC81, "timeh"), (0xC82, "instreth"), (0x100, "sstatus"), (0x104, "sie"),
        (0x105, "stvec"), (0x106, "scounteren"), (0x10A, "senvcfg"), (0x140, "sscratch"), (0x141, "sepc"),
        (0x142, "scause"), (0x143, "stval"), (0x144, "sip"), (0x180, "satp"), (0x300, "mstatus"), (0x301, "misa"),
        (0x302, "medeleg"), (0x303, "mideleg"), (0x304, "mie"), (0x305, "mtvec"), (0x306, "mcounteren"),
        (0x310, "mstatush"), (0x320, "mcountinhibit"), (0x340, "mscratch"), (0x341, "mepc"), (0x342, "mcause"),
        (0x343, "mtval"), (0x344, "mip"), (0xB00, "mcycle"), (0xB02, "minstret"), (0xB80, "mcycleh"),
        (0xB82, "minstreth"), (0xF11, "mvendorid"), (0xF12, "marchid"), (0xF13, "mimpid"), (0xF14, "mhartid"),
        (0xF15, "mconfigptr")] ∨
      ∃ base before after, (base, before, after) ∈
        [(0xC03, "hpmcounter", ""), (0xC83, "hpmcounter", "h"), (0x323, "mhpmevent", ""), (0xB03, "mhpmcounter", ""), (0xB83, "mhpmcounter", "h")] ∧
        ∃ k, 3 ≤ k ∧ k ≤ 31 ∧ a = base - 3 + k ∧ n = before ++ decimal k ++ after) ∧
    (List.range 16).map (fun k => fenceText (BitVec.ofNat 4 k)) =
     ["0", "w", "r", "rw", "o", "ow", "or", "orw", "i", "iw", "ir", "irw", "io", "iow", "ior", "iorw"] ∧
    [ordText 0 0, ordText 1 0, ordText 0 1, ordText 1 1] = ["", ".aq", ".rl", ".aqrl"] ∧
    [RoundingMode.rne, .rtz, .rdn, .rup, .rmm, .dyn].map rmText = [", rne", ", rtz", ", rdn", ", rup", ", rmm", ""]

/-- For every CSR name table and every record of each tag, and of each precision where the tag has two, the text is the
template of the instruction that produces the record, each operand in its place; the three exact conversions print no
mode. -/
def Obligations.FormatTemplates : Prop :=
  ∀ (names : List (Nat × String)) (a b c d : Reg) (i : Imm) (u : U5) (k : Csr) (e g : FenceSet) (aq rl : Bit) (m : RoundingMode),
    format names (.addi a b i) = "addi " ++ xName a ++ ", " ++ xName b ++ ", " ++ immText i ∧
    format names (.slti a b i) = "slti " ++ xName a ++ ", " ++ xName b ++ ", " ++ immText i ∧
    format names (.sltiu a b i) = "sltiu " ++ xName a ++ ", " ++ xName b ++ ", " ++ immText i ∧
    format names (.xori a b i) = "xori " ++ xName a ++ ", " ++ xName b ++ ", " ++ immText i ∧
    format names (.ori a b i) = "ori " ++ xName a ++ ", " ++ xName b ++ ", " ++ immText i ∧
    format names (.andi a b i) = "andi " ++ xName a ++ ", " ++ xName b ++ ", " ++ immText i ∧
    format names (.slli a b u) = "slli " ++ xName a ++ ", " ++ xName b ++ ", " ++ u5Text u ∧
    format names (.srli a b u) = "srli " ++ xName a ++ ", " ++ xName b ++ ", " ++ u5Text u ∧
    format names (.srai a b u) = "srai " ++ xName a ++ ", " ++ xName b ++ ", " ++ u5Text u ∧
    format names (.add a b c) = "add " ++ xName a ++ ", " ++ xName b ++ ", " ++ xName c ∧
    format names (.sub a b c) = "sub " ++ xName a ++ ", " ++ xName b ++ ", " ++ xName c ∧
    format names (.sll a b c) = "sll " ++ xName a ++ ", " ++ xName b ++ ", " ++ xName c ∧
    format names (.slt a b c) = "slt " ++ xName a ++ ", " ++ xName b ++ ", " ++ xName c ∧
    format names (.sltu a b c) = "sltu " ++ xName a ++ ", " ++ xName b ++ ", " ++ xName c ∧
    format names (.xor a b c) = "xor " ++ xName a ++ ", " ++ xName b ++ ", " ++ xName c ∧
    format names (.srl a b c) = "srl " ++ xName a ++ ", " ++ xName b ++ ", " ++ xName c ∧
    format names (.sra a b c) = "sra " ++ xName a ++ ", " ++ xName b ++ ", " ++ xName c ∧
    format names (.or a b c) = "or " ++ xName a ++ ", " ++ xName b ++ ", " ++ xName c ∧
    format names (.and a b c) = "and " ++ xName a ++ ", " ++ xName b ++ ", " ++ xName c ∧
    format names (.lb a b i) = "lb " ++ xName a ++ ", " ++ immText i ++ "(" ++ xName b ++ ")" ∧
    format names (.lh a b i) = "lh " ++ xName a ++ ", " ++ immText i ++ "(" ++ xName b ++ ")" ∧
    format names (.lw a b i) = "lw " ++ xName a ++ ", " ++ immText i ++ "(" ++ xName b ++ ")" ∧
    format names (.lbu a b i) = "lbu " ++ xName a ++ ", " ++ immText i ++ "(" ++ xName b ++ ")" ∧
    format names (.lhu a b i) = "lhu " ++ xName a ++ ", " ++ immText i ++ "(" ++ xName b ++ ")" ∧
    format names (.sb a b i) = "sb " ++ xName a ++ ", " ++ immText i ++ "(" ++ xName b ++ ")" ∧
    format names (.sh a b i) = "sh " ++ xName a ++ ", " ++ immText i ++ "(" ++ xName b ++ ")" ∧
    format names (.sw a b i) = "sw " ++ xName a ++ ", " ++ immText i ++ "(" ++ xName b ++ ")" ∧
    format names (.beq a b i) = "beq " ++ xName a ++ ", " ++ xName b ++ ", " ++ immText i ∧
    format names (.bne a b i) = "bne " ++ xName a ++ ", " ++ xName b ++ ", " ++ immText i ∧
    format names (.blt a b i) = "blt " ++ xName a ++ ", " ++ xName b ++ ", " ++ immText i ∧
    format names (.bge a b i) = "bge " ++ xName a ++ ", " ++ xName b ++ ", " ++ immText i ∧
    format names (.bltu a b i) = "bltu " ++ xName a ++ ", " ++ xName b ++ ", " ++ immText i ∧
    format names (.bgeu a b i) = "bgeu " ++ xName a ++ ", " ++ xName b ++ ", " ++ immText i ∧
    format names (.jal a i) = "jal " ++ xName a ++ ", " ++ immText i ∧
    format names (.jalr a b i) = "jalr " ++ xName a ++ ", " ++ immText i ++ "(" ++ xName b ++ ")" ∧
    format names (.lui a i) = "lui " ++ xName a ++ ", " ++ upperText i ∧
    format names (.auipc a i) = "auipc " ++ xName a ++ ", " ++ upperText i ∧
    format names (.fence e g) = "fence " ++ fenceText e ++ ", " ++ fenceText g ∧
    format names (.fenceTso) = "fence.tso" ∧
    format names (.fenceI) = "fence.i" ∧
    format names (.ecall) = "ecall" ∧
    format names (.ebreak) = "ebreak" ∧
    format names (.mul a b c) = "mul " ++ xName a ++ ", " ++ xName b ++ ", " ++ xName c ∧
    format names (.mulh a b c) = "mulh " ++ xName a ++ ", " ++ xName b ++ ", " ++ xName c ∧
    format names (.mulhsu a b c) = "mulhsu " ++ xName a ++ ", " ++ xName b ++ ", " ++ xName c ∧
    format names (.mulhu a b c) = "mulhu " ++ xName a ++ ", " ++ xName b ++ ", " ++ xName c ∧
    format names (.div a b c) = "div " ++ xName a ++ ", " ++ xName b ++ ", " ++ xName c ∧
    format names (.divu a b c) = "divu " ++ xName a ++ ", " ++ xName b ++ ", " ++ xName c ∧
    format names (.rem a b c) = "rem " ++ xName a ++ ", " ++ xName b ++ ", " ++ xName c ∧
    format names (.remu a b c) = "remu " ++ xName a ++ ", " ++ xName b ++ ", " ++ xName c ∧
    format names (.lrW aq rl a b) = "lr.w" ++ ordText aq rl ++ " " ++ xName a ++ ", (" ++ xName b ++ ")" ∧
    format names (.scW aq rl a b c) = "sc.w" ++ ordText aq rl ++ " " ++ xName a ++ ", " ++ xName c ++ ", (" ++ xName b ++ ")" ∧
    format names (.amoswapW aq rl a b c) = "amoswap.w" ++ ordText aq rl ++ " " ++ xName a ++ ", " ++ xName c ++ ", (" ++ xName b ++ ")" ∧
    format names (.amoaddW aq rl a b c) = "amoadd.w" ++ ordText aq rl ++ " " ++ xName a ++ ", " ++ xName c ++ ", (" ++ xName b ++ ")" ∧
    format names (.amoxorW aq rl a b c) = "amoxor.w" ++ ordText aq rl ++ " " ++ xName a ++ ", " ++ xName c ++ ", (" ++ xName b ++ ")" ∧
    format names (.amoandW aq rl a b c) = "amoand.w" ++ ordText aq rl ++ " " ++ xName a ++ ", " ++ xName c ++ ", (" ++ xName b ++ ")" ∧
    format names (.amoorW aq rl a b c) = "amoor.w" ++ ordText aq rl ++ " " ++ xName a ++ ", " ++ xName c ++ ", (" ++ xName b ++ ")" ∧
    format names (.amominW aq rl a b c) = "amomin.w" ++ ordText aq rl ++ " " ++ xName a ++ ", " ++ xName c ++ ", (" ++ xName b ++ ")" ∧
    format names (.amomaxW aq rl a b c) = "amomax.w" ++ ordText aq rl ++ " " ++ xName a ++ ", " ++ xName c ++ ", (" ++ xName b ++ ")" ∧
    format names (.amominuW aq rl a b c) = "amominu.w" ++ ordText aq rl ++ " " ++ xName a ++ ", " ++ xName c ++ ", (" ++ xName b ++ ")" ∧
    format names (.amomaxuW aq rl a b c) = "amomaxu.w" ++ ordText aq rl ++ " " ++ xName a ++ ", " ++ xName c ++ ", (" ++ xName b ++ ")" ∧
    format names (.csrrw a k b) = "csrrw " ++ xName a ++ ", " ++ csrText names k ++ ", " ++ xName b ∧
    format names (.csrrs a k b) = "csrrs " ++ xName a ++ ", " ++ csrText names k ++ ", " ++ xName b ∧
    format names (.csrrc a k b) = "csrrc " ++ xName a ++ ", " ++ csrText names k ++ ", " ++ xName b ∧
    format names (.csrrwi a k u) = "csrrwi " ++ xName a ++ ", " ++ csrText names k ++ ", " ++ u5Text u ∧
    format names (.csrrsi a k u) = "csrrsi " ++ xName a ++ ", " ++ csrText names k ++ ", " ++ u5Text u ∧
    format names (.csrrci a k u) = "csrrci " ++ xName a ++ ", " ++ csrText names k ++ ", " ++ u5Text u ∧
    format names (.pause) = "pause" ∧
    format names (.fload .s a b i) = "flw " ++ fName a ++ ", " ++ immText i ++ "(" ++ xName b ++ ")" ∧
    format names (.fstore .s a b i) = "fsw " ++ fName a ++ ", " ++ immText i ++ "(" ++ xName b ++ ")" ∧
    format names (.fmadd .s m a b c d) = "fmadd.s " ++ fName a ++ ", " ++ fName b ++ ", " ++ fName c ++ ", " ++ fName d ++ rmText m ∧
    format names (.fmsub .s m a b c d) = "fmsub.s " ++ fName a ++ ", " ++ fName b ++ ", " ++ fName c ++ ", " ++ fName d ++ rmText m ∧
    format names (.fnmsub .s m a b c d) = "fnmsub.s " ++ fName a ++ ", " ++ fName b ++ ", " ++ fName c ++ ", " ++ fName d ++ rmText m ∧
    format names (.fnmadd .s m a b c d) = "fnmadd.s " ++ fName a ++ ", " ++ fName b ++ ", " ++ fName c ++ ", " ++ fName d ++ rmText m ∧
    format names (.fadd .s m a b c) = "fadd.s " ++ fName a ++ ", " ++ fName b ++ ", " ++ fName c ++ rmText m ∧
    format names (.fsub .s m a b c) = "fsub.s " ++ fName a ++ ", " ++ fName b ++ ", " ++ fName c ++ rmText m ∧
    format names (.fmul .s m a b c) = "fmul.s " ++ fName a ++ ", " ++ fName b ++ ", " ++ fName c ++ rmText m ∧
    format names (.fdiv .s m a b c) = "fdiv.s " ++ fName a ++ ", " ++ fName b ++ ", " ++ fName c ++ rmText m ∧
    format names (.fsqrt .s m a b) = "fsqrt.s " ++ fName a ++ ", " ++ fName b ++ rmText m ∧
    format names (.fsgnj .s a b c) = "fsgnj.s " ++ fName a ++ ", " ++ fName b ++ ", " ++ fName c ∧
    format names (.fsgnjn .s a b c) = "fsgnjn.s " ++ fName a ++ ", " ++ fName b ++ ", " ++ fName c ∧
    format names (.fsgnjx .s a b c) = "fsgnjx.s " ++ fName a ++ ", " ++ fName b ++ ", " ++ fName c ∧
    format names (.fmin .s a b c) = "fmin.s " ++ fName a ++ ", " ++ fName b ++ ", " ++ fName c ∧
    format names (.fmax .s a b c) = "fmax.s " ++ fName a ++ ", " ++ fName b ++ ", " ++ fName c ∧
    format names (.feq .s a b c) = "feq.s " ++ xName a ++ ", " ++ fName b ++ ", " ++ fName c ∧
    format names (.flt .s a b c) = "flt.s " ++ xName a ++ ", " ++ fName b ++ ", " ++ fName c ∧
    format names (.fle .s a b c) = "fle.s " ++ xName a ++ ", " ++ fName b ++ ", " ++ fName c ∧
    format names (.fclass .s a b) = "fclass.s " ++ xName a ++ ", " ++ fName b ∧
    format names (.fcvtW .s m a b) = "fcvt.w.s " ++ xName a ++ ", " ++ fName b ++ rmText m ∧
    format names (.fcvtWu .s m a b) = "fcvt.wu.s " ++ xName a ++ ", " ++ fName b ++ rmText m ∧
    format names (.fcvtFW .s m a b) = "fcvt.s.w " ++ fName a ++ ", " ++ xName b ++ rmText m ∧
    format names (.fcvtFWu .s m a b) = "fcvt.s.wu " ++ fName a ++ ", " ++ xName b ++ rmText m ∧
    format names (.fmvXW a b) = "fmv.x.w " ++ xName a ++ ", " ++ fName b ∧
    format names (.fmvWX a b) = "fmv.w.x " ++ fName a ++ ", " ++ xName b ∧
    format names (.fload .d a b i) = "fld " ++ fName a ++ ", " ++ immText i ++ "(" ++ xName b ++ ")" ∧
    format names (.fstore .d a b i) = "fsd " ++ fName a ++ ", " ++ immText i ++ "(" ++ xName b ++ ")" ∧
    format names (.fmadd .d m a b c d) = "fmadd.d " ++ fName a ++ ", " ++ fName b ++ ", " ++ fName c ++ ", " ++ fName d ++ rmText m ∧
    format names (.fmsub .d m a b c d) = "fmsub.d " ++ fName a ++ ", " ++ fName b ++ ", " ++ fName c ++ ", " ++ fName d ++ rmText m ∧
    format names (.fnmsub .d m a b c d) = "fnmsub.d " ++ fName a ++ ", " ++ fName b ++ ", " ++ fName c ++ ", " ++ fName d ++ rmText m ∧
    format names (.fnmadd .d m a b c d) = "fnmadd.d " ++ fName a ++ ", " ++ fName b ++ ", " ++ fName c ++ ", " ++ fName d ++ rmText m ∧
    format names (.fadd .d m a b c) = "fadd.d " ++ fName a ++ ", " ++ fName b ++ ", " ++ fName c ++ rmText m ∧
    format names (.fsub .d m a b c) = "fsub.d " ++ fName a ++ ", " ++ fName b ++ ", " ++ fName c ++ rmText m ∧
    format names (.fmul .d m a b c) = "fmul.d " ++ fName a ++ ", " ++ fName b ++ ", " ++ fName c ++ rmText m ∧
    format names (.fdiv .d m a b c) = "fdiv.d " ++ fName a ++ ", " ++ fName b ++ ", " ++ fName c ++ rmText m ∧
    format names (.fsqrt .d m a b) = "fsqrt.d " ++ fName a ++ ", " ++ fName b ++ rmText m ∧
    format names (.fsgnj .d a b c) = "fsgnj.d " ++ fName a ++ ", " ++ fName b ++ ", " ++ fName c ∧
    format names (.fsgnjn .d a b c) = "fsgnjn.d " ++ fName a ++ ", " ++ fName b ++ ", " ++ fName c ∧
    format names (.fsgnjx .d a b c) = "fsgnjx.d " ++ fName a ++ ", " ++ fName b ++ ", " ++ fName c ∧
    format names (.fmin .d a b c) = "fmin.d " ++ fName a ++ ", " ++ fName b ++ ", " ++ fName c ∧
    format names (.fmax .d a b c) = "fmax.d " ++ fName a ++ ", " ++ fName b ++ ", " ++ fName c ∧
    format names (.fcvtSD m a b) = "fcvt.s.d " ++ fName a ++ ", " ++ fName b ++ rmText m ∧
    format names (.fcvtDS a b) = "fcvt.d.s " ++ fName a ++ ", " ++ fName b ∧
    format names (.feq .d a b c) = "feq.d " ++ xName a ++ ", " ++ fName b ++ ", " ++ fName c ∧
    format names (.flt .d a b c) = "flt.d " ++ xName a ++ ", " ++ fName b ++ ", " ++ fName c ∧
    format names (.fle .d a b c) = "fle.d " ++ xName a ++ ", " ++ fName b ++ ", " ++ fName c ∧
    format names (.fclass .d a b) = "fclass.d " ++ xName a ++ ", " ++ fName b ∧
    format names (.fcvtW .d m a b) = "fcvt.w.d " ++ xName a ++ ", " ++ fName b ++ rmText m ∧
    format names (.fcvtWu .d m a b) = "fcvt.wu.d " ++ xName a ++ ", " ++ fName b ++ rmText m ∧
    format names (.fcvtFW .d m a b) = "fcvt.d.w " ++ fName a ++ ", " ++ xName b ∧
    format names (.fcvtFWu .d m a b) = "fcvt.d.wu " ++ fName a ++ ", " ++ xName b

/-- Where the instruction at the pc can be fetched and its word decodes to i, the step is exec of i on the state with that
word presented and the next draw number. -/
def Obligations.StepRunsDecoded : Prop :=
  ∀ (s : State) (i : Instr), fetchable s = true → decodeInstr (fetchWord s) s.xlen = some i →
    step s = exec i { s with word := fetchWord s, tick := s.tick + 1 }

/-- Where what a fetch is sure to see agrees with memory at the four bytes from the pc, the word is those bytes, the lowest
address in the lowest bits; after FENCE.I this is so everywhere. In canonical memories the word fetched after an
instruction is placed is its bits, those above its width zero; nothing else changes. withFetchWord is the model's own
loader (log entry 28), and the zeros above the width are its choice: the rule lets a caller pad with any value. What a
fetch is sure to see is log entry 20. -/
def Obligations.FetchedWord : Prop :=
  (∀ s : State, (∀ k, k < 4 → byteAt s.imem (addrKey s.xlen (s.pc + BitVec.ofNat 64 k)) =
        byteAt s.mem (addrKey s.xlen (s.pc + BitVec.ofNat 64 k))) →
      ∀ k, k < 4 → (fetchWord s).extractLsb' (8 * k) 8 = byteAt s.mem (addrKey s.xlen (s.pc + BitVec.ofNat 64 k))) ∧
    (∀ s t : State, exec .fenceI s = .next t → t.imem = t.mem ∧ t.mem = s.mem) ∧
    ∀ (s : State) (nbits w : Nat), nbits ≤ 32 → Memory.wf s.mem = true → Memory.wf s.imem = true →
      fetchWord (s.withFetchWord nbits w) = BitVec.ofNat 32 (w % 2 ^ nbits) ∧
        { s.withFetchWord nbits w with mem := s.mem, imem := s.imem } = s

/-- Where the word at the pc yields DecodeError, the step records the error and no text and takes exception 2, with the
instruction bits or 0. A fetch is stopped exactly where a barrier stops one of its two or four bytes; then the step
takes 3 for an address breakpoint, else 12 for a page fault, else 1, with the pc as trap value, and the block is not
called. The entry as TrapEffect says is the model's choice (log entry 5), the parameter for the trap value log entry 7;
that the trap value is the pc even where a later byte is stopped, how many bytes are checked and that the block is not
called are log entry 26; the barriers are parameters (log entries 25 and 38). -/
def Obligations.UndecodableAndUnfetchableTrap : Prop :=
  (∀ s : State, cellsWf 0 s.csrs = true → fetchable s = true → decode (fetchWord s) s.xlen = .decodeError →
    ∃ t, step s = .next t ∧ t.result = some .decodeError ∧ t.text = "" ∧ t.word = fetchWord s ∧
      TrapEffect 2 (if s.cfg.illegalTvalZero then 0
        else if (fetchWord s).extractLsb' 0 2 = 0b11#2 then (fetchWord s).setWidth 64
        else ((fetchWord s).extractLsb' 0 16).setWidth 64) s t) ∧
    ∀ (s : State) (n : Nat), n = (if (fetchWord s).extractLsb' 0 2 = 0b11#2 then 4 else 2) →
      (fetchable s = true ↔ ∀ b, ¬Met s b .fetch s.pc n) ∧
      ∀ code : Nat, cellsWf 0 s.csrs = true →
        (Met s .breakpoint .fetch s.pc n ∧ code = 3) ∨
        (¬Met s .breakpoint .fetch s.pc n ∧ Met s .pageFault .fetch s.pc n ∧ code = 12) ∨
        (¬Met s .breakpoint .fetch s.pc n ∧ ¬Met s .pageFault .fetch s.pc n ∧
          (Met s .translationFault .fetch s.pc n ∨ Met s .accessFault .fetch s.pc n) ∧ code = 1) →
        ∃ t, step s = .next t ∧ t.result = s.result ∧ t.text = s.text ∧ t.word = s.word ∧ TrapEffect code s.pc s t

/-- Every instruction in every state, and every step of every state, answers a next state. The rules speak of the block;
that every step of the consumer answers one rests on taking every exception instead of stopping (log entry 5: the
consumer of 95_test_vectors.md L3.5 stops). -/
def Obligations.StepAlwaysAnswers : Prop :=
  (∀ (i : Instr) (s : State), ∃ t, exec i s = .next t) ∧ ∀ s : State, ∃ t, step s = .next t

/-- If memory, what fetches see of it, and the CSR file are in canonical form and hold nothing outside their address spaces,
so they do after a step. -/
def Obligations.StepKeepsStorage : Prop :=
  ∀ s t : State, StorageInv s → step s = .next t → StorageInv t

/-- If every register, CSR and the pc hold a value of XLEN bits, x0 holds 0 and the pc is even, so they do after a step. -/
def Obligations.StepKeepsWidths : Prop :=
  ∀ s t : State, WidthInv s → step s = .next t → WidthInv t

/-- If the text is the format of the record answered, or empty where there is none, so it is after a step. -/
def Obligations.StepKeepsAnswer : Prop :=
  ∀ s t : State, AnswerInv s → step s = .next t → AnswerInv t

/-- After reset the block has answered nothing; the mode is M, mstatus has MIE and MPRV 0, the FP unit is on, frm is 000, no
reservation is held and x0 reads 0; the three invariants hold. The zeros of the pc, the other registers and memory are
the model's choice. The bit places of mstatus are log entry 5, that the FP unit is on log entry 10, the zeros log
entries 2, 3 and 21, after the program vectors. -/
def Obligations.ResetState : Prop :=
  State.reset.result = none ∧ State.reset.text = "" ∧ State.reset.mode = .m ∧
    (csrFileGet State.reset 0x300).getLsbD 3 = false ∧ (csrFileGet State.reset 0x300).getLsbD 17 = false ∧
    State.reset.fpOn = true ∧ State.reset.frm = 0b000#3 ∧ State.reset.reservations = [] ∧
    State.reset.pc = 0 ∧ (∀ r : Reg, readX State.reset r = 0) ∧ (∀ r : Reg, readF State.reset r = 0) ∧
    State.reset.xlen = .rv32 ∧ (∀ a, byteAt State.reset.mem a = 0) ∧
    StorageInv State.reset ∧ WidthInv State.reset ∧ AnswerInv State.reset

/-- If executing an instruction changes the mode, the mode becomes M and mepc holds the pc; no instruction changes the
parameters, the Xlen, the word, the draw number or the FP unit's switch. That the mode becomes M with mepc holding the
pc is the model's entry (log entry 5), that no instruction changes the FP unit's switch log entry 10, and that none
changes the parameters log entry 4; the rules cited say which instructions could change a mode and that the parameters
are no inputs. -/
def Obligations.OnlyTrapsChangeMode : Prop :=
  ∀ (i : Instr) (s t : State), cellsWf 0 s.csrs = true → exec i s = .next t →
    (t.mode ≠ s.mode → t.mode = .m ∧ csrFileGet t 0x341 = narrow s.xlen s.pc) ∧
      t.cfg = s.cfg ∧ t.xlen = s.xlen ∧ t.word = s.word ∧ t.tick = s.tick ∧ t.fpOn = s.fpOn

/-- In canonical memory, a load of n bytes (at most eight) from the address just stored to gives the low n bytes stored,
each byte little-endian; a load whose bytes lie outside gives what it gave before. -/
def Obligations.LoadAfterStore : Prop :=
  ∀ (x : Xlen) (m : List Host.Cell) (n : Nat) (a : XWord) (v : Nat), Memory.wf m = true → n ≤ 8 →
    loadNat x (storeNat x m n a v) n a = v % 256 ^ n ∧
      (∀ k, k < n → loadNat x m n a / 256 ^ k % 256 = (byteAt m (addrKey x (a + BitVec.ofNat 64 k))).toNat) ∧
      ∀ (n' : Nat) (b : XWord), (∀ key, inAccess x b n' key = true → inAccess x a n key = false) →
        loadNat x (storeNat x m n a v) n' b = loadNat x m n' b

/-- ADDI, SLTI, SLTIU, XORI, ORI, ANDI, SLLI, SRLI, SRAI, LUI and AUIPC complete in every state: rd holds the result of its
rule as an XLEN-bit pattern, LUI its upper immediate sign-extended and AUIPC the sum with the pc, x0 stays 0, the pc
advances by 4, the block answers the record, and nothing else changes. -/
def Obligations.ImmediateResults : Prop :=
  ∀ (s : State) (rd rs1 : Reg) (imm : BitVec 12) (shamt : U5) (upper : BitVec 20),
    CompletesInt (.addi rd rs1 imm) rd (regU s rs1 + imm.toInt) s ∧
    CompletesInt (.slti rd rs1 imm) rd (if regS s rs1 < imm.toInt then 1 else 0) s ∧
    CompletesInt (.sltiu rd rs1 imm) rd (if regU s rs1 < modX s.xlen imm.toInt then 1 else 0) s ∧
    CompletesInt (.xori rd rs1 imm) rd ((readX s rs1 ^^^ imm.signExtend 64).toNat : Int) s ∧
    CompletesInt (.ori rd rs1 imm) rd ((readX s rs1 ||| imm.signExtend 64).toNat : Int) s ∧
    CompletesInt (.andi rd rs1 imm) rd ((readX s rs1 &&& imm.signExtend 64).toNat : Int) s ∧
    CompletesInt (.slli rd rs1 shamt) rd (regU s rs1 * 2 ^ shamt.toNat) s ∧
    CompletesInt (.srli rd rs1 shamt) rd ((regU s rs1 / 2 ^ shamt.toNat : Nat) : Int) s ∧
    CompletesInt (.srai rd rs1 shamt) rd (regS s rs1 / 2 ^ shamt.toNat) s ∧
    CompletesInt (.lui rd upper) rd (upper.toInt * 4096) s ∧
    CompletesInt (.auipc rd upper) rd (s.pc.toNat + upper.toInt * 4096) s

/-- Each completes in every state: rd holds the result of its rule as an XLEN-bit pattern, shift amounts being the low five
bits of the second register; the frame is that of ImmediateResults. Under Rv64 too the shift amount is five bits (log
entry 14). -/
def Obligations.OpResults : Prop :=
  ∀ (s : State) (rd rs1 rs2 : Reg),
    CompletesInt (.add rd rs1 rs2) rd (regU s rs1 + regU s rs2) s ∧
    CompletesInt (.sub rd rs1 rs2) rd (regU s rs1 - regU s rs2) s ∧
    CompletesInt (.sll rd rs1 rs2) rd (regU s rs1 * 2 ^ (regU s rs2 % 32)) s ∧
    CompletesInt (.slt rd rs1 rs2) rd (if regS s rs1 < regS s rs2 then 1 else 0) s ∧
    CompletesInt (.sltu rd rs1 rs2) rd (if regU s rs1 < regU s rs2 then 1 else 0) s ∧
    CompletesInt (.xor rd rs1 rs2) rd ((readX s rs1 ^^^ readX s rs2).toNat : Int) s ∧
    CompletesInt (.srl rd rs1 rs2) rd ((regU s rs1 / 2 ^ (regU s rs2 % 32) : Nat) : Int) s ∧
    CompletesInt (.sra rd rs1 rs2) rd (regS s rs1 / 2 ^ (regU s rs2 % 32)) s ∧
    CompletesInt (.or rd rs1 rs2) rd ((readX s rs1 ||| readX s rs2).toNat : Int) s ∧
    CompletesInt (.and rd rs1 rs2) rd ((readX s rs1 &&& readX s rs2).toNat : Int) s

/-- MUL gives the low XLEN bits of the product, signed or unsigned; MULH, MULHSU and MULHU the high XLEN bits; DIV and DIVU
round toward zero and REM and REMU give dividend minus quotient times divisor; a divisor of 0 gives all ones or the
dividend; the signed overflow gives the dividend and 0; a signed remainder that is not 0 has the sign of the dividend.
None traps. -/
def Obligations.MulDivResults : Prop :=
  ∀ (s : State) (rd rs1 rs2 : Reg),
    CompletesInt (.mul rd rs1 rs2) rd (regU s rs1 * regU s rs2) s ∧
    CompletesInt (.mul rd rs1 rs2) rd (regS s rs1 * regS s rs2) s ∧
    CompletesInt (.mulh rd rs1 rs2) rd (regS s rs1 * regS s rs2 / 2 ^ s.xlen.bits) s ∧
    CompletesInt (.mulhsu rd rs1 rs2) rd (regS s rs1 * regU s rs2 / 2 ^ s.xlen.bits) s ∧
    CompletesInt (.mulhu rd rs1 rs2) rd ((regU s rs1 * regU s rs2 / 2 ^ s.xlen.bits : Nat) : Int) s ∧
    (regU s rs2 ≠ 0 →
      CompletesInt (.div rd rs1 rs2) rd ((regS s rs1).tdiv (regS s rs2)) s ∧
      CompletesInt (.divu rd rs1 rs2) rd ((regU s rs1 / regU s rs2 : Nat) : Int) s ∧
      CompletesInt (.rem rd rs1 rs2) rd (regS s rs1 - (regS s rs1).tdiv (regS s rs2) * regS s rs2) s ∧
      CompletesInt (.remu rd rs1 rs2) rd (regU s rs1 - (regU s rs1 / regU s rs2 : Nat) * regU s rs2) s) ∧
    (regU s rs2 = 0 →
      CompletesInt (.div rd rs1 rs2) rd (-1) s ∧
      CompletesInt (.divu rd rs1 rs2) rd (2 ^ s.xlen.bits - 1) s ∧
      CompletesInt (.rem rd rs1 rs2) rd (regS s rs1) s ∧
      CompletesInt (.remu rd rs1 rs2) rd (regU s rs1) s) ∧
    (regS s rs1 = -2 ^ (s.xlen.bits - 1) → regS s rs2 = -1 →
      CompletesInt (.div rd rs1 rs2) rd (-2 ^ (s.xlen.bits - 1)) s ∧
      CompletesInt (.rem rd rs1 rs2) rd 0 s) ∧
    (regS s rs1 - (regS s rs1).tdiv (regS s rs2) * regS s rs2 ≠ 0 →
      (0 < regS s rs1 - (regS s rs1).tdiv (regS s rs2) * regS s rs2 ↔ 0 < regS s rs1))

/-- Where the access raises no exception, a load writes the bytes at x[base] + offset, sign- or zero-extended, and changes
nothing else, and to x0 leaves it 0; a store stores the low bytes of x[src] there, little-endian, and every other byte
and everything else is unchanged. That memory is plain, with no read side effect, is log entry 41. -/
def Obligations.LoadsAndStoresComplete : Prop :=
  (∀ (s : State) (rd base : Reg) (offset : BitVec 12),
    (AccessOk s .load (readX s base + offset.signExtend 64) 1 →
      CompletesInt (.lb rd base offset) rd (twos 8 (loadNat s.xlen s.mem 1 (readX s base + offset.signExtend 64))) s ∧
      CompletesInt (.lbu rd base offset) rd (loadNat s.xlen s.mem 1 (readX s base + offset.signExtend 64)) s) ∧
    (AccessOk s .load (readX s base + offset.signExtend 64) 2 →
      CompletesInt (.lh rd base offset) rd (twos 16 (loadNat s.xlen s.mem 2 (readX s base + offset.signExtend 64))) s ∧
      CompletesInt (.lhu rd base offset) rd (loadNat s.xlen s.mem 2 (readX s base + offset.signExtend 64)) s) ∧
    (AccessOk s .load (readX s base + offset.signExtend 64) 4 →
      CompletesInt (.lw rd base offset) rd (twos 32 (loadNat s.xlen s.mem 4 (readX s base + offset.signExtend 64))) s)) ∧
  ∀ (s : State) (src base : Reg) (offset : BitVec 12), Memory.wf s.mem = true →
    (AccessOk s .store (readX s base + offset.signExtend 64) 1 →
      CompletesStore (.sb src base offset) (readX s base + offset.signExtend 64) 1 (regU s src) s) ∧
    (AccessOk s .store (readX s base + offset.signExtend 64) 2 →
      CompletesStore (.sh src base offset) (readX s base + offset.signExtend 64) 2 (regU s src) s) ∧
    (AccessOk s .store (readX s base + offset.signExtend 64) 4 →
      CompletesStore (.sw src base offset) (readX s base + offset.signExtend 64) 4 (regU s src) s)

/-- A load takes, by priority, 3 for an address breakpoint, 4 where misaligned and checked first, 13 for a page fault, 5 for
an access fault, or 4 where misaligned and checked last; a store or AMO 3, 6, 15, 7 or 6. Misaligned LR.W, SC.W and AMOs
always trap, others as the parameter says. SC.W makes an access only with a reservation. The trap value is the pc for 3,
else the address. The barriers, the parameters, the order where the rule leaves it open, the address recorded and the
entry are the model's choice (log entries 5, 16, 19, 25, 27, 38, 39 and 40). -/
def Obligations.AccessTraps : Prop :=
  ∀ (s : State) (r base src : Reg) (r' b' : CReg) (offset : BitVec 12) (w : BitVec 7) (d w8 : BitVec 8) (d9 : BitVec 9)
      (aq rl : Bit) (i : Instr) (fp : Bool) (kind : AccessKind) (a : XWord) (n : Nat), cellsWf 0 s.csrs = true →
    ((i, fp, kind, a, n) ∈
      [(Instr.lb r base offset, false, .load, (readX s base + offset.signExtend 64), 1),
       (Instr.lbu r base offset, false, .load, (readX s base + offset.signExtend 64), 1),
       (Instr.lh r base offset, false, .load, (readX s base + offset.signExtend 64), 2),
       (Instr.lhu r base offset, false, .load, (readX s base + offset.signExtend 64), 2),
       (Instr.lw r base offset, false, .load, (readX s base + offset.signExtend 64), 4),
       (Instr.sb r base offset, false, .store, (readX s base + offset.signExtend 64), 1),
       (Instr.sh r base offset, false, .store, (readX s base + offset.signExtend 64), 2),
       (Instr.sw r base offset, false, .store, (readX s base + offset.signExtend 64), 4),
       (Instr.flw r base offset, true, .load, (readX s base + offset.signExtend 64), 4),
       (Instr.fld r base offset, true, .load, (readX s base + offset.signExtend 64), 8),
       (Instr.fsw r base offset, true, .store, (readX s base + offset.signExtend 64), 4),
       (Instr.fsd r base offset, true, .store, (readX s base + offset.signExtend 64), 8),
       (Instr.cLw r' b' w, false, .load, (readX s (CReg.toReg b') + w.setWidth 64), 4),
       (Instr.cSw r' b' w, false, .store, (readX s (CReg.toReg b') + w.setWidth 64), 4),
       (Instr.cFlw r' b' w, true, .load, (readX s (CReg.toReg b') + w.setWidth 64), 4),
       (Instr.cFsw r' b' w, true, .store, (readX s (CReg.toReg b') + w.setWidth 64), 4),
       (Instr.cFld r' b' d, true, .load, (readX s (CReg.toReg b') + d.setWidth 64), 8),
       (Instr.cFsd r' b' d, true, .store, (readX s (CReg.toReg b') + d.setWidth 64), 8),
       (Instr.cLwsp r w8, false, .load, (readX s 2 + w8.setWidth 64), 4),
       (Instr.cSwsp r w8, false, .store, (readX s 2 + w8.setWidth 64), 4),
       (Instr.cFlwsp r w8, true, .load, (readX s 2 + w8.setWidth 64), 4),
       (Instr.cFswsp r w8, true, .store, (readX s 2 + w8.setWidth 64), 4),
       (Instr.cFldsp r d9, true, .load, (readX s 2 + d9.setWidth 64), 8),
       (Instr.cFsdsp r d9, true, .store, (readX s 2 + d9.setWidth 64), 8),
       (Instr.lrW aq rl r base, false, .loadReserved, readX s base, 4),
       (Instr.amoswapW aq rl r base src, false, .amo, readX s base, 4),
       (Instr.amoaddW aq rl r base src, false, .amo, readX s base, 4),
       (Instr.amoxorW aq rl r base src, false, .amo, readX s base, 4),
       (Instr.amoandW aq rl r base src, false, .amo, readX s base, 4),
       (Instr.amoorW aq rl r base src, false, .amo, readX s base, 4),
       (Instr.amominW aq rl r base src, false, .amo, readX s base, 4),
       (Instr.amomaxW aq rl r base src, false, .amo, readX s base, 4),
       (Instr.amominuW aq rl r base src, false, .amo, readX s base, 4),
       (Instr.amomaxuW aq rl r base src, false, .amo, readX s base, 4)] →
      (fp = true → s.fpOn = true) →
      if kind = .load ∨ kind = .loadReserved then TrapsByPriority i kind 4 5 13 a n s else TrapsByPriority i kind 6 7 15 a n s) ∧
    (reserved s (readX s base) = true → TrapsByPriority (.scW aq rl r base src) .storeConditional 6 7 15 (readX s base) 4 s) ∧
    (reserved s (readX s base) = false → addrKey s.xlen (readX s base) % 4 ≠ 0 →
      Traps (.scW aq rl r base src) (if s.cfg.misalignedAtomicFaults then 7 else 6) (readX s base) s) ∧
    (kind = .load ∨ kind = .store → misalignedResponse s kind = s.cfg.misaligned) ∧
    (kind = .loadReserved ∨ kind = .storeConditional ∨ kind = .amo →
      misalignedResponse s kind = if s.cfg.misalignedAtomicFaults then .accessFault else .misalignedException)

/-- A branch goes to pc + offset where its condition holds and to pc + 4 where not, and changes nothing but the pc; a jump
writes the address of the next instruction to rd and goes to its target, JALR's with bit 0 cleared and read before rd is
written; nothing else changes. -/
def Obligations.TransfersComplete : Prop :=
  (∀ (s : State) (rs1 rs2 : Reg) (offset : BitVec 13),
    CompletesBranch (.beq rs1 rs2 offset) (regU s rs1 = regU s rs2) (s.pc.toNat + offset.toInt) s ∧
    CompletesBranch (.bne rs1 rs2 offset) (regU s rs1 ≠ regU s rs2) (s.pc.toNat + offset.toInt) s ∧
    CompletesBranch (.blt rs1 rs2 offset) (regS s rs1 < regS s rs2) (s.pc.toNat + offset.toInt) s ∧
    CompletesBranch (.bge rs1 rs2 offset) (regS s rs1 ≥ regS s rs2) (s.pc.toNat + offset.toInt) s ∧
    CompletesBranch (.bltu rs1 rs2 offset) (regU s rs1 < regU s rs2) (s.pc.toNat + offset.toInt) s ∧
    CompletesBranch (.bgeu rs1 rs2 offset) (regU s rs1 ≥ regU s rs2) (s.pc.toNat + offset.toInt) s) ∧
  ∀ (s : State) (rd base : Reg) (offset : BitVec 21) (imm : BitVec 12),
    CompletesJump (.jal rd offset) rd (s.pc.toNat + offset.toInt) s ∧
    CompletesJump (.jalr rd base imm) rd ((modX s.xlen (regU s base + imm.toInt) / 2 * 2 : Nat) : Int) s

/-- FENCE, FENCE.TSO and PAUSE change nothing but the pc in a machine of one hart; FENCE.I makes memory what a fetch is sure
to see, and changes nothing else. That the fences and PAUSE change nothing but the pc is the model's choice of one hart,
whose accesses appear in program order (log entry 22); what a fetch is sure to see is log entry 20. -/
def Obligations.FencesComplete : Prop :=
  ∀ (s : State) (pred succ : FenceSet),
    CompletesInt (.fence pred succ) 0 0 s ∧ CompletesInt .fenceTso 0 0 s ∧ CompletesInt .pause 0 0 s ∧
    ∃ t, exec .fenceI s = .next t ∧ Answers .fenceI s t ∧ Advances .fenceI s t ∧ t.imem = s.mem ∧ KeepsMem s t ∧
      KeepsX s t ∧ KeepsInputs s t ∧ KeepsF s t ∧ KeepsFcsr s t ∧ KeepsSystem s t ∧ KeepsReservations s t

/-- ECALL takes exception 8, 9 or 11 by the mode, with trap value 0; EBREAK and C.EBREAK take 3, with the pc as trap value.
The entry is the model's choice (log entry 5). -/
def Obligations.CallsAndBreakpointsTrap : Prop :=
  ∀ s : State, cellsWf 0 s.csrs = true →
    (s.mode = .u → Traps .ecall 8 0 s) ∧ (s.mode = .s → Traps .ecall 9 0 s) ∧ (s.mode = .m → Traps .ecall 11 0 s) ∧
    Traps .ebreak 3 s.pc s ∧ Traps .cEbreak 3 s.pc s

/-- Where the access is legal and the CSR is kept in the file, rd gets the old value, which is some value for a counter, and
the CSR the register or immediate, or the old value with those bits set or cleared; a set or clear with x0 or 0 writes
nothing; nothing else changes. That such a CSR keeps every bit written is the model's choice (log entry 8), and so is
what a counter reads as (log entry 9). Where csrLegal holds is log entries 8 and 37. -/
def Obligations.CsrFileComplete : Prop :=
  ∀ (s : State) (rd rs1 : Reg) (c : Csr) (imm : U5) (i : Instr) (writes : Bool) (operand : XWord)
      (new : XWord → XWord → XWord), cellsWf 0 s.csrs = true →
    (i, writes, operand, new) ∈ zicsrForms s rd rs1 c imm →
    csrLegal s c writes = true → c.toNat ∉ [1, 2, 3] →
    ∃ (t : State) (old : XWord), exec i s = .next t ∧ Answers i s t ∧ Advances i s t ∧
      (isCounter c = false → old = narrow s.xlen (csrFileGet s c.toNat)) ∧
      readX t rd = (if rd = 0 then 0 else narrow s.xlen old) ∧ KeepsXBut rd s t ∧
      csrFileGet t c.toNat = (if writes then narrow s.xlen (new (narrow s.xlen old) operand) else csrFileGet s c.toNat) ∧
      (∀ a, a ≠ c.toNat → csrFileGet t a = csrFileGet s a) ∧ t.mode = s.mode ∧ t.fpOn = s.fpOn ∧
      KeepsInputs s t ∧ KeepsF s t ∧ KeepsFcsr s t ∧ KeepsMem s t ∧ KeepsImem s t ∧ KeepsReservations s t

/-- Where the access is legal, on fflags, frm and fcsr, rd gets the flags, the mode or both, and the new value goes to the
flags, the mode or both; nothing else changes. The bit places are the model's choice (log entry 11); that the access
completes with the FP unit off is log entry 31, and in which modes it is legal log entry 37. -/
def Obligations.FcsrViews : Prop :=
  ∀ (s : State) (rd rs1 : Reg) (c : Csr) (imm : U5) (i : Instr) (writes : Bool) (operand : XWord)
      (new : XWord → XWord → XWord), (i, writes, operand, new) ∈ zicsrForms s rd rs1 c imm → csrLegal s c writes = true →
    ∀ old : XWord, (c.toNat, old) ∈ [(1, s.fflags.setWidth 64), (2, s.frm.setWidth 64), (3, (s.frm ++ s.fflags).setWidth 64)] →
      ∃ t, exec i s = .next t ∧ Answers i s t ∧ Advances i s t ∧
        readX t rd = (if rd = 0 then 0 else old) ∧ KeepsXBut rd s t ∧
        t.fflags.toNat = (if writes = true ∧ c.toNat ≠ 2 then (new old operand).toNat % 32 else s.fflags.toNat) ∧
        t.frm.toNat = (if writes = true ∧ c.toNat = 2 then (new old operand).toNat % 8
          else if writes = true ∧ c.toNat = 3 then (new old operand).toNat / 32 % 8 else s.frm.toNat) ∧
        KeepsInputs s t ∧ KeepsF s t ∧ KeepsSystem s t ∧ KeepsMem s t ∧ KeepsImem s t ∧ KeepsReservations s t

/-- A Zicsr record whose CSR does not exist or lies above the mode, or that writes a read-only CSR; each of the 25 records
with rm where that is Dyn while frm holds 101, 110 or 111; each of the 60 F, D and compressed FP instructions while the
unit is off: it takes exception 2 with the instruction bits or 0. The entry is the model's choice (log entries 5, 7).
The privilege levels U 0, S 1, M 3 are log entry 37, and which CSRs exist log entries 4 and 8; the order against an
access is log entry 27. -/
def Obligations.IllegalRecordsTrap : Prop :=
  ∀ (s : State) (rd rs1 rs2 rs3 : Reg) (r' b' : CReg) (c : Csr) (imm : U5) (o12 : BitVec 12) (o7 : BitVec 7) (o8 : BitVec 8)
      (o9 : BitVec 9) (i : Instr), cellsWf 0 s.csrs = true →
    (∀ (writes : Bool) (operand : XWord) (new : XWord → XWord → XWord), (i, writes, operand, new) ∈ zicsrForms s rd rs1 c imm →
      (c.toNat ∉ s.cfg.csrPresent ∨ s.mode.level < (c.extractLsb' 8 2).toNat ∨
        (writes = true ∧ c.extractLsb' 10 2 = 0b11#2)) → Traps i 2 (illegalTval s) s) ∧
    ((s.frm = 0b101#3 ∨ s.frm = 0b110#3 ∨ s.frm = 0b111#3) →
      i ∈ ([.fmaddS .dyn rd rs1 rs2 rs3, .fmsubS .dyn rd rs1 rs2 rs3, .fnmsubS .dyn rd rs1 rs2 rs3,
        .fnmaddS .dyn rd rs1 rs2 rs3, .faddS .dyn rd rs1 rs2, .fsubS .dyn rd rs1 rs2, .fmulS .dyn rd rs1 rs2,
        .fdivS .dyn rd rs1 rs2, .fsqrtS .dyn rd rs1, .fcvtWS .dyn rd rs1, .fcvtWuS .dyn rd rs1,
        .fcvtSW .dyn rd rs1, .fcvtSWu .dyn rd rs1, .fmaddD .dyn rd rs1 rs2 rs3, .fmsubD .dyn rd rs1 rs2 rs3,
        .fnmsubD .dyn rd rs1 rs2 rs3, .fnmaddD .dyn rd rs1 rs2 rs3, .faddD .dyn rd rs1 rs2, .fsubD .dyn rd rs1 rs2,
        .fmulD .dyn rd rs1 rs2, .fdivD .dyn rd rs1 rs2, .fsqrtD .dyn rd rs1, .fcvtSD .dyn rd rs1,
        .fcvtWD .dyn rd rs1, .fcvtWuD .dyn rd rs1] : List Instr) →
      Traps i 2 (illegalTval s) s) ∧
    (s.fpOn = false → ∀ rm : RoundingMode,
      i ∈ ([.flw rd rs1 o12, .fsw rd rs1 o12, .fmaddS rm rd rs1 rs2 rs3, .fmsubS rm rd rs1 rs2 rs3,
        .fnmsubS rm rd rs1 rs2 rs3, .fnmaddS rm rd rs1 rs2 rs3, .faddS rm rd rs1 rs2, .fsubS rm rd rs1 rs2,
        .fmulS rm rd rs1 rs2, .fdivS rm rd rs1 rs2, .fsqrtS rm rd rs1, .fsgnjS rd rs1 rs2, .fsgnjnS rd rs1 rs2,
        .fsgnjxS rd rs1 rs2, .fminS rd rs1 rs2, .fmaxS rd rs1 rs2, .feqS rd rs1 rs2, .fltS rd rs1 rs2,
        .fleS rd rs1 rs2, .fclassS rd rs1, .fcvtWS rm rd rs1, .fcvtWuS rm rd rs1, .fcvtSW rm rd rs1,
        .fcvtSWu rm rd rs1, .fmvXW rd rs1, .fmvWX rd rs1, .fld rd rs1 o12, .fsd rd rs1 o12,
        .fmaddD rm rd rs1 rs2 rs3, .fmsubD rm rd rs1 rs2 rs3, .fnmsubD rm rd rs1 rs2 rs3,
        .fnmaddD rm rd rs1 rs2 rs3, .faddD rm rd rs1 rs2, .fsubD rm rd rs1 rs2, .fmulD rm rd rs1 rs2,
        .fdivD rm rd rs1 rs2, .fsqrtD rm rd rs1, .fsgnjD rd rs1 rs2, .fsgnjnD rd rs1 rs2, .fsgnjxD rd rs1 rs2,
        .fminD rd rs1 rs2, .fmaxD rd rs1 rs2, .fcvtSD rm rd rs1, .fcvtDS rd rs1, .feqD rd rs1 rs2,
        .fltD rd rs1 rs2, .fleD rd rs1 rs2, .fclassD rd rs1, .fcvtWD rm rd rs1, .fcvtWuD rm rd rs1, .fcvtDW rd rs1,
        .fcvtDWu rd rs1, .cFld r' b' o8, .cFlw r' b' o7, .cFsd r' b' o8, .cFsw r' b' o7, .cFldsp rd o9,
        .cFlwsp rd o8, .cFsdsp rs2 o9, .cFswsp rs2 o8] : List Instr) →
      Traps i 2 (illegalTval s) s)

/-- Where the access raises no exception, LR.W writes the word, sign-extended, and a reservation then contains it. With an
aligned word that a reservation holds, SC.W stores the register's low word and writes 0; with none, it changes no byte
and writes a value that is not 0, whatever the free value; either way no reservation is left. Nothing else changes. That
a failing SC.W completes whatever stops accesses at the address is log entry 19; the reservation set, that a valid
reservation always succeeds, and that SC.W releases all where several are held, are log entry 17; the failure value is
log entry 18. -/
def Obligations.ReservationsComplete : Prop :=
  (∀ (s : State) (aq rl : Bit) (rd addr : Reg), AccessOk s .loadReserved (readX s addr) 4 →
    ∃ t, exec (.lrW aq rl rd addr) s = .next t ∧ Answers (.lrW aq rl rd addr) s t ∧ Advances (.lrW aq rl rd addr) s t ∧
      regU t rd = (if rd = 0 then 0 else modX s.xlen (twos 32 (loadNat s.xlen s.mem 4 (readX s addr)))) ∧
      reserved t (readX s addr) = true ∧ KeepsXBut rd s t ∧ KeepsInputs s t ∧ KeepsF s t ∧ KeepsFcsr s t ∧
      KeepsSystem s t ∧ KeepsMem s t ∧ KeepsImem s t) ∧
  ∀ (s : State) (aq rl : Bit) (rd addr src : Reg), Memory.wf s.mem = true → addrKey s.xlen (readX s addr) % 4 = 0 →
    (reserved s (readX s addr) = true → AccessOk s .storeConditional (readX s addr) 4 →
      ∃ t, exec (.scW aq rl rd addr src) s = .next t ∧ Stores s t (readX s addr) 4 (regU s src) ∧ regU t rd = 0 ∧
        Answers (.scW aq rl rd addr src) s t ∧ Advances (.scW aq rl rd addr src) s t ∧
        t.reservations = [] ∧ KeepsXBut rd s t ∧ KeepsInputs s t ∧ KeepsF s t ∧ KeepsFcsr s t ∧ KeepsSystem s t ∧
        KeepsImem s t) ∧
    (reserved s (readX s addr) = false →
      ∃ t, exec (.scW aq rl rd addr src) s = .next t ∧ KeepsMem s t ∧ (rd = 0 ∨ regU t rd ≠ 0) ∧
        Answers (.scW aq rl rd addr src) s t ∧ Advances (.scW aq rl rd addr src) s t ∧
        t.reservations = [] ∧ KeepsXBut rd s t ∧ KeepsInputs s t ∧ KeepsF s t ∧ KeepsFcsr s t ∧ KeepsSystem s t ∧
        KeepsImem s t)

/-- Where the access raises no exception, each AMO writes the old word, sign-extended, and stores its operation of the old
word and the register's low word there; every other byte and everything else is unchanged. That under Rv64 the minimum
and maximum compare the low word of the register is log entry 42. -/
def Obligations.AmosComplete : Prop :=
  ∀ (s : State) (aq rl : Bit) (rd addr src : Reg) (i : Instr) (new : Int → Int → Int), Memory.wf s.mem = true →
    AccessOk s .amo (readX s addr) 4 →
    (i, new) ∈
      [(Instr.amoswapW aq rl rd addr src, fun _ v => v), (Instr.amoaddW aq rl rd addr src, fun old v => old + v),
       (Instr.amominW aq rl rd addr src, fun old v => min (twos 32 old.toNat) (twos 32 v.toNat)),
       (Instr.amomaxW aq rl rd addr src, fun old v => max (twos 32 old.toNat) (twos 32 v.toNat)),
       (Instr.amominuW aq rl rd addr src, fun old v => min old v), (Instr.amomaxuW aq rl rd addr src, fun old v => max old v),
       (Instr.amoxorW aq rl rd addr src, fun old v => ((old.toNat ^^^ v.toNat : Nat) : Int)),
       (Instr.amoandW aq rl rd addr src, fun old v => ((old.toNat &&& v.toNat : Nat) : Int)),
       (Instr.amoorW aq rl rd addr src, fun old v => ((old.toNat ||| v.toNat : Nat) : Int))] →
    ∃ t, exec i s = .next t ∧ Answers i s t ∧ Advances i s t ∧
      regU t rd = (if rd = 0 then 0 else modX s.xlen (twos 32 (loadNat s.xlen s.mem 4 (readX s addr)))) ∧
      Stores s t (readX s addr) 4
        (new (loadNat s.xlen s.mem 4 (readX s addr)) (regU s src % 2 ^ 32 : Nat) % 2 ^ 32).toNat ∧
      KeepsXBut rd s t ∧ KeepsInputs s t ∧ KeepsF s t ∧ KeepsFcsr s t ∧ KeepsSystem s t ∧ KeepsImem s t ∧
      KeepsReservations s t

/-- Where the unit is on and the mode is one of the five, each writes its IEEE result, boxed for a single, accumulates its
flags (log entry 12) and changes nothing else. -/
def Obligations.FpArithmeticCompletes : Prop :=
  ∀ (s : State) (rm m : RoundingMode) (rd rs1 rs2 rs3 : Reg), RoundsIn s rm m →
    CompletesResult (.faddS rm rd rs1 rs2) .s rd (Ieee.single.add m (readFp s .s rs1) (readFp s .s rs2)) s ∧
    CompletesResult (.fsubS rm rd rs1 rs2) .s rd (Ieee.single.sub m (readFp s .s rs1) (readFp s .s rs2)) s ∧
    CompletesResult (.fmulS rm rd rs1 rs2) .s rd (Ieee.single.mul m (readFp s .s rs1) (readFp s .s rs2)) s ∧
    CompletesResult (.fdivS rm rd rs1 rs2) .s rd (Ieee.single.div m (readFp s .s rs1) (readFp s .s rs2)) s ∧
    CompletesResult (.fsqrtS rm rd rs1) .s rd (Ieee.single.sqrt m (readFp s .s rs1)) s ∧
    CompletesResult (.fmaddS rm rd rs1 rs2 rs3) .s rd
      (Ieee.single.fused m false false (readFp s .s rs1) (readFp s .s rs2) (readFp s .s rs3)) s ∧
    CompletesResult (.fmsubS rm rd rs1 rs2 rs3) .s rd
      (Ieee.single.fused m false true (readFp s .s rs1) (readFp s .s rs2) (readFp s .s rs3)) s ∧
    CompletesResult (.fnmsubS rm rd rs1 rs2 rs3) .s rd
      (Ieee.single.fused m true false (readFp s .s rs1) (readFp s .s rs2) (readFp s .s rs3)) s ∧
    CompletesResult (.fnmaddS rm rd rs1 rs2 rs3) .s rd
      (Ieee.single.fused m true true (readFp s .s rs1) (readFp s .s rs2) (readFp s .s rs3)) s ∧
    CompletesResult (.faddD rm rd rs1 rs2) .d rd (Ieee.double.add m (readFp s .d rs1) (readFp s .d rs2)) s ∧
    CompletesResult (.fsubD rm rd rs1 rs2) .d rd (Ieee.double.sub m (readFp s .d rs1) (readFp s .d rs2)) s ∧
    CompletesResult (.fmulD rm rd rs1 rs2) .d rd (Ieee.double.mul m (readFp s .d rs1) (readFp s .d rs2)) s ∧
    CompletesResult (.fdivD rm rd rs1 rs2) .d rd (Ieee.double.div m (readFp s .d rs1) (readFp s .d rs2)) s ∧
    CompletesResult (.fsqrtD rm rd rs1) .d rd (Ieee.double.sqrt m (readFp s .d rs1)) s ∧
    CompletesResult (.fmaddD rm rd rs1 rs2 rs3) .d rd
      (Ieee.double.fused m false false (readFp s .d rs1) (readFp s .d rs2) (readFp s .d rs3)) s ∧
    CompletesResult (.fmsubD rm rd rs1 rs2 rs3) .d rd
      (Ieee.double.fused m false true (readFp s .d rs1) (readFp s .d rs2) (readFp s .d rs3)) s ∧
    CompletesResult (.fnmsubD rm rd rs1 rs2 rs3) .d rd
      (Ieee.double.fused m true false (readFp s .d rs1) (readFp s .d rs2) (readFp s .d rs3)) s ∧
    CompletesResult (.fnmaddD rm rd rs1 rs2 rs3) .d rd
      (Ieee.double.fused m true true (readFp s .d rs1) (readFp s .d rs2) (readFp s .d rs3)) s

/-- Where the unit is on, a sign injection writes the sign of its rule over the magnitude of the first operand; FMIN and
FMAX write the smaller or larger operand; FEQ, FLT and FLE write 1 or 0; FCLASS one bit of ten; FMV.X.W the low 32 bits
sign-extended and FMV.W.X them boxed. Only FMIN, FMAX and the comparisons accumulate flags; nothing else changes. Which
flags FMIN, FMAX and the comparisons raise, and that the others raise none, is log entry 12; which NaN is signaling is
log entry 43. -/
def Obligations.FpNonRoundingComplete : Prop :=
  ∀ (s : State) (rd rs1 rs2 : Reg), s.fpOn = true →
    CompletesFp (.fsgnjS rd rs1 rs2) rd (boxed .s (readFp s .s rs2 / (2 ^ 31) % 2 * 2 ^ 31 + readFp s .s rs1 % 2 ^ 31)) 0 s ∧
    CompletesFp (.fsgnjnS rd rs1 rs2) rd (boxed .s ((1 - readFp s .s rs2 / (2 ^ 31) % 2) * 2 ^ 31 + readFp s .s rs1 % 2 ^ 31)) 0 s ∧
    CompletesFp (.fsgnjxS rd rs1 rs2) rd (boxed .s (((readFp s .s rs1 / (2 ^ 31) + readFp s .s rs2 / (2 ^ 31)) % 2) * 2 ^ 31 + readFp s .s rs1 % 2 ^ 31)) 0 s ∧
    CompletesResult (.fminS rd rs1 rs2) .s rd (Ieee.single.minMax false (readFp s .s rs1) (readFp s .s rs2)) s ∧
    CompletesResult (.fmaxS rd rs1 rs2) .s rd (Ieee.single.minMax true (readFp s .s rs1) (readFp s .s rs2)) s ∧
    CompletesFp (.fsgnjD rd rs1 rs2) rd (boxed .d (readFp s .d rs2 / (2 ^ 63) % 2 * 2 ^ 63 + readFp s .d rs1 % 2 ^ 63)) 0 s ∧
    CompletesFp (.fsgnjnD rd rs1 rs2) rd (boxed .d ((1 - readFp s .d rs2 / (2 ^ 63) % 2) * 2 ^ 63 + readFp s .d rs1 % 2 ^ 63)) 0 s ∧
    CompletesFp (.fsgnjxD rd rs1 rs2) rd (boxed .d (((readFp s .d rs1 / (2 ^ 63) + readFp s .d rs2 / (2 ^ 63)) % 2) * 2 ^ 63 + readFp s .d rs1 % 2 ^ 63)) 0 s ∧
    CompletesResult (.fminD rd rs1 rs2) .d rd (Ieee.double.minMax false (readFp s .d rs1) (readFp s .d rs2)) s ∧
    CompletesResult (.fmaxD rd rs1 rs2) .d rd (Ieee.double.minMax true (readFp s .d rs1) (readFp s .d rs2)) s ∧
    CompletesFpInt (.feqS rd rs1 rs2) rd (Ieee.single.eq (readFp s .s rs1) (readFp s .s rs2)).bits
      (Ieee.single.eq (readFp s .s rs1) (readFp s .s rs2)).flags s ∧
    CompletesFpInt (.fltS rd rs1 rs2) rd (Ieee.single.lt (readFp s .s rs1) (readFp s .s rs2)).bits
      (Ieee.single.lt (readFp s .s rs1) (readFp s .s rs2)).flags s ∧
    CompletesFpInt (.fleS rd rs1 rs2) rd (Ieee.single.le (readFp s .s rs1) (readFp s .s rs2)).bits
      (Ieee.single.le (readFp s .s rs1) (readFp s .s rs2)).flags s ∧
    CompletesFpInt (.fclassS rd rs1) rd (2 ^ Ieee.single.classBit (readFp s .s rs1)) 0 s ∧
    CompletesFpInt (.feqD rd rs1 rs2) rd (Ieee.double.eq (readFp s .d rs1) (readFp s .d rs2)).bits
      (Ieee.double.eq (readFp s .d rs1) (readFp s .d rs2)).flags s ∧
    CompletesFpInt (.fltD rd rs1 rs2) rd (Ieee.double.lt (readFp s .d rs1) (readFp s .d rs2)).bits
      (Ieee.double.lt (readFp s .d rs1) (readFp s .d rs2)).flags s ∧
    CompletesFpInt (.fleD rd rs1 rs2) rd (Ieee.double.le (readFp s .d rs1) (readFp s .d rs2)).bits
      (Ieee.double.le (readFp s .d rs1) (readFp s .d rs2)).flags s ∧
    CompletesFpInt (.fclassD rd rs1) rd (2 ^ Ieee.double.classBit (readFp s .d rs1)) 0 s ∧
    CompletesFpInt (.fmvXW rd rs1) rd (twos 32 ((readF s rs1).toNat % 2 ^ 32)) 0 s ∧
    CompletesFp (.fmvWX rd rs1) rd (BitVec.allOnes 32 ++ BitVec.ofNat 32 (regU s rs1)) 0 s

/-- Where the unit is on and the mode is one of the five, the conversions to a 32-bit integer write it sign-extended, those
from one and between precisions write the rounded value, and the exact ones FCVT.D.W, FCVT.D.WU and FCVT.D.S need no
mode; flags accumulate and nothing else changes. Which flags a conversion raises (no NX beside NV, tininess after
rounding in FCVT.S.D) is log entry 12. -/
def Obligations.FpConversionsComplete : Prop :=
  (∀ (s : State) (rm m : RoundingMode) (rd rs1 : Reg), RoundsIn s rm m →
    CompletesFpInt (.fcvtWS rm rd rs1) rd (twos 32 ((Ieee.single.toInt m (-2 ^ 31) (2 ^ 31 - 1) (readFp s .s rs1)).1 % 2 ^ 32).toNat)
      (Ieee.single.toInt m (-2 ^ 31) (2 ^ 31 - 1) (readFp s .s rs1)).2 s ∧
    CompletesFpInt (.fcvtWuS rm rd rs1) rd (twos 32 ((Ieee.single.toInt m 0 (2 ^ 32 - 1) (readFp s .s rs1)).1 % 2 ^ 32).toNat)
      (Ieee.single.toInt m 0 (2 ^ 32 - 1) (readFp s .s rs1)).2 s ∧
    CompletesFpInt (.fcvtWD rm rd rs1) rd (twos 32 ((Ieee.double.toInt m (-2 ^ 31) (2 ^ 31 - 1) (readFp s .d rs1)).1 % 2 ^ 32).toNat)
      (Ieee.double.toInt m (-2 ^ 31) (2 ^ 31 - 1) (readFp s .d rs1)).2 s ∧
    CompletesFpInt (.fcvtWuD rm rd rs1) rd (twos 32 ((Ieee.double.toInt m 0 (2 ^ 32 - 1) (readFp s .d rs1)).1 % 2 ^ 32).toNat)
      (Ieee.double.toInt m 0 (2 ^ 32 - 1) (readFp s .d rs1)).2 s ∧
    CompletesResult (.fcvtSW rm rd rs1) .s rd (Ieee.single.ofInt m (twos 32 (regU s rs1 % 2 ^ 32))) s ∧
    CompletesResult (.fcvtSWu rm rd rs1) .s rd (Ieee.single.ofInt m (regU s rs1 % 2 ^ 32 : Nat)) s ∧
    CompletesResult (.fcvtSD rm rd rs1) .s rd (Ieee.single.convert Ieee.double m (readFp s .d rs1)) s) ∧
  ∀ (s : State) (rd rs1 : Reg), s.fpOn = true →
    CompletesResult (.fcvtDW rd rs1) .d rd (Ieee.double.ofInt .rne (twos 32 (regU s rs1 % 2 ^ 32))) s ∧
    CompletesResult (.fcvtDWu rd rs1) .d rd (Ieee.double.ofInt .rne (regU s rs1 % 2 ^ 32 : Nat)) s ∧
    CompletesResult (.fcvtDS rd rs1) .d rd (Ieee.double.convert Ieee.single .rne (readFp s .s rs1)) s

/-- Where the unit is on and the access raises no exception, FLW writes four bytes boxed, FLD eight, FSW stores the low four
bytes of the register and FSD all eight; nothing else changes. -/
def Obligations.FpLoadsStoresComplete : Prop :=
  ∀ (s : State) (r base : Reg) (offset : BitVec 12), s.fpOn = true →
    (AccessOk s .load (readX s base + offset.signExtend 64) 4 →
      CompletesFp (.flw r base offset) r (BitVec.allOnes 32 ++ BitVec.ofNat 32 (loadNat s.xlen s.mem 4 (readX s base + offset.signExtend 64))) 0 s) ∧
    (AccessOk s .load (readX s base + offset.signExtend 64) 8 →
      CompletesFp (.fld r base offset) r (BitVec.ofNat 64 (loadNat s.xlen s.mem 8 (readX s base + offset.signExtend 64))) 0 s) ∧
    (Memory.wf s.mem = true → AccessOk s .store (readX s base + offset.signExtend 64) 4 →
      CompletesStore (.fsw r base offset) (readX s base + offset.signExtend 64) 4 (readF s r).toNat s) ∧
    (Memory.wf s.mem = true → AccessOk s .store (readX s base + offset.signExtend 64) 8 →
      CompletesStore (.fsd r base offset) (readX s base + offset.signExtend 64) 8 (readF s r).toNat s)

/-- An addition, subtraction, product, quotient, square root, fused operation or conversion between precisions with a NaN
operand gives the canonical NaN of its result format, and NV where an operand is a signaling NaN. Which flags are raised
is log entry 12, which NaN is signaling log entry 43. -/
def Obligations.NanResultsAreCanonical : Prop :=
  ∀ (F : Ieee.FFormat) (canonical : Nat), (F, canonical) ∈ [(Ieee.single, 0x7FC00000), (Ieee.double, 0x7FF8000000000000)] →
    ∀ (m : RoundingMode) (n1 n2 : Bool) (a b c : Nat),
      (∀ G : Ieee.FFormat, G ∈ [Ieee.single, Ieee.double] → (G.unpack a).isNan = true → (F.convert G m a).bits = canonical ∧
        ((G.unpack a).isSignaling = true → (F.convert G m a).flags = Ieee.NV)) ∧
      ((F.unpack a).isNan = true ∨ (F.unpack b).isNan = true →
        (F.add m a b).bits = canonical ∧ (F.sub m a b).bits = canonical ∧ (F.mul m a b).bits = canonical ∧
        (F.div m a b).bits = canonical ∧
        ((F.unpack a).isSignaling = true ∨ (F.unpack b).isSignaling = true → (F.add m a b).flags = Ieee.NV ∧
          (F.sub m a b).flags = Ieee.NV ∧ (F.mul m a b).flags = Ieee.NV ∧ (F.div m a b).flags = Ieee.NV)) ∧
      ((F.unpack a).isNan = true → (F.sqrt m a).bits = canonical ∧
        ((F.unpack a).isSignaling = true → (F.sqrt m a).flags = Ieee.NV)) ∧
      ((F.unpack a).isNan = true ∨ (F.unpack b).isNan = true ∨ (F.unpack c).isNan = true →
        (F.fused m n1 n2 a b c).bits = canonical ∧
        ((F.unpack a).isSignaling = true ∨ (F.unpack b).isSignaling = true ∨ (F.unpack c).isSignaling = true →
          (F.fused m n1 n2 a b c).flags = Ieee.NV))

/-- A sum, difference, product, quotient or fused result with an infinity is the infinity, or zero, of its sign and exact;
infinity minus infinity, infinity times 0 and infinity by infinity, and the square root of minus infinity, give the
canonical NaN with NV. A conversion between precisions keeps an infinity. Which flags are raised is log entry 12. -/
def Obligations.InfinityResults : Prop :=
  ∀ (F : Ieee.FFormat) (canonical : Nat), (F, canonical) ∈ [(Ieee.single, 0x7FC00000), (Ieee.double, 0x7FF8000000000000)] →
    ∀ (m : RoundingMode) (n1 n2 sa sb sc : Bool) (a b c : Nat) (va vb vc : ℚ), (F.unpack a = .inf sa →
        ((F.unpack b).HasValue vb →
          F.add m a b = ⟨F.withSign sa F.infMag, 0⟩ ∧ F.add m b a = ⟨F.withSign sa F.infMag, 0⟩ ∧
          F.sub m a b = ⟨F.withSign sa F.infMag, 0⟩ ∧ F.sub m b a = ⟨F.withSign (!sa) F.infMag, 0⟩ ∧
          F.mul m a b = (if vb = 0 then ⟨canonical, Ieee.NV⟩ else ⟨F.withSign (sa != F.signBit b) F.infMag, 0⟩) ∧
          F.mul m b a = F.mul m a b ∧
          F.div m a b = ⟨F.withSign (sa != F.signBit b) F.infMag, 0⟩ ∧ F.div m b a = ⟨F.withSign (sa != F.signBit b) 0, 0⟩ ∧
          ((F.unpack c).HasValue vc → F.fused m n1 n2 a b c =
            if vb = 0 then ⟨canonical, Ieee.NV⟩ else ⟨F.withSign ((sa != F.signBit b) != n1) F.infMag, 0⟩) ∧
          (F.unpack c = .inf sc → F.fused m n1 n2 a b c =
            if vb = 0 ∨ ((sa != F.signBit b) != n1) ≠ (sc != n2) then ⟨canonical, Ieee.NV⟩ else ⟨F.withSign (sc != n2) F.infMag, 0⟩)) ∧
        (F.unpack b = .inf sb →
          F.add m a b = (if sa = sb then ⟨F.withSign sa F.infMag, 0⟩ else ⟨canonical, Ieee.NV⟩) ∧
          F.sub m a b = (if sa = sb then ⟨canonical, Ieee.NV⟩ else ⟨F.withSign sa F.infMag, 0⟩) ∧
          F.mul m a b = ⟨F.withSign (sa != sb) F.infMag, 0⟩ ∧ F.div m a b = ⟨canonical, Ieee.NV⟩ ∧
          ((F.unpack c).HasValue vc → F.fused m n1 n2 a b c = ⟨F.withSign ((sa != sb) != n1) F.infMag, 0⟩) ∧
          (F.unpack c = .inf sc → F.fused m n1 n2 a b c =
            if ((sa != sb) != n1) ≠ (sc != n2) then ⟨canonical, Ieee.NV⟩ else ⟨F.withSign (sc != n2) F.infMag, 0⟩)) ∧
        F.sqrt m a = (if sa then ⟨canonical, Ieee.NV⟩ else ⟨F.infMag, 0⟩)) ∧
      ((F.unpack a).HasValue va → (F.unpack b).HasValue vb → F.unpack c = .inf sc →
        F.fused m n1 n2 a b c = ⟨F.withSign (sc != n2) F.infMag, 0⟩) ∧
      F.fused m n1 n2 a b c = F.fused m n1 n2 b a c ∧
      ∀ G : Ieee.FFormat, G ∈ [Ieee.single, Ieee.double] → G.unpack a = .inf sa → F.convert G m a = ⟨F.withSign sa F.infMag, 0⟩

/-- For finite operands the result of an addition, subtraction or product is the exact number rounded once: without OF it is
finite and the value the mode picks, and NX says whether it is inexact; with OF the exact number lies above every finite
value and the result is the infinity or largest value of its sign. Without flags it is exact. Which flags are raised is
log entry 12. -/
def Obligations.SumsAndProductsRound : Prop :=
  ∀ F : Ieee.FFormat, F ∈ [Ieee.single, Ieee.double] → ∀ (m : RoundingMode) (a b : Nat) (va vb : ℚ),
    (F.unpack a).HasValue va → (F.unpack b).HasValue vb →
      F.Rounds m ((va + vb : ℚ) : ℝ) (F.add m a b) ∧ F.Rounds m ((va - vb : ℚ) : ℝ) (F.sub m a b) ∧
      F.Rounds m ((va * vb : ℚ) : ℝ) (F.mul m a b) ∧
      ((F.add m a b).flags = 0 → (F.unpack (F.add m a b).bits).HasValue (va + vb)) ∧
      ((F.sub m a b).flags = 0 → (F.unpack (F.sub m a b).bits).HasValue (va - vb)) ∧
      ((F.mul m a b).flags = 0 → (F.unpack (F.mul m a b).bits).HasValue (va * vb))

/-- For finite operands a quotient by a number that is not 0, and the square root of one that is not negative, is the exact
real number rounded once, as in SumsAndProductsRound. A quotient by 0 is the infinity of its sign with DZ, 0 by 0 and
the root of a negative number the canonical NaN with NV. Which flags are raised is log entry 12. -/
def Obligations.QuotientsAndRootsRound : Prop :=
  ∀ (F : Ieee.FFormat) (canonical : Nat), (F, canonical) ∈ [(Ieee.single, 0x7FC00000), (Ieee.double, 0x7FF8000000000000)] →
    ∀ (m : RoundingMode) (a b : Nat) (va vb : ℚ), (F.unpack a).HasValue va → (F.unpack b).HasValue vb →
      (vb ≠ 0 → F.Rounds m ((va / vb : ℚ) : ℝ) (F.div m a b)) ∧
      (va ≠ 0 → vb = 0 → F.div m a b = ⟨F.withSign (F.signBit a != F.signBit b) F.infMag, Ieee.DZ⟩) ∧
      (va = 0 → vb = 0 → F.div m a b = ⟨canonical, Ieee.NV⟩) ∧
      (0 ≤ va → F.Rounds m (Real.sqrt va) (F.sqrt m a)) ∧
      (va < 0 → F.sqrt m a = ⟨canonical, Ieee.NV⟩)

/-- For finite operands the fused sum of a product and an addend, each negated as the instruction says, is the exact number
rounded once, as in SumsAndProductsRound; so is the conversion of any integer, and that of a finite value of either
format to either. Which flags are raised is log entry 12. -/
def Obligations.FusedAndConversionsRound : Prop :=
  ∀ F : Ieee.FFormat, F ∈ [Ieee.single, Ieee.double] → ∀ m : RoundingMode,
    (∀ (n1 n2 : Bool) (a b c : Nat) (va vb vc : ℚ), (F.unpack a).HasValue va → (F.unpack b).HasValue vb → (F.unpack c).HasValue vc →
      F.Rounds m (((if n1 then -(va * vb) else va * vb) + (if n2 then -vc else vc) : ℚ) : ℝ) (F.fused m n1 n2 a b c)) ∧
    (∀ v : Int, F.Rounds m (v : ℝ) (F.ofInt m v)) ∧
    ∀ (G : Ieee.FFormat) (a : Nat) (va : ℚ), G ∈ [Ieee.single, Ieee.double] → (G.unpack a).HasValue va →
      F.Rounds m (va : ℝ) (F.convert G m a)

/-- For operands that are no NaN, infinities the ends of the line, FEQ, FLT and FLE give 1 exactly where the first is equal,
less, or at most, and FMIN and FMAX give one of the operands, of the smaller or larger value, without flags; with a NaN
the three give 0, FLT and FLE raising NV for any NaN and FEQ for a signaling one. That FEQ raises NV for a signaling NaN
is log entry 12, which NaN is signaling log entry 43. -/
def Obligations.ComparisonsFollowValues : Prop :=
  ∀ F : Ieee.FFormat, F ∈ [Ieee.single, Ieee.double] → ∀ a b : Nat,
    (∀ va vb : WithBot (WithTop ℚ), (F.unpack a).HasPlace va → (F.unpack b).HasPlace vb →
      F.eq a b = ⟨if va = vb then 1 else 0, 0⟩ ∧ F.lt a b = ⟨if va < vb then 1 else 0, 0⟩ ∧
      F.le a b = ⟨if va ≤ vb then 1 else 0, 0⟩ ∧
      ((F.minMax false a b).bits = a ∨ (F.minMax false a b).bits = b) ∧
      (F.unpack (F.minMax false a b).bits).HasPlace (min va vb) ∧ (F.minMax false a b).flags = 0 ∧
      ((F.minMax true a b).bits = a ∨ (F.minMax true a b).bits = b) ∧
      (F.unpack (F.minMax true a b).bits).HasPlace (max va vb) ∧ (F.minMax true a b).flags = 0) ∧
    ((F.unpack a).isNan = true ∨ (F.unpack b).isNan = true →
      F.lt a b = ⟨0, Ieee.NV⟩ ∧ F.le a b = ⟨0, Ieee.NV⟩ ∧ (F.eq a b).bits = 0 ∧
      ((F.eq a b).flags = if (F.unpack a).isSignaling || (F.unpack b).isSignaling then Ieee.NV else 0))

/-- For every 32-bit pattern of a single and every 64-bit pattern of a double the class is a number below ten, and each
class holds exactly for its range of patterns. Which NaN is signaling is the model's choice (log entry 43). -/
def Obligations.ClassesOfPatterns : Prop :=
  (∀ a : Nat, a < 2 ^ 32 → Ieee.single.classify a = 2 ^ Ieee.single.classBit a ∧ Ieee.single.classBit a < 10 ∧
    (Ieee.single.classBit a = 0 ↔ a = 0xFF800000) ∧
    (Ieee.single.classBit a = 1 ↔ 0x80800000 ≤ a ∧ a ≤ 0xFF7FFFFF) ∧
    (Ieee.single.classBit a = 2 ↔ 0x80000001 ≤ a ∧ a ≤ 0x807FFFFF) ∧
    (Ieee.single.classBit a = 3 ↔ a = 0x80000000) ∧
    (Ieee.single.classBit a = 4 ↔ a = 0) ∧
    (Ieee.single.classBit a = 5 ↔ 1 ≤ a ∧ a ≤ 0x007FFFFF) ∧
    (Ieee.single.classBit a = 6 ↔ 0x00800000 ≤ a ∧ a ≤ 0x7F7FFFFF) ∧
    (Ieee.single.classBit a = 7 ↔ a = 0x7F800000) ∧
    (Ieee.single.classBit a = 8 ↔ (0x7F800001 ≤ a ∧ a ≤ 0x7FBFFFFF) ∨ (0xFF800001 ≤ a ∧ a ≤ 0xFFBFFFFF)) ∧
    (Ieee.single.classBit a = 9 ↔ (0x7FC00000 ≤ a ∧ a ≤ 0x7FFFFFFF) ∨ (0xFFC00000 ≤ a ∧ a ≤ 0xFFFFFFFF))) ∧
  ∀ a : Nat, a < 2 ^ 64 → Ieee.double.classify a = 2 ^ Ieee.double.classBit a ∧ Ieee.double.classBit a < 10 ∧
    (Ieee.double.classBit a = 0 ↔ a = 0xFFF0000000000000) ∧
    (Ieee.double.classBit a = 1 ↔ 0x8010000000000000 ≤ a ∧ a ≤ 0xFFEFFFFFFFFFFFFF) ∧
    (Ieee.double.classBit a = 2 ↔ 0x8000000000000001 ≤ a ∧ a ≤ 0x800FFFFFFFFFFFFF) ∧
    (Ieee.double.classBit a = 3 ↔ a = 0x8000000000000000) ∧
    (Ieee.double.classBit a = 4 ↔ a = 0) ∧
    (Ieee.double.classBit a = 5 ↔ 1 ≤ a ∧ a ≤ 0x000FFFFFFFFFFFFF) ∧
    (Ieee.double.classBit a = 6 ↔ 0x0010000000000000 ≤ a ∧ a ≤ 0x7FEFFFFFFFFFFFFF) ∧
    (Ieee.double.classBit a = 7 ↔ a = 0x7FF0000000000000) ∧
    (Ieee.double.classBit a = 8 ↔ (0x7FF0000000000001 ≤ a ∧ a ≤ 0x7FF7FFFFFFFFFFFF) ∨ (0xFFF0000000000001 ≤ a ∧ a ≤ 0xFFF7FFFFFFFFFFFF)) ∧
    (Ieee.double.classBit a = 9 ↔ (0x7FF8000000000000 ≤ a ∧ a ≤ 0x7FFFFFFFFFFFFFFF) ∨ (0xFFF8000000000000 ≤ a ∧ a ≤ 0xFFFFFFFFFFFFFFFF))

/-- FMIN and FMAX give the operand that is no NaN, and put -0 below +0. A conversion to an integer gives the largest value
and NV for a NaN, the end of its sign and NV for an infinity, and for a finite value the integer the mode rounds it to:
where that lies out of range the nearest end and NV, else that integer and NX where it is inexact. That no NX is raised
beside NV is log entry 12. -/
def Obligations.MinMaxAndSaturation : Prop :=
  ∀ F : Ieee.FFormat, F ∈ [Ieee.single, Ieee.double] →
    (∀ (larger : Bool) (a b : Nat), (F.unpack a).isNan = true → (F.unpack b).isNan = false →
      (F.minMax larger a b).bits = b ∧ (F.minMax larger b a).bits = b) ∧
    (∀ a b : Nat, a = F.signWeight → b = 0 → (F.minMax false a b).bits = a ∧ (F.minMax false b a).bits = a ∧
      (F.minMax true a b).bits = b ∧ (F.minMax true b a).bits = b) ∧
    ∀ (m : RoundingMode) (lo hi : Int) (a : Nat), lo ≤ hi →
      lo ≤ (F.toInt m lo hi a).1 ∧ (F.toInt m lo hi a).1 ≤ hi ∧
      ((F.unpack a).isNan = true → F.toInt m lo hi a = (hi, Ieee.NV)) ∧
      ((F.unpack a).HasPlace ⊥ → F.toInt m lo hi a = (lo, Ieee.NV)) ∧
      ((F.unpack a).HasPlace ⊤ → F.toInt m lo hi a = (hi, Ieee.NV)) ∧
      ∀ v : ℚ, (F.unpack a).HasValue v → ∃ z : Int, Ieee.RoundsToInt m v z ∧
        F.toInt m lo hi a = if z < lo then (lo, Ieee.NV) else if hi < z then (hi, Ieee.NV)
          else (z, if (z : ℚ) = v then 0 else Ieee.NX)

/-- Each of C.ADDI4SPN, C.NOP, C.ADDI, C.LI, C.ADDI16SP, C.LUI, C.SRLI, C.SRAI, C.ANDI, C.SUB, C.XOR, C.OR, C.AND, C.SLLI,
C.MV and C.ADD completes in every state with the result of its expansion; the pc advances by 2 and nothing else changes. -/
def Obligations.CompressedIntegerResults : Prop :=
  ∀ (s : State) (rd rs2 : Reg) (rd' rs2' : CReg) (n8 : BitVec 10) (imm : BitVec 6) (shamt : U5),
    CompletesInt (.cAddi4spn rd' n8) (CReg.toReg rd') (regU s 2 + n8.toNat) s ∧
    CompletesInt (.cNop imm) 0 0 s ∧
    CompletesInt (.cAddi rd imm) rd (regU s rd + imm.toInt) s ∧
    CompletesInt (.cLi rd imm) rd imm.toInt s ∧
    CompletesInt (.cAddi16sp n8) 2 (regU s 2 + n8.toInt) s ∧
    CompletesInt (.cLui rd imm) rd (imm.toInt * 4096) s ∧
    CompletesInt (.cSrli rd' shamt) (CReg.toReg rd') ((regU s (CReg.toReg rd') / 2 ^ shamt.toNat : Nat) : Int) s ∧
    CompletesInt (.cSrai rd' shamt) (CReg.toReg rd') (regS s (CReg.toReg rd') / 2 ^ shamt.toNat) s ∧
    CompletesInt (.cAndi rd' imm) (CReg.toReg rd') ((readX s (CReg.toReg rd') &&& imm.signExtend 64).toNat : Int) s ∧
    CompletesInt (.cSub rd' rs2') (CReg.toReg rd') (regU s (CReg.toReg rd') - regU s (CReg.toReg rs2')) s ∧
    CompletesInt (.cXor rd' rs2') (CReg.toReg rd') ((readX s (CReg.toReg rd') ^^^ readX s (CReg.toReg rs2')).toNat : Int) s ∧
    CompletesInt (.cOr rd' rs2') (CReg.toReg rd') ((readX s (CReg.toReg rd') ||| readX s (CReg.toReg rs2')).toNat : Int) s ∧
    CompletesInt (.cAnd rd' rs2') (CReg.toReg rd') ((readX s (CReg.toReg rd') &&& readX s (CReg.toReg rs2')).toNat : Int) s ∧
    CompletesInt (.cSlli rd shamt) rd (regU s rd * 2 ^ shamt.toNat) s ∧
    CompletesInt (.cMv rd rs2) rd (regU s rs2) s ∧
    CompletesInt (.cAdd rd rs2) rd (regU s rd + regU s rs2) s

/-- Where the access raises no exception and, for an FP register, the unit is on, each loads or stores a word, single or
double at its base register plus its unsigned offset; the pc advances by 2 and nothing else changes. -/
def Obligations.CompressedAccessesComplete : Prop :=
  ∀ (s : State) (r : Reg) (r' b' : CReg) (w : BitVec 7) (d w8 : BitVec 8) (d9 : BitVec 9),
    (AccessOk s .load (readX s (CReg.toReg b') + w.setWidth 64) 4 →
      CompletesInt (.cLw r' b' w) (CReg.toReg r') (twos 32 (loadNat s.xlen s.mem 4 (readX s (CReg.toReg b') + w.setWidth 64))) s ∧
      (s.fpOn = true →
        CompletesFp (.cFlw r' b' w) (CReg.toReg r') (BitVec.allOnes 32 ++ BitVec.ofNat 32 (loadNat s.xlen s.mem 4 (readX s (CReg.toReg b') + w.setWidth 64))) 0 s)) ∧
    (AccessOk s .load (readX s (CReg.toReg b') + d.setWidth 64) 8 → s.fpOn = true →
      CompletesFp (.cFld r' b' d) (CReg.toReg r') (BitVec.ofNat 64 (loadNat s.xlen s.mem 8 (readX s (CReg.toReg b') + d.setWidth 64))) 0 s) ∧
    (AccessOk s .load (readX s 2 + w8.setWidth 64) 4 →
      CompletesInt (.cLwsp r w8) r (twos 32 (loadNat s.xlen s.mem 4 (readX s 2 + w8.setWidth 64))) s ∧
      (s.fpOn = true →
        CompletesFp (.cFlwsp r w8) r (BitVec.allOnes 32 ++ BitVec.ofNat 32 (loadNat s.xlen s.mem 4 (readX s 2 + w8.setWidth 64))) 0 s)) ∧
    (AccessOk s .load (readX s 2 + d9.setWidth 64) 8 → s.fpOn = true →
      CompletesFp (.cFldsp r d9) r (BitVec.ofNat 64 (loadNat s.xlen s.mem 8 (readX s 2 + d9.setWidth 64))) 0 s) ∧
    (Memory.wf s.mem = true →
      (AccessOk s .store (readX s (CReg.toReg b') + w.setWidth 64) 4 →
        CompletesStore (.cSw r' b' w) (readX s (CReg.toReg b') + w.setWidth 64) 4 (regU s (CReg.toReg r')) s ∧
        (s.fpOn = true → CompletesStore (.cFsw r' b' w) (readX s (CReg.toReg b') + w.setWidth 64) 4 (readF s (CReg.toReg r')).toNat s)) ∧
      (AccessOk s .store (readX s (CReg.toReg b') + d.setWidth 64) 8 → s.fpOn = true → CompletesStore (.cFsd r' b' d) (readX s (CReg.toReg b') + d.setWidth 64) 8 (readF s (CReg.toReg r')).toNat s) ∧
      (AccessOk s .store (readX s 2 + w8.setWidth 64) 4 →
        CompletesStore (.cSwsp r w8) (readX s 2 + w8.setWidth 64) 4 (regU s r) s ∧
        (s.fpOn = true → CompletesStore (.cFswsp r w8) (readX s 2 + w8.setWidth 64) 4 (readF s r).toNat s)) ∧
      (AccessOk s .store (readX s 2 + d9.setWidth 64) 8 → s.fpOn = true → CompletesStore (.cFsdsp r d9) (readX s 2 + d9.setWidth 64) 8 (readF s r).toNat s))

/-- Each transfers control as its expansion does; C.JAL and C.JALR put the address of the next instruction, pc + 2, in ra
(log entry 13), and nothing else changes. -/
def Obligations.CompressedTransfersComplete : Prop :=
  ∀ (s : State) (rs1 : Reg) (r' : CReg) (j : BitVec 12) (b : BitVec 9),
    CompletesJump (.cJ j) 0 (s.pc.toNat + j.toInt) s ∧
    CompletesJump (.cJal j) 1 (s.pc.toNat + j.toInt) s ∧
    CompletesJump (.cJr rs1) 0 ((regU s rs1 / 2 * 2 : Nat) : Int) s ∧
    CompletesJump (.cJalr rs1) 1 ((regU s rs1 / 2 * 2 : Nat) : Int) s ∧
    CompletesBranch (.cBeqz r' b) (regU s (CReg.toReg r') = 0) (s.pc.toNat + b.toInt) s ∧
    CompletesBranch (.cBnez r' b) (regU s (CReg.toReg r') ≠ 0) (s.pc.toNat + b.toInt) s
end

