-- ==== Sys2Proof/Laws/State.lean ====
section
/-! SUPPORT. One lemma for each field under each update: what the update leaves as it was, and what it writes. -/

namespace Sys2Proof.Machine

@[simp] theorem writeX_cfg (s : State) (r : Reg) (v : XWord) : (writeX s r v).cfg = s.cfg := by
  unfold writeX; split <;> rfl
@[simp] theorem writeX_xlen (s : State) (r : Reg) (v : XWord) : (writeX s r v).xlen = s.xlen := by
  unfold writeX; split <;> rfl
@[simp] theorem writeX_word (s : State) (r : Reg) (v : XWord) : (writeX s r v).word = s.word := by
  unfold writeX; split <;> rfl
@[simp] theorem writeX_result (s : State) (r : Reg) (v : XWord) : (writeX s r v).result = s.result := by
  unfold writeX; split <;> rfl
@[simp] theorem writeX_text (s : State) (r : Reg) (v : XWord) : (writeX s r v).text = s.text := by
  unfold writeX; split <;> rfl
@[simp] theorem writeX_pc (s : State) (r : Reg) (v : XWord) : (writeX s r v).pc = s.pc := by
  unfold writeX; split <;> rfl
@[simp] theorem writeX_f (s : State) (r : Reg) (v : XWord) : (writeX s r v).f = s.f := by
  unfold writeX; split <;> rfl
@[simp] theorem writeX_fflags (s : State) (r : Reg) (v : XWord) : (writeX s r v).fflags = s.fflags := by
  unfold writeX; split <;> rfl
@[simp] theorem writeX_frm (s : State) (r : Reg) (v : XWord) : (writeX s r v).frm = s.frm := by
  unfold writeX; split <;> rfl
@[simp] theorem writeX_csrs (s : State) (r : Reg) (v : XWord) : (writeX s r v).csrs = s.csrs := by
  unfold writeX; split <;> rfl
@[simp] theorem writeX_mode (s : State) (r : Reg) (v : XWord) : (writeX s r v).mode = s.mode := by
  unfold writeX; split <;> rfl
@[simp] theorem writeX_fpOn (s : State) (r : Reg) (v : XWord) : (writeX s r v).fpOn = s.fpOn := by
  unfold writeX; split <;> rfl
@[simp] theorem writeX_reservations (s : State) (r : Reg) (v : XWord) : (writeX s r v).reservations = s.reservations := by
  unfold writeX; split <;> rfl
@[simp] theorem writeX_mem (s : State) (r : Reg) (v : XWord) : (writeX s r v).mem = s.mem := by
  unfold writeX; split <;> rfl
@[simp] theorem writeX_imem (s : State) (r : Reg) (v : XWord) : (writeX s r v).imem = s.imem := by
  unfold writeX; split <;> rfl
@[simp] theorem writeX_tick (s : State) (r : Reg) (v : XWord) : (writeX s r v).tick = s.tick := by
  unfold writeX; split <;> rfl

@[simp] theorem writeF_cfg (s : State) (r : Reg) (v : FWord) : (writeF s r v).cfg = s.cfg := rfl
@[simp] theorem writeF_xlen (s : State) (r : Reg) (v : FWord) : (writeF s r v).xlen = s.xlen := rfl
@[simp] theorem writeF_word (s : State) (r : Reg) (v : FWord) : (writeF s r v).word = s.word := rfl
@[simp] theorem writeF_result (s : State) (r : Reg) (v : FWord) : (writeF s r v).result = s.result := rfl
@[simp] theorem writeF_text (s : State) (r : Reg) (v : FWord) : (writeF s r v).text = s.text := rfl
@[simp] theorem writeF_pc (s : State) (r : Reg) (v : FWord) : (writeF s r v).pc = s.pc := rfl
@[simp] theorem writeF_x (s : State) (r : Reg) (v : FWord) : (writeF s r v).x = s.x := rfl
@[simp] theorem writeF_fflags (s : State) (r : Reg) (v : FWord) : (writeF s r v).fflags = s.fflags := rfl
@[simp] theorem writeF_frm (s : State) (r : Reg) (v : FWord) : (writeF s r v).frm = s.frm := rfl
@[simp] theorem writeF_csrs (s : State) (r : Reg) (v : FWord) : (writeF s r v).csrs = s.csrs := rfl
@[simp] theorem writeF_mode (s : State) (r : Reg) (v : FWord) : (writeF s r v).mode = s.mode := rfl
@[simp] theorem writeF_fpOn (s : State) (r : Reg) (v : FWord) : (writeF s r v).fpOn = s.fpOn := rfl
@[simp] theorem writeF_reservations (s : State) (r : Reg) (v : FWord) : (writeF s r v).reservations = s.reservations := rfl
@[simp] theorem writeF_mem (s : State) (r : Reg) (v : FWord) : (writeF s r v).mem = s.mem := rfl
@[simp] theorem writeF_imem (s : State) (r : Reg) (v : FWord) : (writeF s r v).imem = s.imem := rfl
@[simp] theorem writeF_tick (s : State) (r : Reg) (v : FWord) : (writeF s r v).tick = s.tick := rfl

@[simp] theorem writeFp_cfg (s : State) (p : Fmt) (r : Reg) (v : Nat) : (writeFp s p r v).cfg = s.cfg := by
  cases p <;> rfl
@[simp] theorem writeFp_xlen (s : State) (p : Fmt) (r : Reg) (v : Nat) : (writeFp s p r v).xlen = s.xlen := by
  cases p <;> rfl
@[simp] theorem writeFp_word (s : State) (p : Fmt) (r : Reg) (v : Nat) : (writeFp s p r v).word = s.word := by
  cases p <;> rfl
@[simp] theorem writeFp_result (s : State) (p : Fmt) (r : Reg) (v : Nat) : (writeFp s p r v).result = s.result := by
  cases p <;> rfl
@[simp] theorem writeFp_text (s : State) (p : Fmt) (r : Reg) (v : Nat) : (writeFp s p r v).text = s.text := by
  cases p <;> rfl
@[simp] theorem writeFp_pc (s : State) (p : Fmt) (r : Reg) (v : Nat) : (writeFp s p r v).pc = s.pc := by
  cases p <;> rfl
@[simp] theorem writeFp_x (s : State) (p : Fmt) (r : Reg) (v : Nat) : (writeFp s p r v).x = s.x := by
  cases p <;> rfl
@[simp] theorem writeFp_fflags (s : State) (p : Fmt) (r : Reg) (v : Nat) : (writeFp s p r v).fflags = s.fflags := by
  cases p <;> rfl
@[simp] theorem writeFp_frm (s : State) (p : Fmt) (r : Reg) (v : Nat) : (writeFp s p r v).frm = s.frm := by
  cases p <;> rfl
@[simp] theorem writeFp_csrs (s : State) (p : Fmt) (r : Reg) (v : Nat) : (writeFp s p r v).csrs = s.csrs := by
  cases p <;> rfl
@[simp] theorem writeFp_mode (s : State) (p : Fmt) (r : Reg) (v : Nat) : (writeFp s p r v).mode = s.mode := by
  cases p <;> rfl
@[simp] theorem writeFp_fpOn (s : State) (p : Fmt) (r : Reg) (v : Nat) : (writeFp s p r v).fpOn = s.fpOn := by
  cases p <;> rfl
@[simp] theorem writeFp_reservations (s : State) (p : Fmt) (r : Reg) (v : Nat) : (writeFp s p r v).reservations = s.reservations := by
  cases p <;> rfl
@[simp] theorem writeFp_mem (s : State) (p : Fmt) (r : Reg) (v : Nat) : (writeFp s p r v).mem = s.mem := by
  cases p <;> rfl
@[simp] theorem writeFp_imem (s : State) (p : Fmt) (r : Reg) (v : Nat) : (writeFp s p r v).imem = s.imem := by
  cases p <;> rfl
@[simp] theorem writeFp_tick (s : State) (p : Fmt) (r : Reg) (v : Nat) : (writeFp s p r v).tick = s.tick := by
  cases p <;> rfl

@[simp] theorem accrue_cfg (s : State) (e : BitVec 5) : (accrue s e).cfg = s.cfg := rfl
@[simp] theorem accrue_xlen (s : State) (e : BitVec 5) : (accrue s e).xlen = s.xlen := rfl
@[simp] theorem accrue_word (s : State) (e : BitVec 5) : (accrue s e).word = s.word := rfl
@[simp] theorem accrue_result (s : State) (e : BitVec 5) : (accrue s e).result = s.result := rfl
@[simp] theorem accrue_text (s : State) (e : BitVec 5) : (accrue s e).text = s.text := rfl
@[simp] theorem accrue_pc (s : State) (e : BitVec 5) : (accrue s e).pc = s.pc := rfl
@[simp] theorem accrue_x (s : State) (e : BitVec 5) : (accrue s e).x = s.x := rfl
@[simp] theorem accrue_f (s : State) (e : BitVec 5) : (accrue s e).f = s.f := rfl
@[simp] theorem accrue_frm (s : State) (e : BitVec 5) : (accrue s e).frm = s.frm := rfl
@[simp] theorem accrue_csrs (s : State) (e : BitVec 5) : (accrue s e).csrs = s.csrs := rfl
@[simp] theorem accrue_mode (s : State) (e : BitVec 5) : (accrue s e).mode = s.mode := rfl
@[simp] theorem accrue_fpOn (s : State) (e : BitVec 5) : (accrue s e).fpOn = s.fpOn := rfl
@[simp] theorem accrue_reservations (s : State) (e : BitVec 5) : (accrue s e).reservations = s.reservations := rfl
@[simp] theorem accrue_mem (s : State) (e : BitVec 5) : (accrue s e).mem = s.mem := rfl
@[simp] theorem accrue_imem (s : State) (e : BitVec 5) : (accrue s e).imem = s.imem := rfl
@[simp] theorem accrue_tick (s : State) (e : BitVec 5) : (accrue s e).tick = s.tick := rfl

@[simp] theorem storeMem_cfg (s : State) (a : XWord) (n v : Nat) : (storeMem s a n v).cfg = s.cfg := rfl
@[simp] theorem storeMem_xlen (s : State) (a : XWord) (n v : Nat) : (storeMem s a n v).xlen = s.xlen := rfl
@[simp] theorem storeMem_word (s : State) (a : XWord) (n v : Nat) : (storeMem s a n v).word = s.word := rfl
@[simp] theorem storeMem_result (s : State) (a : XWord) (n v : Nat) : (storeMem s a n v).result = s.result := rfl
@[simp] theorem storeMem_text (s : State) (a : XWord) (n v : Nat) : (storeMem s a n v).text = s.text := rfl
@[simp] theorem storeMem_pc (s : State) (a : XWord) (n v : Nat) : (storeMem s a n v).pc = s.pc := rfl
@[simp] theorem storeMem_x (s : State) (a : XWord) (n v : Nat) : (storeMem s a n v).x = s.x := rfl
@[simp] theorem storeMem_f (s : State) (a : XWord) (n v : Nat) : (storeMem s a n v).f = s.f := rfl
@[simp] theorem storeMem_fflags (s : State) (a : XWord) (n v : Nat) : (storeMem s a n v).fflags = s.fflags := rfl
@[simp] theorem storeMem_frm (s : State) (a : XWord) (n v : Nat) : (storeMem s a n v).frm = s.frm := rfl
@[simp] theorem storeMem_csrs (s : State) (a : XWord) (n v : Nat) : (storeMem s a n v).csrs = s.csrs := rfl
@[simp] theorem storeMem_mode (s : State) (a : XWord) (n v : Nat) : (storeMem s a n v).mode = s.mode := rfl
@[simp] theorem storeMem_fpOn (s : State) (a : XWord) (n v : Nat) : (storeMem s a n v).fpOn = s.fpOn := rfl
@[simp] theorem storeMem_reservations (s : State) (a : XWord) (n v : Nat) : (storeMem s a n v).reservations = s.reservations := rfl
@[simp] theorem storeMem_imem (s : State) (a : XWord) (n v : Nat) : (storeMem s a n v).imem = s.imem := rfl
@[simp] theorem storeMem_tick (s : State) (a : XWord) (n v : Nat) : (storeMem s a n v).tick = s.tick := rfl

@[simp] theorem csrFileSet_cfg (s : State) (a : Nat) (v : XWord) : (csrFileSet s a v).cfg = s.cfg := rfl
@[simp] theorem csrFileSet_xlen (s : State) (a : Nat) (v : XWord) : (csrFileSet s a v).xlen = s.xlen := rfl
@[simp] theorem csrFileSet_word (s : State) (a : Nat) (v : XWord) : (csrFileSet s a v).word = s.word := rfl
@[simp] theorem csrFileSet_result (s : State) (a : Nat) (v : XWord) : (csrFileSet s a v).result = s.result := rfl
@[simp] theorem csrFileSet_text (s : State) (a : Nat) (v : XWord) : (csrFileSet s a v).text = s.text := rfl
@[simp] theorem csrFileSet_pc (s : State) (a : Nat) (v : XWord) : (csrFileSet s a v).pc = s.pc := rfl
@[simp] theorem csrFileSet_x (s : State) (a : Nat) (v : XWord) : (csrFileSet s a v).x = s.x := rfl
@[simp] theorem csrFileSet_f (s : State) (a : Nat) (v : XWord) : (csrFileSet s a v).f = s.f := rfl
@[simp] theorem csrFileSet_fflags (s : State) (a : Nat) (v : XWord) : (csrFileSet s a v).fflags = s.fflags := rfl
@[simp] theorem csrFileSet_frm (s : State) (a : Nat) (v : XWord) : (csrFileSet s a v).frm = s.frm := rfl
@[simp] theorem csrFileSet_mode (s : State) (a : Nat) (v : XWord) : (csrFileSet s a v).mode = s.mode := rfl
@[simp] theorem csrFileSet_fpOn (s : State) (a : Nat) (v : XWord) : (csrFileSet s a v).fpOn = s.fpOn := rfl
@[simp] theorem csrFileSet_reservations (s : State) (a : Nat) (v : XWord) : (csrFileSet s a v).reservations = s.reservations := rfl
@[simp] theorem csrFileSet_mem (s : State) (a : Nat) (v : XWord) : (csrFileSet s a v).mem = s.mem := rfl
@[simp] theorem csrFileSet_imem (s : State) (a : Nat) (v : XWord) : (csrFileSet s a v).imem = s.imem := rfl
@[simp] theorem csrFileSet_tick (s : State) (a : Nat) (v : XWord) : (csrFileSet s a v).tick = s.tick := rfl

@[simp] theorem csrWrite_cfg (s : State) (c : Csr) (v : XWord) : (csrWrite s c v).cfg = s.cfg := by
  unfold csrWrite; repeat (first | rfl | split)
@[simp] theorem csrWrite_xlen (s : State) (c : Csr) (v : XWord) : (csrWrite s c v).xlen = s.xlen := by
  unfold csrWrite; repeat (first | rfl | split)
@[simp] theorem csrWrite_word (s : State) (c : Csr) (v : XWord) : (csrWrite s c v).word = s.word := by
  unfold csrWrite; repeat (first | rfl | split)
@[simp] theorem csrWrite_result (s : State) (c : Csr) (v : XWord) : (csrWrite s c v).result = s.result := by
  unfold csrWrite; repeat (first | rfl | split)
@[simp] theorem csrWrite_text (s : State) (c : Csr) (v : XWord) : (csrWrite s c v).text = s.text := by
  unfold csrWrite; repeat (first | rfl | split)
@[simp] theorem csrWrite_pc (s : State) (c : Csr) (v : XWord) : (csrWrite s c v).pc = s.pc := by
  unfold csrWrite; repeat (first | rfl | split)
@[simp] theorem csrWrite_x (s : State) (c : Csr) (v : XWord) : (csrWrite s c v).x = s.x := by
  unfold csrWrite; repeat (first | rfl | split)
@[simp] theorem csrWrite_f (s : State) (c : Csr) (v : XWord) : (csrWrite s c v).f = s.f := by
  unfold csrWrite; repeat (first | rfl | split)
@[simp] theorem csrWrite_mode (s : State) (c : Csr) (v : XWord) : (csrWrite s c v).mode = s.mode := by
  unfold csrWrite; repeat (first | rfl | split)
@[simp] theorem csrWrite_fpOn (s : State) (c : Csr) (v : XWord) : (csrWrite s c v).fpOn = s.fpOn := by
  unfold csrWrite; repeat (first | rfl | split)
@[simp] theorem csrWrite_reservations (s : State) (c : Csr) (v : XWord) : (csrWrite s c v).reservations = s.reservations := by
  unfold csrWrite; repeat (first | rfl | split)
@[simp] theorem csrWrite_mem (s : State) (c : Csr) (v : XWord) : (csrWrite s c v).mem = s.mem := by
  unfold csrWrite; repeat (first | rfl | split)
@[simp] theorem csrWrite_imem (s : State) (c : Csr) (v : XWord) : (csrWrite s c v).imem = s.imem := by
  unfold csrWrite; repeat (first | rfl | split)
@[simp] theorem csrWrite_tick (s : State) (c : Csr) (v : XWord) : (csrWrite s c v).tick = s.tick := by
  unfold csrWrite; repeat (first | rfl | split)

@[simp] theorem emit_cfg (i : Instr) (s : State) : (emit i s).cfg = s.cfg := rfl
@[simp] theorem emit_xlen (i : Instr) (s : State) : (emit i s).xlen = s.xlen := rfl
@[simp] theorem emit_word (i : Instr) (s : State) : (emit i s).word = s.word := rfl
@[simp] theorem emit_pc (i : Instr) (s : State) : (emit i s).pc = s.pc := rfl
@[simp] theorem emit_x (i : Instr) (s : State) : (emit i s).x = s.x := rfl
@[simp] theorem emit_f (i : Instr) (s : State) : (emit i s).f = s.f := rfl
@[simp] theorem emit_fflags (i : Instr) (s : State) : (emit i s).fflags = s.fflags := rfl
@[simp] theorem emit_frm (i : Instr) (s : State) : (emit i s).frm = s.frm := rfl
@[simp] theorem emit_csrs (i : Instr) (s : State) : (emit i s).csrs = s.csrs := rfl
@[simp] theorem emit_mode (i : Instr) (s : State) : (emit i s).mode = s.mode := rfl
@[simp] theorem emit_fpOn (i : Instr) (s : State) : (emit i s).fpOn = s.fpOn := rfl
@[simp] theorem emit_reservations (i : Instr) (s : State) : (emit i s).reservations = s.reservations := rfl
@[simp] theorem emit_mem (i : Instr) (s : State) : (emit i s).mem = s.mem := rfl
@[simp] theorem emit_imem (i : Instr) (s : State) : (emit i s).imem = s.imem := rfl
@[simp] theorem emit_tick (i : Instr) (s : State) : (emit i s).tick = s.tick := rfl

@[simp] theorem reserve_cfg (s : State) (a : XWord) : (reserve s a).cfg = s.cfg := rfl
@[simp] theorem reserve_xlen (s : State) (a : XWord) : (reserve s a).xlen = s.xlen := rfl
@[simp] theorem reserve_word (s : State) (a : XWord) : (reserve s a).word = s.word := rfl
@[simp] theorem reserve_result (s : State) (a : XWord) : (reserve s a).result = s.result := rfl
@[simp] theorem reserve_text (s : State) (a : XWord) : (reserve s a).text = s.text := rfl
@[simp] theorem reserve_pc (s : State) (a : XWord) : (reserve s a).pc = s.pc := rfl
@[simp] theorem reserve_x (s : State) (a : XWord) : (reserve s a).x = s.x := rfl
@[simp] theorem reserve_f (s : State) (a : XWord) : (reserve s a).f = s.f := rfl
@[simp] theorem reserve_fflags (s : State) (a : XWord) : (reserve s a).fflags = s.fflags := rfl
@[simp] theorem reserve_frm (s : State) (a : XWord) : (reserve s a).frm = s.frm := rfl
@[simp] theorem reserve_csrs (s : State) (a : XWord) : (reserve s a).csrs = s.csrs := rfl
@[simp] theorem reserve_mode (s : State) (a : XWord) : (reserve s a).mode = s.mode := rfl
@[simp] theorem reserve_fpOn (s : State) (a : XWord) : (reserve s a).fpOn = s.fpOn := rfl
@[simp] theorem reserve_mem (s : State) (a : XWord) : (reserve s a).mem = s.mem := rfl
@[simp] theorem reserve_imem (s : State) (a : XWord) : (reserve s a).imem = s.imem := rfl
@[simp] theorem reserve_tick (s : State) (a : XWord) : (reserve s a).tick = s.tick := rfl

@[simp] theorem release_cfg (s : State) : (release s).cfg = s.cfg := rfl
@[simp] theorem release_xlen (s : State) : (release s).xlen = s.xlen := rfl
@[simp] theorem release_word (s : State) : (release s).word = s.word := rfl
@[simp] theorem release_result (s : State) : (release s).result = s.result := rfl
@[simp] theorem release_text (s : State) : (release s).text = s.text := rfl
@[simp] theorem release_pc (s : State) : (release s).pc = s.pc := rfl
@[simp] theorem release_x (s : State) : (release s).x = s.x := rfl
@[simp] theorem release_f (s : State) : (release s).f = s.f := rfl
@[simp] theorem release_fflags (s : State) : (release s).fflags = s.fflags := rfl
@[simp] theorem release_frm (s : State) : (release s).frm = s.frm := rfl
@[simp] theorem release_csrs (s : State) : (release s).csrs = s.csrs := rfl
@[simp] theorem release_mode (s : State) : (release s).mode = s.mode := rfl
@[simp] theorem release_fpOn (s : State) : (release s).fpOn = s.fpOn := rfl
@[simp] theorem release_mem (s : State) : (release s).mem = s.mem := rfl
@[simp] theorem release_imem (s : State) : (release s).imem = s.imem := rfl
@[simp] theorem release_tick (s : State) : (release s).tick = s.tick := rfl

@[simp] theorem takeException_cfg (s : State) (code : Nat) (tval : XWord) : (takeException s code tval).cfg = s.cfg := rfl
@[simp] theorem takeException_xlen (s : State) (code : Nat) (tval : XWord) : (takeException s code tval).xlen = s.xlen := rfl
@[simp] theorem takeException_word (s : State) (code : Nat) (tval : XWord) : (takeException s code tval).word = s.word := rfl
@[simp] theorem takeException_result (s : State) (code : Nat) (tval : XWord) : (takeException s code tval).result = s.result := rfl
@[simp] theorem takeException_text (s : State) (code : Nat) (tval : XWord) : (takeException s code tval).text = s.text := rfl
@[simp] theorem takeException_x (s : State) (code : Nat) (tval : XWord) : (takeException s code tval).x = s.x := rfl
@[simp] theorem takeException_f (s : State) (code : Nat) (tval : XWord) : (takeException s code tval).f = s.f := rfl
@[simp] theorem takeException_fflags (s : State) (code : Nat) (tval : XWord) : (takeException s code tval).fflags = s.fflags := rfl
@[simp] theorem takeException_frm (s : State) (code : Nat) (tval : XWord) : (takeException s code tval).frm = s.frm := rfl
@[simp] theorem takeException_fpOn (s : State) (code : Nat) (tval : XWord) : (takeException s code tval).fpOn = s.fpOn := rfl
@[simp] theorem takeException_mem (s : State) (code : Nat) (tval : XWord) : (takeException s code tval).mem = s.mem := rfl
@[simp] theorem takeException_imem (s : State) (code : Nat) (tval : XWord) : (takeException s code tval).imem = s.imem := rfl
@[simp] theorem takeException_tick (s : State) (code : Nat) (tval : XWord) : (takeException s code tval).tick = s.tick := rfl

@[simp] theorem present_cfg (s : State) : (present s).cfg = s.cfg := rfl
@[simp] theorem present_xlen (s : State) : (present s).xlen = s.xlen := rfl
@[simp] theorem present_result (s : State) : (present s).result = s.result := rfl
@[simp] theorem present_text (s : State) : (present s).text = s.text := rfl
@[simp] theorem present_pc (s : State) : (present s).pc = s.pc := rfl
@[simp] theorem present_x (s : State) : (present s).x = s.x := rfl
@[simp] theorem present_f (s : State) : (present s).f = s.f := rfl
@[simp] theorem present_fflags (s : State) : (present s).fflags = s.fflags := rfl
@[simp] theorem present_frm (s : State) : (present s).frm = s.frm := rfl
@[simp] theorem present_csrs (s : State) : (present s).csrs = s.csrs := rfl
@[simp] theorem present_mode (s : State) : (present s).mode = s.mode := rfl
@[simp] theorem present_fpOn (s : State) : (present s).fpOn = s.fpOn := rfl
@[simp] theorem present_reservations (s : State) : (present s).reservations = s.reservations := rfl
@[simp] theorem present_mem (s : State) : (present s).mem = s.mem := rfl
@[simp] theorem present_imem (s : State) : (present s).imem = s.imem := rfl

@[simp] theorem accrue_fflags (s : State) (e : BitVec 5) : (accrue s e).fflags = s.fflags ||| e := rfl
@[simp] theorem emit_result (i : Instr) (s : State) : (emit i s).result = some (.ok i.record i.compressed) := rfl
@[simp] theorem emit_text (i : Instr) (s : State) : (emit i s).text = format s.cfg.csrNames i.record := rfl
@[simp] theorem release_reservations (s : State) : (release s).reservations = [] := rfl
@[simp] theorem takeException_mode (s : State) (code : Nat) (tval : XWord) : (takeException s code tval).mode = .m := rfl
@[simp] theorem takeException_pc (s : State) (code : Nat) (tval : XWord) :
    (takeException s code tval).pc = narrow s.xlen (csrFileGet s 0x305 &&& ~~~(3#64)) := rfl
@[simp] theorem takeException_reservations (s : State) (code : Nat) (tval : XWord) :
    (takeException s code tval).reservations = if s.cfg.trapKeepsReservation then s.reservations else [] := rfl
@[simp] theorem storeMem_mem (s : State) (a : XWord) (n v : Nat) :
    (storeMem s a n v).mem = storeNat s.xlen s.mem n a v := rfl
@[simp] theorem present_word (s : State) : (present s).word = fetchWord s := rfl
@[simp] theorem present_tick (s : State) : (present s).tick = s.tick + 1 := rfl

end Sys2Proof.Machine
end

