-- ==== Sys2Proof/Laws/Storage.lean ====
section
/-! SUPPORT. Sparse storage and memory: read after write, the canonical form, and the address space. -/

namespace Sys2Proof.Machine

section Sparse

variable {α : Type} [DecidableEq α] (d : α)

theorem cellGet_of_above {l : List (Nat × α)} {k : Nat} (h : cellsAbove d (some k) l = true) {a : Nat} (ha : a ≤ k) :
    cellGet d l a = d := by
  induction l generalizing k with
  | nil => rfl
  | cons c rest ih =>
    simp only [cellsAbove, Option.all_some, Bool.and_eq_true, decide_eq_true_eq] at h
    have hne : c.1 ≠ a := by omega
    simp only [cellGet, hne, if_false]
    exact ih h.2 (by omega)

theorem cellGet_cellSet_same (l : List (Nat × α)) (lo : Option Nat) (h : cellsAbove d lo l = true) (a : Nat) (v : α) :
    cellGet d (cellSet d l a v) a = v := by
  induction l generalizing lo with
  | nil =>
    by_cases hv : v = d <;> simp [cellSet, cellGet, hv]
  | cons c rest ih =>
    simp only [cellsAbove, Bool.and_eq_true] at h
    by_cases h1 : a < c.1
    · by_cases hv : v = d
      · subst hv
        have hne : c.1 ≠ a := by omega
        simp only [cellSet, h1, if_true, cellGet, hne, if_false]
        exact cellGet_of_above v h.2 (by omega)
      · simp [cellSet, h1, hv, cellGet]
    · by_cases h2 : a = c.1
      · subst h2
        by_cases hv : v = d
        · subst hv
          simp only [cellSet, Nat.lt_irrefl, if_false, if_true]
          exact cellGet_of_above v h.2 (Nat.le_refl _)
        · simp [cellSet, hv, cellGet]
      · have h3 : ¬c.1 = a := fun e => h2 e.symm
        simp only [cellSet, h1, if_false, h2, cellGet, h3]
        exact ih _ h.2

theorem cellGet_cellSet_other (l : List (Nat × α)) (a b : Nat) (v : α) (hab : b ≠ a) :
    cellGet d (cellSet d l a v) b = cellGet d l b := by
  induction l with
  | nil =>
    by_cases hv : v = d <;> simp [cellSet, cellGet, hv, hab.symm]
  | cons c rest ih =>
    by_cases h1 : a < c.1
    · by_cases hv : v = d <;> simp [cellSet, h1, hv, cellGet, hab.symm]
    · by_cases h2 : a = c.1
      · subst h2
        by_cases hv : v = d <;> simp [cellSet, hv, cellGet, hab.symm]
      · simp [cellSet, h1, h2, cellGet, ih]

theorem cellsAbove_mono {l : List (Nat × α)} {lo lo' : Option Nat} (h : cellsAbove d lo l = true)
    (hle : ∀ c ∈ l.head?, lo'.all (· < c.1) = true) : cellsAbove d lo' l = true := by
  cases l with
  | nil => rfl
  | cons c rest =>
    simp only [cellsAbove, Bool.and_eq_true] at h ⊢
    exact ⟨⟨hle c rfl, h.1.2⟩, h.2⟩

theorem cellsAbove_cellSet {l : List (Nat × α)} {lo : Option Nat} (h : cellsAbove d lo l = true) {a : Nat}
    (ha : lo.all (· < a) = true) (v : α) : cellsAbove d lo (cellSet d l a v) = true := by
  induction l generalizing lo with
  | nil =>
    by_cases hv : v = d
    · simp [cellSet, hv, cellsAbove]
    · simp [cellSet, hv, cellsAbove, ha]
  | cons c rest ih =>
    obtain ⟨⟨h0, h0'⟩, h0''⟩ : (lo.all (· < c.1) = true ∧ (c.2 != d) = true) ∧ cellsAbove d (some c.1) rest = true := by
      simpa only [cellsAbove, Bool.and_eq_true] using h
    by_cases h1 : a < c.1
    · by_cases hv : v = d
      · simpa [cellSet, h1, hv] using h
      · simp only [cellSet, h1, hv, if_true, if_false, cellsAbove, Bool.and_eq_true, Option.all_some, decide_eq_true_eq]
        exact ⟨⟨ha, by simpa using hv⟩, ⟨trivial, h0'⟩, h0''⟩
    · by_cases h2 : a = c.1
      · subst h2
        by_cases hv : v = d
        · simp only [cellSet, Nat.lt_irrefl, hv, if_true, if_false]
          refine cellsAbove_mono d h0'' fun e he => ?_
          cases rest with
          | nil => cases he
          | cons e' rest' =>
            obtain rfl : e' = e := by simpa using he
            simp only [cellsAbove, Option.all_some, Bool.and_eq_true, decide_eq_true_eq] at h0''
            cases lo with
            | none => rfl
            | some k => simp at h0 ⊢; omega
        · simp only [cellSet, Nat.lt_irrefl, hv, if_true, if_false, cellsAbove, Bool.and_eq_true]
          exact ⟨⟨h0, by simpa using hv⟩, h0''⟩
      · simp only [cellSet, h1, h2, if_false, cellsAbove, Bool.and_eq_true]
        refine ⟨⟨h0, h0'⟩, ih h0'' ?_⟩
        simp; omega

/-- A write keeps the canonical form. -/
theorem cellsWf_cellSet {l : List (Nat × α)} (h : cellsWf d l = true) (a : Nat) (v : α) :
    cellsWf d (cellSet d l a v) = true := cellsAbove_cellSet d h rfl v

/-- Read after write, in canonical form. -/
theorem cellGet_cellSet {l : List (Nat × α)} (h : cellsWf d l = true) (a b : Nat) (v : α) :
    cellGet d (cellSet d l a v) b = if b = a then v else cellGet d l b := by
  by_cases hb : b = a
  · subst hb; simp [cellGet_cellSet_same d l none h]
  · simp [hb, cellGet_cellSet_other d l a b v hb]

/-- Every entry after a write is an old one or the new one. -/
theorem mem_cellSet {l : List (Nat × α)} {a : Nat} {v : α} {c : Nat × α} (h : c ∈ cellSet d l a v) :
    c ∈ l ∨ c = (a, v) := by
  induction l with
  | nil =>
    by_cases hv : v = d
    · simp [cellSet, hv] at h
    · simp only [cellSet, hv, if_false, List.mem_singleton] at h; exact .inr h
  | cons e rest ih =>
    by_cases h1 : a < e.1
    · by_cases hv : v = d
      · left; simpa [cellSet, h1, hv] using h
      · simp only [cellSet, h1, hv, if_true, if_false, List.mem_cons] at h
        rcases h with h | h | h
        · exact .inr h
        · exact .inl (by simp [h])
        · exact .inl (by simp [h])
    · by_cases h2 : a = e.1
      · subst h2
        by_cases hv : v = d
        · simp only [cellSet, Nat.lt_irrefl, hv, if_true, if_false] at h; exact .inl (by simp [h])
        · simp only [cellSet, Nat.lt_irrefl, hv, if_true, if_false, List.mem_cons] at h
          rcases h with h | h
          · exact .inr h
          · exact .inl (by simp [h])
      · simp only [cellSet, h1, h2, if_false, List.mem_cons] at h
        rcases h with h | h
        · exact .inl (by simp [h])
        · rcases ih h with h | h
          · exact .inl (by simp [h])
          · exact .inr h

end Sparse

/-! ### Memory -/

theorem Memory.wf_setByte {m : List Host.Cell} (h : Memory.wf m = true) (a : Nat) (b : Byte) :
    Memory.wf (setByte m a b) = true := cellsWf_cellSet _ h a b

theorem byteAt_setByte {m : List Host.Cell} (h : Memory.wf m = true) (a k : Nat) (b : Byte) :
    byteAt (setByte m a b) k = if k = a then b else byteAt m k := cellGet_cellSet _ h a k b

theorem byteAt_setByte_other (m : List Host.Cell) (a k : Nat) (b : Byte) (hk : k ≠ a) :
    byteAt (setByte m a b) k = byteAt m k := cellGet_cellSet_other _ m a k b hk

/-- Every memory operation keeps the canonical form. -/
theorem Memory.wf_storeNat (x : Xlen) {m : List Host.Cell} (h : Memory.wf m = true) (n : Nat) (a : XWord) (v : Nat) :
    Memory.wf (storeNat x m n a v) = true := by
  induction n generalizing m a v with
  | zero => exact h
  | succ n ih => exact ih (Memory.wf_setByte h _ _) _ _

/-- A store leaves every byte outside it as it was. -/
theorem byteAt_storeNat_other (x : Xlen) (m : List Host.Cell) (n : Nat) (a : XWord) (v k : Nat)
    (h : inAccess x a n k = false) : byteAt (storeNat x m n a v) k = byteAt m k := by
  induction n generalizing m a v with
  | zero => rfl
  | succ n ih =>
    simp only [inAccess, Bool.or_eq_false_iff, beq_eq_false_iff_ne] at h
    rw [storeNat, ih _ _ _ h.2, byteAt_setByte_other _ _ _ _ (fun e => h.1 e.symm)]

theorem addrKey_lt (x : Xlen) (a : XWord) : addrKey x a < 2 ^ x.bits := by
  cases x with
  | rv32 => simp [addrKey, narrow, Xlen.bits]; omega
  | rv64 => exact a.isLt

theorem addrKey_eq (x : Xlen) (a : XWord) : addrKey x a = a.toNat % 2 ^ x.bits := by
  cases x with
  | rv32 => simp [addrKey, narrow, Xlen.bits]; omega
  | rv64 => simp [addrKey, narrow, Xlen.bits]; omega

theorem keys_storeNat (x : Xlen) {m : List Host.Cell} (h : ∀ c ∈ m, c.1 < 2 ^ x.bits) (n : Nat) (a : XWord) (v : Nat) :
    ∀ c ∈ storeNat x m n a v, c.1 < 2 ^ x.bits := by
  induction n generalizing m a v with
  | zero => exact h
  | succ n ih =>
    refine ih (fun c hc => ?_) _ _
    rcases mem_cellSet _ hc with h' | h'
    · exact h c h'
    · rw [h']; exact addrKey_lt x a

/-- The addresses of the bytes of an access of at most eight bytes differ. -/
theorem addrKey_add_ne (x : Xlen) (a : XWord) {j k : Nat} (hj : j < 8) (hk : k < 8) (hjk : j ≠ k) :
    addrKey x (a + BitVec.ofNat 64 j) ≠ addrKey x (a + BitVec.ofNat 64 k) := by
  simp only [addrKey_eq, BitVec.toNat_add, BitVec.toNat_ofNat]
  cases x <;> simp only [Xlen.bits] <;> omega

theorem inAccess_iff (x : Xlen) (a : XWord) (n k : Nat) :
    inAccess x a n k = true ↔ ∃ j < n, addrKey x (a + BitVec.ofNat 64 j) = k := by
  induction n generalizing a with
  | zero => simp [inAccess]
  | succ n ih =>
    have hstep : ∀ j, a + 1#64 + BitVec.ofNat 64 j = a + BitVec.ofNat 64 (j + 1) := by
      intro j; apply BitVec.eq_of_toNat_eq; simp; omega
    simp only [inAccess, Bool.or_eq_true, beq_iff_eq, ih, show (1 : XWord) = 1#64 from rfl, hstep]
    constructor
    · rintro (h | ⟨j, hj, h⟩)
      · exact ⟨0, by omega, by simpa using h⟩
      · exact ⟨j + 1, by omega, h⟩
    · rintro ⟨j, hj, h⟩
      cases j with
      | zero => exact .inl (by simpa using h)
      | succ j => exact .inr ⟨j, by omega, h⟩

/-- What a store puts in each of its bytes, in canonical memory. -/
theorem byteAt_storeNat (x : Xlen) {m : List Host.Cell} (h : Memory.wf m = true) {n : Nat} (hn : n ≤ 8) (a : XWord)
    (v : Nat) {k : Nat} (hk : k < n) :
    byteAt (storeNat x m n a v) (addrKey x (a + BitVec.ofNat 64 k)) = BitVec.ofNat 8 (v / 256 ^ k) := by
  induction n generalizing m a v k with
  | zero => omega
  | succ n ih =>
    have hstep : ∀ j, a + 1#64 + BitVec.ofNat 64 j = a + BitVec.ofNat 64 (j + 1) := by
      intro j; apply BitVec.eq_of_toNat_eq; simp; omega
    cases k with
    | zero =>
      simp only [storeNat, BitVec.add_zero]
      rw [byteAt_storeNat_other, byteAt_setByte h, if_pos rfl]
      · simp
      · rw [Bool.eq_false_iff, Ne, inAccess_iff]
        rintro ⟨j, hj, e⟩
        rw [show (1 : XWord) = 1#64 from rfl, hstep] at e
        exact addrKey_add_ne x a (j := j + 1) (k := 0) (by omega) (by omega) (by omega) (by simpa using e)
    | succ k =>
      have := ih (Memory.wf_setByte h (addrKey x a) (BitVec.ofNat 8 v)) (by omega) (a + 1) (v / 256) (k := k) (by omega)
      rw [show (1 : XWord) = 1#64 from rfl, hstep, Nat.div_div_eq_div_mul] at this
      rw [storeNat, Nat.pow_succ, Nat.mul_comm (256 ^ k)]
      exact this

/-- A load reads the bytes little-endian. -/
theorem loadNat_byte (x : Xlen) (m : List Host.Cell) {n k : Nat} (hk : k < n) (a : XWord) :
    loadNat x m n a / 256 ^ k % 256 = (byteAt m (addrKey x (a + BitVec.ofNat 64 k))).toNat := by
  induction n generalizing a k with
  | zero => omega
  | succ n ih =>
    have hb : (byteAt m (addrKey x a)).toNat < 256 := (byteAt m (addrKey x a)).isLt
    cases k with
    | zero => simp [loadNat]; omega
    | succ k =>
      have hstep : a + 1#64 + BitVec.ofNat 64 k = a + BitVec.ofNat 64 (k + 1) := by
        apply BitVec.eq_of_toNat_eq; simp; omega
      have := ih (k := k) (by omega) (a + 1)
      rw [show (1 : XWord) = 1#64 from rfl, hstep] at this
      rw [← this, loadNat, Nat.pow_succ, Nat.mul_comm (256 ^ k), ← Nat.div_div_eq_div_mul]
      congr 2
      simp only [show (1 : XWord) = 1#64 from rfl]
      omega

theorem loadNat_lt (x : Xlen) (m : List Host.Cell) (n : Nat) (a : XWord) : loadNat x m n a < 256 ^ n := by
  induction n generalizing a with
  | zero => simp [loadNat]
  | succ n ih =>
    have hb : (byteAt m (addrKey x a)).toNat < 256 := (byteAt m (addrKey x a)).isLt
    have := ih (a + 1)
    simp only [loadNat, Nat.pow_succ]; omega

/-- A load reads the same in memories that agree on its bytes. -/
theorem loadNat_congr (x : Xlen) {m m' : List Host.Cell} {n : Nat} {a : XWord}
    (h : ∀ k, k < n → byteAt m (addrKey x (a + BitVec.ofNat 64 k)) = byteAt m' (addrKey x (a + BitVec.ofNat 64 k))) :
    loadNat x m n a = loadNat x m' n a := by
  induction n generalizing a with
  | zero => rfl
  | succ n ih =>
    have h0 := h 0 (by omega)
    rw [show BitVec.ofNat 64 0 = 0#64 from rfl, BitVec.add_zero] at h0
    rw [loadNat, loadNat, h0, ih]
    intro k hk
    have hstep : a + 1 + BitVec.ofNat 64 k = a + BitVec.ofNat 64 (k + 1) := by
      apply BitVec.eq_of_toNat_eq; simp; omega
    rw [hstep]; exact h (k + 1) (by omega)

end Sys2Proof.Machine
end

