-- ==== Sys2Proof/Laws/Registers.lean ====
section
/-! SUPPORT. Values of XLEN bits as numbers, and what a read after a write of a register or CSR gives. -/

namespace Sys2Proof.Machine

@[simp] theorem narrow_zero (x : Xlen) : narrow x 0#64 = 0#64 := by cases x <;> rfl

@[simp] theorem narrow_narrow (x : Xlen) (v : XWord) : narrow x (narrow x v) = narrow x v := by
  cases x
  · simp only [narrow]; bv_omega
  · rfl

theorem narrow_toNat (x : Xlen) (v : XWord) : (narrow x v).toNat = v.toNat % 2 ^ x.bits := addrKey_eq x v

theorem two_pow_bits_dvd (x : Xlen) : (2 : Int) ^ x.bits ∣ 2 ^ 64 := by cases x <;> decide

theorem narrow_ofInt (x : Xlen) (v : Int) : (narrow x (BitVec.ofInt 64 v)).toNat = modX x v := by
  rw [narrow_toNat, modX, BitVec.toNat_ofInt]
  have h1 : (0 : Int) ≤ v % 2 ^ 64 := Int.emod_nonneg _ (by decide)
  have h2 : (0 : Int) ≤ v % 2 ^ x.bits := Int.emod_nonneg _ (by cases x <;> decide)
  apply Int.natCast_inj.mp
  rw [Int.natCast_emod, Int.toNat_of_nonneg (by exact_mod_cast h1), Int.toNat_of_nonneg h2]
  push_cast
  exact Int.emod_emod_of_dvd v (two_pow_bits_dvd x)

/-- A value as a number, from any integer with the same low bits. -/
theorem narrow_eq_modX (x : Xlen) (w : XWord) (v : Int) (h : w = BitVec.ofInt 64 v) : (narrow x w).toNat = modX x v := by
  rw [h, narrow_ofInt]

theorem modX_natCast (x : Xlen) (n : Nat) : modX x (n : Int) = n % 2 ^ x.bits := by
  unfold modX; norm_cast

theorem modX_lt (x : Xlen) (v : Int) : modX x v < 2 ^ x.bits := by
  rw [← narrow_ofInt]; exact addrKey_lt x _

theorem unsignedVal_eq (x : Xlen) (v : XWord) : unsignedVal x v = v.toNat % 2 ^ x.bits := narrow_toNat x v

theorem twos_toNat {w : Nat} (hw : 0 < w) (b : BitVec w) : twos w b.toNat = b.toInt := by
  obtain ⟨k, rfl⟩ : ∃ k, w = k + 1 := ⟨w - 1, by omega⟩
  have h : 2 ^ (k + 1) = 2 * 2 ^ k := by rw [Nat.pow_succ, Nat.mul_comm]
  unfold twos
  rw [BitVec.toInt_eq_toNat_cond, Nat.add_sub_cancel]
  by_cases hb : b.toNat < 2 ^ k
  · rw [if_pos hb, if_pos (by omega)]
  · rw [if_neg hb, if_neg (by omega)]; norm_cast

theorem signedVal_eq (x : Xlen) (v : XWord) : signedVal x v = twos x.bits (v.toNat % 2 ^ x.bits) := by
  cases x
  · have := twos_toNat (w := 32) (by decide) (v.setWidth 32)
    rw [BitVec.toNat_setWidth] at this
    rw [signedVal, widen, BitVec.toInt_signExtend_of_le (by decide), ← this]; rfl
  · have := twos_toNat (w := 64) (by decide) v
    rw [signedVal, widen, ← this]; exact congrArg (twos 64) (Nat.mod_eq_of_lt v.isLt).symm

@[simp] theorem unsignedVal_narrow (x : Xlen) (v : XWord) : unsignedVal x (narrow x v) = unsignedVal x v := by
  simp [unsignedVal]

@[simp] theorem signedVal_narrow (x : Xlen) (v : XWord) : signedVal x (narrow x v) = signedVal x v := by
  rw [signedVal_eq, signedVal_eq, narrow_toNat, Nat.mod_mod]

/-! ### Integer registers -/

@[simp] theorem readX_zero (s : State) : readX s 0#5 = 0#64 := by simp [readX]

@[simp] theorem narrow_readX (s : State) (r : Reg) : narrow s.xlen (readX s r) = readX s r := by
  unfold readX; split <;> simp

theorem regU_lt (s : State) (r : Reg) : regU s r < 2 ^ s.xlen.bits := by
  rw [regU, ← narrow_readX]; exact addrKey_lt _ _

@[simp] theorem regU_zero (s : State) : regU s 0#5 = 0 := by simp [regU]

theorem unsignedVal_readX (s : State) (r : Reg) : unsignedVal s.xlen (readX s r) = regU s r := by
  rw [unsignedVal, narrow_readX, regU]

theorem signedVal_readX (s : State) (r : Reg) : signedVal s.xlen (readX s r) = regS s r := by
  have h := regU_lt s r
  rw [regU] at h
  rw [signedVal_eq, regS, regU, Nat.mod_eq_of_lt h]

/-- Read after write: x0 reads 0, and a register the low XLEN bits of what was written. -/
theorem readX_writeX_same (s : State) (r : Reg) (v : XWord) :
    readX (writeX s r v) r = if r = 0 then 0 else narrow s.xlen v := by
  by_cases h : r = 0
  · simp [h]
  · simp only [readX, writeX, if_neg h, Vector.getElem_set_self, narrow_narrow]

theorem readX_writeX_other (s : State) (r q : Reg) (v : XWord) (h : q ≠ r) : readX (writeX s r v) q = readX s q := by
  by_cases hr : r = 0
  · simp [writeX, hr]
  · have hne : r.toNat ≠ q.toNat := fun e => h (BitVec.eq_of_toNat_eq e.symm)
    simp only [readX, writeX, if_neg hr, Vector.getElem_set_ne r.isLt q.isLt hne]

theorem readX_congr {s t : State} (hx : t.x = s.x) (hl : t.xlen = s.xlen) (r : Reg) : readX t r = readX s r := by
  simp only [readX, hx, hl]

theorem readF_writeF_same (s : State) (r : Reg) (v : FWord) : readF (writeF s r v) r = v := by
  simp [readF, writeF]

theorem readF_writeF_other (s : State) (r q : Reg) (v : FWord) (h : q ≠ r) : readF (writeF s r v) q = readF s q := by
  have hne : r.toNat ≠ q.toNat := fun e => h (BitVec.eq_of_toNat_eq e.symm)
  simp [readF, writeF, Vector.getElem_set_ne, hne]

theorem readF_congr {s t : State} (hf : t.f = s.f) (r : Reg) : readF t r = readF s r := by simp only [readF, hf]

/-! ### CSRs -/

theorem csrFileGet_congr {s t : State} (h : t.csrs = s.csrs) (a : Nat) : csrFileGet t a = csrFileGet s a := by
  simp only [csrFileGet, h]

theorem csrFileGet_csrFileSet_other (s : State) (a b : Nat) (v : XWord) (h : b ≠ a) :
    csrFileGet (csrFileSet s a v) b = csrFileGet s b := cellGet_cellSet_other _ _ _ _ _ h

theorem csrFileGet_csrFileSet_same {s : State} (hw : cellsWf 0 s.csrs = true) (a : Nat) (v : XWord) :
    csrFileGet (csrFileSet s a v) a = narrow s.xlen v := cellGet_cellSet_same _ _ none hw _ _

theorem csrsWf_csrFileSet {s : State} (hw : cellsWf 0 s.csrs = true) (a : Nat) (v : XWord) :
    cellsWf 0 (csrFileSet s a v).csrs = true := cellsWf_cellSet _ hw _ _

theorem csrsWf_csrWrite {s : State} (hw : cellsWf 0 s.csrs = true) (c : Csr) (v : XWord) :
    cellsWf 0 (csrWrite s c v).csrs = true := by
  unfold csrWrite; repeat (first | exact hw | exact csrsWf_csrFileSet hw _ _ | split)

theorem csrsWf_takeException {s : State} (hw : cellsWf 0 s.csrs = true) (code : Nat) (tval : XWord) :
    cellsWf 0 (takeException s code tval).csrs = true :=
  cellsWf_cellSet _ (cellsWf_cellSet _ (cellsWf_cellSet _ (cellsWf_cellSet _ hw _ _) _ _) _ _) _ _

end Sys2Proof.Machine
end

