-- ==== Sys2Proof/Laws/Ops.lean ====
section
/-! SUPPORT. What each shared operation does, said once: the lemmas a claim about an instruction cites. -/

namespace Sys2Proof.Machine

theorem pow_bits_dvd (x : Xlen) : 2 ^ x.bits ∣ 2 ^ 64 := by cases x <;> decide

theorem nextPc_toNat (i : Instr) (s : State) :
    (nextPc i s).toNat = (s.pc.toNat + i.compressed.bytes) % 2 ^ s.xlen.bits := by
  have h : i.compressed.bytes < 2 ^ 64 := by cases i.compressed <;> decide
  rw [nextPc, narrow_toNat, BitVec.toNat_add, BitVec.toNat_ofNat, Nat.mod_eq_of_lt h,
    Nat.mod_mod_of_dvd _ (pow_bits_dvd _)]

/-- An instruction that writes an integer register: everything it does. -/
theorem retireX_effect (i : Instr) (rd : Reg) (w : XWord) (v : Int) (s : State) (h : (narrow s.xlen w).toNat = modX s.xlen v) :
    ∃ t, retireX i rd w s = .next t ∧ IntEffect i rd v s t := by
  refine ⟨_, rfl, ?_⟩
  constructor
  · simp [Answers]
  · simpa [Advances] using nextPc_toNat i s
  · have : ∀ p, readX { emit i (writeX s rd w) with pc := p } rd = readX (writeX s rd w) rd := fun _ => rfl
    rw [regU, this, readX_writeX_same]
    split <;> simp [h]
  · intro r hr; exact readX_writeX_other s rd r w hr
  all_goals simp [KeepsInputs, KeepsF, KeepsFcsr, KeepsSystem, KeepsMem, KeepsImem, KeepsReservations, readF, csrFileGet]

/-- An instruction that changes nothing but the pc. -/
theorem retire_effect (i : Instr) (s : State) : ∃ t, retire i s s = .next t ∧ IntEffect i 0 0 s t := by
  have := retireX_effect i 0 0 0 s (by simp [modX])
  simpa [retireX, writeX] using this

/-- A transfer of control: everything it does. -/
theorem jumpTo_effect (i : Instr) (rd : Reg) (target : XWord) (v : Int) (s : State)
    (h : (narrow s.xlen target).toNat = modX s.xlen v) : ∃ t, jumpTo i rd target s = .next t ∧ JumpEffect i rd v s t := by
  refine ⟨_, rfl, ?_⟩
  constructor
  · simp [Answers]
  · exact h
  · have : ∀ p, readX { emit i (writeX s rd (nextPc i s)) with pc := p } rd = readX (writeX s rd (nextPc i s)) rd := fun _ => rfl
    rw [regU, this, readX_writeX_same, ← nextPc_toNat]
    split
    · rfl
    · rw [nextPc, narrow_narrow]
  · intro r hr; exact readX_writeX_other s rd r _ hr
  all_goals simp [KeepsInputs, KeepsF, KeepsFcsr, KeepsSystem, KeepsMem, KeepsImem, KeepsReservations, readF, csrFileGet]

/-- A branch that is taken: everything it does. -/
theorem branchOn_taken (i : Instr) (offset : XWord) (v : Int) (s : State)
    (h : (narrow s.xlen (s.pc + offset)).toNat = modX s.xlen v) :
    ∃ t, branchOn i true offset s = .next t ∧ JumpEffect i 0 v s t := by
  have := jumpTo_effect i 0 (s.pc + offset) v s h
  simpa [jumpTo, branchOn, writeX] using this

/-- A branch that is not taken: everything it does. -/
theorem branchOn_not_taken (i : Instr) (offset : XWord) (s : State) :
    ∃ t, branchOn i false offset s = .next t ∧ JumpEffect i 0 (s.pc.toNat + i.compressed.bytes) s t := by
  have := jumpTo_effect i 0 (s.pc + BitVec.ofNat 64 i.compressed.bytes) (s.pc.toNat + i.compressed.bytes) s
    (by
      have := nextPc_toNat i s
      rw [nextPc] at this
      rw [this, ← modX_natCast]; norm_cast)
  simpa [jumpTo, branchOn, retire, writeX, nextPc] using this

theorem accessException_none {s : State} {kind : AccessKind} {a : XWord} {n : Nat} (h : AccessOk s kind a n) :
    accessException s kind a n = none := by
  have hm : ∀ r : Misaligned, r ≠ .perform → misalignedWith s kind a n r = false := by
    intro r hr
    rcases h.1 with h1 | h1
    · simp [misalignedWith, h1]
    · have h2 : (Misaligned.perform == r) = false := by cases r <;> first | rfl | exact absurd rfl hr
      rw [misalignedWith, h1, h2, Bool.and_false]
  simp [accessException, h.2, hm]

/-- An access that raises no exception runs its body. -/
theorem withAccess_ok (i : Instr) (kind : AccessKind) (a : XWord) (n : Nat) (s : State)
    (body : Host.Outcome State Fault Refusal) (h : AccessOk s kind a n) : withAccess i kind a n s body = body := by
  simp [withAccess, accessException_none h]

/-- An access that raises an exception takes it. -/
theorem withAccess_trap (i : Instr) (kind : AccessKind) (a : XWord) (n : Nat) (s : State)
    (body : Host.Outcome State Fault Refusal) {code : Nat} (h : accessException s kind a n = some code) :
    withAccess i kind a n s body = raise i code (accessTval s code a) s := by simp [withAccess, h]

/-- The codes an access can raise. -/
theorem accessException_codes {s : State} {kind : AccessKind} {a : XWord} {n code : Nat}
    (h : accessException s kind a n = some code) :
    code ∈ [breakpointCode, misalignedCode kind, pageFaultCode kind, accessFaultCode kind] := by
  simp only [accessException] at h
  repeat' split at h
  all_goals first | (cases h; simp) | cases h

theorem accessException_lt {s : State} {kind : AccessKind} {a : XWord} {n code : Nat}
    (h : accessException s kind a n = some code) : code < 16 := by
  have := accessException_codes h
  simp only [List.mem_cons, List.not_mem_nil, or_false] at this
  rcases this with rfl | rfl | rfl | rfl <;> cases kind <;> decide

/-- An integer load: everything it does where the access raises no exception. -/
theorem loadX_effect (i : Instr) (n : Nat) (ext : Nat → Nat → XWord) (rd base : Reg) (offset : XWord) (v : Int) (s : State)
    (hok : AccessOk s .load (readX s base + offset) n)
    (h : (narrow s.xlen (ext n (loadNat s.xlen s.mem n (readX s base + offset)))).toNat = modX s.xlen v) :
    ∃ t, loadX i n ext rd base offset s = .next t ∧ IntEffect i rd v s t := by
  simp only [loadX, withAccess_ok _ _ _ _ _ _ hok]
  exact retireX_effect i rd _ v s h

/-- A store: everything it does where the access raises no exception. -/
theorem storeValue_effect (i : Instr) (n v : Nat) (base : Reg) (offset : XWord) (s : State) (hm : Memory.wf s.mem = true)
    (hn : n ≤ 8) (hok : AccessOk s .store (readX s base + offset) n) :
    ∃ t, storeValue i n v base offset s = .next t ∧ StoreEffect i (readX s base + offset) n v s t := by
  simp only [storeValue, withAccess_ok _ _ _ _ _ _ hok]
  refine ⟨_, rfl, ?_⟩
  constructor
  · simp [Answers]
  · simpa [Advances] using nextPc_toNat i s
  · exact ⟨fun k hk => by simpa using byteAt_storeNat s.xlen hm hn _ v hk,
      fun key hk => by simpa using byteAt_storeNat_other s.xlen s.mem n _ v key hk⟩
  all_goals
    simp [KeepsX, KeepsInputs, KeepsF, KeepsFcsr, KeepsSystem, KeepsImem, KeepsReservations, readX, readF, csrFileGet]

/-! ### Exceptions -/

theorem narrow_ofNat_small (x : Xlen) {n : Nat} (h : n < 2 ^ 32) : narrow x (BitVec.ofNat 64 n) = BitVec.ofNat 64 n := by
  apply BitVec.eq_of_toNat_eq
  rw [narrow_toNat, BitVec.toNat_ofNat]
  cases x <;> simp only [Xlen.bits] <;> omega

theorem getLsbD_narrow (x : Xlen) (v : XWord) (k : Nat) : (narrow x v).getLsbD k = (v.getLsbD k && decide (k < x.bits)) := by
  cases x
  · by_cases h : k < 32
    · simp [narrow, Xlen.bits, h]; omega
    · simp [narrow, Xlen.bits, h]
  · by_cases h : k < 64
    · simp [narrow, Xlen.bits, h]
    · simp [narrow, Xlen.bits, BitVec.getLsbD_of_ge _ _ (Nat.le_of_not_lt h)]

theorem getLsbD_trapStatus (status : XWord) (mode : Mode) {k : Nat} (h3 : k ≠ 3) (h7 : k ≠ 7) (h11 : k ≠ 11) (h12 : k ≠ 12) :
    (trapStatus status mode).getLsbD k = status.getLsbD k := by
  by_cases hk : k < 64
  · simp only [trapStatus, BitVec.getLsbD_or, BitVec.getLsbD_and, BitVec.getLsbD_not, BitVec.getLsbD_shiftLeft,
      BitVec.getLsbD_ushiftRight]
    interval_cases k <;> cases mode <;> simp_all [Mode.code]
  · simp [BitVec.getLsbD_of_ge _ _ (Nat.le_of_not_lt hk)]

theorem trapStatus_mpie (status : XWord) (mode : Mode) : (trapStatus status mode).getLsbD 7 = status.getLsbD 3 := by
  cases mode <;> simp [trapStatus, Mode.code]

theorem trapStatus_mie (status : XWord) (mode : Mode) : (trapStatus status mode).getLsbD 3 = false := by
  cases mode <;> simp [trapStatus, Mode.code]

theorem trapStatus_mpp (status : XWord) (mode : Mode) :
    (trapStatus status mode).extractLsb' 11 2 = mode.code.setWidth 2 := by
  apply BitVec.eq_of_getLsbD_eq
  intro k hk
  simp only [BitVec.getLsbD_extractLsb', trapStatus, BitVec.getLsbD_or, BitVec.getLsbD_and, BitVec.getLsbD_not,
    BitVec.getLsbD_shiftLeft, BitVec.getLsbD_ushiftRight]
  interval_cases k <;> cases mode <;> simp [Mode.code]

theorem narrow_extract_low (x : Xlen) (v : XWord) {lo n : Nat} (h : lo + n ≤ 32) :
    (narrow x v).extractLsb' lo n = v.extractLsb' lo n := by
  apply BitVec.eq_of_getLsbD_eq
  intro k hk
  have : lo + k < x.bits := by cases x <;> simp only [Xlen.bits] <;> omega
  simp [getLsbD_narrow, this]

/-- Taking an exception: everything it does, where the CSR file is in canonical form. -/
theorem takeException_effect (s : State) (hw : cellsWf 0 s.csrs = true) (code : Nat) (hc : code < 2 ^ 32) (tval : XWord) :
    TrapEffect code tval s (takeException s code tval) := by
  have w1 := csrsWf_csrFileSet hw 0x341 s.pc
  have w2 := csrsWf_csrFileSet w1 0x342 (BitVec.ofNat 64 code)
  have w3 := csrsWf_csrFileSet w2 0x343 tval
  have get : ∀ a, csrFileGet (takeException s code tval) a = csrFileGet (csrFileSet (csrFileSet (csrFileSet (csrFileSet s
      0x341 s.pc) 0x342 (BitVec.ofNat 64 code)) 0x343 tval) 0x300 (trapStatus (csrFileGet s 0x300) s.mode)) a := fun _ => rfl
  have st : csrFileGet (takeException s code tval) 0x300 = narrow s.xlen (trapStatus (csrFileGet s 0x300) s.mode) := by
    rw [get, csrFileGet_csrFileSet_same w3]; simp
  constructor
  · rw [get, csrFileGet_csrFileSet_other _ _ _ _ (by decide), csrFileGet_csrFileSet_other _ _ _ _ (by decide),
      csrFileGet_csrFileSet_other _ _ _ _ (by decide), csrFileGet_csrFileSet_same hw]
  · rw [get, csrFileGet_csrFileSet_other _ _ _ _ (by decide), csrFileGet_csrFileSet_other _ _ _ _ (by decide),
      csrFileGet_csrFileSet_same w1]
    simp [narrow_ofNat_small _ hc]
  · rw [get, csrFileGet_csrFileSet_other _ _ _ _ (by decide), csrFileGet_csrFileSet_same w2]; simp
  · rw [st, getLsbD_narrow, trapStatus_mpie]; cases s.xlen <;> simp [Xlen.bits]
  · rw [st, getLsbD_narrow, trapStatus_mie]; simp
  · rw [st, narrow_extract_low _ _ (by decide), trapStatus_mpp]
  · intro k hk h3 h7 h11 h12
    rw [st, getLsbD_narrow, getLsbD_trapStatus _ _ h3 h7 h11 h12]; simp [hk]
  · intro a h0 h1 h2 h3
    rw [get, csrFileGet_csrFileSet_other _ _ _ _ h0, csrFileGet_csrFileSet_other _ _ _ _ h3,
      csrFileGet_csrFileSet_other _ _ _ _ h2, csrFileGet_csrFileSet_other _ _ _ _ h1]
  · rfl
  · rfl
  · rfl
  all_goals simp [KeepsX, KeepsF, KeepsFcsr, KeepsMem, KeepsImem, readX, readF]

/-- An effect of taking an exception does not depend on what the block has answered. -/
theorem trapEffect_of_emit {i : Instr} {code : Nat} {tval : XWord} {s t : State} (h : TrapEffect code tval (emit i s) t) :
    TrapEffect code tval s t :=
  ⟨h.mepc, h.mcause, h.mtval, h.mpie, h.mie, h.mpp, h.status, h.csrs, h.mode, h.pc, h.reservations, h.ints, h.fp, h.fcsr,
    h.unit, h.memory, h.fetched⟩

/-- An instruction that takes an exception: everything it does. -/
theorem raise_effect (i : Instr) (code : Nat) (tval : XWord) (s : State) (hw : cellsWf 0 s.csrs = true) (hc : code < 2 ^ 32) :
    ∃ t, raise i code tval s = .next t ∧ Answers i s t ∧ KeepsInputs s t ∧ TrapEffect code tval s t :=
  ⟨_, rfl, by simp [Answers], by simp [KeepsInputs], trapEffect_of_emit (takeException_effect (emit i s) hw code hc tval)⟩

/-! ### FP -/

/-- The mode an instruction rounds in, from the two readable conditions. -/
theorem withMode_of_roundsIn (i : Instr) {rm m : RoundingMode} {s : State} (h : RoundsIn s rm m)
    (body : RoundingMode → Host.Outcome State Fault Refusal) : withMode i rm s body = body m := by
  obtain ⟨hon, hm, h | ⟨h, hf⟩⟩ := h
  · subst h; simp [withMode, whenFpOn, hon, resolveRm, hm]
  · subst h
    have : RoundingMode.ofCode m.code = some m := by cases m <;> rfl
    simp [withMode, whenFpOn, hon, resolveRm, hf, this, hm]

theorem readF_writeFp (s : State) (p : Fmt) (rd r : Reg) (v : Nat) :
    readF (writeFp s p rd v) r = if r = rd then boxed p v else readF s r := by
  by_cases h : r = rd
  · subst h; cases p <;> simp [writeFp, boxed, readF_writeF_same]
  · cases p <;> simp [writeFp, h, readF_writeF_other]

/-- An operation whose result goes to an FP register: everything it does. -/
theorem retireFp_effect (i : Instr) (p : Fmt) (rd : Reg) (r : Ieee.FResult) (s : State) :
    ∃ t, retireFp i p rd r s = .next t ∧ FpEffect i rd (boxed p r.bits) r.flags s t := by
  have key : ∀ (q : XWord) (k : Reg), readF { emit i (accrue (writeFp s p rd r.bits) r.flags) with pc := q } k =
      readF (writeFp s p rd r.bits) k := fun _ _ => rfl
  refine ⟨_, rfl, ?_⟩
  constructor
  · simp [Answers]
  · simpa [Advances] using nextPc_toNat i s
  · rw [key, readF_writeFp, if_pos rfl]
  · intro k hk; rw [key, readF_writeFp, if_neg hk]
  all_goals simp [KeepsX, KeepsInputs, KeepsSystem, KeepsMem, KeepsImem, KeepsReservations, readX, csrFileGet]

/-- An FP operation whose result goes to an integer register: everything it does. -/
theorem retireFpX_effect (i : Instr) (rd : Reg) (w : XWord) (v : Int) (flags : BitVec 5) (s : State)
    (h : (narrow s.xlen w).toNat = modX s.xlen v) :
    ∃ t, retireFpX i rd w flags s = .next t ∧ FpIntEffect i rd v flags s t := by
  have key : ∀ (q : XWord) (k : Reg), readX { emit i (accrue (writeX s rd w) flags) with pc := q } k =
      readX (writeX s rd w) k := fun _ _ => rfl
  refine ⟨_, rfl, ?_⟩
  constructor
  · simp [Answers]
  · simpa [Advances] using nextPc_toNat i s
  · rw [regU, key, readX_writeX_same]; split <;> simp [h]
  · intro k hk; rw [key, readX_writeX_other _ _ _ _ hk]
  all_goals simp [KeepsF, KeepsInputs, KeepsSystem, KeepsMem, KeepsImem, KeepsReservations, readF, csrFileGet]

end Sys2Proof.Machine
end

