-- ==== Sys2Proof/Laws/Operands.lean ====
section
/-! SUPPORT. The operands and the integer arithmetic as numbers: what a prover needs to turn a meaning into its rule's formula. -/

namespace Sys2Proof.Machine

theorem ofInt_toNat (w : XWord) : BitVec.ofInt 64 (w.toNat : Int) = w := by simp

theorem ofInt_regU (s : State) (r : Reg) : BitVec.ofInt 64 (regU s r : Int) = readX s r := ofInt_toNat _

theorem signExtend_eq_ofInt {n : Nat} (b : BitVec n) : b.signExtend 64 = BitVec.ofInt 64 b.toInt := rfl

theorem sextImm_eq_ofInt {n : Nat} (b : BitVec n) : sextImm b = BitVec.ofInt 64 b.toInt := rfl

theorem zextImm_toNat {n : Nat} (b : BitVec n) (h : n ≤ 64) : (zextImm b).toNat = b.toNat := by
  rw [zextImm, BitVec.toNat_setWidth, Nat.mod_eq_of_lt]
  exact Nat.lt_of_lt_of_le b.isLt (Nat.pow_le_pow_right (by decide) h)

theorem zextImm_eq_ofInt {n : Nat} (b : BitVec n) (h : n ≤ 64) : zextImm b = BitVec.ofInt 64 (b.toNat : Int) := by
  rw [← zextImm_toNat b h, ofInt_toNat]

theorem shiftAmount_zextImm (b : U5) : shiftAmount (zextImm b) = b.toNat := by
  rw [shiftAmount, zextImm_toNat _ (by decide)]; exact Nat.mod_eq_of_lt b.isLt

theorem boolWord_toNat (x : Xlen) (b : Bool) : (narrow x (boolWord b)).toNat = modX x (if b then 1 else 0) := by
  cases b <;> cases x <;> decide

theorem unsignedVal_sextImm (x : Xlen) {n : Nat} (b : BitVec n) : unsignedVal x (sextImm b) = modX x b.toInt :=
  narrow_eq_modX x _ _ rfl

theorem setWidth_signExtend {n : Nat} (b : BitVec n) : (b.signExtend 64).setWidth 32 = b.signExtend 32 := by
  apply BitVec.eq_of_getLsbD_eq
  intro k hk
  simp only [BitVec.getLsbD_setWidth, BitVec.getLsbD_signExtend]
  simp [hk, show k < 64 by omega]

theorem signedVal_sextImm (x : Xlen) {n : Nat} (b : BitVec n) (h : n ≤ 32) : signedVal x (sextImm b) = b.toInt := by
  cases x
  · rw [signedVal, widen, sextImm, setWidth_signExtend, BitVec.toInt_signExtend_of_le (by decide),
      BitVec.toInt_signExtend_of_le h]
  · rw [signedVal, widen, sextImm, BitVec.toInt_signExtend_of_le (by omega)]

/-- The pattern of the signed value is the value itself. -/
theorem narrow_ofInt_signedVal (x : Xlen) (w : XWord) : narrow x (BitVec.ofInt 64 (signedVal x w)) = narrow x w := by
  apply BitVec.eq_of_toNat_eq
  rw [signedVal, BitVec.ofInt_toInt]
  cases x
  · simp only [narrow, widen, setWidth_signExtend, BitVec.signExtend_eq]
  · rfl

theorem modX_congr (x : Xlen) {v w : Int} (h : v % 2 ^ x.bits = w % 2 ^ x.bits) : modX x v = modX x w := by
  rw [modX, modX, h]

/-- Signed and unsigned value agree modulo 2^XLEN. -/
theorem regS_emod (s : State) (r : Reg) : regS s r % 2 ^ s.xlen.bits = (regU s r : Int) % 2 ^ s.xlen.bits := by
  rw [regS, twos]; split
  · rfl
  · rw [Int.sub_emod_right]

/-- Whether the signed value is 0. -/
theorem regS_eq_zero_iff (s : State) (r : Reg) : regS s r = 0 ↔ regU s r = 0 := by
  have := regU_lt s r
  unfold regS twos; split
  · omega
  · rename_i h
    constructor
    · intro e
      have e' : (regU s r : Int) = 2 ^ s.xlen.bits := by omega
      have : regU s r = 2 ^ s.xlen.bits := by exact_mod_cast e'
      omega
    · intro e; exact absurd (by rw [e]; exact Nat.two_pow_pos _) h

/-! ### Shifts and upper immediates -/

theorem shiftLeft_eq_ofInt (a : XWord) (k : Nat) : a <<< k = BitVec.ofInt 64 ((a.toNat : Int) * 2 ^ k) := by
  apply BitVec.eq_of_toNat_eq
  have : (a.toNat : Int) * 2 ^ k = ((a.toNat * 2 ^ k : Nat) : Int) := by push_cast; rfl
  rw [this, BitVec.ofInt_natCast, BitVec.toNat_shiftLeft, BitVec.toNat_ofNat, Nat.shiftLeft_eq]

theorem ushiftRight_eq_ofInt (a : XWord) (k : Nat) : a >>> k = BitVec.ofInt 64 ((a.toNat / 2 ^ k : Nat) : Int) := by
  apply BitVec.eq_of_toNat_eq
  rw [BitVec.ofInt_natCast, BitVec.toNat_ushiftRight, BitVec.toNat_ofNat, Nat.shiftRight_eq_div_pow, Nat.mod_eq_of_lt]
  exact Nat.lt_of_le_of_lt (Nat.div_le_self _ _) a.isLt

theorem sshiftRight_eq_ofInt (a : XWord) (k : Nat) : a.sshiftRight k = BitVec.ofInt 64 (a.toInt / 2 ^ k) := by
  rw [← BitVec.ofInt_toInt (x := a.sshiftRight k), BitVec.toInt_sshiftRight, Int.shiftRight_eq_div_pow]; norm_cast

theorem upperImm_eq_ofInt (v : BitVec 20) : upperImm v = BitVec.ofInt 64 (v.toInt * 4096) := by
  rw [upperImm, signExtend_eq_ofInt, BitVec.toInt_append]
  simp [Int.mul_comm]

/-! ### What a load gives -/

theorem sextLoad_eq_ofInt {n : Nat} (h : 0 < n) (v : Nat) : sextLoad n v = BitVec.ofInt 64 (twos (8 * n) (v % 2 ^ (8 * n))) := by
  rw [sextLoad, signExtend_eq_ofInt, ← twos_toNat (by omega), BitVec.toNat_ofNat]

theorem zextLoad_eq_ofInt {n : Nat} (h : n ≤ 8) (v : Nat) : zextLoad n v = BitVec.ofInt 64 ((v % 2 ^ (8 * n) : Nat) : Int) := by
  rw [← ofInt_toNat (zextLoad n v), zextLoad, BitVec.toNat_setWidth, BitVec.toNat_ofNat, Nat.mod_eq_of_lt]
  exact Nat.lt_of_lt_of_le (Nat.mod_lt _ (Nat.two_pow_pos _)) (Nat.pow_le_pow_right (by decide) (by omega))

/-- The bytes an access of `n` bytes reads make a number of `n` bytes. -/
theorem loadNat_mod (x : Xlen) (m : List Host.Cell) (n : Nat) (a : XWord) : loadNat x m n a % 2 ^ (8 * n) = loadNat x m n a :=
  Nat.mod_eq_of_lt (by rw [Nat.pow_mul]; exact loadNat_lt x m n a)

end Sys2Proof.Machine
end

