-- ==== Sys2Proof/Laws/Exec.lean ====
section
/-! SUPPORT. What executing any instruction can do, said once: it answers a next state, which is that of a taken exception or
comes from the state by writes of named kinds, the block's answer and a new pc. -/

namespace Sys2Proof.Machine

/-- The writes of instructions, from `s`: a predicate `Q` that holds of `s` and survives each of them. -/
structure ClosedFrom (s : State) (Q : State → Prop) : Prop where
  base : Q s
  writeX : ∀ q r v, Q q → Q (writeX q r v)
  writeF : ∀ q r v, Q q → Q (writeF q r v)
  accrue : ∀ q e, Q q → Q (accrue q e)
  storeMem : ∀ q a n v, Q q → Q (storeMem q a n v)
  reserve : ∀ q a, Q q → Q (reserve q a)
  release : ∀ q, Q q → Q (release q)
  fence : ∀ q, Q q → Q { q with imem := q.mem }
  csrWrite : ∀ q c v, Q q → Q (csrWrite q c v)

theorem ClosedFrom.writeFp {s : State} {Q : State → Prop} (h : ClosedFrom s Q) (q : State) (p : Fmt) (r : Reg) (v : Nat)
    (hq : Q q) : Q (Machine.writeFp q p r v) := by
  cases p
  · exact h.writeF _ _ _ hq
  · exact h.writeF _ _ _ hq

/-- A pc an instruction at an even pc can go to: a value of XLEN bits, even where the instruction is well-formed. -/
def PcOf (i : Instr) (s : State) (p : XWord) : Prop :=
  narrow s.xlen p = p ∧ (i.wf = true → s.pc.getLsbD 0 = false → p.getLsbD 0 = false)

/-- An outcome is a next state of which `P` holds. -/
def NextWith (P : State → Prop) (o : Host.Outcome State Fault Refusal) : Prop := ∃ t, o = .next t ∧ P t

theorem narrow_getLsbD_zero (x : Xlen) (v : XWord) : (narrow x v).getLsbD 0 = v.getLsbD 0 := by
  rw [getLsbD_narrow]; cases x <;> simp [Xlen.bits]

theorem even_iff (v : XWord) : v.getLsbD 0 = false ↔ v.toNat % 2 = 0 := by
  rw [BitVec.getLsbD, Nat.testBit_zero]; simp

theorem even_add {a b : XWord} (ha : a.getLsbD 0 = false) (hb : b.getLsbD 0 = false) : (a + b).getLsbD 0 = false := by
  rw [even_iff] at *
  rw [BitVec.toNat_add]
  omega

theorem even_sextImm {n : Nat} {b : BitVec n} (h : lowZero b 1 = true) (hn : 0 < n) : (sextImm b).getLsbD 0 = false := by
  have hb : b.getLsbD 0 = false := by
    rw [BitVec.getLsbD, Nat.testBit_zero]
    simpa [lowZero] using h
  rw [sextImm, BitVec.getLsbD_signExtend, if_pos hn, hb, Bool.and_false]

theorem even_mask (a : XWord) : (a &&& ~~~1#64).getLsbD 0 = false := by simp

theorem pcOf_next (i : Instr) (s : State) : PcOf i s (nextPc i s) := by
  refine ⟨by rw [nextPc, narrow_narrow], fun _ h => ?_⟩
  rw [nextPc, narrow_getLsbD_zero]
  exact even_add h (by cases i.compressed <;> decide)

theorem pcOf_narrow (i : Instr) (s : State) {p : XWord} (h : i.wf = true → s.pc.getLsbD 0 = false → p.getLsbD 0 = false) :
    PcOf i s (narrow s.xlen p) :=
  ⟨narrow_narrow _ _, fun hw he => by rw [narrow_getLsbD_zero]; exact h hw he⟩

section
variable {P Q : State → Prop} {i : Instr} {s : State}

/-- The conditions under which `P` holds of every state an instruction answers. -/
structure ExecRule (i : Instr) (s : State) (Q P : State → Prop) : Prop where
  closed : ClosedFrom s Q
  done : ∀ q p, Q q → PcOf i s p → P { emit i q with pc := p }
  trap : ∀ code tval, code < 2 ^ 32 → P (takeException (emit i s) code tval)

theorem ExecRule.retire (h : ExecRule i s Q P) {t : State} (ht : Q t) : NextWith P (retire i s t) :=
  ⟨_, rfl, h.done t _ ht (pcOf_next i s)⟩

theorem ExecRule.raise (h : ExecRule i s Q P) {code : Nat} (hc : code < 2 ^ 32) (tval : XWord) :
    NextWith P (raise i code tval s) := ⟨_, rfl, h.trap code tval hc⟩

theorem ExecRule.illegal (h : ExecRule i s Q P) : NextWith P (illegal i s) := h.raise (by decide) _

theorem ExecRule.retireX (h : ExecRule i s Q P) (rd : Reg) (v : XWord) : NextWith P (retireX i rd v s) :=
  h.retire (h.closed.writeX _ _ _ h.closed.base)

theorem ExecRule.jumpTo (h : ExecRule i s Q P) (rd : Reg) {target : XWord}
    (he : i.wf = true → s.pc.getLsbD 0 = false → target.getLsbD 0 = false) : NextWith P (jumpTo i rd target s) :=
  ⟨_, rfl, h.done _ _ (h.closed.writeX _ _ _ h.closed.base) (pcOf_narrow i s he)⟩

theorem ExecRule.branchOn (h : ExecRule i s Q P) (taken : Bool) {n : Nat} {offset : BitVec n} (hn : 0 < n)
    (hw : i.wf = true → lowZero offset 1 = true) : NextWith P (branchOn i taken (sextImm offset) s) := by
  unfold Machine.branchOn; split
  · exact ⟨_, rfl, h.done _ _ h.closed.base (pcOf_narrow i s fun w e => even_add e (even_sextImm (hw w) hn))⟩
  · exact h.retire h.closed.base

theorem ExecRule.withAccess (h : ExecRule i s Q P) (kind : AccessKind) (a : XWord) (n : Nat)
    {body : Host.Outcome State Fault Refusal} (hb : NextWith P body) : NextWith P (withAccess i kind a n s body) := by
  unfold Machine.withAccess
  cases he : accessException s kind a n with
  | none => exact hb
  | some code => exact h.raise ((accessException_lt he).trans (by decide)) _

theorem ExecRule.loadX (h : ExecRule i s Q P) (n : Nat) (ext : Nat → Nat → XWord) (rd base : Reg) (offset : XWord) :
    NextWith P (loadX i n ext rd base offset s) := h.withAccess _ _ _ (h.retireX _ _)

theorem ExecRule.storeValue (h : ExecRule i s Q P) (n v : Nat) (base : Reg) (offset : XWord) :
    NextWith P (storeValue i n v base offset s) :=
  h.withAccess _ _ _ (h.retire (h.closed.storeMem _ _ _ _ h.closed.base))

theorem ExecRule.amo (h : ExecRule i s Q P) (f : BitVec 32 → BitVec 32 → BitVec 32) (rd addr src : Reg) :
    NextWith P (amo i f rd addr src s) :=
  h.withAccess _ _ _ (h.retire (h.closed.writeX _ _ _ (h.closed.storeMem _ _ _ _ h.closed.base)))

theorem ExecRule.loadReserved (h : ExecRule i s Q P) (rd addr : Reg) : NextWith P (loadReserved i rd addr s) :=
  h.withAccess _ _ _ (h.retire (h.closed.writeX _ _ _ (h.closed.reserve _ _ h.closed.base)))

theorem ExecRule.storeConditional (h : ExecRule i s Q P) (rd addr src : Reg) :
    NextWith P (storeConditional i rd addr src s) := by
  unfold Machine.storeConditional; dsimp only; split
  · exact h.withAccess _ _ _ (h.retire (h.closed.writeX _ _ _ (h.closed.release _ (h.closed.storeMem _ _ _ _ h.closed.base))))
  · split
    · exact h.raise (by split <;> decide) _
    · exact h.retire (h.closed.writeX _ _ _ (h.closed.release _ h.closed.base))

theorem ExecRule.csrAccess (h : ExecRule i s Q P) (rd : Reg) (c : Csr) (writes : Bool) (new : XWord → XWord) :
    NextWith P (csrAccess i rd c writes new s) := by
  unfold Machine.csrAccess; split
  · refine h.retire (h.closed.writeX _ _ _ ?_)
    split
    · exact h.closed.csrWrite _ _ _ h.closed.base
    · exact h.closed.base
  · exact h.illegal

theorem ExecRule.whenFpOn (h : ExecRule i s Q P) {body : Host.Outcome State Fault Refusal} (hb : NextWith P body) :
    NextWith P (whenFpOn i s body) := by
  unfold Machine.whenFpOn; split
  · exact hb
  · exact h.illegal

theorem ExecRule.withMode (h : ExecRule i s Q P) (rm : RoundingMode) {body : RoundingMode → Host.Outcome State Fault Refusal}
    (hb : ∀ m, NextWith P (body m)) : NextWith P (withMode i rm s body) := by
  refine h.whenFpOn ?_
  split
  · exact hb _
  · exact h.illegal

theorem ExecRule.retireFp (h : ExecRule i s Q P) (p : Fmt) (rd : Reg) (r : Ieee.FResult) : NextWith P (retireFp i p rd r s) :=
  h.retire (h.closed.accrue _ _ (h.closed.writeFp _ _ _ _ h.closed.base))

theorem ExecRule.retireFpX (h : ExecRule i s Q P) (rd : Reg) (v : XWord) (flags : BitVec 5) :
    NextWith P (retireFpX i rd v flags s) := h.retire (h.closed.accrue _ _ (h.closed.writeX _ _ _ h.closed.base))

theorem ExecRule.fpLoad (h : ExecRule i s Q P) (p : Fmt) (rd base : Reg) (offset : XWord) :
    NextWith P (fpLoad i p rd base offset s) :=
  h.whenFpOn (h.withAccess _ _ _ (h.retire (h.closed.writeFp _ _ _ _ h.closed.base)))

theorem ExecRule.fpStore (h : ExecRule i s Q P) (p : Fmt) (src base : Reg) (offset : XWord) :
    NextWith P (fpStore i p src base offset s) := h.whenFpOn (h.storeValue _ _ _ _)

theorem wf_offset {n : Nat} {offset : BitVec n} (h : lowZero offset 1 = true) (hn : 0 < n) :
    s.pc.getLsbD 0 = false → (s.pc + sextImm offset).getLsbD 0 = false := fun e => even_add e (even_sextImm h hn)

/-- Every instruction answers a next state, and `P` holds of it under the conditions of the rule. -/
theorem ExecRule.exec (h : ExecRule i s Q P) : NextWith P (exec i s) := by
  cases i with
  | addi _ _ _ => exact h.retireX _ _
  | slti _ _ _ => exact h.retireX _ _
  | sltiu _ _ _ => exact h.retireX _ _
  | xori _ _ _ => exact h.retireX _ _
  | ori _ _ _ => exact h.retireX _ _
  | andi _ _ _ => exact h.retireX _ _
  | slli _ _ _ => exact h.retireX _ _
  | srli _ _ _ => exact h.retireX _ _
  | srai _ _ _ => exact h.retireX _ _
  | add _ _ _ => exact h.retireX _ _
  | sub _ _ _ => exact h.retireX _ _
  | sll _ _ _ => exact h.retireX _ _
  | slt _ _ _ => exact h.retireX _ _
  | sltu _ _ _ => exact h.retireX _ _
  | xor _ _ _ => exact h.retireX _ _
  | srl _ _ _ => exact h.retireX _ _
  | sra _ _ _ => exact h.retireX _ _
  | or _ _ _ => exact h.retireX _ _
  | and _ _ _ => exact h.retireX _ _
  | lb _ _ _ => exact h.loadX _ _ _ _ _
  | lh _ _ _ => exact h.loadX _ _ _ _ _
  | lw _ _ _ => exact h.loadX _ _ _ _ _
  | lbu _ _ _ => exact h.loadX _ _ _ _ _
  | lhu _ _ _ => exact h.loadX _ _ _ _ _
  | sb _ _ _ => exact h.storeValue _ _ _ _
  | sh _ _ _ => exact h.storeValue _ _ _ _
  | sw _ _ _ => exact h.storeValue _ _ _ _
  | beq _ _ _ => exact h.branchOn _ (by decide) id
  | bne _ _ _ => exact h.branchOn _ (by decide) id
  | blt _ _ _ => exact h.branchOn _ (by decide) id
  | bge _ _ _ => exact h.branchOn _ (by decide) id
  | bltu _ _ _ => exact h.branchOn _ (by decide) id
  | bgeu _ _ _ => exact h.branchOn _ (by decide) id
  | jal _ _ => exact h.jumpTo _ fun w e => even_add e (even_sextImm w (by decide))
  | jalr _ _ _ => exact h.jumpTo _ fun _ _ => even_mask _
  | lui _ _ => exact h.retireX _ _
  | auipc _ _ => exact h.retireX _ _
  | fence _ _ => exact h.retire h.closed.base
  | fenceTso => exact h.retire h.closed.base
  | fenceI => exact h.retire (h.closed.fence _ h.closed.base)
  | ecall => exact h.raise (by cases s.mode <;> decide) _
  | ebreak => exact h.raise (by decide) _
  | mul _ _ _ => exact h.retireX _ _
  | mulh _ _ _ => exact h.retireX _ _
  | mulhsu _ _ _ => exact h.retireX _ _
  | mulhu _ _ _ => exact h.retireX _ _
  | div _ _ _ => exact h.retireX _ _
  | divu _ _ _ => exact h.retireX _ _
  | rem _ _ _ => exact h.retireX _ _
  | remu _ _ _ => exact h.retireX _ _
  | lrW _ _ _ _ => exact h.loadReserved _ _
  | scW _ _ _ _ _ => exact h.storeConditional _ _ _
  | amoswapW _ _ _ _ _ => exact h.amo _ _ _ _
  | amoaddW _ _ _ _ _ => exact h.amo _ _ _ _
  | amoxorW _ _ _ _ _ => exact h.amo _ _ _ _
  | amoandW _ _ _ _ _ => exact h.amo _ _ _ _
  | amoorW _ _ _ _ _ => exact h.amo _ _ _ _
  | amominW _ _ _ _ _ => exact h.amo _ _ _ _
  | amomaxW _ _ _ _ _ => exact h.amo _ _ _ _
  | amominuW _ _ _ _ _ => exact h.amo _ _ _ _
  | amomaxuW _ _ _ _ _ => exact h.amo _ _ _ _
  | csrrw a b c => exact h.csrAccess a b true (fun _ => readX s c)
  | csrrs a b c => exact h.csrAccess a b (c != 0) (fun old => old ||| readX s c)
  | csrrc a b c => exact h.csrAccess a b (c != 0) (fun old => old &&& ~~~readX s c)
  | csrrwi a b c => exact h.csrAccess a b true (fun _ => zextImm c)
  | csrrsi a b c => exact h.csrAccess a b (c != 0) (fun old => old ||| zextImm c)
  | csrrci a b c => exact h.csrAccess a b (c != 0) (fun old => old &&& ~~~zextImm c)
  | pause => exact h.retire h.closed.base
  | flw _ _ _ => exact h.fpLoad _ _ _ _
  | fsw _ _ _ => exact h.fpStore _ _ _ _
  | fmaddS _ _ _ _ _ => exact h.withMode _ fun _ => h.retireFp _ _ _
  | fmsubS _ _ _ _ _ => exact h.withMode _ fun _ => h.retireFp _ _ _
  | fnmsubS _ _ _ _ _ => exact h.withMode _ fun _ => h.retireFp _ _ _
  | fnmaddS _ _ _ _ _ => exact h.withMode _ fun _ => h.retireFp _ _ _
  | faddS _ _ _ _ => exact h.withMode _ fun _ => h.retireFp _ _ _
  | fsubS _ _ _ _ => exact h.withMode _ fun _ => h.retireFp _ _ _
  | fmulS _ _ _ _ => exact h.withMode _ fun _ => h.retireFp _ _ _
  | fdivS _ _ _ _ => exact h.withMode _ fun _ => h.retireFp _ _ _
  | fsqrtS _ _ _ => exact h.withMode _ fun _ => h.retireFp _ _ _
  | fsgnjS _ _ _ => exact h.whenFpOn (h.retire (h.closed.writeFp _ _ _ _ h.closed.base))
  | fsgnjnS _ _ _ => exact h.whenFpOn (h.retire (h.closed.writeFp _ _ _ _ h.closed.base))
  | fsgnjxS _ _ _ => exact h.whenFpOn (h.retire (h.closed.writeFp _ _ _ _ h.closed.base))
  | fminS _ _ _ => exact h.whenFpOn (h.retireFp _ _ _)
  | fmaxS _ _ _ => exact h.whenFpOn (h.retireFp _ _ _)
  | feqS _ _ _ => exact h.whenFpOn (h.retireFpX _ _ _)
  | fltS _ _ _ => exact h.whenFpOn (h.retireFpX _ _ _)
  | fleS _ _ _ => exact h.whenFpOn (h.retireFpX _ _ _)
  | fclassS _ _ => exact h.whenFpOn (h.retireX _ _)
  | fcvtWS _ _ _ => exact h.withMode _ fun _ => h.retireFpX _ _ _
  | fcvtWuS _ _ _ => exact h.withMode _ fun _ => h.retireFpX _ _ _
  | fcvtSW _ _ _ => exact h.withMode _ fun _ => h.retireFp _ _ _
  | fcvtSWu _ _ _ => exact h.withMode _ fun _ => h.retireFp _ _ _
  | fmvXW _ _ => exact h.whenFpOn (h.retireX _ _)
  | fmvWX _ _ => exact h.whenFpOn (h.retire (h.closed.writeF _ _ _ h.closed.base))
  | fld _ _ _ => exact h.fpLoad _ _ _ _
  | fsd _ _ _ => exact h.fpStore _ _ _ _
  | fmaddD _ _ _ _ _ => exact h.withMode _ fun _ => h.retireFp _ _ _
  | fmsubD _ _ _ _ _ => exact h.withMode _ fun _ => h.retireFp _ _ _
  | fnmsubD _ _ _ _ _ => exact h.withMode _ fun _ => h.retireFp _ _ _
  | fnmaddD _ _ _ _ _ => exact h.withMode _ fun _ => h.retireFp _ _ _
  | faddD _ _ _ _ => exact h.withMode _ fun _ => h.retireFp _ _ _
  | fsubD _ _ _ _ => exact h.withMode _ fun _ => h.retireFp _ _ _
  | fmulD _ _ _ _ => exact h.withMode _ fun _ => h.retireFp _ _ _
  | fdivD _ _ _ _ => exact h.withMode _ fun _ => h.retireFp _ _ _
  | fsqrtD _ _ _ => exact h.withMode _ fun _ => h.retireFp _ _ _
  | fsgnjD _ _ _ => exact h.whenFpOn (h.retire (h.closed.writeFp _ _ _ _ h.closed.base))
  | fsgnjnD _ _ _ => exact h.whenFpOn (h.retire (h.closed.writeFp _ _ _ _ h.closed.base))
  | fsgnjxD _ _ _ => exact h.whenFpOn (h.retire (h.closed.writeFp _ _ _ _ h.closed.base))
  | fminD _ _ _ => exact h.whenFpOn (h.retireFp _ _ _)
  | fmaxD _ _ _ => exact h.whenFpOn (h.retireFp _ _ _)
  | fcvtSD _ _ _ => exact h.withMode _ fun _ => h.retireFp _ _ _
  | fcvtDS a b =>
    exact h.withMode .rne fun m => h.retireFp .d a ((Ieee.ofFmt .d).convert (Ieee.ofFmt .s) m (readFp s .s b))
  | feqD _ _ _ => exact h.whenFpOn (h.retireFpX _ _ _)
  | fltD _ _ _ => exact h.whenFpOn (h.retireFpX _ _ _)
  | fleD _ _ _ => exact h.whenFpOn (h.retireFpX _ _ _)
  | fclassD _ _ => exact h.whenFpOn (h.retireX _ _)
  | fcvtWD _ _ _ => exact h.withMode _ fun _ => h.retireFpX _ _ _
  | fcvtWuD _ _ _ => exact h.withMode _ fun _ => h.retireFpX _ _ _
  | fcvtDW a b =>
    exact h.withMode .rne fun m => h.retireFp .d a ((Ieee.ofFmt .d).ofInt m ((readX s b).setWidth 32).toInt)
  | fcvtDWu a b =>
    exact h.withMode .rne fun m => h.retireFp .d a ((Ieee.ofFmt .d).ofInt m ((readX s b).setWidth 32).toNat)
  | cAddi4spn _ _ => exact h.retireX _ _
  | cFld _ _ _ => exact h.fpLoad _ _ _ _
  | cLw _ _ _ => exact h.loadX _ _ _ _ _
  | cFlw _ _ _ => exact h.fpLoad _ _ _ _
  | cFsd _ _ _ => exact h.fpStore _ _ _ _
  | cSw _ _ _ => exact h.storeValue _ _ _ _
  | cFsw _ _ _ => exact h.fpStore _ _ _ _
  | cNop _ => exact h.retireX _ _
  | cAddi _ _ => exact h.retireX _ _
  | cJal _ => exact h.jumpTo _ fun w e => even_add e (even_sextImm w (by decide))
  | cLi _ _ => exact h.retireX _ _
  | cAddi16sp _ => exact h.retireX _ _
  | cLui _ _ => exact h.retireX _ _
  | cSrli _ _ => exact h.retireX _ _
  | cSrai _ _ => exact h.retireX _ _
  | cAndi _ _ => exact h.retireX _ _
  | cSub _ _ => exact h.retireX _ _
  | cXor _ _ => exact h.retireX _ _
  | cOr _ _ => exact h.retireX _ _
  | cAnd _ _ => exact h.retireX _ _
  | cJ _ => exact h.jumpTo _ fun w e => even_add e (even_sextImm w (by decide))
  | cBeqz _ _ => exact h.branchOn _ (by decide) id
  | cBnez _ _ => exact h.branchOn _ (by decide) id
  | cSlli _ _ => exact h.retireX _ _
  | cFldsp _ _ => exact h.fpLoad _ _ _ _
  | cLwsp _ _ => exact h.loadX _ _ _ _ _
  | cFlwsp _ _ => exact h.fpLoad _ _ _ _
  | cJr _ => exact h.jumpTo _ fun _ _ => even_mask _
  | cMv _ _ => exact h.retireX _ _
  | cEbreak => exact h.raise (by decide) _
  | cJalr _ => exact h.jumpTo _ fun _ _ => even_mask _
  | cAdd _ _ => exact h.retireX _ _
  | cFsdsp _ _ => exact h.fpStore _ _ _ _
  | cSwsp _ _ => exact h.storeValue _ _ _ _
  | cFswsp _ _ => exact h.fpStore _ _ _ _

end
end Sys2Proof.Machine
end

