-- ==== Sys2Proof/Laws/Access.lean ====
section
/-! SUPPORT. Accesses to data, the atomics, the Zicsr access, FP results and fetching: what each shared operation does, said once. -/

namespace Sys2Proof.Machine

/-! ### Loads and the exceptions of an access -/

/-- A load is the number whose bytes it reads. -/
theorem loadNat_of_bytes (x : Xlen) (m : List Host.Cell) {n : Nat} {a : XWord} {v : Nat}
    (h : ∀ k, k < n → byteAt m (addrKey x (a + BitVec.ofNat 64 k)) = BitVec.ofNat 8 (v / 256 ^ k)) :
    loadNat x m n a = v % 256 ^ n := by
  induction n generalizing a v with
  | zero => simp [loadNat, Nat.mod_one]
  | succ n ih =>
    have h0 := h 0 (by omega)
    rw [show BitVec.ofNat 64 0 = 0#64 from rfl, BitVec.add_zero] at h0
    rw [loadNat, h0, ih (v := v / 256), BitVec.toNat_ofNat, show 256 ^ (n + 1) = 256 * 256 ^ n by rw [Nat.pow_succ, Nat.mul_comm],
      Nat.mod_mul]
    · simp
    intro k hk
    have hstep : a + 1 + BitVec.ofNat 64 k = a + BitVec.ofNat 64 (k + 1) := by
      apply BitVec.eq_of_toNat_eq; simp; omega
    rw [hstep, h (k + 1) (by omega), Nat.div_div_eq_div_mul, Nat.pow_succ, Nat.mul_comm (256 ^ k)]

/-- An access meets a barrier that stops it at one of its bytes. -/
theorem meets_iff {s : State} {b : Barrier} {kind : AccessKind} {a : XWord} {n : Nat} :
    meets s b kind a n = true ↔ ∃ k, k < n ∧ stops s b kind (addrKey s.xlen (a + BitVec.ofNat 64 k)) = true := by
  induction n generalizing a with
  | zero => simp [meets]
  | succ n ih =>
    have step : ∀ k, a + 1 + BitVec.ofNat 64 k = a + BitVec.ofNat 64 (k + 1) := fun k => by
      apply BitVec.eq_of_toNat_eq; simp; omega
    rw [meets, Bool.or_eq_true, ih]
    constructor
    · rintro (h | ⟨k, hk, h⟩)
      · exact ⟨0, by omega, by simpa using h⟩
      · exact ⟨k + 1, by omega, by rwa [← step]⟩
    · rintro ⟨k, hk, h⟩
      cases k with
      | zero => exact .inl (by simpa using h)
      | succ k => exact .inr ⟨k, by omega, by rwa [step]⟩

/-- An access is misaligned and meets with a response. -/
theorem misalignedWith_iff {s : State} {kind : AccessKind} {a : XWord} {n : Nat} {r : Misaligned} :
    misalignedWith s kind a n r = true ↔ addrKey s.xlen a % n ≠ 0 ∧ misalignedResponse s kind = r := by
  rw [misalignedWith, Bool.and_eq_true, beq_iff_eq]
  simp [aligned]

/-- The trap value of an exception that is no breakpoint. -/
theorem accessTval_address {s : State} {code : Nat} {a : XWord} (h : code ≠ breakpointCode) :
    accessTval s code a = narrow s.xlen a := if_neg h

/-- An instruction that raises an exception with an address takes it. -/
theorem traps_of_raise {i : Instr} {code : Nat} {a : XWord} {s : State} (hw : cellsWf 0 s.csrs = true) (hc : code < 2 ^ 32)
    (h : exec i s = raise i code (narrow s.xlen a) s) : Traps i code a s := by
  obtain ⟨t, h1, h2, h3, h4⟩ := raise_effect i code (narrow s.xlen a) s hw hc
  exact ⟨t, h.trans h1, h2, h3, { h4 with mtval := by rw [h4.mtval, narrow_narrow] }⟩

/-- An instruction that makes an access takes the exceptions of the access in their order. -/
theorem trapsByPriority_of_withAccess {i : Instr} {kind : AccessKind} {a : XWord} {n : Nat} {s : State}
    {body : Host.Outcome State Fault Refusal} (hw : cellsWf 0 s.csrs = true) (h : exec i s = withAccess i kind a n s body) :
    TrapsByPriority i kind (misalignedCode kind) (accessFaultCode kind) (pageFaultCode kind) a n s := by
  have met : ∀ b, Met s b kind a n ↔ meets s b kind a n = true := fun b => meets_iff.symm
  have first : MisalignedFirst s kind a n ↔
      (misalignedWith s kind a n .misalignedException && !s.cfg.misalignedLast) = true := by
    simp [MisalignedFirst, misalignedWith_iff, and_assoc]
  have trap : ∀ code, code ≠ breakpointCode → code < 2 ^ 32 → accessException s kind a n = some code → Traps i code a s :=
    fun code hb hlt hc => traps_of_raise hw hlt (by rw [h, withAccess_trap _ _ _ _ _ _ hc, accessTval_address hb])
  have hmis : misalignedCode kind ≠ breakpointCode ∧ misalignedCode kind < 2 ^ 32 := by cases kind <;> decide
  have hfault : accessFaultCode kind ≠ breakpointCode ∧ accessFaultCode kind < 2 ^ 32 := by cases kind <;> decide
  have hpage : pageFaultCode kind ≠ breakpointCode ∧ pageFaultCode kind < 2 ^ 32 := by cases kind <;> decide
  simp only [Bool.and_eq_true] at first
  constructor <;> simp only [met, first, Bool.not_eq_true]
  · intro h1
    have hc : accessException s kind a n = some breakpointCode := by simp [accessException, h1]
    obtain ⟨t, t1, t2, t3, t4⟩ := raise_effect i breakpointCode s.pc s hw (by decide)
    exact ⟨t, by rw [h, withAccess_trap _ _ _ _ _ _ hc, accessTval, if_pos rfl]; exact t1, t2, t3, t4⟩
  · intro h1 h2
    exact trap _ hmis.1 hmis.2 (by simp [accessException, h1, h2])
  · intro h1 h2 h3
    exact trap _ hpage.1 hpage.2 (by simp only [accessException, h1, h3, Bool.and_eq_true, if_neg h2]; rfl)
  · intro h1 h2 h3 h4
    refine trap _ hfault.1 hfault.2 ?_
    simp only [accessException, h1, h3, Bool.and_eq_true, if_neg h2]
    rcases h4 with h4 | h4 | h4
    · simp [h4]
    · simp [h4]
    · simp [misalignedWith_iff.2 h4]
  · intro h1 h2 h3 h4
    refine trap _ hmis.1 hmis.2 ?_
    have h5 : misalignedWith s kind a n .accessFault = false := by
      rw [← Bool.not_eq_true, misalignedWith_iff, h3]; simp
    simp [accessException, h1, h4, h5, misalignedWith_iff.2 ⟨h2, h3⟩]

/-! ### Jump targets -/

theorem toNat_clear_bit0 (a : XWord) : (a &&& ~~~1#64).toNat = a.toNat / 2 * 2 := by
  have h : a &&& ~~~1#64 = (a >>> 1) <<< 1 := by
    apply BitVec.eq_of_getLsbD_eq; intro k hk
    simp only [BitVec.getLsbD_and, BitVec.getLsbD_not, BitVec.getLsbD_shiftLeft, BitVec.getLsbD_ushiftRight,
      BitVec.getLsbD_one]
    by_cases h0 : k = 0
    · simp [h0]
    · simp [h0, hk, show 1 + (k - 1) = k by omega]
  rw [h, BitVec.toNat_shiftLeft, BitVec.toNat_ushiftRight, Nat.shiftLeft_eq, Nat.shiftRight_eq_div_pow]
  have := a.isLt
  omega

theorem narrow_clear_bit0 (x : Xlen) (a : XWord) : (narrow x (a &&& ~~~1#64)).toNat = (narrow x a).toNat / 2 * 2 := by
  rw [narrow_toNat, narrow_toNat, toNat_clear_bit0]
  cases x <;> simp only [Xlen.bits] <;> omega

theorem pc_add_sextImm (s : State) {n : Nat} (b : BitVec n) :
    (narrow s.xlen (s.pc + sextImm b)).toNat = modX s.xlen (s.pc.toNat + b.toInt) :=
  narrow_eq_modX _ _ _ (by rw [BitVec.ofInt_add, ofInt_toNat, sextImm_eq_ofInt])

/-! ### The atomics -/

theorem loadWord_toNat (s : State) (a : XWord) : (loadWord s a).toNat = loadNat s.xlen s.mem 4 a := by
  rw [loadWord, BitVec.toNat_ofNat]; exact loadNat_mod s.xlen s.mem 4 a

theorem loadWord_signExtend (s : State) (a : XWord) :
    (loadWord s a).signExtend 64 = BitVec.ofInt 64 (twos 32 (loadNat s.xlen s.mem 4 a)) := by
  rw [signExtend_eq_ofInt, ← twos_toNat (by decide), loadWord_toNat]

/-- A reservation registered at an aligned word holds the word. -/
theorem reserved_reserve {s : State} {a : XWord} (hal : addrKey s.xlen a % 4 = 0) : reserved (reserve s a) a = true := by
  simp only [reserved, reserve, List.any_cons, Bool.or_eq_true, reservationAt, Bool.and_eq_true]
  left
  suffices h : ∀ k, k % 4 = 0 → k / (4 * 2 ^ s.cfg.reservationLog2) * (4 * 2 ^ s.cfg.reservationLog2) ≤ k ∧
      k + 4 ≤ k / (4 * 2 ^ s.cfg.reservationLog2) * (4 * 2 ^ s.cfg.reservationLog2) + 4 * 2 ^ s.cfg.reservationLog2 from
    ⟨decide_eq_true (h _ hal).1, decide_eq_true (h _ hal).2⟩
  intro k hk
  have h2 : 4 * 2 ^ s.cfg.reservationLog2 > 0 := by positivity
  refine ⟨Nat.div_mul_le_self _ _, ?_⟩
  have hd : 4 ∣ 4 * 2 ^ s.cfg.reservationLog2 := Dvd.intro _ rfl
  generalize 4 * 2 ^ s.cfg.reservationLog2 = z at *
  have h3 : k % z % 4 = 0 := by rw [Nat.mod_mod_of_dvd _ hd]; exact hk
  have h4 : k % z < z := Nat.mod_lt _ h2
  have h5 : z % 4 = 0 := Nat.mod_eq_zero_of_dvd hd
  have h6 := Nat.div_add_mod k z
  rw [Nat.mul_comm] at h6
  omega

/-- What a failing store-conditional writes is not 0, whatever the free value. -/
theorem scFailureValue_ne_zero (s : State) : narrow s.xlen (scFailureValue s) ≠ 0 := by
  simp only [scFailureValue]
  split
  · cases s.xlen <;> decide
  · rename_i hz; rw [narrow_narrow]; exact hz

/-- An AMO: everything it does where the access raises no exception. -/
theorem amo_effect (i : Instr) (f : BitVec 32 → BitVec 32 → BitVec 32) (rd addr src : Reg) (s : State)
    (hm : Memory.wf s.mem = true) (hok : AccessOk s .amo (readX s addr) 4) :
    ∃ t, amo i f rd addr src s = .next t ∧ Answers i s t ∧ Advances i s t ∧
      regU t rd = (if rd = 0 then 0 else modX s.xlen (twos 32 (loadNat s.xlen s.mem 4 (readX s addr)))) ∧
      Stores s t (readX s addr) 4 (f (loadWord s (readX s addr)) ((readX s src).setWidth 32)).toNat ∧
      KeepsXBut rd s t ∧ KeepsInputs s t ∧ KeepsF s t ∧ KeepsFcsr s t ∧ KeepsSystem s t ∧ KeepsImem s t ∧
      KeepsReservations s t := by
  simp only [amo, withAccess_ok _ _ _ _ _ _ hok]
  have rx : ∀ (q v : XWord) (w : Nat) (k : Reg),
      readX { emit i (writeX (storeMem s (readX s addr) 4 w) rd v) with pc := q } k = readX (writeX s rd v) k :=
    fun _ _ _ _ => by unfold writeX; split <;> rfl
  refine ⟨_, rfl, ?_, ?_, ?_, ?_, ?_, ?_⟩
  · simp [Answers]
  · simpa [Advances] using nextPc_toNat i s
  · rw [regU, rx, readX_writeX_same]; split
    · rfl
    · exact narrow_eq_modX _ _ _ (loadWord_signExtend _ _)
  · exact ⟨fun k hk => by simp only [emit_mem, writeX_mem]; exact byteAt_storeNat s.xlen hm (by decide) _ _ hk,
      fun key hk => by simp only [emit_mem, writeX_mem]; exact byteAt_storeNat_other s.xlen s.mem 4 _ _ key hk⟩
  · intro r hr; rw [rx, readX_writeX_other _ _ _ _ hr]
  · simp [KeepsInputs, KeepsF, KeepsFcsr, KeepsSystem, KeepsImem, KeepsReservations, readF, csrFileGet]

/-! ### CSR accesses -/

theorem exec_zicsrForms {s : State} {rd rs1 : Reg} {c : Csr} {imm : U5} {i : Instr} {writes : Bool} {operand : XWord}
    {new : XWord → XWord → XWord} (h : (i, writes, operand, new) ∈ zicsrForms s rd rs1 c imm) :
    exec i s = csrAccess i rd c writes (fun old => new old operand) s := by
  simp only [zicsrForms, List.mem_cons, List.not_mem_nil, or_false, Prod.mk.injEq] at h
  have e : ∀ r : BitVec 5, (r != 0) = decide (r ≠ 0) := by decide
  rcases h with h | h | h | h | h | h <;> obtain ⟨rfl, rfl, rfl, rfl⟩ := h
  · rfl
  · simp only [exec, execCsrrs, e]
  · simp only [exec, execCsrrc, e]
  · rfl
  · simp only [exec, execCsrrsi, e]; rfl
  · simp only [exec, execCsrrci, e]; rfl

/-! ### FP results -/

theorem accrue_zero (s : State) : accrue s 0#5 = s := by cases s; simp [accrue]

theorem whenFpOn_on {i : Instr} {s : State} (h : s.fpOn = true) (body : Host.Outcome State Fault Refusal) :
    whenFpOn i s body = body := by simp [whenFpOn, h]

theorem whenFpOn_off {i : Instr} {s : State} (h : s.fpOn = false) (body : Host.Outcome State Fault Refusal) :
    whenFpOn i s body = illegal i s := by simp [whenFpOn, h]

/-- A result with no flags: everything it does. -/
theorem retire_writeFp_effect (i : Instr) (p : Fmt) (rd : Reg) (v : Nat) (s : State) :
    ∃ t, retire i s (writeFp s p rd v) = .next t ∧ FpEffect i rd (boxed p v) 0 s t := by
  have := retireFp_effect i p rd ⟨v, 0⟩ s
  rw [retireFp] at this
  dsimp only at this
  rwa [show (0 : BitVec 5) = 0#5 from rfl, accrue_zero] at this

theorem injectSign_eq (F : Ieee.FFormat) (b : Bool) (a : Nat) :
    F.injectSign b a = b.toNat * F.signWeight + a % F.signWeight := by
  cases b <;> simp [Ieee.FFormat.injectSign, Ieee.FFormat.withSign]

theorem signBit_toNat (F : Ieee.FFormat) (a : Nat) : (F.signBit a).toNat = a / F.signWeight % 2 := by
  rw [Ieee.FFormat.signBit]
  rcases Nat.mod_two_eq_zero_or_one (a / F.signWeight) with h | h <;> simp [h]

/-! ### Fetching -/

theorem fetchByte_eq {s : State} {k : Nat} (h : byteAt s.imem k = byteAt s.mem k) : fetchByte s k = byteAt s.mem k := by
  rw [fetchByte, if_pos h.symm]

/-- A word is its four bytes. -/
theorem word_of_bytes (v : Nat) : (BitVec.ofNat 8 (v / 256 ^ 3) ++ BitVec.ofNat 8 (v / 256 ^ 2) ++ BitVec.ofNat 8 (v / 256 ^ 1) ++
    BitVec.ofNat 8 (v / 256 ^ 0) : BitVec 32) = BitVec.ofNat 32 v := by
  apply BitVec.eq_of_toNat_eq
  simp only [BitVec.toNat_append, BitVec.toNat_ofNat]
  rw [← Nat.shiftLeft_add_eq_or_of_lt (by omega), ← Nat.shiftLeft_add_eq_or_of_lt (by omega),
    ← Nat.shiftLeft_add_eq_or_of_lt (by omega)]
  simp only [Nat.shiftLeft_eq]
  omega

/-- What every step does, from what an instruction does and from the two exceptions of the fetch. -/
theorem step_rule {P : State → Prop} {s t : State} (h : step s = .next t)
    (hex : ∀ i, decodeInstr (fetchWord s) s.xlen = some i → NextWith P (exec i (present s)))
    (hrej : P (reject (present s))) (hff : ∀ code, code < 16 → P (fetchFault s code)) : P t := by
  unfold step at h
  split at h
  · rename_i code hc; cases h; exact hff code (accessException_lt hc)
  · split at h
    · rename_i i hi
      obtain ⟨u, h1, h2⟩ := hex i hi
      rw [h1] at h; cases h; exact h2
    · cases h; exact hrej

/-! ### CSR entries -/

/-- A property of every entry survives a write of an entry that has it. -/
theorem forall_csrFileSet {s : State} {a : Nat} {v : XWord} {P : Nat × XWord → Prop} (h : ∀ c ∈ s.csrs, P c)
    (hv : P (a, narrow s.xlen v)) : ∀ c ∈ (csrFileSet s a v).csrs, P c := by
  intro c hc
  rcases mem_cellSet _ hc with h' | h'
  · exact h c h'
  · rw [h']; exact hv

end Sys2Proof.Machine
end

