-- ==== Sys2Proof/Laws/Fields.lean ====
section
/-! SUPPORT. The fields of a word or parcel built by the encoder, and the word rebuilt from its fields: what a proof that decode and
encode agree needs, said once per format. -/

namespace Sys2Proof

/-- Equality of vectors of a given width, bit by bit. -/
theorem eq_of_bits {n : Nat} {a b : BitVec n} (h : ∀ k, k < n → a.getLsbD k = b.getLsbD k) : a = b :=
  BitVec.eq_of_getLsbD_eq fun k hk => h k hk

theorem lowZero_bit {k n : Nat} {v : BitVec k} (h : lowZero v n = true) {i : Nat} (hi : i < n) : v.getLsbD i = false := by
  have h0 : v.toNat % 2 ^ n = 0 := by simpa [lowZero] using h
  have := congrArg (fun m => Nat.testBit m i) h0
  simpa [BitVec.getLsbD, Nat.testBit_mod_two_pow, hi] using this

open WField PField

/-! ### The fields of the 32-bit formats -/

@[simp] theorem opcode_rWord (f7 : BitVec 7) (s2 s1 : Reg) (f3 : BitVec 3) (d : Reg) (o : BitVec 7) :
    WField.opcode (rWord f7 s2 s1 f3 d o) = o := by
  apply eq_of_bits; intro k hk
  simp only [WField.opcode, rWord, BitVec.getLsbD_extractLsb', BitVec.getLsbD_append]
  interval_cases k <;> simp

@[simp] theorem rd_rWord (f7 : BitVec 7) (s2 s1 : Reg) (f3 : BitVec 3) (d : Reg) (o : BitVec 7) :
    WField.rd (rWord f7 s2 s1 f3 d o) = d := by
  apply eq_of_bits; intro k hk
  simp only [WField.rd, rWord, BitVec.getLsbD_extractLsb', BitVec.getLsbD_append]
  interval_cases k <;> simp

@[simp] theorem funct3_rWord (f7 : BitVec 7) (s2 s1 : Reg) (f3 : BitVec 3) (d : Reg) (o : BitVec 7) :
    WField.funct3 (rWord f7 s2 s1 f3 d o) = f3 := by
  apply eq_of_bits; intro k hk
  simp only [WField.funct3, rWord, BitVec.getLsbD_extractLsb', BitVec.getLsbD_append]
  interval_cases k <;> simp

@[simp] theorem rs1_rWord (f7 : BitVec 7) (s2 s1 : Reg) (f3 : BitVec 3) (d : Reg) (o : BitVec 7) :
    WField.rs1 (rWord f7 s2 s1 f3 d o) = s1 := by
  apply eq_of_bits; intro k hk
  simp only [WField.rs1, rWord, BitVec.getLsbD_extractLsb', BitVec.getLsbD_append]
  interval_cases k <;> simp

@[simp] theorem rs2_rWord (f7 : BitVec 7) (s2 s1 : Reg) (f3 : BitVec 3) (d : Reg) (o : BitVec 7) :
    WField.rs2 (rWord f7 s2 s1 f3 d o) = s2 := by
  apply eq_of_bits; intro k hk
  simp only [WField.rs2, rWord, BitVec.getLsbD_extractLsb', BitVec.getLsbD_append]
  interval_cases k <;> simp

@[simp] theorem funct7_rWord (f7 : BitVec 7) (s2 s1 : Reg) (f3 : BitVec 3) (d : Reg) (o : BitVec 7) :
    WField.funct7 (rWord f7 s2 s1 f3 d o) = f7 := by
  apply eq_of_bits; intro k hk
  simp only [WField.funct7, rWord, BitVec.getLsbD_extractLsb', BitVec.getLsbD_append]
  interval_cases k <;> simp

@[simp] theorem rs3_rWord (f7 : BitVec 7) (s2 s1 : Reg) (f3 : BitVec 3) (d : Reg) (o : BitVec 7) :
    WField.rs3 (rWord f7 s2 s1 f3 d o) = f7.extractLsb' 2 5 := by
  apply eq_of_bits; intro k hk
  simp only [WField.rs3, rWord, BitVec.getLsbD_extractLsb', BitVec.getLsbD_append]
  interval_cases k <;> simp

@[simp] theorem fmt_rWord (f7 : BitVec 7) (s2 s1 : Reg) (f3 : BitVec 3) (d : Reg) (o : BitVec 7) :
    WField.fmt (rWord f7 s2 s1 f3 d o) = f7.extractLsb' 0 2 := by
  apply eq_of_bits; intro k hk
  simp only [WField.fmt, rWord, BitVec.getLsbD_extractLsb', BitVec.getLsbD_append]
  interval_cases k <;> simp

@[simp] theorem aq_rWord (f7 : BitVec 7) (s2 s1 : Reg) (f3 : BitVec 3) (d : Reg) (o : BitVec 7) :
    WField.aq (rWord f7 s2 s1 f3 d o) = f7.extractLsb' 1 1 := by
  apply eq_of_bits; intro k hk
  simp only [WField.aq, rWord, BitVec.getLsbD_extractLsb', BitVec.getLsbD_append]
  interval_cases k
  simp

@[simp] theorem rl_rWord (f7 : BitVec 7) (s2 s1 : Reg) (f3 : BitVec 3) (d : Reg) (o : BitVec 7) :
    WField.rl (rWord f7 s2 s1 f3 d o) = f7.extractLsb' 0 1 := by
  apply eq_of_bits; intro k hk
  simp only [WField.rl, rWord, BitVec.getLsbD_extractLsb', BitVec.getLsbD_append]
  interval_cases k
  simp

@[simp] theorem isLong_rWord (f7 : BitVec 7) (s2 s1 : Reg) (f3 : BitVec 3) (d : Reg) (o : BitVec 7) :
    isLong (rWord f7 s2 s1 f3 d o) = (o.extractLsb' 0 2 == 0b11#2) := by
  unfold isLong; congr 1
  apply eq_of_bits; intro k hk
  simp only [rWord, BitVec.getLsbD_extractLsb', BitVec.getLsbD_append]
  interval_cases k <;> simp

@[simp] theorem opcode_iWord (m : BitVec 12) (s1 : Reg) (f3 : BitVec 3) (d : Reg) (o : BitVec 7) :
    WField.opcode (iWord m s1 f3 d o) = o := by
  apply eq_of_bits; intro k hk
  simp only [WField.opcode, iWord, BitVec.getLsbD_extractLsb', BitVec.getLsbD_append]
  interval_cases k <;> simp

@[simp] theorem rd_iWord (m : BitVec 12) (s1 : Reg) (f3 : BitVec 3) (d : Reg) (o : BitVec 7) :
    WField.rd (iWord m s1 f3 d o) = d := by
  apply eq_of_bits; intro k hk
  simp only [WField.rd, iWord, BitVec.getLsbD_extractLsb', BitVec.getLsbD_append]
  interval_cases k <;> simp

@[simp] theorem funct3_iWord (m : BitVec 12) (s1 : Reg) (f3 : BitVec 3) (d : Reg) (o : BitVec 7) :
    WField.funct3 (iWord m s1 f3 d o) = f3 := by
  apply eq_of_bits; intro k hk
  simp only [WField.funct3, iWord, BitVec.getLsbD_extractLsb', BitVec.getLsbD_append]
  interval_cases k <;> simp

@[simp] theorem rs1_iWord (m : BitVec 12) (s1 : Reg) (f3 : BitVec 3) (d : Reg) (o : BitVec 7) :
    WField.rs1 (iWord m s1 f3 d o) = s1 := by
  apply eq_of_bits; intro k hk
  simp only [WField.rs1, iWord, BitVec.getLsbD_extractLsb', BitVec.getLsbD_append]
  interval_cases k <;> simp

@[simp] theorem immI_iWord (m : BitVec 12) (s1 : Reg) (f3 : BitVec 3) (d : Reg) (o : BitVec 7) :
    WField.immI (iWord m s1 f3 d o) = m := by
  apply eq_of_bits; intro k hk
  simp only [WField.immI, iWord, BitVec.getLsbD_extractLsb', BitVec.getLsbD_append]
  interval_cases k <;> simp

@[simp] theorem csr_iWord (m : BitVec 12) (s1 : Reg) (f3 : BitVec 3) (d : Reg) (o : BitVec 7) :
    WField.csr (iWord m s1 f3 d o) = m := by
  apply eq_of_bits; intro k hk
  simp only [WField.csr, iWord, BitVec.getLsbD_extractLsb', BitVec.getLsbD_append]
  interval_cases k <;> simp

@[simp] theorem isLong_iWord (m : BitVec 12) (s1 : Reg) (f3 : BitVec 3) (d : Reg) (o : BitVec 7) :
    isLong (iWord m s1 f3 d o) = (o.extractLsb' 0 2 == 0b11#2) := by
  unfold isLong; congr 1
  apply eq_of_bits; intro k hk
  simp only [iWord, BitVec.getLsbD_extractLsb', BitVec.getLsbD_append]
  interval_cases k <;> simp

@[simp] theorem opcode_sWord (m : BitVec 12) (s2 s1 : Reg) (f3 : BitVec 3) (o : BitVec 7) :
    WField.opcode (sWord m s2 s1 f3 o) = o := by
  apply eq_of_bits; intro k hk
  simp only [WField.opcode, sWord, BitVec.getLsbD_extractLsb', BitVec.getLsbD_append]
  interval_cases k <;> simp

@[simp] theorem funct3_sWord (m : BitVec 12) (s2 s1 : Reg) (f3 : BitVec 3) (o : BitVec 7) :
    WField.funct3 (sWord m s2 s1 f3 o) = f3 := by
  apply eq_of_bits; intro k hk
  simp only [WField.funct3, sWord, BitVec.getLsbD_extractLsb', BitVec.getLsbD_append]
  interval_cases k <;> simp

@[simp] theorem rs1_sWord (m : BitVec 12) (s2 s1 : Reg) (f3 : BitVec 3) (o : BitVec 7) :
    WField.rs1 (sWord m s2 s1 f3 o) = s1 := by
  apply eq_of_bits; intro k hk
  simp only [WField.rs1, sWord, BitVec.getLsbD_extractLsb', BitVec.getLsbD_append]
  interval_cases k <;> simp

@[simp] theorem rs2_sWord (m : BitVec 12) (s2 s1 : Reg) (f3 : BitVec 3) (o : BitVec 7) :
    WField.rs2 (sWord m s2 s1 f3 o) = s2 := by
  apply eq_of_bits; intro k hk
  simp only [WField.rs2, sWord, BitVec.getLsbD_extractLsb', BitVec.getLsbD_append]
  interval_cases k <;> simp

@[simp] theorem immS_sWord (m : BitVec 12) (s2 s1 : Reg) (f3 : BitVec 3) (o : BitVec 7) :
    WField.immS (sWord m s2 s1 f3 o) = m := by
  apply eq_of_bits; intro k hk
  simp only [WField.immS, sWord, BitVec.getLsbD_extractLsb', BitVec.getLsbD_append]
  interval_cases k <;> simp

@[simp] theorem isLong_sWord (m : BitVec 12) (s2 s1 : Reg) (f3 : BitVec 3) (o : BitVec 7) :
    isLong (sWord m s2 s1 f3 o) = (o.extractLsb' 0 2 == 0b11#2) := by
  unfold isLong; congr 1
  apply eq_of_bits; intro k hk
  simp only [sWord, BitVec.getLsbD_extractLsb', BitVec.getLsbD_append]
  interval_cases k <;> simp

@[simp] theorem opcode_bWord (m : BitVec 13) (s2 s1 : Reg) (f3 : BitVec 3) (o : BitVec 7) :
    WField.opcode (bWord m s2 s1 f3 o) = o := by
  apply eq_of_bits; intro k hk
  simp only [WField.opcode, bWord, BitVec.getLsbD_extractLsb', BitVec.getLsbD_append]
  interval_cases k <;> simp

@[simp] theorem funct3_bWord (m : BitVec 13) (s2 s1 : Reg) (f3 : BitVec 3) (o : BitVec 7) :
    WField.funct3 (bWord m s2 s1 f3 o) = f3 := by
  apply eq_of_bits; intro k hk
  simp only [WField.funct3, bWord, BitVec.getLsbD_extractLsb', BitVec.getLsbD_append]
  interval_cases k <;> simp

@[simp] theorem rs1_bWord (m : BitVec 13) (s2 s1 : Reg) (f3 : BitVec 3) (o : BitVec 7) :
    WField.rs1 (bWord m s2 s1 f3 o) = s1 := by
  apply eq_of_bits; intro k hk
  simp only [WField.rs1, bWord, BitVec.getLsbD_extractLsb', BitVec.getLsbD_append]
  interval_cases k <;> simp

@[simp] theorem rs2_bWord (m : BitVec 13) (s2 s1 : Reg) (f3 : BitVec 3) (o : BitVec 7) :
    WField.rs2 (bWord m s2 s1 f3 o) = s2 := by
  apply eq_of_bits; intro k hk
  simp only [WField.rs2, bWord, BitVec.getLsbD_extractLsb', BitVec.getLsbD_append]
  interval_cases k <;> simp

@[simp] theorem isLong_bWord (m : BitVec 13) (s2 s1 : Reg) (f3 : BitVec 3) (o : BitVec 7) :
    isLong (bWord m s2 s1 f3 o) = (o.extractLsb' 0 2 == 0b11#2) := by
  unfold isLong; congr 1
  apply eq_of_bits; intro k hk
  simp only [bWord, BitVec.getLsbD_extractLsb', BitVec.getLsbD_append]
  interval_cases k <;> simp

@[simp] theorem opcode_uWord (m : BitVec 20) (d : Reg) (o : BitVec 7) :
    WField.opcode (uWord m d o) = o := by
  apply eq_of_bits; intro k hk
  simp only [WField.opcode, uWord, BitVec.getLsbD_extractLsb', BitVec.getLsbD_append]
  interval_cases k <;> simp

@[simp] theorem rd_uWord (m : BitVec 20) (d : Reg) (o : BitVec 7) :
    WField.rd (uWord m d o) = d := by
  apply eq_of_bits; intro k hk
  simp only [WField.rd, uWord, BitVec.getLsbD_extractLsb', BitVec.getLsbD_append]
  interval_cases k <;> simp

@[simp] theorem immU_uWord (m : BitVec 20) (d : Reg) (o : BitVec 7) :
    WField.immU (uWord m d o) = m := by
  apply eq_of_bits; intro k hk
  simp only [WField.immU, uWord, BitVec.getLsbD_extractLsb', BitVec.getLsbD_append]
  interval_cases k <;> simp

@[simp] theorem isLong_uWord (m : BitVec 20) (d : Reg) (o : BitVec 7) :
    isLong (uWord m d o) = (o.extractLsb' 0 2 == 0b11#2) := by
  unfold isLong; congr 1
  apply eq_of_bits; intro k hk
  simp only [uWord, BitVec.getLsbD_extractLsb', BitVec.getLsbD_append]
  interval_cases k <;> simp

@[simp] theorem opcode_jWord (m : BitVec 21) (d : Reg) (o : BitVec 7) :
    WField.opcode (jWord m d o) = o := by
  apply eq_of_bits; intro k hk
  simp only [WField.opcode, jWord, BitVec.getLsbD_extractLsb', BitVec.getLsbD_append]
  interval_cases k <;> simp

@[simp] theorem rd_jWord (m : BitVec 21) (d : Reg) (o : BitVec 7) :
    WField.rd (jWord m d o) = d := by
  apply eq_of_bits; intro k hk
  simp only [WField.rd, jWord, BitVec.getLsbD_extractLsb', BitVec.getLsbD_append]
  interval_cases k <;> simp

@[simp] theorem isLong_jWord (m : BitVec 21) (d : Reg) (o : BitVec 7) :
    isLong (jWord m d o) = (o.extractLsb' 0 2 == 0b11#2) := by
  unfold isLong; congr 1
  apply eq_of_bits; intro k hk
  simp only [jWord, BitVec.getLsbD_extractLsb', BitVec.getLsbD_append]
  interval_cases k <;> simp

@[simp] theorem opcode_fenceWord (f p u : BitVec 4) (s1 : Reg) (f3 : BitVec 3) (d : Reg) (o : BitVec 7) :
    WField.opcode (fenceWord f p u s1 f3 d o) = o := by
  apply eq_of_bits; intro k hk
  simp only [WField.opcode, fenceWord, BitVec.getLsbD_extractLsb', BitVec.getLsbD_append]
  interval_cases k <;> simp

@[simp] theorem rd_fenceWord (f p u : BitVec 4) (s1 : Reg) (f3 : BitVec 3) (d : Reg) (o : BitVec 7) :
    WField.rd (fenceWord f p u s1 f3 d o) = d := by
  apply eq_of_bits; intro k hk
  simp only [WField.rd, fenceWord, BitVec.getLsbD_extractLsb', BitVec.getLsbD_append]
  interval_cases k <;> simp

@[simp] theorem funct3_fenceWord (f p u : BitVec 4) (s1 : Reg) (f3 : BitVec 3) (d : Reg) (o : BitVec 7) :
    WField.funct3 (fenceWord f p u s1 f3 d o) = f3 := by
  apply eq_of_bits; intro k hk
  simp only [WField.funct3, fenceWord, BitVec.getLsbD_extractLsb', BitVec.getLsbD_append]
  interval_cases k <;> simp

@[simp] theorem rs1_fenceWord (f p u : BitVec 4) (s1 : Reg) (f3 : BitVec 3) (d : Reg) (o : BitVec 7) :
    WField.rs1 (fenceWord f p u s1 f3 d o) = s1 := by
  apply eq_of_bits; intro k hk
  simp only [WField.rs1, fenceWord, BitVec.getLsbD_extractLsb', BitVec.getLsbD_append]
  interval_cases k <;> simp

@[simp] theorem fm_fenceWord (f p u : BitVec 4) (s1 : Reg) (f3 : BitVec 3) (d : Reg) (o : BitVec 7) :
    WField.fm (fenceWord f p u s1 f3 d o) = f := by
  apply eq_of_bits; intro k hk
  simp only [WField.fm, fenceWord, BitVec.getLsbD_extractLsb', BitVec.getLsbD_append]
  interval_cases k <;> simp

@[simp] theorem pred_fenceWord (f p u : BitVec 4) (s1 : Reg) (f3 : BitVec 3) (d : Reg) (o : BitVec 7) :
    WField.pred (fenceWord f p u s1 f3 d o) = p := by
  apply eq_of_bits; intro k hk
  simp only [WField.pred, fenceWord, BitVec.getLsbD_extractLsb', BitVec.getLsbD_append]
  interval_cases k <;> simp

@[simp] theorem succ_fenceWord (f p u : BitVec 4) (s1 : Reg) (f3 : BitVec 3) (d : Reg) (o : BitVec 7) :
    WField.succ (fenceWord f p u s1 f3 d o) = u := by
  apply eq_of_bits; intro k hk
  simp only [WField.succ, fenceWord, BitVec.getLsbD_extractLsb', BitVec.getLsbD_append]
  interval_cases k <;> simp

@[simp] theorem isLong_fenceWord (f p u : BitVec 4) (s1 : Reg) (f3 : BitVec 3) (d : Reg) (o : BitVec 7) :
    isLong (fenceWord f p u s1 f3 d o) = (o.extractLsb' 0 2 == 0b11#2) := by
  unfold isLong; congr 1
  apply eq_of_bits; intro k hk
  simp only [fenceWord, BitVec.getLsbD_extractLsb', BitVec.getLsbD_append]
  interval_cases k <;> simp

theorem immB_bWord (m : BitVec 13) (s2 s1 : Reg) (f3 : BitVec 3) (o : BitVec 7) (h : lowZero m 1 = true) :
    WField.immB (bWord m s2 s1 f3 o) = m := by
  have h0 : m[0] = false := by simpa using lowZero_bit h (i := 0) (by decide)
  apply eq_of_bits; intro k hk
  simp only [WField.immB, bWord, BitVec.getLsbD_extractLsb', BitVec.getLsbD_append]
  interval_cases k <;> simp [h0]

theorem immJ_jWord (m : BitVec 21) (d : Reg) (o : BitVec 7) (h : lowZero m 1 = true) :
    WField.immJ (jWord m d o) = m := by
  have h0 : m[0] = false := by simpa using lowZero_bit h (i := 0) (by decide)
  apply eq_of_bits; intro k hk
  simp only [WField.immJ, jWord, BitVec.getLsbD_extractLsb', BitVec.getLsbD_append]
  interval_cases k <;> simp [h0]

/-! ### A word from its fields -/

theorem rWord_fields (w : Word) : rWord (funct7 w) (WField.rs2 w) (WField.rs1 w) (WField.funct3 w) (WField.rd w) (opcode w) = w := by
  apply eq_of_bits; intro k hk
  simp only [rWord, WField.funct7, WField.rs2, WField.rs1, WField.funct3, WField.rd, WField.opcode, BitVec.getLsbD_extractLsb', BitVec.getLsbD_append]
  interval_cases k <;> simp

theorem iWord_fields (w : Word) : iWord (WField.immI w) (WField.rs1 w) (WField.funct3 w) (WField.rd w) (opcode w) = w := by
  apply eq_of_bits; intro k hk
  simp only [iWord, WField.immI, WField.rs1, WField.funct3, WField.rd, WField.opcode, BitVec.getLsbD_extractLsb', BitVec.getLsbD_append]
  interval_cases k <;> simp

theorem iWord_csr_fields (w : Word) : iWord (csr w) (WField.rs1 w) (WField.funct3 w) (WField.rd w) (opcode w) = w := by
  apply eq_of_bits; intro k hk
  simp only [iWord, WField.csr, WField.rs1, WField.funct3, WField.rd, WField.opcode, BitVec.getLsbD_extractLsb', BitVec.getLsbD_append]
  interval_cases k <;> simp

theorem sWord_fields (w : Word) : sWord (WField.immS w) (WField.rs2 w) (WField.rs1 w) (WField.funct3 w) (opcode w) = w := by
  apply eq_of_bits; intro k hk
  simp only [sWord, WField.immS, WField.rs2, WField.rs1, WField.funct3, WField.opcode, BitVec.getLsbD_extractLsb', BitVec.getLsbD_append]
  interval_cases k <;> simp

theorem bWord_fields (w : Word) : bWord (immB w) (WField.rs2 w) (WField.rs1 w) (WField.funct3 w) (opcode w) = w := by
  apply eq_of_bits; intro k hk
  simp only [bWord, WField.immB, WField.rs2, WField.rs1, WField.funct3, WField.opcode, BitVec.getLsbD_extractLsb', BitVec.getLsbD_append]
  interval_cases k <;> simp

theorem uWord_fields (w : Word) : uWord (WField.immU w) (WField.rd w) (opcode w) = w := by
  apply eq_of_bits; intro k hk
  simp only [uWord, WField.immU, WField.rd, WField.opcode, BitVec.getLsbD_extractLsb', BitVec.getLsbD_append]
  interval_cases k <;> simp

theorem jWord_fields (w : Word) : jWord (immJ w) (WField.rd w) (opcode w) = w := by
  apply eq_of_bits; intro k hk
  simp only [jWord, WField.immJ, WField.rd, WField.opcode, BitVec.getLsbD_extractLsb', BitVec.getLsbD_append]
  interval_cases k <;> simp

theorem fenceWord_fields (w : Word) : fenceWord (fm w) (pred w) (succ w) (WField.rs1 w) (WField.funct3 w) (WField.rd w) (opcode w) = w := by
  apply eq_of_bits; intro k hk
  simp only [fenceWord, WField.fm, WField.pred, WField.succ, WField.rs1, WField.funct3, WField.rd, WField.opcode, BitVec.getLsbD_extractLsb', BitVec.getLsbD_append]
  interval_cases k <;> simp

theorem funct7_fields (w : Word) : rs3 w ++ fmt w = funct7 w := by
  apply eq_of_bits; intro k hk
  simp only [rs3, fmt, funct7, BitVec.getLsbD_extractLsb', BitVec.getLsbD_append]
  interval_cases k <;> simp

theorem funct7_amo_fields (w : Word) : rs3 w ++ aq w ++ rl w = funct7 w := by
  apply eq_of_bits; intro k hk
  simp only [rs3, aq, rl, funct7, BitVec.getLsbD_extractLsb', BitVec.getLsbD_append]
  interval_cases k <;> simp


/-! ### Fields put together -/

@[simp] theorem rs3_append (a : BitVec 5) (b : BitVec 2) : BitVec.extractLsb' 2 5 (a ++ b : BitVec 7) = a := by
  apply eq_of_bits; intro k hk
  simp only [BitVec.getLsbD_extractLsb', BitVec.getLsbD_append]
  interval_cases k <;> simp

@[simp] theorem fmt_append (a : BitVec 5) (b : BitVec 2) : BitVec.extractLsb' 0 2 (a ++ b : BitVec 7) = b := by
  apply eq_of_bits; intro k hk
  simp only [BitVec.getLsbD_extractLsb', BitVec.getLsbD_append]
  interval_cases k <;> simp

@[simp] theorem rs3_amo (f : BitVec 5) (a r : Bit) : BitVec.extractLsb' 2 5 (f ++ a ++ r : BitVec 7) = f := by
  apply eq_of_bits; intro k hk
  simp only [BitVec.getLsbD_extractLsb', BitVec.getLsbD_append]
  interval_cases k <;> simp

@[simp] theorem aq_amo (f : BitVec 5) (a r : Bit) : BitVec.extractLsb' 1 1 (f ++ a ++ r : BitVec 7) = a := by
  apply eq_of_bits; intro k hk
  simp only [BitVec.getLsbD_extractLsb', BitVec.getLsbD_append]
  interval_cases k
  simp

@[simp] theorem rl_amo (f : BitVec 5) (a r : Bit) : BitVec.extractLsb' 0 1 (f ++ a ++ r : BitVec 7) = r := by
  apply eq_of_bits; intro k hk
  simp only [BitVec.getLsbD_extractLsb', BitVec.getLsbD_append]
  interval_cases k
  simp


/-! ### The fields of the 16-bit formats -/

theorem isLong_parcelWord (h : Parcel) : isLong (parcelWord h) = (PField.op h == 0b11#2) := by
  unfold isLong PField.op; congr 1
  apply eq_of_bits; intro k hk
  simp only [parcelWord, BitVec.getLsbD_extractLsb', BitVec.getLsbD_append]
  interval_cases k <;> simp

@[simp] theorem lowParcel_parcelWord (h : Parcel) : lowParcel (parcelWord h) = h := by
  apply eq_of_bits; intro k hk
  simp only [lowParcel, parcelWord, BitVec.getLsbD_extractLsb', BitVec.getLsbD_append]
  simp [hk]

/-- The encoder's word of a parcel is the low half of the word. -/
theorem parcelWord_lowParcel (w : Word) : parcelWord (lowParcel w) = w &&& 0x0000FFFF#32 := by
  apply eq_of_bits; intro k hk
  simp only [lowParcel, parcelWord, BitVec.getLsbD_extractLsb', BitVec.getLsbD_append, BitVec.getLsbD_and]
  interval_cases k <;> simp

@[simp] theorem op_ciwWord (f3 : BitVec 3) (i : BitVec 8) (r : CReg) (q : BitVec 2) :
    PField.op (lowParcel (ciwWord f3 i r q)) = q := by
  rw [ciwWord, lowParcel_parcelWord]
  apply eq_of_bits; intro k hk
  simp only [PField.op, BitVec.getLsbD_extractLsb', BitVec.getLsbD_append]
  interval_cases k <;> simp

@[simp] theorem funct3_ciwWord (f3 : BitVec 3) (i : BitVec 8) (r : CReg) (q : BitVec 2) :
    PField.funct3 (lowParcel (ciwWord f3 i r q)) = f3 := by
  rw [ciwWord, lowParcel_parcelWord]
  apply eq_of_bits; intro k hk
  simp only [PField.funct3, BitVec.getLsbD_extractLsb', BitVec.getLsbD_append]
  interval_cases k <;> simp

@[simp] theorem rs2c_ciwWord (f3 : BitVec 3) (i : BitVec 8) (r : CReg) (q : BitVec 2) :
    PField.rs2' (lowParcel (ciwWord f3 i r q)) = r := by
  rw [ciwWord, lowParcel_parcelWord]
  apply eq_of_bits; intro k hk
  simp only [PField.rs2', BitVec.getLsbD_extractLsb', BitVec.getLsbD_append]
  interval_cases k <;> simp

@[simp] theorem isLong_ciwWord (f3 : BitVec 3) (i : BitVec 8) (r : CReg) (q : BitVec 2) : isLong (ciwWord f3 i r q) = (q == 0b11#2) := by
  rw [ciwWord, isLong_parcelWord, ← lowParcel_parcelWord (_ ++ q)]; exact congrArg (· == 0b11#2) (op_ciwWord f3 i r q)

@[simp] theorem op_clWord (f3 i : BitVec 3) (s : CReg) (j : BitVec 2) (r : CReg) (q : BitVec 2) :
    PField.op (lowParcel (clWord f3 i s j r q)) = q := by
  rw [clWord, lowParcel_parcelWord]
  apply eq_of_bits; intro k hk
  simp only [PField.op, BitVec.getLsbD_extractLsb', BitVec.getLsbD_append]
  interval_cases k <;> simp

@[simp] theorem funct3_clWord (f3 i : BitVec 3) (s : CReg) (j : BitVec 2) (r : CReg) (q : BitVec 2) :
    PField.funct3 (lowParcel (clWord f3 i s j r q)) = f3 := by
  rw [clWord, lowParcel_parcelWord]
  apply eq_of_bits; intro k hk
  simp only [PField.funct3, BitVec.getLsbD_extractLsb', BitVec.getLsbD_append]
  interval_cases k <;> simp

@[simp] theorem rs1c_clWord (f3 i : BitVec 3) (s : CReg) (j : BitVec 2) (r : CReg) (q : BitVec 2) :
    PField.rs1' (lowParcel (clWord f3 i s j r q)) = s := by
  rw [clWord, lowParcel_parcelWord]
  apply eq_of_bits; intro k hk
  simp only [PField.rs1', BitVec.getLsbD_extractLsb', BitVec.getLsbD_append]
  interval_cases k <;> simp

@[simp] theorem rs2c_clWord (f3 i : BitVec 3) (s : CReg) (j : BitVec 2) (r : CReg) (q : BitVec 2) :
    PField.rs2' (lowParcel (clWord f3 i s j r q)) = r := by
  rw [clWord, lowParcel_parcelWord]
  apply eq_of_bits; intro k hk
  simp only [PField.rs2', BitVec.getLsbD_extractLsb', BitVec.getLsbD_append]
  interval_cases k <;> simp

@[simp] theorem isLong_clWord (f3 i : BitVec 3) (s : CReg) (j : BitVec 2) (r : CReg) (q : BitVec 2) : isLong (clWord f3 i s j r q) = (q == 0b11#2) := by
  rw [clWord, isLong_parcelWord, ← lowParcel_parcelWord (_ ++ q)]; exact congrArg (· == 0b11#2) (op_clWord f3 i s j r q)

@[simp] theorem op_ciWord (f3 : BitVec 3) (i : BitVec 1) (d : Reg) (j : BitVec 5) (q : BitVec 2) :
    PField.op (lowParcel (ciWord f3 i d j q)) = q := by
  rw [ciWord, lowParcel_parcelWord]
  apply eq_of_bits; intro k hk
  simp only [PField.op, BitVec.getLsbD_extractLsb', BitVec.getLsbD_append]
  interval_cases k <;> simp

@[simp] theorem funct3_ciWord (f3 : BitVec 3) (i : BitVec 1) (d : Reg) (j : BitVec 5) (q : BitVec 2) :
    PField.funct3 (lowParcel (ciWord f3 i d j q)) = f3 := by
  rw [ciWord, lowParcel_parcelWord]
  apply eq_of_bits; intro k hk
  simp only [PField.funct3, BitVec.getLsbD_extractLsb', BitVec.getLsbD_append]
  interval_cases k <;> simp

@[simp] theorem bit12_ciWord (f3 : BitVec 3) (i : BitVec 1) (d : Reg) (j : BitVec 5) (q : BitVec 2) :
    PField.bit12 (lowParcel (ciWord f3 i d j q)) = i := by
  rw [ciWord, lowParcel_parcelWord]
  apply eq_of_bits; intro k hk
  simp only [PField.bit12, BitVec.getLsbD_extractLsb', BitVec.getLsbD_append]
  interval_cases k
  simp

@[simp] theorem rd_ciWord (f3 : BitVec 3) (i : BitVec 1) (d : Reg) (j : BitVec 5) (q : BitVec 2) :
    PField.rd (lowParcel (ciWord f3 i d j q)) = d := by
  rw [ciWord, lowParcel_parcelWord]
  apply eq_of_bits; intro k hk
  simp only [PField.rd, BitVec.getLsbD_extractLsb', BitVec.getLsbD_append]
  interval_cases k <;> simp

@[simp] theorem rs2_ciWord (f3 : BitVec 3) (i : BitVec 1) (d : Reg) (j : BitVec 5) (q : BitVec 2) :
    PField.rs2 (lowParcel (ciWord f3 i d j q)) = j := by
  rw [ciWord, lowParcel_parcelWord]
  apply eq_of_bits; intro k hk
  simp only [PField.rs2, BitVec.getLsbD_extractLsb', BitVec.getLsbD_append]
  interval_cases k <;> simp

@[simp] theorem isLong_ciWord (f3 : BitVec 3) (i : BitVec 1) (d : Reg) (j : BitVec 5) (q : BitVec 2) : isLong (ciWord f3 i d j q) = (q == 0b11#2) := by
  rw [ciWord, isLong_parcelWord, ← lowParcel_parcelWord (_ ++ q)]; exact congrArg (· == 0b11#2) (op_ciWord f3 i d j q)

@[simp] theorem op_crWord (f4 : BitVec 4) (d s : Reg) (q : BitVec 2) :
    PField.op (lowParcel (crWord f4 d s q)) = q := by
  rw [crWord, lowParcel_parcelWord]
  apply eq_of_bits; intro k hk
  simp only [PField.op, BitVec.getLsbD_extractLsb', BitVec.getLsbD_append]
  interval_cases k <;> simp

@[simp] theorem funct3_crWord (f4 : BitVec 4) (d s : Reg) (q : BitVec 2) :
    PField.funct3 (lowParcel (crWord f4 d s q)) = f4.extractLsb' 1 3 := by
  rw [crWord, lowParcel_parcelWord]
  apply eq_of_bits; intro k hk
  simp only [PField.funct3, BitVec.getLsbD_extractLsb', BitVec.getLsbD_append]
  interval_cases k <;> simp

@[simp] theorem bit12_crWord (f4 : BitVec 4) (d s : Reg) (q : BitVec 2) :
    PField.bit12 (lowParcel (crWord f4 d s q)) = f4.extractLsb' 0 1 := by
  rw [crWord, lowParcel_parcelWord]
  apply eq_of_bits; intro k hk
  simp only [PField.bit12, BitVec.getLsbD_extractLsb', BitVec.getLsbD_append]
  interval_cases k
  simp

@[simp] theorem rd_crWord (f4 : BitVec 4) (d s : Reg) (q : BitVec 2) :
    PField.rd (lowParcel (crWord f4 d s q)) = d := by
  rw [crWord, lowParcel_parcelWord]
  apply eq_of_bits; intro k hk
  simp only [PField.rd, BitVec.getLsbD_extractLsb', BitVec.getLsbD_append]
  interval_cases k <;> simp

@[simp] theorem rs2_crWord (f4 : BitVec 4) (d s : Reg) (q : BitVec 2) :
    PField.rs2 (lowParcel (crWord f4 d s q)) = s := by
  rw [crWord, lowParcel_parcelWord]
  apply eq_of_bits; intro k hk
  simp only [PField.rs2, BitVec.getLsbD_extractLsb', BitVec.getLsbD_append]
  interval_cases k <;> simp

@[simp] theorem isLong_crWord (f4 : BitVec 4) (d s : Reg) (q : BitVec 2) : isLong (crWord f4 d s q) = (q == 0b11#2) := by
  rw [crWord, isLong_parcelWord, ← lowParcel_parcelWord (_ ++ q)]; exact congrArg (· == 0b11#2) (op_crWord f4 d s q)

@[simp] theorem op_cssWord (f3 : BitVec 3) (i : BitVec 6) (s : Reg) (q : BitVec 2) :
    PField.op (lowParcel (cssWord f3 i s q)) = q := by
  rw [cssWord, lowParcel_parcelWord]
  apply eq_of_bits; intro k hk
  simp only [PField.op, BitVec.getLsbD_extractLsb', BitVec.getLsbD_append]
  interval_cases k <;> simp

@[simp] theorem funct3_cssWord (f3 : BitVec 3) (i : BitVec 6) (s : Reg) (q : BitVec 2) :
    PField.funct3 (lowParcel (cssWord f3 i s q)) = f3 := by
  rw [cssWord, lowParcel_parcelWord]
  apply eq_of_bits; intro k hk
  simp only [PField.funct3, BitVec.getLsbD_extractLsb', BitVec.getLsbD_append]
  interval_cases k <;> simp

@[simp] theorem rs2_cssWord (f3 : BitVec 3) (i : BitVec 6) (s : Reg) (q : BitVec 2) :
    PField.rs2 (lowParcel (cssWord f3 i s q)) = s := by
  rw [cssWord, lowParcel_parcelWord]
  apply eq_of_bits; intro k hk
  simp only [PField.rs2, BitVec.getLsbD_extractLsb', BitVec.getLsbD_append]
  interval_cases k <;> simp

@[simp] theorem isLong_cssWord (f3 : BitVec 3) (i : BitVec 6) (s : Reg) (q : BitVec 2) : isLong (cssWord f3 i s q) = (q == 0b11#2) := by
  rw [cssWord, isLong_parcelWord, ← lowParcel_parcelWord (_ ++ q)]; exact congrArg (· == 0b11#2) (op_cssWord f3 i s q)

@[simp] theorem op_caWord (f6 : BitVec 6) (d : CReg) (f2 : BitVec 2) (s : CReg) (q : BitVec 2) :
    PField.op (lowParcel (caWord f6 d f2 s q)) = q := by
  rw [caWord, lowParcel_parcelWord]
  apply eq_of_bits; intro k hk
  simp only [PField.op, BitVec.getLsbD_extractLsb', BitVec.getLsbD_append]
  interval_cases k <;> simp

@[simp] theorem funct3_caWord (f6 : BitVec 6) (d : CReg) (f2 : BitVec 2) (s : CReg) (q : BitVec 2) :
    PField.funct3 (lowParcel (caWord f6 d f2 s q)) = f6.extractLsb' 3 3 := by
  rw [caWord, lowParcel_parcelWord]
  apply eq_of_bits; intro k hk
  simp only [PField.funct3, BitVec.getLsbD_extractLsb', BitVec.getLsbD_append]
  interval_cases k <;> simp

@[simp] theorem bit12_caWord (f6 : BitVec 6) (d : CReg) (f2 : BitVec 2) (s : CReg) (q : BitVec 2) :
    PField.bit12 (lowParcel (caWord f6 d f2 s q)) = f6.extractLsb' 2 1 := by
  rw [caWord, lowParcel_parcelWord]
  apply eq_of_bits; intro k hk
  simp only [PField.bit12, BitVec.getLsbD_extractLsb', BitVec.getLsbD_append]
  interval_cases k
  simp

@[simp] theorem funct2_caWord (f6 : BitVec 6) (d : CReg) (f2 : BitVec 2) (s : CReg) (q : BitVec 2) :
    PField.funct2 (lowParcel (caWord f6 d f2 s q)) = f6.extractLsb' 0 2 := by
  rw [caWord, lowParcel_parcelWord]
  apply eq_of_bits; intro k hk
  simp only [PField.funct2, BitVec.getLsbD_extractLsb', BitVec.getLsbD_append]
  interval_cases k <;> simp

@[simp] theorem rs1c_caWord (f6 : BitVec 6) (d : CReg) (f2 : BitVec 2) (s : CReg) (q : BitVec 2) :
    PField.rs1' (lowParcel (caWord f6 d f2 s q)) = d := by
  rw [caWord, lowParcel_parcelWord]
  apply eq_of_bits; intro k hk
  simp only [PField.rs1', BitVec.getLsbD_extractLsb', BitVec.getLsbD_append]
  interval_cases k <;> simp

@[simp] theorem sub2_caWord (f6 : BitVec 6) (d : CReg) (f2 : BitVec 2) (s : CReg) (q : BitVec 2) :
    PField.sub2 (lowParcel (caWord f6 d f2 s q)) = f2 := by
  rw [caWord, lowParcel_parcelWord]
  apply eq_of_bits; intro k hk
  simp only [PField.sub2, BitVec.getLsbD_extractLsb', BitVec.getLsbD_append]
  interval_cases k <;> simp

@[simp] theorem rs2c_caWord (f6 : BitVec 6) (d : CReg) (f2 : BitVec 2) (s : CReg) (q : BitVec 2) :
    PField.rs2' (lowParcel (caWord f6 d f2 s q)) = s := by
  rw [caWord, lowParcel_parcelWord]
  apply eq_of_bits; intro k hk
  simp only [PField.rs2', BitVec.getLsbD_extractLsb', BitVec.getLsbD_append]
  interval_cases k <;> simp

@[simp] theorem isLong_caWord (f6 : BitVec 6) (d : CReg) (f2 : BitVec 2) (s : CReg) (q : BitVec 2) : isLong (caWord f6 d f2 s q) = (q == 0b11#2) := by
  rw [caWord, isLong_parcelWord, ← lowParcel_parcelWord (_ ++ q)]; exact congrArg (· == 0b11#2) (op_caWord f6 d f2 s q)

@[simp] theorem op_cbWord (f3 i : BitVec 3) (s : CReg) (j : BitVec 5) (q : BitVec 2) :
    PField.op (lowParcel (cbWord f3 i s j q)) = q := by
  rw [cbWord, lowParcel_parcelWord]
  apply eq_of_bits; intro k hk
  simp only [PField.op, BitVec.getLsbD_extractLsb', BitVec.getLsbD_append]
  interval_cases k <;> simp

@[simp] theorem funct3_cbWord (f3 i : BitVec 3) (s : CReg) (j : BitVec 5) (q : BitVec 2) :
    PField.funct3 (lowParcel (cbWord f3 i s j q)) = f3 := by
  rw [cbWord, lowParcel_parcelWord]
  apply eq_of_bits; intro k hk
  simp only [PField.funct3, BitVec.getLsbD_extractLsb', BitVec.getLsbD_append]
  interval_cases k <;> simp

@[simp] theorem rs1c_cbWord (f3 i : BitVec 3) (s : CReg) (j : BitVec 5) (q : BitVec 2) :
    PField.rs1' (lowParcel (cbWord f3 i s j q)) = s := by
  rw [cbWord, lowParcel_parcelWord]
  apply eq_of_bits; intro k hk
  simp only [PField.rs1', BitVec.getLsbD_extractLsb', BitVec.getLsbD_append]
  interval_cases k <;> simp

@[simp] theorem isLong_cbWord (f3 i : BitVec 3) (s : CReg) (j : BitVec 5) (q : BitVec 2) : isLong (cbWord f3 i s j q) = (q == 0b11#2) := by
  rw [cbWord, isLong_parcelWord, ← lowParcel_parcelWord (_ ++ q)]; exact congrArg (· == 0b11#2) (op_cbWord f3 i s j q)

@[simp] theorem op_cbAluWord (f3 : BitVec 3) (i : BitVec 1) (f2 : BitVec 2) (d : CReg) (j : BitVec 5) (q : BitVec 2) :
    PField.op (lowParcel (cbAluWord f3 i f2 d j q)) = q := by
  rw [cbAluWord, lowParcel_parcelWord]
  apply eq_of_bits; intro k hk
  simp only [PField.op, BitVec.getLsbD_extractLsb', BitVec.getLsbD_append]
  interval_cases k <;> simp

@[simp] theorem funct3_cbAluWord (f3 : BitVec 3) (i : BitVec 1) (f2 : BitVec 2) (d : CReg) (j : BitVec 5) (q : BitVec 2) :
    PField.funct3 (lowParcel (cbAluWord f3 i f2 d j q)) = f3 := by
  rw [cbAluWord, lowParcel_parcelWord]
  apply eq_of_bits; intro k hk
  simp only [PField.funct3, BitVec.getLsbD_extractLsb', BitVec.getLsbD_append]
  interval_cases k <;> simp

@[simp] theorem bit12_cbAluWord (f3 : BitVec 3) (i : BitVec 1) (f2 : BitVec 2) (d : CReg) (j : BitVec 5) (q : BitVec 2) :
    PField.bit12 (lowParcel (cbAluWord f3 i f2 d j q)) = i := by
  rw [cbAluWord, lowParcel_parcelWord]
  apply eq_of_bits; intro k hk
  simp only [PField.bit12, BitVec.getLsbD_extractLsb', BitVec.getLsbD_append]
  interval_cases k
  simp

@[simp] theorem funct2_cbAluWord (f3 : BitVec 3) (i : BitVec 1) (f2 : BitVec 2) (d : CReg) (j : BitVec 5) (q : BitVec 2) :
    PField.funct2 (lowParcel (cbAluWord f3 i f2 d j q)) = f2 := by
  rw [cbAluWord, lowParcel_parcelWord]
  apply eq_of_bits; intro k hk
  simp only [PField.funct2, BitVec.getLsbD_extractLsb', BitVec.getLsbD_append]
  interval_cases k <;> simp

@[simp] theorem rs1c_cbAluWord (f3 : BitVec 3) (i : BitVec 1) (f2 : BitVec 2) (d : CReg) (j : BitVec 5) (q : BitVec 2) :
    PField.rs1' (lowParcel (cbAluWord f3 i f2 d j q)) = d := by
  rw [cbAluWord, lowParcel_parcelWord]
  apply eq_of_bits; intro k hk
  simp only [PField.rs1', BitVec.getLsbD_extractLsb', BitVec.getLsbD_append]
  interval_cases k <;> simp

@[simp] theorem rs2_cbAluWord (f3 : BitVec 3) (i : BitVec 1) (f2 : BitVec 2) (d : CReg) (j : BitVec 5) (q : BitVec 2) :
    PField.rs2 (lowParcel (cbAluWord f3 i f2 d j q)) = j := by
  rw [cbAluWord, lowParcel_parcelWord]
  apply eq_of_bits; intro k hk
  simp only [PField.rs2, BitVec.getLsbD_extractLsb', BitVec.getLsbD_append]
  interval_cases k <;> simp

@[simp] theorem isLong_cbAluWord (f3 : BitVec 3) (i : BitVec 1) (f2 : BitVec 2) (d : CReg) (j : BitVec 5) (q : BitVec 2) : isLong (cbAluWord f3 i f2 d j q) = (q == 0b11#2) := by
  rw [cbAluWord, isLong_parcelWord, ← lowParcel_parcelWord (_ ++ q)]; exact congrArg (· == 0b11#2) (op_cbAluWord f3 i f2 d j q)

@[simp] theorem op_cjWord (f3 : BitVec 3) (g : BitVec 11) (q : BitVec 2) :
    PField.op (lowParcel (cjWord f3 g q)) = q := by
  rw [cjWord, lowParcel_parcelWord]
  apply eq_of_bits; intro k hk
  simp only [PField.op, BitVec.getLsbD_extractLsb', BitVec.getLsbD_append]
  interval_cases k <;> simp

@[simp] theorem funct3_cjWord (f3 : BitVec 3) (g : BitVec 11) (q : BitVec 2) :
    PField.funct3 (lowParcel (cjWord f3 g q)) = f3 := by
  rw [cjWord, lowParcel_parcelWord]
  apply eq_of_bits; intro k hk
  simp only [PField.funct3, BitVec.getLsbD_extractLsb', BitVec.getLsbD_append]
  interval_cases k <;> simp

@[simp] theorem isLong_cjWord (f3 : BitVec 3) (g : BitVec 11) (q : BitVec 2) : isLong (cjWord f3 g q) = (q == 0b11#2) := by
  rw [cjWord, isLong_parcelWord, ← lowParcel_parcelWord (_ ++ q)]; exact congrArg (· == 0b11#2) (op_cjWord f3 g q)

theorem immSpn_ciwWord (f3 : BitVec 3) (m : BitVec 10) (r : CReg) (q : BitVec 2) (h : lowZero m 2 = true) :
    PField.immSpn (lowParcel (ciwWord f3 (spnHigh m) r q)) = m := by
  have h0 : m[0] = false := by simpa using lowZero_bit h (i := 0) (by decide)
  have h1 : m[1] = false := by simpa using lowZero_bit h (i := 1) (by decide)
  rw [ciwWord, lowParcel_parcelWord]
  apply eq_of_bits; intro k hk
  simp only [PField.immSpn, spnHigh, BitVec.getLsbD_extractLsb', BitVec.getLsbD_append]
  interval_cases k <;> simp [h0, h1]

theorem offsetD_clWord (f3 : BitVec 3) (m : BitVec 8) (s r : CReg) (q : BitVec 2) (h : lowZero m 3 = true) :
    PField.offsetD (lowParcel (clWord f3 (m.extractLsb' 3 3) s (m.extractLsb' 6 2) r q)) = m := by
  have h0 : m[0] = false := by simpa using lowZero_bit h (i := 0) (by decide)
  have h1 : m[1] = false := by simpa using lowZero_bit h (i := 1) (by decide)
  have h2 : m[2] = false := by simpa using lowZero_bit h (i := 2) (by decide)
  rw [clWord, lowParcel_parcelWord]
  apply eq_of_bits; intro k hk
  simp only [PField.offsetD, BitVec.getLsbD_extractLsb', BitVec.getLsbD_append]
  interval_cases k <;> simp [h0, h1, h2]

theorem offsetW_clWord (f3 : BitVec 3) (m : BitVec 7) (s r : CReg) (q : BitVec 2) (h : lowZero m 2 = true) :
    PField.offsetW (lowParcel (clWord f3 (m.extractLsb' 3 3) s (clLowW m) r q)) = m := by
  have h0 : m[0] = false := by simpa using lowZero_bit h (i := 0) (by decide)
  have h1 : m[1] = false := by simpa using lowZero_bit h (i := 1) (by decide)
  rw [clWord, lowParcel_parcelWord]
  apply eq_of_bits; intro k hk
  simp only [PField.offsetW, clLowW, BitVec.getLsbD_extractLsb', BitVec.getLsbD_append]
  interval_cases k <;> simp [h0, h1]

@[simp] theorem immCI_ciWord (f3 : BitVec 3) (m : BitVec 6) (d : Reg) (q : BitVec 2) :
    PField.immCI (lowParcel (ciWord f3 (m.extractLsb' 5 1) d (m.extractLsb' 0 5) q)) = m := by
  rw [ciWord, lowParcel_parcelWord]
  apply eq_of_bits; intro k hk
  simp only [PField.immCI, BitVec.getLsbD_extractLsb', BitVec.getLsbD_append]
  interval_cases k <;> simp

theorem immSp16_ciWord (f3 : BitVec 3) (m : BitVec 10) (d : Reg) (q : BitVec 2) (h : lowZero m 4 = true) :
    PField.immSp16 (lowParcel (ciWord f3 (m.extractLsb' 9 1) d (sp16Low m) q)) = m := by
  have h0 : m[0] = false := by simpa using lowZero_bit h (i := 0) (by decide)
  have h1 : m[1] = false := by simpa using lowZero_bit h (i := 1) (by decide)
  have h2 : m[2] = false := by simpa using lowZero_bit h (i := 2) (by decide)
  have h3 : m[3] = false := by simpa using lowZero_bit h (i := 3) (by decide)
  rw [ciWord, lowParcel_parcelWord]
  apply eq_of_bits; intro k hk
  simp only [PField.immSp16, sp16Low, BitVec.getLsbD_extractLsb', BitVec.getLsbD_append]
  interval_cases k <;> simp [h0, h1, h2, h3]

theorem offsetLwsp_ciWord (f3 : BitVec 3) (m : BitVec 8) (d : Reg) (q : BitVec 2) (h : lowZero m 2 = true) :
    PField.offsetLwsp (lowParcel (ciWord f3 (m.extractLsb' 5 1) d (lwspLow m) q)) = m := by
  have h0 : m[0] = false := by simpa using lowZero_bit h (i := 0) (by decide)
  have h1 : m[1] = false := by simpa using lowZero_bit h (i := 1) (by decide)
  rw [ciWord, lowParcel_parcelWord]
  apply eq_of_bits; intro k hk
  simp only [PField.offsetLwsp, lwspLow, BitVec.getLsbD_extractLsb', BitVec.getLsbD_append]
  interval_cases k <;> simp [h0, h1]

theorem offsetFldsp_ciWord (f3 : BitVec 3) (m : BitVec 9) (d : Reg) (q : BitVec 2) (h : lowZero m 3 = true) :
    PField.offsetFldsp (lowParcel (ciWord f3 (m.extractLsb' 5 1) d (fldspLow m) q)) = m := by
  have h0 : m[0] = false := by simpa using lowZero_bit h (i := 0) (by decide)
  have h1 : m[1] = false := by simpa using lowZero_bit h (i := 1) (by decide)
  have h2 : m[2] = false := by simpa using lowZero_bit h (i := 2) (by decide)
  rw [ciWord, lowParcel_parcelWord]
  apply eq_of_bits; intro k hk
  simp only [PField.offsetFldsp, fldspLow, BitVec.getLsbD_extractLsb', BitVec.getLsbD_append]
  interval_cases k <;> simp [h0, h1, h2]

theorem offsetSwsp_cssWord (f3 : BitVec 3) (m : BitVec 8) (s : Reg) (q : BitVec 2) (h : lowZero m 2 = true) :
    PField.offsetSwsp (lowParcel (cssWord f3 (swspHigh m) s q)) = m := by
  have h0 : m[0] = false := by simpa using lowZero_bit h (i := 0) (by decide)
  have h1 : m[1] = false := by simpa using lowZero_bit h (i := 1) (by decide)
  rw [cssWord, lowParcel_parcelWord]
  apply eq_of_bits; intro k hk
  simp only [PField.offsetSwsp, swspHigh, BitVec.getLsbD_extractLsb', BitVec.getLsbD_append]
  interval_cases k <;> simp [h0, h1]

theorem offsetFsdsp_cssWord (f3 : BitVec 3) (m : BitVec 9) (s : Reg) (q : BitVec 2) (h : lowZero m 3 = true) :
    PField.offsetFsdsp (lowParcel (cssWord f3 (fsdspHigh m) s q)) = m := by
  have h0 : m[0] = false := by simpa using lowZero_bit h (i := 0) (by decide)
  have h1 : m[1] = false := by simpa using lowZero_bit h (i := 1) (by decide)
  have h2 : m[2] = false := by simpa using lowZero_bit h (i := 2) (by decide)
  rw [cssWord, lowParcel_parcelWord]
  apply eq_of_bits; intro k hk
  simp only [PField.offsetFsdsp, fsdspHigh, BitVec.getLsbD_extractLsb', BitVec.getLsbD_append]
  interval_cases k <;> simp [h0, h1, h2]

theorem offsetB_cbWord (f3 : BitVec 3) (m : BitVec 9) (s : CReg) (q : BitVec 2) (h : lowZero m 1 = true) :
    PField.offsetB (lowParcel (cbWord f3 (cbHigh m) s (cbLow m) q)) = m := by
  have h0 : m[0] = false := by simpa using lowZero_bit h (i := 0) (by decide)
  rw [cbWord, lowParcel_parcelWord]
  apply eq_of_bits; intro k hk
  simp only [PField.offsetB, cbHigh, cbLow, BitVec.getLsbD_extractLsb', BitVec.getLsbD_append]
  interval_cases k <;> simp [h0]

@[simp] theorem immCI_cbAluWord (f3 : BitVec 3) (m : BitVec 6) (f2 : BitVec 2) (d : CReg) (q : BitVec 2) :
    PField.immCI (lowParcel (cbAluWord f3 (m.extractLsb' 5 1) f2 d (m.extractLsb' 0 5) q)) = m := by
  rw [cbAluWord, lowParcel_parcelWord]
  apply eq_of_bits; intro k hk
  simp only [PField.immCI, BitVec.getLsbD_extractLsb', BitVec.getLsbD_append]
  interval_cases k <;> simp

theorem offsetJ_cjWord (f3 : BitVec 3) (m : BitVec 12) (q : BitVec 2) (h : lowZero m 1 = true) :
    PField.offsetJ (lowParcel (cjWord f3 (cjTarget m) q)) = m := by
  have h0 : m[0] = false := by simpa using lowZero_bit h (i := 0) (by decide)
  rw [cjWord, lowParcel_parcelWord]
  apply eq_of_bits; intro k hk
  simp only [PField.offsetJ, cjTarget, BitVec.getLsbD_extractLsb', BitVec.getLsbD_append]
  interval_cases k <;> simp [h0]

/-! ### A parcel from its fields -/

theorem ciwWord_fields (h : Parcel) : ciwWord (PField.funct3 h) (h.extractLsb' 5 8) (PField.rs2' h) (PField.op h) = parcelWord h := by
  rw [ciwWord]; congr 1
  apply eq_of_bits; intro k hk
  simp only [PField.funct3, PField.rs2', PField.op, BitVec.getLsbD_extractLsb', BitVec.getLsbD_append]
  interval_cases k <;> simp

theorem clWord_fields (h : Parcel) : clWord (PField.funct3 h) (h.extractLsb' 10 3) (PField.rs1' h) (PField.sub2 h) (PField.rs2' h) (PField.op h) = parcelWord h := by
  rw [clWord]; congr 1
  apply eq_of_bits; intro k hk
  simp only [PField.funct3, PField.rs1', PField.sub2, PField.rs2', PField.op, BitVec.getLsbD_extractLsb', BitVec.getLsbD_append]
  interval_cases k <;> simp

theorem ciWord_fields (h : Parcel) : ciWord (PField.funct3 h) (PField.bit12 h) (PField.rd h) (PField.rs2 h) (PField.op h) = parcelWord h := by
  rw [ciWord]; congr 1
  apply eq_of_bits; intro k hk
  simp only [PField.funct3, PField.bit12, PField.rd, PField.rs2, PField.op, BitVec.getLsbD_extractLsb', BitVec.getLsbD_append]
  interval_cases k <;> simp

theorem crWord_fields (h : Parcel) : crWord (PField.funct3 h ++ PField.bit12 h) (PField.rd h) (PField.rs2 h) (PField.op h) = parcelWord h := by
  rw [crWord]; congr 1
  apply eq_of_bits; intro k hk
  simp only [PField.funct3, PField.bit12, PField.rd, PField.rs2, PField.op, BitVec.getLsbD_extractLsb', BitVec.getLsbD_append]
  interval_cases k <;> simp

theorem cssWord_fields (h : Parcel) : cssWord (PField.funct3 h) (h.extractLsb' 7 6) (PField.rs2 h) (PField.op h) = parcelWord h := by
  rw [cssWord]; congr 1
  apply eq_of_bits; intro k hk
  simp only [PField.funct3, PField.rs2, PField.op, BitVec.getLsbD_extractLsb', BitVec.getLsbD_append]
  interval_cases k <;> simp

theorem caWord_fields (h : Parcel) : caWord (PField.funct3 h ++ PField.bit12 h ++ PField.funct2 h) (PField.rs1' h) (PField.sub2 h) (PField.rs2' h) (PField.op h) = parcelWord h := by
  rw [caWord]; congr 1
  apply eq_of_bits; intro k hk
  simp only [PField.funct3, PField.bit12, PField.funct2, PField.rs1', PField.sub2, PField.rs2', PField.op, BitVec.getLsbD_extractLsb', BitVec.getLsbD_append]
  interval_cases k <;> simp

theorem cbWord_fields (h : Parcel) : cbWord (PField.funct3 h) (h.extractLsb' 10 3) (PField.rs1' h) (PField.rs2 h) (PField.op h) = parcelWord h := by
  rw [cbWord]; congr 1
  apply eq_of_bits; intro k hk
  simp only [PField.funct3, PField.rs1', PField.rs2, PField.op, BitVec.getLsbD_extractLsb', BitVec.getLsbD_append]
  interval_cases k <;> simp

theorem cbAluWord_fields (h : Parcel) : cbAluWord (PField.funct3 h) (PField.bit12 h) (PField.funct2 h) (PField.rs1' h) (PField.rs2 h) (PField.op h) = parcelWord h := by
  rw [cbAluWord]; congr 1
  apply eq_of_bits; intro k hk
  simp only [PField.funct3, PField.bit12, PField.funct2, PField.rs1', PField.rs2, PField.op, BitVec.getLsbD_extractLsb', BitVec.getLsbD_append]
  interval_cases k <;> simp

theorem cjWord_fields (h : Parcel) : cjWord (PField.funct3 h) (h.extractLsb' 2 11) (PField.op h) = parcelWord h := by
  rw [cjWord]; congr 1
  apply eq_of_bits; intro k hk
  simp only [PField.funct3, PField.op, BitVec.getLsbD_extractLsb', BitVec.getLsbD_append]
  interval_cases k <;> simp

@[simp] theorem spnHigh_immSpn (h : Parcel) : spnHigh (PField.immSpn h) = h.extractLsb' 5 8 := by
  apply eq_of_bits; intro k hk
  simp only [spnHigh, PField.immSpn, BitVec.getLsbD_extractLsb', BitVec.getLsbD_append]
  interval_cases k <;> simp

@[simp] theorem offsetD_high (h : Parcel) : (PField.offsetD h).extractLsb' 3 3 = h.extractLsb' 10 3 := by
  apply eq_of_bits; intro k hk
  simp only [PField.offsetD, BitVec.getLsbD_extractLsb', BitVec.getLsbD_append]
  interval_cases k <;> simp

@[simp] theorem offsetD_low (h : Parcel) : (PField.offsetD h).extractLsb' 6 2 = PField.sub2 h := by
  apply eq_of_bits; intro k hk
  simp only [PField.offsetD, PField.sub2, BitVec.getLsbD_extractLsb', BitVec.getLsbD_append]
  interval_cases k <;> simp

@[simp] theorem offsetW_high (h : Parcel) : (PField.offsetW h).extractLsb' 3 3 = h.extractLsb' 10 3 := by
  apply eq_of_bits; intro k hk
  simp only [PField.offsetW, BitVec.getLsbD_extractLsb', BitVec.getLsbD_append]
  interval_cases k <;> simp

@[simp] theorem clLowW_offsetW (h : Parcel) : clLowW (PField.offsetW h) = PField.sub2 h := by
  apply eq_of_bits; intro k hk
  simp only [clLowW, PField.offsetW, PField.sub2, BitVec.getLsbD_extractLsb', BitVec.getLsbD_append]
  interval_cases k <;> simp

@[simp] theorem immCI_high (h : Parcel) : (PField.immCI h).extractLsb' 5 1 = PField.bit12 h := by
  apply eq_of_bits; intro k hk
  simp only [PField.immCI, PField.bit12, BitVec.getLsbD_extractLsb', BitVec.getLsbD_append]
  interval_cases k
  simp

@[simp] theorem immCI_low (h : Parcel) : (PField.immCI h).extractLsb' 0 5 = PField.rs2 h := by
  apply eq_of_bits; intro k hk
  simp only [PField.immCI, PField.rs2, BitVec.getLsbD_extractLsb', BitVec.getLsbD_append]
  interval_cases k <;> simp

@[simp] theorem immSp16_high (h : Parcel) : (PField.immSp16 h).extractLsb' 9 1 = PField.bit12 h := by
  apply eq_of_bits; intro k hk
  simp only [PField.immSp16, PField.bit12, BitVec.getLsbD_extractLsb', BitVec.getLsbD_append]
  interval_cases k
  simp

@[simp] theorem sp16Low_immSp16 (h : Parcel) : sp16Low (PField.immSp16 h) = PField.rs2 h := by
  apply eq_of_bits; intro k hk
  simp only [sp16Low, PField.immSp16, PField.rs2, BitVec.getLsbD_extractLsb', BitVec.getLsbD_append]
  interval_cases k <;> simp

@[simp] theorem offsetLwsp_high (h : Parcel) : (PField.offsetLwsp h).extractLsb' 5 1 = PField.bit12 h := by
  apply eq_of_bits; intro k hk
  simp only [PField.offsetLwsp, PField.bit12, BitVec.getLsbD_extractLsb', BitVec.getLsbD_append]
  interval_cases k
  simp

@[simp] theorem lwspLow_offsetLwsp (h : Parcel) : lwspLow (PField.offsetLwsp h) = PField.rs2 h := by
  apply eq_of_bits; intro k hk
  simp only [lwspLow, PField.offsetLwsp, PField.rs2, BitVec.getLsbD_extractLsb', BitVec.getLsbD_append]
  interval_cases k <;> simp

@[simp] theorem offsetFldsp_high (h : Parcel) : (PField.offsetFldsp h).extractLsb' 5 1 = PField.bit12 h := by
  apply eq_of_bits; intro k hk
  simp only [PField.offsetFldsp, PField.bit12, BitVec.getLsbD_extractLsb', BitVec.getLsbD_append]
  interval_cases k
  simp

@[simp] theorem fldspLow_offsetFldsp (h : Parcel) : fldspLow (PField.offsetFldsp h) = PField.rs2 h := by
  apply eq_of_bits; intro k hk
  simp only [fldspLow, PField.offsetFldsp, PField.rs2, BitVec.getLsbD_extractLsb', BitVec.getLsbD_append]
  interval_cases k <;> simp

@[simp] theorem swspHigh_offsetSwsp (h : Parcel) : swspHigh (PField.offsetSwsp h) = h.extractLsb' 7 6 := by
  apply eq_of_bits; intro k hk
  simp only [swspHigh, PField.offsetSwsp, BitVec.getLsbD_extractLsb', BitVec.getLsbD_append]
  interval_cases k <;> simp

@[simp] theorem fsdspHigh_offsetFsdsp (h : Parcel) : fsdspHigh (PField.offsetFsdsp h) = h.extractLsb' 7 6 := by
  apply eq_of_bits; intro k hk
  simp only [fsdspHigh, PField.offsetFsdsp, BitVec.getLsbD_extractLsb', BitVec.getLsbD_append]
  interval_cases k <;> simp

@[simp] theorem cbHigh_offsetB (h : Parcel) : cbHigh (PField.offsetB h) = h.extractLsb' 10 3 := by
  apply eq_of_bits; intro k hk
  simp only [cbHigh, PField.offsetB, BitVec.getLsbD_extractLsb', BitVec.getLsbD_append]
  interval_cases k <;> simp

@[simp] theorem cbLow_offsetB (h : Parcel) : cbLow (PField.offsetB h) = PField.rs2 h := by
  apply eq_of_bits; intro k hk
  simp only [cbLow, PField.offsetB, PField.rs2, BitVec.getLsbD_extractLsb', BitVec.getLsbD_append]
  interval_cases k <;> simp

@[simp] theorem cjTarget_offsetJ (h : Parcel) : cjTarget (PField.offsetJ h) = h.extractLsb' 2 11 := by
  apply eq_of_bits; intro k hk
  simp only [cjTarget, PField.offsetJ, BitVec.getLsbD_extractLsb', BitVec.getLsbD_append]
  interval_cases k <;> simp

/-! ### The low zero bits of decoded offsets -/

theorem lowZero_append {k n : Nat} (a : BitVec k) : lowZero (a ++ 0#n) n = true := by
  simp [lowZero, BitVec.toNat_append, Nat.shiftLeft_eq]

@[simp] theorem lowZero_immSpn (h : Parcel) : lowZero (PField.immSpn h) 2 = true := lowZero_append _

@[simp] theorem lowZero_offsetD (h : Parcel) : lowZero (PField.offsetD h) 3 = true := lowZero_append _

@[simp] theorem lowZero_offsetW (h : Parcel) : lowZero (PField.offsetW h) 2 = true := lowZero_append _

@[simp] theorem lowZero_immSp16 (h : Parcel) : lowZero (PField.immSp16 h) 4 = true := lowZero_append _

@[simp] theorem lowZero_offsetLwsp (h : Parcel) : lowZero (PField.offsetLwsp h) 2 = true := lowZero_append _

@[simp] theorem lowZero_offsetFldsp (h : Parcel) : lowZero (PField.offsetFldsp h) 3 = true := lowZero_append _

@[simp] theorem lowZero_offsetSwsp (h : Parcel) : lowZero (PField.offsetSwsp h) 2 = true := lowZero_append _

@[simp] theorem lowZero_offsetFsdsp (h : Parcel) : lowZero (PField.offsetFsdsp h) 3 = true := lowZero_append _

@[simp] theorem lowZero_offsetB (h : Parcel) : lowZero (PField.offsetB h) 1 = true := lowZero_append _

@[simp] theorem lowZero_offsetJ (h : Parcel) : lowZero (PField.offsetJ h) 1 = true := lowZero_append _

@[simp] theorem lowZero_immB (w : Word) : lowZero (WField.immB w) 1 = true := lowZero_append _

@[simp] theorem lowZero_immJ (w : Word) : lowZero (WField.immJ w) 1 = true := lowZero_append _

/-! ### The one-bit port -/

@[simp] theorem Xlen.ofPort_port (x : Xlen) : Xlen.ofPort x.port = x := by cases x <;> rfl

@[simp] theorem Xlen.port_ofPort (b : BitVec 1) : (Xlen.ofPort b).port = b := by revert b; decide

end Sys2Proof
end

