-- ==== Sys2Proof/Laws/PerInstr.lean ====
section
/-! SUPPORT. Per constructor: the encoding lies under its row's match and mask (opcode_table.json), and
its two low bits say its length (10_state.md R25). -/

namespace Sys2Proof.Laws

/-! ### A word of a format under a mask -/

theorem iWord_and_707f (m : BitVec 12) (s1 : BitVec 5) (f3 : BitVec 3) (d : BitVec 5) (o : BitVec 7) :
    iWord m s1 f3 d o &&& 0x707f#32 = iWord 0 0 f3 0 o := by
  apply eq_of_bits; intro k hk
  simp only [iWord, BitVec.getLsbD_and, BitVec.getLsbD_append]
  interval_cases k <;> simp

theorem rWord_and_fe00707f (f7 : BitVec 7) (s2 : BitVec 5) (s1 : BitVec 5) (f3 : BitVec 3) (d : BitVec 5) (o : BitVec 7) :
    rWord f7 s2 s1 f3 d o &&& 0xfe00707f#32 = rWord f7 0 0 f3 0 o := by
  apply eq_of_bits; intro k hk
  simp only [rWord, BitVec.getLsbD_and, BitVec.getLsbD_append]
  interval_cases k <;> simp

theorem sWord_and_707f (m : BitVec 12) (s2 : BitVec 5) (s1 : BitVec 5) (f3 : BitVec 3) (o : BitVec 7) :
    sWord m s2 s1 f3 o &&& 0x707f#32 = sWord 0 0 0 f3 o := by
  apply eq_of_bits; intro k hk
  simp only [sWord, BitVec.getLsbD_and, BitVec.getLsbD_append]
  interval_cases k <;> simp

theorem bWord_and_707f (m : BitVec 13) (s2 : BitVec 5) (s1 : BitVec 5) (f3 : BitVec 3) (o : BitVec 7) :
    bWord m s2 s1 f3 o &&& 0x707f#32 = bWord 0 0 0 f3 o := by
  apply eq_of_bits; intro k hk
  simp only [bWord, BitVec.getLsbD_and, BitVec.getLsbD_append]
  interval_cases k <;> simp

theorem jWord_and_7f (m : BitVec 21) (d : BitVec 5) (o : BitVec 7) :
    jWord m d o &&& 0x7f#32 = jWord 0 0 o := by
  apply eq_of_bits; intro k hk
  simp only [jWord, BitVec.getLsbD_and, BitVec.getLsbD_append]
  interval_cases k <;> simp

theorem uWord_and_7f (m : BitVec 20) (d : BitVec 5) (o : BitVec 7) :
    uWord m d o &&& 0x7f#32 = uWord 0 0 o := by
  apply eq_of_bits; intro k hk
  simp only [uWord, BitVec.getLsbD_and, BitVec.getLsbD_append]
  interval_cases k <;> simp

theorem fenceWord_and_f00fffff (f : BitVec 4) (p : BitVec 4) (u : BitVec 4) (s1 : BitVec 5) (f3 : BitVec 3) (d : BitVec 5) (o : BitVec 7) :
    fenceWord f p u s1 f3 d o &&& 0xf00fffff#32 = fenceWord f 0 0 s1 f3 d o := by
  apply eq_of_bits; intro k hk
  simp only [fenceWord, BitVec.getLsbD_and, BitVec.getLsbD_append]
  interval_cases k <;> simp

theorem fenceWord_and_ffffffff (f : BitVec 4) (p : BitVec 4) (u : BitVec 4) (s1 : BitVec 5) (f3 : BitVec 3) (d : BitVec 5) (o : BitVec 7) :
    fenceWord f p u s1 f3 d o &&& 0xffffffff#32 = fenceWord f p u s1 f3 d o := by
  apply eq_of_bits; intro k hk
  simp only [fenceWord, BitVec.getLsbD_and, BitVec.getLsbD_append]
  interval_cases k <;> simp

theorem iWord_and_ffffffff (m : BitVec 12) (s1 : BitVec 5) (f3 : BitVec 3) (d : BitVec 5) (o : BitVec 7) :
    iWord m s1 f3 d o &&& 0xffffffff#32 = iWord m s1 f3 d o := by
  apply eq_of_bits; intro k hk
  simp only [iWord, BitVec.getLsbD_and, BitVec.getLsbD_append]
  interval_cases k <;> simp

theorem rWord_and_f9f0707f (g : BitVec 5) (a r : BitVec 1) (s2 : BitVec 5) (s1 : BitVec 5) (f3 : BitVec 3) (d : BitVec 5) (o : BitVec 7) :
    rWord (g ++ a ++ r) s2 s1 f3 d o &&& 0xf9f0707f#32 = rWord (g ++ 0#1 ++ 0#1) s2 0 f3 0 o := by
  apply eq_of_bits; intro k hk
  simp only [rWord, BitVec.getLsbD_and, BitVec.getLsbD_append]
  interval_cases k <;> simp

theorem rWord_and_f800707f (g : BitVec 5) (a r : BitVec 1) (s2 : BitVec 5) (s1 : BitVec 5) (f3 : BitVec 3) (d : BitVec 5) (o : BitVec 7) :
    rWord (g ++ a ++ r) s2 s1 f3 d o &&& 0xf800707f#32 = rWord (g ++ 0#1 ++ 0#1) 0 0 f3 0 o := by
  apply eq_of_bits; intro k hk
  simp only [rWord, BitVec.getLsbD_and, BitVec.getLsbD_append]
  interval_cases k <;> simp

theorem rWord_and_600007f (g : BitVec 5) (p : BitVec 2) (s2 : BitVec 5) (s1 : BitVec 5) (f3 : BitVec 3) (d : BitVec 5) (o : BitVec 7) :
    rWord (g ++ p) s2 s1 f3 d o &&& 0x600007f#32 = rWord (0#5 ++ p) 0 0 0 0 o := by
  apply eq_of_bits; intro k hk
  simp only [rWord, BitVec.getLsbD_and, BitVec.getLsbD_append]
  interval_cases k <;> simp

theorem rWord_and_fe00007f (f7 : BitVec 7) (s2 : BitVec 5) (s1 : BitVec 5) (f3 : BitVec 3) (d : BitVec 5) (o : BitVec 7) :
    rWord f7 s2 s1 f3 d o &&& 0xfe00007f#32 = rWord f7 0 0 0 0 o := by
  apply eq_of_bits; intro k hk
  simp only [rWord, BitVec.getLsbD_and, BitVec.getLsbD_append]
  interval_cases k <;> simp

theorem rWord_and_fff0007f (f7 : BitVec 7) (s2 : BitVec 5) (s1 : BitVec 5) (f3 : BitVec 3) (d : BitVec 5) (o : BitVec 7) :
    rWord f7 s2 s1 f3 d o &&& 0xfff0007f#32 = rWord f7 s2 0 0 0 o := by
  apply eq_of_bits; intro k hk
  simp only [rWord, BitVec.getLsbD_and, BitVec.getLsbD_append]
  interval_cases k <;> simp

theorem rWord_and_fff0707f (f7 : BitVec 7) (s2 : BitVec 5) (s1 : BitVec 5) (f3 : BitVec 3) (d : BitVec 5) (o : BitVec 7) :
    rWord f7 s2 s1 f3 d o &&& 0xfff0707f#32 = rWord f7 s2 0 f3 0 o := by
  apply eq_of_bits; intro k hk
  simp only [rWord, BitVec.getLsbD_and, BitVec.getLsbD_append]
  interval_cases k <;> simp

theorem ciwWord_and_e003 (f3 : BitVec 3) (i : BitVec 8) (r : BitVec 3) (q : BitVec 2) :
    ciwWord f3 i r q &&& 0xe003#32 = ciwWord f3 0 0 q := by
  apply eq_of_bits; intro k hk
  simp only [ciwWord, parcelWord, BitVec.getLsbD_and, BitVec.getLsbD_append]
  interval_cases k <;> simp

theorem clWord_and_e003 (f3 : BitVec 3) (i : BitVec 3) (s : BitVec 3) (j : BitVec 2) (r : BitVec 3) (q : BitVec 2) :
    clWord f3 i s j r q &&& 0xe003#32 = clWord f3 0 0 0 0 q := by
  apply eq_of_bits; intro k hk
  simp only [clWord, parcelWord, BitVec.getLsbD_and, BitVec.getLsbD_append]
  interval_cases k <;> simp

theorem ciWord_and_ef83 (f3 : BitVec 3) (i : BitVec 1) (d : BitVec 5) (j : BitVec 5) (q : BitVec 2) :
    ciWord f3 i d j q &&& 0xef83#32 = ciWord f3 0 d 0 q := by
  apply eq_of_bits; intro k hk
  simp only [ciWord, parcelWord, BitVec.getLsbD_and, BitVec.getLsbD_append]
  interval_cases k <;> simp

theorem ciWord_and_e003 (f3 : BitVec 3) (i : BitVec 1) (d : BitVec 5) (j : BitVec 5) (q : BitVec 2) :
    ciWord f3 i d j q &&& 0xe003#32 = ciWord f3 0 0 0 q := by
  apply eq_of_bits; intro k hk
  simp only [ciWord, parcelWord, BitVec.getLsbD_and, BitVec.getLsbD_append]
  interval_cases k <;> simp

theorem cjWord_and_e003 (f3 : BitVec 3) (g : BitVec 11) (q : BitVec 2) :
    cjWord f3 g q &&& 0xe003#32 = cjWord f3 0 q := by
  apply eq_of_bits; intro k hk
  simp only [cjWord, parcelWord, BitVec.getLsbD_and, BitVec.getLsbD_append]
  interval_cases k <;> simp

theorem cbAluWord_and_fc03 (f3 : BitVec 3) (i : BitVec 1) (f2 : BitVec 2) (d : BitVec 3) (j : BitVec 5) (q : BitVec 2) :
    cbAluWord f3 i f2 d j q &&& 0xfc03#32 = cbAluWord f3 i f2 0 0 q := by
  apply eq_of_bits; intro k hk
  simp only [cbAluWord, parcelWord, BitVec.getLsbD_and, BitVec.getLsbD_append]
  interval_cases k <;> simp

theorem cbAluWord_and_ec03 (f3 : BitVec 3) (i : BitVec 1) (f2 : BitVec 2) (d : BitVec 3) (j : BitVec 5) (q : BitVec 2) :
    cbAluWord f3 i f2 d j q &&& 0xec03#32 = cbAluWord f3 0 f2 0 0 q := by
  apply eq_of_bits; intro k hk
  simp only [cbAluWord, parcelWord, BitVec.getLsbD_and, BitVec.getLsbD_append]
  interval_cases k <;> simp

theorem caWord_and_fc63 (f6 : BitVec 6) (d : BitVec 3) (f2 : BitVec 2) (s : BitVec 3) (q : BitVec 2) :
    caWord f6 d f2 s q &&& 0xfc63#32 = caWord f6 0 f2 0 q := by
  apply eq_of_bits; intro k hk
  simp only [caWord, parcelWord, BitVec.getLsbD_and, BitVec.getLsbD_append]
  interval_cases k <;> simp

theorem cbWord_and_e003 (f3 : BitVec 3) (i : BitVec 3) (s : BitVec 3) (j : BitVec 5) (q : BitVec 2) :
    cbWord f3 i s j q &&& 0xe003#32 = cbWord f3 0 0 0 q := by
  apply eq_of_bits; intro k hk
  simp only [cbWord, parcelWord, BitVec.getLsbD_and, BitVec.getLsbD_append]
  interval_cases k <;> simp

theorem ciWord_and_f003 (f3 : BitVec 3) (i : BitVec 1) (d : BitVec 5) (j : BitVec 5) (q : BitVec 2) :
    ciWord f3 i d j q &&& 0xf003#32 = ciWord f3 i 0 0 q := by
  apply eq_of_bits; intro k hk
  simp only [ciWord, parcelWord, BitVec.getLsbD_and, BitVec.getLsbD_append]
  interval_cases k <;> simp

theorem crWord_and_f07f (f4 : BitVec 4) (d : BitVec 5) (s : BitVec 5) (q : BitVec 2) :
    crWord f4 d s q &&& 0xf07f#32 = crWord f4 0 s q := by
  apply eq_of_bits; intro k hk
  simp only [crWord, parcelWord, BitVec.getLsbD_and, BitVec.getLsbD_append]
  interval_cases k <;> simp

theorem crWord_and_f003 (f4 : BitVec 4) (d : BitVec 5) (s : BitVec 5) (q : BitVec 2) :
    crWord f4 d s q &&& 0xf003#32 = crWord f4 0 0 q := by
  apply eq_of_bits; intro k hk
  simp only [crWord, parcelWord, BitVec.getLsbD_and, BitVec.getLsbD_append]
  interval_cases k <;> simp

theorem crWord_and_ffff (f4 : BitVec 4) (d : BitVec 5) (s : BitVec 5) (q : BitVec 2) :
    crWord f4 d s q &&& 0xffff#32 = crWord f4 d s q := by
  apply eq_of_bits; intro k hk
  simp only [crWord, parcelWord, BitVec.getLsbD_and, BitVec.getLsbD_append]
  interval_cases k <;> simp

theorem cssWord_and_e003 (f3 : BitVec 3) (i : BitVec 6) (s : BitVec 5) (q : BitVec 2) :
    cssWord f3 i s q &&& 0xe003#32 = cssWord f3 0 0 q := by
  apply eq_of_bits; intro k hk
  simp only [cssWord, parcelWord, BitVec.getLsbD_and, BitVec.getLsbD_append]
  interval_cases k <;> simp

/-! ### The rows -/

namespace Pattern

/-- The encoding, masked by its row's mask, is its row's match, and its two low bits are 11 exactly
where the row is a 32-bit row. -/
def Statement (i : Instr) : Prop :=
  encode i &&& i.pattern.2 = i.pattern.1 ∧ isLong (encode i) = decide (i.compressed = .no)

theorem addi (rd rs1 : Reg) (imm : BitVec 12) : Statement (.addi rd rs1 imm) :=
  ⟨(iWord_and_707f _ _ _ _ _).trans rfl, isLong_iWord _ _ _ _ _⟩

theorem slti (rd rs1 : Reg) (imm : BitVec 12) : Statement (.slti rd rs1 imm) :=
  ⟨(iWord_and_707f _ _ _ _ _).trans rfl, isLong_iWord _ _ _ _ _⟩

theorem sltiu (rd rs1 : Reg) (imm : BitVec 12) : Statement (.sltiu rd rs1 imm) :=
  ⟨(iWord_and_707f _ _ _ _ _).trans rfl, isLong_iWord _ _ _ _ _⟩

theorem xori (rd rs1 : Reg) (imm : BitVec 12) : Statement (.xori rd rs1 imm) :=
  ⟨(iWord_and_707f _ _ _ _ _).trans rfl, isLong_iWord _ _ _ _ _⟩

theorem ori (rd rs1 : Reg) (imm : BitVec 12) : Statement (.ori rd rs1 imm) :=
  ⟨(iWord_and_707f _ _ _ _ _).trans rfl, isLong_iWord _ _ _ _ _⟩

theorem andi (rd rs1 : Reg) (imm : BitVec 12) : Statement (.andi rd rs1 imm) :=
  ⟨(iWord_and_707f _ _ _ _ _).trans rfl, isLong_iWord _ _ _ _ _⟩

theorem slli (rd rs1 : Reg) (shamt : U5) : Statement (.slli rd rs1 shamt) :=
  ⟨(rWord_and_fe00707f _ _ _ _ _ _).trans rfl, isLong_rWord _ _ _ _ _ _⟩

theorem srli (rd rs1 : Reg) (shamt : U5) : Statement (.srli rd rs1 shamt) :=
  ⟨(rWord_and_fe00707f _ _ _ _ _ _).trans rfl, isLong_rWord _ _ _ _ _ _⟩

theorem srai (rd rs1 : Reg) (shamt : U5) : Statement (.srai rd rs1 shamt) :=
  ⟨(rWord_and_fe00707f _ _ _ _ _ _).trans rfl, isLong_rWord _ _ _ _ _ _⟩

theorem add (rd rs1 rs2 : Reg) : Statement (.add rd rs1 rs2) :=
  ⟨(rWord_and_fe00707f _ _ _ _ _ _).trans rfl, isLong_rWord _ _ _ _ _ _⟩

theorem sub (rd rs1 rs2 : Reg) : Statement (.sub rd rs1 rs2) :=
  ⟨(rWord_and_fe00707f _ _ _ _ _ _).trans rfl, isLong_rWord _ _ _ _ _ _⟩

theorem sll (rd rs1 rs2 : Reg) : Statement (.sll rd rs1 rs2) :=
  ⟨(rWord_and_fe00707f _ _ _ _ _ _).trans rfl, isLong_rWord _ _ _ _ _ _⟩

theorem slt (rd rs1 rs2 : Reg) : Statement (.slt rd rs1 rs2) :=
  ⟨(rWord_and_fe00707f _ _ _ _ _ _).trans rfl, isLong_rWord _ _ _ _ _ _⟩

theorem sltu (rd rs1 rs2 : Reg) : Statement (.sltu rd rs1 rs2) :=
  ⟨(rWord_and_fe00707f _ _ _ _ _ _).trans rfl, isLong_rWord _ _ _ _ _ _⟩

theorem xor (rd rs1 rs2 : Reg) : Statement (.xor rd rs1 rs2) :=
  ⟨(rWord_and_fe00707f _ _ _ _ _ _).trans rfl, isLong_rWord _ _ _ _ _ _⟩

theorem srl (rd rs1 rs2 : Reg) : Statement (.srl rd rs1 rs2) :=
  ⟨(rWord_and_fe00707f _ _ _ _ _ _).trans rfl, isLong_rWord _ _ _ _ _ _⟩

theorem sra (rd rs1 rs2 : Reg) : Statement (.sra rd rs1 rs2) :=
  ⟨(rWord_and_fe00707f _ _ _ _ _ _).trans rfl, isLong_rWord _ _ _ _ _ _⟩

theorem or (rd rs1 rs2 : Reg) : Statement (.or rd rs1 rs2) :=
  ⟨(rWord_and_fe00707f _ _ _ _ _ _).trans rfl, isLong_rWord _ _ _ _ _ _⟩

theorem and (rd rs1 rs2 : Reg) : Statement (.and rd rs1 rs2) :=
  ⟨(rWord_and_fe00707f _ _ _ _ _ _).trans rfl, isLong_rWord _ _ _ _ _ _⟩

theorem lb (rd base : Reg) (offset : BitVec 12) : Statement (.lb rd base offset) :=
  ⟨(iWord_and_707f _ _ _ _ _).trans rfl, isLong_iWord _ _ _ _ _⟩

theorem lh (rd base : Reg) (offset : BitVec 12) : Statement (.lh rd base offset) :=
  ⟨(iWord_and_707f _ _ _ _ _).trans rfl, isLong_iWord _ _ _ _ _⟩

theorem lw (rd base : Reg) (offset : BitVec 12) : Statement (.lw rd base offset) :=
  ⟨(iWord_and_707f _ _ _ _ _).trans rfl, isLong_iWord _ _ _ _ _⟩

theorem lbu (rd base : Reg) (offset : BitVec 12) : Statement (.lbu rd base offset) :=
  ⟨(iWord_and_707f _ _ _ _ _).trans rfl, isLong_iWord _ _ _ _ _⟩

theorem lhu (rd base : Reg) (offset : BitVec 12) : Statement (.lhu rd base offset) :=
  ⟨(iWord_and_707f _ _ _ _ _).trans rfl, isLong_iWord _ _ _ _ _⟩

theorem sb (src base : Reg) (offset : BitVec 12) : Statement (.sb src base offset) :=
  ⟨(sWord_and_707f _ _ _ _ _).trans rfl, isLong_sWord _ _ _ _ _⟩

theorem sh (src base : Reg) (offset : BitVec 12) : Statement (.sh src base offset) :=
  ⟨(sWord_and_707f _ _ _ _ _).trans rfl, isLong_sWord _ _ _ _ _⟩

theorem sw (src base : Reg) (offset : BitVec 12) : Statement (.sw src base offset) :=
  ⟨(sWord_and_707f _ _ _ _ _).trans rfl, isLong_sWord _ _ _ _ _⟩

theorem beq (rs1 rs2 : Reg) (offset : BitVec 13) : Statement (.beq rs1 rs2 offset) :=
  ⟨(bWord_and_707f _ _ _ _ _).trans rfl, isLong_bWord _ _ _ _ _⟩

theorem bne (rs1 rs2 : Reg) (offset : BitVec 13) : Statement (.bne rs1 rs2 offset) :=
  ⟨(bWord_and_707f _ _ _ _ _).trans rfl, isLong_bWord _ _ _ _ _⟩

theorem blt (rs1 rs2 : Reg) (offset : BitVec 13) : Statement (.blt rs1 rs2 offset) :=
  ⟨(bWord_and_707f _ _ _ _ _).trans rfl, isLong_bWord _ _ _ _ _⟩

theorem bge (rs1 rs2 : Reg) (offset : BitVec 13) : Statement (.bge rs1 rs2 offset) :=
  ⟨(bWord_and_707f _ _ _ _ _).trans rfl, isLong_bWord _ _ _ _ _⟩

theorem bltu (rs1 rs2 : Reg) (offset : BitVec 13) : Statement (.bltu rs1 rs2 offset) :=
  ⟨(bWord_and_707f _ _ _ _ _).trans rfl, isLong_bWord _ _ _ _ _⟩

theorem bgeu (rs1 rs2 : Reg) (offset : BitVec 13) : Statement (.bgeu rs1 rs2 offset) :=
  ⟨(bWord_and_707f _ _ _ _ _).trans rfl, isLong_bWord _ _ _ _ _⟩

theorem jal (rd : Reg) (offset : BitVec 21) : Statement (.jal rd offset) :=
  ⟨(jWord_and_7f _ _ _).trans rfl, isLong_jWord _ _ _⟩

theorem jalr (rd base : Reg) (offset : BitVec 12) : Statement (.jalr rd base offset) :=
  ⟨(iWord_and_707f _ _ _ _ _).trans rfl, isLong_iWord _ _ _ _ _⟩

theorem lui (rd : Reg) (upper : BitVec 20) : Statement (.lui rd upper) :=
  ⟨(uWord_and_7f _ _ _).trans rfl, isLong_uWord _ _ _⟩

theorem auipc (rd : Reg) (upper : BitVec 20) : Statement (.auipc rd upper) :=
  ⟨(uWord_and_7f _ _ _).trans rfl, isLong_uWord _ _ _⟩

theorem fence (pred succ : FenceSet) : Statement (.fence pred succ) :=
  ⟨(fenceWord_and_f00fffff _ _ _ _ _ _ _).trans rfl, isLong_fenceWord _ _ _ _ _ _ _⟩

theorem fenceTso : Statement (.fenceTso) :=
  ⟨(fenceWord_and_ffffffff _ _ _ _ _ _ _).trans rfl, isLong_fenceWord _ _ _ _ _ _ _⟩

theorem fenceI : Statement (.fenceI) :=
  ⟨(fenceWord_and_ffffffff _ _ _ _ _ _ _).trans rfl, isLong_fenceWord _ _ _ _ _ _ _⟩

theorem ecall : Statement (.ecall) :=
  ⟨(iWord_and_ffffffff _ _ _ _ _).trans rfl, isLong_iWord _ _ _ _ _⟩

theorem ebreak : Statement (.ebreak) :=
  ⟨(iWord_and_ffffffff _ _ _ _ _).trans rfl, isLong_iWord _ _ _ _ _⟩

theorem mul (rd rs1 rs2 : Reg) : Statement (.mul rd rs1 rs2) :=
  ⟨(rWord_and_fe00707f _ _ _ _ _ _).trans rfl, isLong_rWord _ _ _ _ _ _⟩

theorem mulh (rd rs1 rs2 : Reg) : Statement (.mulh rd rs1 rs2) :=
  ⟨(rWord_and_fe00707f _ _ _ _ _ _).trans rfl, isLong_rWord _ _ _ _ _ _⟩

theorem mulhsu (rd rs1 rs2 : Reg) : Statement (.mulhsu rd rs1 rs2) :=
  ⟨(rWord_and_fe00707f _ _ _ _ _ _).trans rfl, isLong_rWord _ _ _ _ _ _⟩

theorem mulhu (rd rs1 rs2 : Reg) : Statement (.mulhu rd rs1 rs2) :=
  ⟨(rWord_and_fe00707f _ _ _ _ _ _).trans rfl, isLong_rWord _ _ _ _ _ _⟩

theorem div (rd rs1 rs2 : Reg) : Statement (.div rd rs1 rs2) :=
  ⟨(rWord_and_fe00707f _ _ _ _ _ _).trans rfl, isLong_rWord _ _ _ _ _ _⟩

theorem divu (rd rs1 rs2 : Reg) : Statement (.divu rd rs1 rs2) :=
  ⟨(rWord_and_fe00707f _ _ _ _ _ _).trans rfl, isLong_rWord _ _ _ _ _ _⟩

theorem rem (rd rs1 rs2 : Reg) : Statement (.rem rd rs1 rs2) :=
  ⟨(rWord_and_fe00707f _ _ _ _ _ _).trans rfl, isLong_rWord _ _ _ _ _ _⟩

theorem remu (rd rs1 rs2 : Reg) : Statement (.remu rd rs1 rs2) :=
  ⟨(rWord_and_fe00707f _ _ _ _ _ _).trans rfl, isLong_rWord _ _ _ _ _ _⟩

theorem lrW (aq rl : Bit) (rd addr : Reg) : Statement (.lrW aq rl rd addr) :=
  ⟨(rWord_and_f9f0707f _ _ _ _ _ _ _ _).trans rfl, isLong_rWord _ _ _ _ _ _⟩

theorem scW (aq rl : Bit) (rd addr src : Reg) : Statement (.scW aq rl rd addr src) :=
  ⟨(rWord_and_f800707f _ _ _ _ _ _ _ _).trans rfl, isLong_rWord _ _ _ _ _ _⟩

theorem amoswapW (aq rl : Bit) (rd addr src : Reg) : Statement (.amoswapW aq rl rd addr src) :=
  ⟨(rWord_and_f800707f _ _ _ _ _ _ _ _).trans rfl, isLong_rWord _ _ _ _ _ _⟩

theorem amoaddW (aq rl : Bit) (rd addr src : Reg) : Statement (.amoaddW aq rl rd addr src) :=
  ⟨(rWord_and_f800707f _ _ _ _ _ _ _ _).trans rfl, isLong_rWord _ _ _ _ _ _⟩

theorem amoxorW (aq rl : Bit) (rd addr src : Reg) : Statement (.amoxorW aq rl rd addr src) :=
  ⟨(rWord_and_f800707f _ _ _ _ _ _ _ _).trans rfl, isLong_rWord _ _ _ _ _ _⟩

theorem amoandW (aq rl : Bit) (rd addr src : Reg) : Statement (.amoandW aq rl rd addr src) :=
  ⟨(rWord_and_f800707f _ _ _ _ _ _ _ _).trans rfl, isLong_rWord _ _ _ _ _ _⟩

theorem amoorW (aq rl : Bit) (rd addr src : Reg) : Statement (.amoorW aq rl rd addr src) :=
  ⟨(rWord_and_f800707f _ _ _ _ _ _ _ _).trans rfl, isLong_rWord _ _ _ _ _ _⟩

theorem amominW (aq rl : Bit) (rd addr src : Reg) : Statement (.amominW aq rl rd addr src) :=
  ⟨(rWord_and_f800707f _ _ _ _ _ _ _ _).trans rfl, isLong_rWord _ _ _ _ _ _⟩

theorem amomaxW (aq rl : Bit) (rd addr src : Reg) : Statement (.amomaxW aq rl rd addr src) :=
  ⟨(rWord_and_f800707f _ _ _ _ _ _ _ _).trans rfl, isLong_rWord _ _ _ _ _ _⟩

theorem amominuW (aq rl : Bit) (rd addr src : Reg) : Statement (.amominuW aq rl rd addr src) :=
  ⟨(rWord_and_f800707f _ _ _ _ _ _ _ _).trans rfl, isLong_rWord _ _ _ _ _ _⟩

theorem amomaxuW (aq rl : Bit) (rd addr src : Reg) : Statement (.amomaxuW aq rl rd addr src) :=
  ⟨(rWord_and_f800707f _ _ _ _ _ _ _ _).trans rfl, isLong_rWord _ _ _ _ _ _⟩

theorem csrrw (rd : Reg) (csr : Csr) (rs1 : Reg) : Statement (.csrrw rd csr rs1) :=
  ⟨(iWord_and_707f _ _ _ _ _).trans rfl, isLong_iWord _ _ _ _ _⟩

theorem csrrs (rd : Reg) (csr : Csr) (rs1 : Reg) : Statement (.csrrs rd csr rs1) :=
  ⟨(iWord_and_707f _ _ _ _ _).trans rfl, isLong_iWord _ _ _ _ _⟩

theorem csrrc (rd : Reg) (csr : Csr) (rs1 : Reg) : Statement (.csrrc rd csr rs1) :=
  ⟨(iWord_and_707f _ _ _ _ _).trans rfl, isLong_iWord _ _ _ _ _⟩

theorem csrrwi (rd : Reg) (csr : Csr) (imm : U5) : Statement (.csrrwi rd csr imm) :=
  ⟨(iWord_and_707f _ _ _ _ _).trans rfl, isLong_iWord _ _ _ _ _⟩

theorem csrrsi (rd : Reg) (csr : Csr) (imm : U5) : Statement (.csrrsi rd csr imm) :=
  ⟨(iWord_and_707f _ _ _ _ _).trans rfl, isLong_iWord _ _ _ _ _⟩

theorem csrrci (rd : Reg) (csr : Csr) (imm : U5) : Statement (.csrrci rd csr imm) :=
  ⟨(iWord_and_707f _ _ _ _ _).trans rfl, isLong_iWord _ _ _ _ _⟩

theorem pause : Statement (.pause) :=
  ⟨(fenceWord_and_ffffffff _ _ _ _ _ _ _).trans rfl, isLong_fenceWord _ _ _ _ _ _ _⟩

theorem flw (rd base : Reg) (offset : BitVec 12) : Statement (.flw rd base offset) :=
  ⟨(iWord_and_707f _ _ _ _ _).trans rfl, isLong_iWord _ _ _ _ _⟩

theorem fsw (src base : Reg) (offset : BitVec 12) : Statement (.fsw src base offset) :=
  ⟨(sWord_and_707f _ _ _ _ _).trans rfl, isLong_sWord _ _ _ _ _⟩

theorem fmaddS (rm : RoundingMode) (rd rs1 rs2 rs3 : Reg) : Statement (.fmaddS rm rd rs1 rs2 rs3) :=
  ⟨(rWord_and_600007f _ _ _ _ _ _ _).trans rfl, isLong_rWord _ _ _ _ _ _⟩

theorem fmsubS (rm : RoundingMode) (rd rs1 rs2 rs3 : Reg) : Statement (.fmsubS rm rd rs1 rs2 rs3) :=
  ⟨(rWord_and_600007f _ _ _ _ _ _ _).trans rfl, isLong_rWord _ _ _ _ _ _⟩

theorem fnmsubS (rm : RoundingMode) (rd rs1 rs2 rs3 : Reg) : Statement (.fnmsubS rm rd rs1 rs2 rs3) :=
  ⟨(rWord_and_600007f _ _ _ _ _ _ _).trans rfl, isLong_rWord _ _ _ _ _ _⟩

theorem fnmaddS (rm : RoundingMode) (rd rs1 rs2 rs3 : Reg) : Statement (.fnmaddS rm rd rs1 rs2 rs3) :=
  ⟨(rWord_and_600007f _ _ _ _ _ _ _).trans rfl, isLong_rWord _ _ _ _ _ _⟩

theorem faddS (rm : RoundingMode) (rd rs1 rs2 : Reg) : Statement (.faddS rm rd rs1 rs2) :=
  ⟨(rWord_and_fe00007f _ _ _ _ _ _).trans rfl, isLong_rWord _ _ _ _ _ _⟩

theorem fsubS (rm : RoundingMode) (rd rs1 rs2 : Reg) : Statement (.fsubS rm rd rs1 rs2) :=
  ⟨(rWord_and_fe00007f _ _ _ _ _ _).trans rfl, isLong_rWord _ _ _ _ _ _⟩

theorem fmulS (rm : RoundingMode) (rd rs1 rs2 : Reg) : Statement (.fmulS rm rd rs1 rs2) :=
  ⟨(rWord_and_fe00007f _ _ _ _ _ _).trans rfl, isLong_rWord _ _ _ _ _ _⟩

theorem fdivS (rm : RoundingMode) (rd rs1 rs2 : Reg) : Statement (.fdivS rm rd rs1 rs2) :=
  ⟨(rWord_and_fe00007f _ _ _ _ _ _).trans rfl, isLong_rWord _ _ _ _ _ _⟩

theorem fsqrtS (rm : RoundingMode) (rd rs1 : Reg) : Statement (.fsqrtS rm rd rs1) :=
  ⟨(rWord_and_fff0007f _ _ _ _ _ _).trans rfl, isLong_rWord _ _ _ _ _ _⟩

theorem fsgnjS (rd rs1 rs2 : Reg) : Statement (.fsgnjS rd rs1 rs2) :=
  ⟨(rWord_and_fe00707f _ _ _ _ _ _).trans rfl, isLong_rWord _ _ _ _ _ _⟩

theorem fsgnjnS (rd rs1 rs2 : Reg) : Statement (.fsgnjnS rd rs1 rs2) :=
  ⟨(rWord_and_fe00707f _ _ _ _ _ _).trans rfl, isLong_rWord _ _ _ _ _ _⟩

theorem fsgnjxS (rd rs1 rs2 : Reg) : Statement (.fsgnjxS rd rs1 rs2) :=
  ⟨(rWord_and_fe00707f _ _ _ _ _ _).trans rfl, isLong_rWord _ _ _ _ _ _⟩

theorem fminS (rd rs1 rs2 : Reg) : Statement (.fminS rd rs1 rs2) :=
  ⟨(rWord_and_fe00707f _ _ _ _ _ _).trans rfl, isLong_rWord _ _ _ _ _ _⟩

theorem fmaxS (rd rs1 rs2 : Reg) : Statement (.fmaxS rd rs1 rs2) :=
  ⟨(rWord_and_fe00707f _ _ _ _ _ _).trans rfl, isLong_rWord _ _ _ _ _ _⟩

theorem feqS (rd rs1 rs2 : Reg) : Statement (.feqS rd rs1 rs2) :=
  ⟨(rWord_and_fe00707f _ _ _ _ _ _).trans rfl, isLong_rWord _ _ _ _ _ _⟩

theorem fltS (rd rs1 rs2 : Reg) : Statement (.fltS rd rs1 rs2) :=
  ⟨(rWord_and_fe00707f _ _ _ _ _ _).trans rfl, isLong_rWord _ _ _ _ _ _⟩

theorem fleS (rd rs1 rs2 : Reg) : Statement (.fleS rd rs1 rs2) :=
  ⟨(rWord_and_fe00707f _ _ _ _ _ _).trans rfl, isLong_rWord _ _ _ _ _ _⟩

theorem fclassS (rd rs1 : Reg) : Statement (.fclassS rd rs1) :=
  ⟨(rWord_and_fff0707f _ _ _ _ _ _).trans rfl, isLong_rWord _ _ _ _ _ _⟩

theorem fcvtWS (rm : RoundingMode) (rd rs1 : Reg) : Statement (.fcvtWS rm rd rs1) :=
  ⟨(rWord_and_fff0007f _ _ _ _ _ _).trans rfl, isLong_rWord _ _ _ _ _ _⟩

theorem fcvtWuS (rm : RoundingMode) (rd rs1 : Reg) : Statement (.fcvtWuS rm rd rs1) :=
  ⟨(rWord_and_fff0007f _ _ _ _ _ _).trans rfl, isLong_rWord _ _ _ _ _ _⟩

theorem fcvtSW (rm : RoundingMode) (rd rs1 : Reg) : Statement (.fcvtSW rm rd rs1) :=
  ⟨(rWord_and_fff0007f _ _ _ _ _ _).trans rfl, isLong_rWord _ _ _ _ _ _⟩

theorem fcvtSWu (rm : RoundingMode) (rd rs1 : Reg) : Statement (.fcvtSWu rm rd rs1) :=
  ⟨(rWord_and_fff0007f _ _ _ _ _ _).trans rfl, isLong_rWord _ _ _ _ _ _⟩

theorem fmvXW (rd rs1 : Reg) : Statement (.fmvXW rd rs1) :=
  ⟨(rWord_and_fff0707f _ _ _ _ _ _).trans rfl, isLong_rWord _ _ _ _ _ _⟩

theorem fmvWX (rd rs1 : Reg) : Statement (.fmvWX rd rs1) :=
  ⟨(rWord_and_fff0707f _ _ _ _ _ _).trans rfl, isLong_rWord _ _ _ _ _ _⟩

theorem fld (rd base : Reg) (offset : BitVec 12) : Statement (.fld rd base offset) :=
  ⟨(iWord_and_707f _ _ _ _ _).trans rfl, isLong_iWord _ _ _ _ _⟩

theorem fsd (src base : Reg) (offset : BitVec 12) : Statement (.fsd src base offset) :=
  ⟨(sWord_and_707f _ _ _ _ _).trans rfl, isLong_sWord _ _ _ _ _⟩

theorem fmaddD (rm : RoundingMode) (rd rs1 rs2 rs3 : Reg) : Statement (.fmaddD rm rd rs1 rs2 rs3) :=
  ⟨(rWord_and_600007f _ _ _ _ _ _ _).trans rfl, isLong_rWord _ _ _ _ _ _⟩

theorem fmsubD (rm : RoundingMode) (rd rs1 rs2 rs3 : Reg) : Statement (.fmsubD rm rd rs1 rs2 rs3) :=
  ⟨(rWord_and_600007f _ _ _ _ _ _ _).trans rfl, isLong_rWord _ _ _ _ _ _⟩

theorem fnmsubD (rm : RoundingMode) (rd rs1 rs2 rs3 : Reg) : Statement (.fnmsubD rm rd rs1 rs2 rs3) :=
  ⟨(rWord_and_600007f _ _ _ _ _ _ _).trans rfl, isLong_rWord _ _ _ _ _ _⟩

theorem fnmaddD (rm : RoundingMode) (rd rs1 rs2 rs3 : Reg) : Statement (.fnmaddD rm rd rs1 rs2 rs3) :=
  ⟨(rWord_and_600007f _ _ _ _ _ _ _).trans rfl, isLong_rWord _ _ _ _ _ _⟩

theorem faddD (rm : RoundingMode) (rd rs1 rs2 : Reg) : Statement (.faddD rm rd rs1 rs2) :=
  ⟨(rWord_and_fe00007f _ _ _ _ _ _).trans rfl, isLong_rWord _ _ _ _ _ _⟩

theorem fsubD (rm : RoundingMode) (rd rs1 rs2 : Reg) : Statement (.fsubD rm rd rs1 rs2) :=
  ⟨(rWord_and_fe00007f _ _ _ _ _ _).trans rfl, isLong_rWord _ _ _ _ _ _⟩

theorem fmulD (rm : RoundingMode) (rd rs1 rs2 : Reg) : Statement (.fmulD rm rd rs1 rs2) :=
  ⟨(rWord_and_fe00007f _ _ _ _ _ _).trans rfl, isLong_rWord _ _ _ _ _ _⟩

theorem fdivD (rm : RoundingMode) (rd rs1 rs2 : Reg) : Statement (.fdivD rm rd rs1 rs2) :=
  ⟨(rWord_and_fe00007f _ _ _ _ _ _).trans rfl, isLong_rWord _ _ _ _ _ _⟩

theorem fsqrtD (rm : RoundingMode) (rd rs1 : Reg) : Statement (.fsqrtD rm rd rs1) :=
  ⟨(rWord_and_fff0007f _ _ _ _ _ _).trans rfl, isLong_rWord _ _ _ _ _ _⟩

theorem fsgnjD (rd rs1 rs2 : Reg) : Statement (.fsgnjD rd rs1 rs2) :=
  ⟨(rWord_and_fe00707f _ _ _ _ _ _).trans rfl, isLong_rWord _ _ _ _ _ _⟩

theorem fsgnjnD (rd rs1 rs2 : Reg) : Statement (.fsgnjnD rd rs1 rs2) :=
  ⟨(rWord_and_fe00707f _ _ _ _ _ _).trans rfl, isLong_rWord _ _ _ _ _ _⟩

theorem fsgnjxD (rd rs1 rs2 : Reg) : Statement (.fsgnjxD rd rs1 rs2) :=
  ⟨(rWord_and_fe00707f _ _ _ _ _ _).trans rfl, isLong_rWord _ _ _ _ _ _⟩

theorem fminD (rd rs1 rs2 : Reg) : Statement (.fminD rd rs1 rs2) :=
  ⟨(rWord_and_fe00707f _ _ _ _ _ _).trans rfl, isLong_rWord _ _ _ _ _ _⟩

theorem fmaxD (rd rs1 rs2 : Reg) : Statement (.fmaxD rd rs1 rs2) :=
  ⟨(rWord_and_fe00707f _ _ _ _ _ _).trans rfl, isLong_rWord _ _ _ _ _ _⟩

theorem fcvtSD (rm : RoundingMode) (rd rs1 : Reg) : Statement (.fcvtSD rm rd rs1) :=
  ⟨(rWord_and_fff0007f _ _ _ _ _ _).trans rfl, isLong_rWord _ _ _ _ _ _⟩

theorem fcvtDS (rd rs1 : Reg) : Statement (.fcvtDS rd rs1) :=
  ⟨(rWord_and_fff0707f _ _ _ _ _ _).trans rfl, isLong_rWord _ _ _ _ _ _⟩

theorem feqD (rd rs1 rs2 : Reg) : Statement (.feqD rd rs1 rs2) :=
  ⟨(rWord_and_fe00707f _ _ _ _ _ _).trans rfl, isLong_rWord _ _ _ _ _ _⟩

theorem fltD (rd rs1 rs2 : Reg) : Statement (.fltD rd rs1 rs2) :=
  ⟨(rWord_and_fe00707f _ _ _ _ _ _).trans rfl, isLong_rWord _ _ _ _ _ _⟩

theorem fleD (rd rs1 rs2 : Reg) : Statement (.fleD rd rs1 rs2) :=
  ⟨(rWord_and_fe00707f _ _ _ _ _ _).trans rfl, isLong_rWord _ _ _ _ _ _⟩

theorem fclassD (rd rs1 : Reg) : Statement (.fclassD rd rs1) :=
  ⟨(rWord_and_fff0707f _ _ _ _ _ _).trans rfl, isLong_rWord _ _ _ _ _ _⟩

theorem fcvtWD (rm : RoundingMode) (rd rs1 : Reg) : Statement (.fcvtWD rm rd rs1) :=
  ⟨(rWord_and_fff0007f _ _ _ _ _ _).trans rfl, isLong_rWord _ _ _ _ _ _⟩

theorem fcvtWuD (rm : RoundingMode) (rd rs1 : Reg) : Statement (.fcvtWuD rm rd rs1) :=
  ⟨(rWord_and_fff0007f _ _ _ _ _ _).trans rfl, isLong_rWord _ _ _ _ _ _⟩

theorem fcvtDW (rd rs1 : Reg) : Statement (.fcvtDW rd rs1) :=
  ⟨(rWord_and_fff0707f _ _ _ _ _ _).trans rfl, isLong_rWord _ _ _ _ _ _⟩

theorem fcvtDWu (rd rs1 : Reg) : Statement (.fcvtDWu rd rs1) :=
  ⟨(rWord_and_fff0707f _ _ _ _ _ _).trans rfl, isLong_rWord _ _ _ _ _ _⟩

theorem cAddi4spn (rd' : CReg) (nzuimm : BitVec 10) : Statement (.cAddi4spn rd' nzuimm) :=
  ⟨(ciwWord_and_e003 _ _ _ _).trans rfl, isLong_ciwWord _ _ _ _⟩

theorem cFld (rd' rs1' : CReg) (offset : BitVec 8) : Statement (.cFld rd' rs1' offset) :=
  ⟨(clWord_and_e003 _ _ _ _ _ _).trans rfl, isLong_clWord _ _ _ _ _ _⟩

theorem cLw (rd' rs1' : CReg) (offset : BitVec 7) : Statement (.cLw rd' rs1' offset) :=
  ⟨(clWord_and_e003 _ _ _ _ _ _).trans rfl, isLong_clWord _ _ _ _ _ _⟩

theorem cFlw (rd' rs1' : CReg) (offset : BitVec 7) : Statement (.cFlw rd' rs1' offset) :=
  ⟨(clWord_and_e003 _ _ _ _ _ _).trans rfl, isLong_clWord _ _ _ _ _ _⟩

theorem cFsd (rs2' rs1' : CReg) (offset : BitVec 8) : Statement (.cFsd rs2' rs1' offset) :=
  ⟨(clWord_and_e003 _ _ _ _ _ _).trans rfl, isLong_clWord _ _ _ _ _ _⟩

theorem cSw (rs2' rs1' : CReg) (offset : BitVec 7) : Statement (.cSw rs2' rs1' offset) :=
  ⟨(clWord_and_e003 _ _ _ _ _ _).trans rfl, isLong_clWord _ _ _ _ _ _⟩

theorem cFsw (rs2' rs1' : CReg) (offset : BitVec 7) : Statement (.cFsw rs2' rs1' offset) :=
  ⟨(clWord_and_e003 _ _ _ _ _ _).trans rfl, isLong_clWord _ _ _ _ _ _⟩

theorem cNop (imm : BitVec 6) : Statement (.cNop imm) :=
  ⟨(ciWord_and_ef83 _ _ _ _ _).trans rfl, isLong_ciWord _ _ _ _ _⟩

theorem cAddi (rd : Reg) (imm : BitVec 6) : Statement (.cAddi rd imm) :=
  ⟨(ciWord_and_e003 _ _ _ _ _).trans rfl, isLong_ciWord _ _ _ _ _⟩

theorem cJal (offset : BitVec 12) : Statement (.cJal offset) :=
  ⟨(cjWord_and_e003 _ _ _).trans rfl, isLong_cjWord _ _ _⟩

theorem cLi (rd : Reg) (imm : BitVec 6) : Statement (.cLi rd imm) :=
  ⟨(ciWord_and_e003 _ _ _ _ _).trans rfl, isLong_ciWord _ _ _ _ _⟩

theorem cAddi16sp (nzimm : BitVec 10) : Statement (.cAddi16sp nzimm) :=
  ⟨(ciWord_and_ef83 _ _ _ _ _).trans rfl, isLong_ciWord _ _ _ _ _⟩

theorem cLui (rd : Reg) (upper : BitVec 6) : Statement (.cLui rd upper) :=
  ⟨(ciWord_and_e003 _ _ _ _ _).trans rfl, isLong_ciWord _ _ _ _ _⟩

theorem cSrli (rd' : CReg) (shamt : U5) : Statement (.cSrli rd' shamt) :=
  ⟨(cbAluWord_and_fc03 _ _ _ _ _ _).trans rfl, isLong_cbAluWord _ _ _ _ _ _⟩

theorem cSrai (rd' : CReg) (shamt : U5) : Statement (.cSrai rd' shamt) :=
  ⟨(cbAluWord_and_fc03 _ _ _ _ _ _).trans rfl, isLong_cbAluWord _ _ _ _ _ _⟩

theorem cAndi (rd' : CReg) (imm : BitVec 6) : Statement (.cAndi rd' imm) :=
  ⟨(cbAluWord_and_ec03 _ _ _ _ _ _).trans rfl, isLong_cbAluWord _ _ _ _ _ _⟩

theorem cSub (rd' rs2' : CReg) : Statement (.cSub rd' rs2') :=
  ⟨(caWord_and_fc63 _ _ _ _ _).trans rfl, isLong_caWord _ _ _ _ _⟩

theorem cXor (rd' rs2' : CReg) : Statement (.cXor rd' rs2') :=
  ⟨(caWord_and_fc63 _ _ _ _ _).trans rfl, isLong_caWord _ _ _ _ _⟩

theorem cOr (rd' rs2' : CReg) : Statement (.cOr rd' rs2') :=
  ⟨(caWord_and_fc63 _ _ _ _ _).trans rfl, isLong_caWord _ _ _ _ _⟩

theorem cAnd (rd' rs2' : CReg) : Statement (.cAnd rd' rs2') :=
  ⟨(caWord_and_fc63 _ _ _ _ _).trans rfl, isLong_caWord _ _ _ _ _⟩

theorem cJ (offset : BitVec 12) : Statement (.cJ offset) :=
  ⟨(cjWord_and_e003 _ _ _).trans rfl, isLong_cjWord _ _ _⟩

theorem cBeqz (rs1' : CReg) (offset : BitVec 9) : Statement (.cBeqz rs1' offset) :=
  ⟨(cbWord_and_e003 _ _ _ _ _).trans rfl, isLong_cbWord _ _ _ _ _⟩

theorem cBnez (rs1' : CReg) (offset : BitVec 9) : Statement (.cBnez rs1' offset) :=
  ⟨(cbWord_and_e003 _ _ _ _ _).trans rfl, isLong_cbWord _ _ _ _ _⟩

theorem cSlli (rd : Reg) (shamt : U5) : Statement (.cSlli rd shamt) :=
  ⟨(ciWord_and_f003 _ _ _ _ _).trans rfl, isLong_ciWord _ _ _ _ _⟩

theorem cFldsp (rd : Reg) (offset : BitVec 9) : Statement (.cFldsp rd offset) :=
  ⟨(ciWord_and_e003 _ _ _ _ _).trans rfl, isLong_ciWord _ _ _ _ _⟩

theorem cLwsp (rd : Reg) (offset : BitVec 8) : Statement (.cLwsp rd offset) :=
  ⟨(ciWord_and_e003 _ _ _ _ _).trans rfl, isLong_ciWord _ _ _ _ _⟩

theorem cFlwsp (rd : Reg) (offset : BitVec 8) : Statement (.cFlwsp rd offset) :=
  ⟨(ciWord_and_e003 _ _ _ _ _).trans rfl, isLong_ciWord _ _ _ _ _⟩

theorem cJr (rs1 : Reg) : Statement (.cJr rs1) :=
  ⟨(crWord_and_f07f _ _ _ _).trans rfl, isLong_crWord _ _ _ _⟩

theorem cMv (rd rs2 : Reg) : Statement (.cMv rd rs2) :=
  ⟨(crWord_and_f003 _ _ _ _).trans rfl, isLong_crWord _ _ _ _⟩

theorem cEbreak : Statement (.cEbreak) :=
  ⟨(crWord_and_ffff _ _ _ _).trans rfl, isLong_crWord _ _ _ _⟩

theorem cJalr (rs1 : Reg) : Statement (.cJalr rs1) :=
  ⟨(crWord_and_f07f _ _ _ _).trans rfl, isLong_crWord _ _ _ _⟩

theorem cAdd (rd rs2 : Reg) : Statement (.cAdd rd rs2) :=
  ⟨(crWord_and_f003 _ _ _ _).trans rfl, isLong_crWord _ _ _ _⟩

theorem cFsdsp (rs2 : Reg) (offset : BitVec 9) : Statement (.cFsdsp rs2 offset) :=
  ⟨(cssWord_and_e003 _ _ _ _).trans rfl, isLong_cssWord _ _ _ _⟩

theorem cSwsp (rs2 : Reg) (offset : BitVec 8) : Statement (.cSwsp rs2 offset) :=
  ⟨(cssWord_and_e003 _ _ _ _).trans rfl, isLong_cssWord _ _ _ _⟩

theorem cFswsp (rs2 : Reg) (offset : BitVec 8) : Statement (.cFswsp rs2 offset) :=
  ⟨(cssWord_and_e003 _ _ _ _).trans rfl, isLong_cssWord _ _ _ _⟩

end Pattern

end Sys2Proof.Laws
end

