-- ==== Sys2Proof/Laws/Rounding.lean ====
section
/-! SUPPORT. Rounding: what a finite pattern's value is, and what `FFormat.round` gives, said once against every value of the format. -/

namespace Sys2Proof.Ieee

/-- A format with at least one fraction bit and two exponent bits. -/
def FFormat.Sound (F : FFormat) : Prop := 1 ≤ F.fracBits ∧ 2 ≤ F.expBits

theorem single_sound : single.Sound := ⟨by decide, by decide⟩

theorem double_sound : double.Sound := ⟨by decide, by decide⟩

/-! ### Rounding to an integer -/

/-- Whether a mode rounds a magnitude of a sign toward zero. -/
def truncates (rm : RoundingMode) (neg : Bool) : Bool :=
  match rm with
  | .rne => false
  | .rmm => false
  | .rtz => true
  | .dyn => true
  | .rdn => !neg
  | .rup => neg

/-- Whether a mode rounds a magnitude of a sign away from zero. -/
def growsMagnitude (rm : RoundingMode) (neg : Bool) : Bool :=
  match rm with
  | .rne => false
  | .rmm => false
  | .rtz => false
  | .dyn => false
  | .rdn => neg
  | .rup => !neg

/-- A number `n` that is `m / d` rounded as the mode says. -/
structure RoundedQuotient (rm : RoundingMode) (neg : Bool) (m d n : Nat) : Prop where
  low : n * d < m + d
  high : m < n * d + d
  exactly : m % d = 0 → n * d = m
  down : truncates rm neg = true → n * d ≤ m
  up : growsMagnitude rm neg = true → m ≤ n * d
  near : rm = .rne ∨ rm = .rmm → 2 * (n * d) ≤ 2 * m + d ∧ 2 * m ≤ 2 * (n * d) + d
  tieEven : rm = .rne → 2 * (n * d) = 2 * m + d ∨ 2 * m = 2 * (n * d) + d → n % 2 = 0
  tieAway : rm = .rmm → 2 * m ≠ 2 * (n * d) + d

theorem roundShift_spec (rm : RoundingMode) (neg : Bool) (m k : Nat) :
    RoundedQuotient rm neg m (2 ^ k) (roundShift rm neg m k) := by
  unfold roundShift
  rcases Nat.eq_zero_or_pos k with rfl | hk
  · simp only [pow_zero, if_true]
    constructor <;> (try intro _) <;> (try intro _) <;> omega
  · obtain ⟨j, rfl⟩ : ∃ j, k = j + 1 := ⟨k - 1, by omega⟩
    have hpos : 0 < 2 ^ j := by positivity
    have hd : 2 ^ (j + 1) = 2 * 2 ^ j := by ring
    have hdiv := Nat.div_add_mod m (2 ^ (j + 1))
    have hlt := Nat.mod_lt m (y := 2 ^ (j + 1)) (by positivity)
    simp only [Nat.add_sub_cancel, if_neg (Nat.succ_ne_zero j)]
    generalize hq : m / 2 ^ (j + 1) = q at *
    generalize hr : m % 2 ^ (j + 1) = r at *
    rw [hd] at *
    generalize 2 ^ j = h at *
    have hmul : (q + 1) * (2 * h) = q * (2 * h) + 2 * h := by ring
    have hcomm : 2 * h * q = q * (2 * h) := by ring
    have key : ∀ b : Bool, roundsUp rm neg (q % 2 == 1) r h = b →
        RoundedQuotient rm neg m (2 * h) (if b = true then q + 1 else q) := by
      intro b hb
      cases rm <;> cases neg <;> cases b <;> simp [roundsUp] at hb <;>
        constructor <;> simp [truncates, growsMagnitude, hmul] <;> omega
    exact key _ rfl

/-- A number `n` that is the real number `r` rounded as the mode says. -/
structure RoundedReal (rm : RoundingMode) (neg : Bool) (r : ℝ) (n : Nat) : Prop where
  low : (n : ℝ) < r + 1
  high : r < n + 1
  down : truncates rm neg = true → (n : ℝ) ≤ r
  up : growsMagnitude rm neg = true → r ≤ n
  near : rm = .rne ∨ rm = .rmm → |(n : ℝ) - r| ≤ 1 / 2
  tieEven : rm = .rne → |(n : ℝ) - r| = 1 / 2 → n % 2 = 0
  tieAway : rm = .rmm → r ≠ n + 1 / 2

/-- A real number `r` that `s / d` stands for when it is rounded: it is `s / d`, or `s` is odd, `d` a multiple of 4, and `r * d` lies
strictly between the neighbours of `s`. -/
def StandsFor (s d : Nat) (r : ℝ) : Prop :=
  r * d = s ∨ (s % 2 = 1 ∧ d % 4 = 0 ∧ (s : ℝ) - 1 < r * d ∧ r * d < s + 1)

/-- An even number compares with what an odd one stands for as with the odd one. -/
theorem le_standsFor {s d a : Nat} {r : ℝ} (h : StandsFor s d r) (ha : d % 4 = 0 → a % 2 = 0) : (a : ℝ) ≤ r * d ↔ a ≤ s := by
  rcases h with h | ⟨ho, h4, h1, h2⟩
  · rw [h]; exact_mod_cast Iff.rfl
  · have ha := ha h4
    constructor
    · intro h
      have h3 : (a : ℝ) < s + 1 := lt_of_le_of_lt h h2
      have h4 : a < s + 1 := by exact_mod_cast h3
      omega
    · intro h
      have h3 : a + 1 ≤ s := by omega
      have h4 : (a : ℝ) + 1 ≤ s := by exact_mod_cast h3
      linarith

theorem standsFor_le {s d a : Nat} {r : ℝ} (h : StandsFor s d r) (ha : d % 4 = 0 → a % 2 = 0) : r * d ≤ a ↔ s ≤ a := by
  rcases h with h | ⟨ho, h4, h1, h2⟩
  · rw [h]; exact_mod_cast Iff.rfl
  · have ha := ha h4
    constructor
    · intro h
      have h3 : (s : ℝ) < a + 1 := by linarith
      have h4 : s < a + 1 := by exact_mod_cast h3
      omega
    · intro h
      have h3 : s + 1 ≤ a := by omega
      have h4 : (s : ℝ) + 1 ≤ a := by exact_mod_cast h3
      linarith

/-- The integer `s / d` rounds to is the one the number it stands for rounds to; it is exact when `d` divides `s`. -/
theorem RoundedQuotient.real {rm : RoundingMode} {neg : Bool} {s d n : Nat} {r : ℝ} (rq : RoundedQuotient rm neg s d n) (hd : 0 < d)
    (h : StandsFor s d r) : RoundedReal rm neg r n ∧ (s % d = 0 ↔ (n : ℝ) = r) := by
  have hdr : (0 : ℝ) < d := by exact_mod_cast hd
  have even : ∀ a : Nat, d % 4 = 0 → a * d % 2 = 0 := fun a h4 => by
    obtain ⟨j, hj⟩ : 4 ∣ d := Nat.dvd_of_mod_eq_zero h4
    rw [hj, show a * (4 * j) = 2 * (2 * a * j) by ring]; omega
  have hle : ∀ a : Nat, (a : ℝ) ≤ r ↔ a * d ≤ s := fun a => by
    rw [← le_standsFor h (even a), Nat.cast_mul, mul_le_mul_iff_left₀ hdr]
  have hge : ∀ a : Nat, r ≤ a ↔ s ≤ a * d := fun a => by
    rw [← standsFor_le h (even a), Nat.cast_mul, mul_le_mul_iff_left₀ hdr]
  -- the points half way between two integers
  have hle2 : ∀ a : Nat, (a : ℝ) + 1 / 2 ≤ r ↔ 2 * (a * d) + d ≤ 2 * s := fun a => by
    rcases h with h | h
    · rw [← mul_le_mul_iff_left₀ hdr, h]
      constructor
      · intro h; have h2 : 2 * ((a : ℝ) * d) + d ≤ 2 * s := by linarith
        exact_mod_cast h2
      · intro h; have h2 : 2 * ((a : ℝ) * d) + d ≤ 2 * s := by exact_mod_cast h
        linarith
    · obtain ⟨j, hj⟩ : 4 ∣ d := Nat.dvd_of_mod_eq_zero h.2.1
      have := le_standsFor (s := s) (d := d) (a := a * d + 2 * j) (r := r) (.inr h) fun h4 => by have := even a h4; omega
      rw [← mul_le_mul_iff_left₀ hdr]
      have hc : ((a * d + 2 * j : Nat) : ℝ) = ((a : ℝ) + 1 / 2) * d := by rw [hj]; push_cast; ring
      rw [← hc, this]; omega
  have hge2 : ∀ a : Nat, r ≤ (a : ℝ) + 1 / 2 ↔ 2 * s ≤ 2 * (a * d) + d := fun a => by
    rcases h with h | h
    · rw [← mul_le_mul_iff_left₀ hdr, h]
      constructor
      · intro h; have h2 : 2 * (s : ℝ) ≤ 2 * ((a : ℝ) * d) + d := by linarith
        exact_mod_cast h2
      · intro h; have h2 : 2 * (s : ℝ) ≤ 2 * ((a : ℝ) * d) + d := by exact_mod_cast h
        linarith
    · obtain ⟨j, hj⟩ : 4 ∣ d := Nat.dvd_of_mod_eq_zero h.2.1
      have := standsFor_le (s := s) (d := d) (a := a * d + 2 * j) (r := r) (.inr h) fun h4 => by have := even a h4; omega
      rw [← mul_le_mul_iff_left₀ hdr]
      have hc : ((a * d + 2 * j : Nat) : ℝ) = ((a : ℝ) + 1 / 2) * d := by rw [hj]; push_cast; ring
      rw [← hc, this]; omega
  have hn1 : ∀ j : Nat, n = j + 1 → (n : ℝ) = j + 1 := fun j hj => by exact_mod_cast hj
  have succ_mul : ∀ j : Nat, n = j + 1 → n * d = j * d + d := fun j hj => by rw [hj, Nat.add_mul, Nat.one_mul]
  have nearIff : (2 * (n * d) ≤ 2 * s + d ∧ 2 * s ≤ 2 * (n * d) + d) → |(n : ℝ) - r| ≤ 1 / 2 := fun ⟨h1, h2⟩ => by
    rw [abs_le]
    refine ⟨by have := (hge2 n).mpr h2; linarith, ?_⟩
    rcases Nat.eq_zero_or_pos n with h0 | h0
    · have : (0 : ℝ) ≤ r := by simpa using (hle 0).mpr (by simp)
      rw [h0]; push_cast; linarith
    · obtain ⟨j, hj⟩ : ∃ j, n = j + 1 := ⟨n - 1, by omega⟩
      have h3 : 2 * (j * d) + d ≤ 2 * s := by have h4 := succ_mul j hj; omega
      have := (hle2 j).mpr h3
      rw [hn1 j hj]; linarith
  refine ⟨⟨?_, ?_, fun hm => (hle n).mpr (rq.down hm), fun hm => (hge n).mpr (rq.up hm), fun hm => nearIff (rq.near hm), ?_, ?_⟩, ?_⟩
  · rcases Nat.eq_zero_or_pos n with h0 | h0
    · have : (0 : ℝ) ≤ r := by simpa using (hle 0).mpr (by simp)
      rw [h0]; push_cast; linarith
    · obtain ⟨j, hj⟩ : ∃ j, n = j + 1 := ⟨n - 1, by omega⟩
      have hlow := rq.low
      have : ¬r ≤ j := by rw [hge]; have h4 := succ_mul j hj; omega
      rw [hn1 j hj]; linarith
  · have : ¬((n + 1 : Nat) : ℝ) ≤ r := by rw [hle, Nat.succ_mul]; have := rq.high; omega
    push_cast at this; linarith
  · intro hm he
    rcases abs_eq (by norm_num : (0 : ℝ) ≤ 1 / 2) |>.mp he with h1 | h1
    · rcases Nat.eq_zero_or_pos n with h0 | h0
      · rw [h0]
      · obtain ⟨j, hj⟩ : ∃ j, n = j + 1 := ⟨n - 1, by omega⟩
        have h2 := (hle2 j).mp (by rw [hn1 j hj] at h1; linarith)
        have h3 := (hge2 j).mp (by rw [hn1 j hj] at h1; linarith)
        exact rq.tieEven hm (.inl (by have h4 := succ_mul j hj; omega))
    · have h2 := (hle2 n).mp (by linarith)
      have h3 := (hge2 n).mp (by linarith)
      exact rq.tieEven hm (.inr (by omega))
  · intro hm he
    have h2 := (hle2 n).mp (le_of_eq he.symm)
    have h3 := (hge2 n).mp (le_of_eq he)
    exact rq.tieAway hm (by omega)
  · constructor
    · intro h0
      have := rq.exactly h0
      exact le_antisymm ((hle n).mpr this.le) ((hge n).mpr this.ge)
    · intro he
      have h1 := (hle n).mp he.le
      have h2 := (hge n).mp he.ge
      rw [← Nat.le_antisymm h1 h2]; exact Nat.mul_mod_left _ _

/-! ### The finite values of a format -/

/-- A magnitude some pattern of the format may have. -/
def FFormat.Representable (F : FFormat) (w : ℚ) : Prop :=
  ∃ (m : Nat) (e : Int), m < 2 ^ (F.fracBits + 1) ∧ F.minQ ≤ e ∧ w = m * (2 : ℚ) ^ e

/-- A signed magnitude. -/
def signed {K : Type} [Neg K] (neg : Bool) (w : K) : K := if neg then -w else w

theorem signedMant_mul (neg : Bool) (m : Nat) (y : ℚ) : ((signedMant neg m : Int) : ℚ) * y = signed neg (m * y) := by
  cases neg <;> simp [signedMant, signed]

theorem abs_signed (neg : Bool) {w : ℚ} (h : 0 ≤ w) : |signed neg w| = w := by
  cases neg <;> simp [signed, abs_of_nonneg h]

theorem unpack_representable (F : FFormat) {b : Nat} {v : ℚ} (h : (F.unpack b).HasValue v) : F.Representable |v| := by
  have hf : F.fracField b < 2 ^ F.fracBits := Nat.mod_lt _ (by positivity)
  unfold FFormat.unpack at h
  dsimp only at h
  split at h
  · split at h <;> simp [FVal.HasValue] at h
  · split at h
    · simp only [FVal.HasValue, signedMant_mul] at h
      refine ⟨F.fracField b, F.minQ, by rw [pow_succ]; omega, le_refl _, ?_⟩
      rw [h, abs_signed _ (by positivity)]
    · simp only [FVal.HasValue, signedMant_mul] at h
      refine ⟨2 ^ F.fracBits + F.fracField b, F.minQ + F.expField b - 1, by rw [pow_succ]; omega, by omega, ?_⟩
      rw [h, abs_signed _ (by positivity)]

theorem magnitude_exponent (F : FFormat) {mag : Nat} (h : mag < F.infMag) : mag / 2 ^ F.fracBits < F.maxExp :=
  Nat.div_lt_of_lt_mul (lt_of_lt_of_eq h (mul_comm _ _))

theorem magnitude_fields (F : FFormat) (neg : Bool) {mag : Nat} (h : mag < F.infMag) :
    F.signBit (F.withSign neg mag) = neg ∧ F.expField (F.withSign neg mag) = mag / 2 ^ F.fracBits ∧
      F.fracField (F.withSign neg mag) = mag % 2 ^ F.fracBits := by
  have hexp := magnitude_exponent F h
  have hmax : F.maxExp < 2 ^ F.expBits := Nat.sub_lt (by positivity) one_pos
  have hw : F.signWeight = 2 ^ F.fracBits * 2 ^ F.expBits := by rw [FFormat.signWeight, pow_add, mul_comm]
  have hlt : mag < F.signWeight := by
    rw [hw, mul_comm]
    exact lt_of_lt_of_le h (Nat.mul_le_mul_right _ (le_of_lt hmax))
  have hpos : 0 < F.signWeight := by rw [hw]; positivity
  cases neg
  · simp only [FFormat.withSign, FFormat.signBit, FFormat.expField, FFormat.fracField, Bool.false_eq_true, if_false]
    refine ⟨by rw [Nat.div_eq_of_lt hlt]; rfl, Nat.mod_eq_of_lt (lt_trans hexp hmax), trivial⟩
  · simp only [FFormat.withSign, FFormat.signBit, FFormat.expField, FFormat.fracField, if_true]
    refine ⟨?_, ?_, ?_⟩
    · rw [Nat.add_div_left _ hpos, Nat.div_eq_of_lt hlt]; rfl
    · rw [hw, Nat.mul_add_div (by positivity), Nat.add_mod_left, Nat.mod_eq_of_lt (lt_trans hexp hmax)]
    · rw [hw, Nat.mul_add_mod]

/-- A pattern put together from `k` steps above the least exponent and a significand has the significand's value there. -/
theorem pattern_value (F : FFormat) (neg : Bool) {k sig : Nat} (hk : k = 0 ∨ 2 ^ F.fracBits ≤ sig)
    (hs : sig ≤ 2 ^ (F.fracBits + 1)) (hm : k * 2 ^ F.fracBits + sig < F.infMag) :
    (F.unpack (F.withSign neg (k * 2 ^ F.fracBits + sig))).HasValue (signed neg (sig * (2 : ℚ) ^ (F.minQ + k))) := by
  obtain ⟨h1, h2, h3⟩ := magnitude_fields F neg hm
  have hexp := magnitude_exponent F hm
  have hp : 0 < 2 ^ F.fracBits := by positivity
  have hdiv : (k * 2 ^ F.fracBits + sig) / 2 ^ F.fracBits = k + sig / 2 ^ F.fracBits := by
    rw [mul_comm, Nat.mul_add_div hp]
  have hmod : (k * 2 ^ F.fracBits + sig) % 2 ^ F.fracBits = sig % 2 ^ F.fracBits := by
    rw [mul_comm, Nat.mul_add_mod]
  unfold FFormat.unpack
  dsimp only
  rw [h1, h2, h3, if_neg (by omega), hdiv, hmod]
  rw [pow_succ] at hs
  rcases Nat.lt_or_ge sig (2 ^ F.fracBits) with hlt | hge
  · obtain rfl : k = 0 := by omega
    rw [Nat.div_eq_of_lt hlt, Nat.mod_eq_of_lt hlt]
    simp [FVal.HasValue, signedMant_mul]
  · rcases Nat.lt_or_ge sig (2 ^ F.fracBits * 2) with hlt2 | hge2
    · have hd : sig / 2 ^ F.fracBits = 1 := by
        rw [Nat.div_eq_of_lt_le] <;> omega
      have hr : 2 ^ F.fracBits + sig % 2 ^ F.fracBits = sig := by
        have := Nat.div_add_mod sig (2 ^ F.fracBits); rw [hd] at this; omega
      rw [hd, if_neg (by omega), hr]
      simp only [FVal.HasValue, signedMant_mul]
      congr 3; push_cast; ring
    · have hsig : sig = 2 ^ F.fracBits * 2 := by omega
      have hd : sig / 2 ^ F.fracBits = 2 := by rw [hsig, Nat.mul_div_cancel_left _ hp]
      have hr : sig % 2 ^ F.fracBits = 0 := by rw [hsig, Nat.mul_mod_right]
      rw [hd, if_neg (by omega), hr]
      simp only [FVal.HasValue, signedMant_mul]
      congr 1
      rw [hsig]; push_cast
      rw [show F.minQ + ((k : Int) + 2) - 1 = F.minQ + k + 1 by ring, zpow_add₀ (by norm_num) (F.minQ + (k : Int)) 1]
      ring

/-! ### Rounding to the format -/

/-- The exponent of the last place of a rounded number. -/
def FFormat.lastPlace (F : FFormat) (m : Nat) (e : Int) : Int := max (e + Nat.log2 m - F.fracBits) F.minQ

/-- The digits left below the last place. -/
def FFormat.below (F : FFormat) (m : Nat) (e : Int) : Nat := (F.lastPlace m e - e).toNat

/-- The magnitude whose digits below the last place are those left. -/
def FFormat.aligned (F : FFormat) (m : Nat) (e : Int) : Nat :=
  if F.lastPlace m e < e then m * 2 ^ (e - F.lastPlace m e).toNat else m

theorem aligned_value (F : FFormat) (m : Nat) (e : Int) :
    (F.aligned m e : ℚ) * (2 : ℚ) ^ F.lastPlace m e = m * (2 : ℚ) ^ e * 2 ^ F.below m e := by
  unfold FFormat.aligned FFormat.below
  generalize F.lastPlace m e = q
  split
  · next h =>
    have h0 : (q - e).toNat = 0 := by omega
    rw [h0, pow_zero, mul_one]
    push_cast
    rw [mul_assoc, ← zpow_natCast (2 : ℚ) (e - q).toNat, ← zpow_add₀ (by norm_num), Int.toNat_of_nonneg (by omega), sub_add_cancel]
  · next h =>
    rw [mul_assoc, ← zpow_natCast (2 : ℚ) (q - e).toNat, ← zpow_add₀ (by norm_num), Int.toNat_of_nonneg (by omega), add_sub_cancel]

theorem aligned_lt (F : FFormat) {m : Nat} (e : Int) : F.aligned m e < 2 ^ (F.fracBits + 1) * 2 ^ F.below m e := by
  have hm := Nat.lt_log2_self (n := m)
  have hq : e + Nat.log2 m - F.fracBits ≤ F.lastPlace m e := le_max_left _ _
  unfold FFormat.aligned FFormat.below
  generalize F.lastPlace m e = q at *
  rw [← pow_add]
  split
  · calc m * 2 ^ (e - q).toNat < 2 ^ (m.log2 + 1) * 2 ^ (e - q).toNat := Nat.mul_lt_mul_of_pos_right hm (by positivity)
      _ = 2 ^ (m.log2 + 1 + (e - q).toNat) := (pow_add _ _ _).symm
      _ ≤ _ := Nat.pow_le_pow_right (by norm_num) (by omega)
  · exact lt_of_lt_of_le hm (Nat.pow_le_pow_right (by norm_num) (by omega))

theorem aligned_ge (F : FFormat) {m : Nat} (hm : m ≠ 0) (e : Int) :
    F.lastPlace m e = F.minQ ∨ 2 ^ F.fracBits * 2 ^ F.below m e ≤ F.aligned m e := by
  have hl := Nat.log2_self_le hm
  rcases max_choice (e + Nat.log2 m - F.fracBits) F.minQ with h | h
  · right
    have hq : F.lastPlace m e = e + Nat.log2 m - F.fracBits := h
    unfold FFormat.aligned FFormat.below
    generalize F.lastPlace m e = q at *
    rw [← pow_add]
    split
    · calc 2 ^ (F.fracBits + (q - e).toNat) ≤ 2 ^ (m.log2 + (e - q).toNat) := Nat.pow_le_pow_right (by norm_num) (by omega)
        _ = 2 ^ m.log2 * 2 ^ (e - q).toNat := pow_add _ _ _
        _ ≤ _ := Nat.mul_le_mul_right _ hl
    · exact le_trans (Nat.pow_le_pow_right (by norm_num) (by omega)) hl
  · exact .inl h

/-- The magnitude `v` is `x` rounded by the mode, and `r` is its pattern and flags. -/
structure FFormat.RoundsTo (F : FFormat) (rm : RoundingMode) (neg : Bool) (x : ℝ) (r : FResult) (v : ℚ) : Prop where
  value : (F.unpack r.bits).HasValue (signed neg v)
  nonneg : 0 ≤ v
  inexact : r.flags &&& NX ≠ 0 ↔ (v : ℝ) ≠ x
  down : truncates rm neg = true → (v : ℝ) ≤ x ∧ ∀ w : ℚ, F.Representable w → (w : ℝ) ≤ x → w ≤ v
  up : growsMagnitude rm neg = true → x ≤ v ∧ ∀ w : ℚ, F.Representable w → x ≤ w → v ≤ w
  near : rm = .rne ∨ rm = .rmm → ∀ w : ℚ, F.Representable w → |v - x| ≤ |w - x|
  tieEven : rm = .rne → ∀ w : ℚ, F.Representable w → |v - x| = |w - x| → w ≠ v → r.bits % 2 = 0
  tieAway : rm = .rmm → ∀ w : ℚ, F.Representable w → |v - x| = |w - x| → w ≠ v → w ≤ v

/-- A magnitude of the format is a multiple of a last place, or lies below every number with that last place but the smallest. -/
theorem representable_multiple (F : FFormat) {w : ℚ} (h : F.Representable w) {q : Int} (hq : F.minQ ≤ q) :
    (∃ j : Nat, w = j * (2 : ℚ) ^ q) ∨ (F.minQ < q ∧ w < 2 ^ F.fracBits * (2 : ℚ) ^ q) := by
  obtain ⟨m, e, hm, he, rfl⟩ := h
  rcases le_or_gt q e with h1 | h1
  · left
    refine ⟨m * 2 ^ (e - q).toNat, ?_⟩
    push_cast
    rw [mul_assoc, ← zpow_natCast (2 : ℚ) (e - q).toNat, ← zpow_add₀ (by norm_num), Int.toNat_of_nonneg (by omega), sub_add_cancel]
  · right
    refine ⟨by omega, ?_⟩
    have h2 : (m : ℚ) < 2 ^ (F.fracBits + 1) := by exact_mod_cast hm
    have h3 : (2 : ℚ) ^ (e + 1) ≤ (2 : ℚ) ^ q := zpow_le_zpow_right₀ (by norm_num) (by omega)
    rw [zpow_add₀ (by norm_num), zpow_one] at h3
    calc (m : ℚ) * 2 ^ e < 2 ^ (F.fracBits + 1) * 2 ^ e := mul_lt_mul_of_pos_right h2 (by positivity)
      _ = 2 ^ F.fracBits * (2 ^ e * 2) := by ring
      _ ≤ _ := mul_le_mul_of_nonneg_left h3 (by positivity)

theorem withSign_even (F : FFormat) (hF : F.Sound) (neg : Bool) {k n : Nat} (h : n % 2 = 0) :
    F.withSign neg (k * 2 ^ F.fracBits + n) % 2 = 0 := by
  obtain ⟨j, hj⟩ : ∃ j, F.fracBits = j + 1 := ⟨F.fracBits - 1, by have := hF.1; omega⟩
  have h1 : F.signWeight = 2 * (2 ^ F.expBits * 2 ^ j) := by rw [FFormat.signWeight, hj, pow_add, pow_succ]; ring
  have h2 : k * 2 ^ F.fracBits = 2 * (k * 2 ^ j) := by rw [hj, pow_succ]; ring
  unfold FFormat.withSign
  rw [h1, h2]
  split <;> omega

/-- What the value of a rounded number is: `n` last places, rounded as the mode says among all magnitudes of the format. -/
theorem real_rounds (F : FFormat) {rm : RoundingMode} {neg : Bool} {n : Nat} {q : Int} {x r : ℝ} (rr : RoundedReal rm neg r n)
    (hq : F.minQ ≤ q) (hx : x = r * (2 : ℝ) ^ q) (hs : F.minQ < q → (2 : ℝ) ^ F.fracBits ≤ r) :
    let v := (n : ℚ) * (2 : ℚ) ^ q
    (truncates rm neg = true → (v : ℝ) ≤ x ∧ ∀ w : ℚ, F.Representable w → (w : ℝ) ≤ x → w ≤ v) ∧
    (growsMagnitude rm neg = true → x ≤ v ∧ ∀ w : ℚ, F.Representable w → x ≤ w → v ≤ w) ∧
    (rm = .rne ∨ rm = .rmm → ∀ w : ℚ, F.Representable w → |v - x| ≤ |w - x|) ∧
    (rm = .rne → ∀ w : ℚ, F.Representable w → |v - x| = |w - x| → w ≠ v → n % 2 = 0) ∧
    (rm = .rmm → ∀ w : ℚ, F.Representable w → |v - x| = |w - x| → w ≠ v → w ≤ v) := by
  intro v
  have hu : (0 : ℝ) < (2 : ℝ) ^ q := by positivity
  have huq : (0 : ℚ) < (2 : ℚ) ^ q := by positivity
  have hv : (v : ℝ) = n * (2 : ℝ) ^ q := by simp [v]
  -- a magnitude of the format is `y` last places, `y` an integer or below the smallest number with that last place
  have hcase : ∀ w : ℚ, F.Representable w → ∃ y : ℝ, (w : ℝ) = y * (2 : ℝ) ^ q ∧
      ((∃ j : Nat, y = j ∧ w = j * (2 : ℚ) ^ q) ∨ ((2 : ℝ) ^ F.fracBits ≤ r ∧ y < (2 : ℝ) ^ F.fracBits)) := by
    intro w hw
    rcases representable_multiple F hw hq with ⟨j, hj⟩ | ⟨h1, h2⟩
    · exact ⟨j, by rw [hj]; push_cast; rfl, .inl ⟨j, rfl, hj⟩⟩
    · refine ⟨w / (2 : ℝ) ^ q, (div_mul_cancel₀ _ hu.ne').symm, .inr ⟨hs h1, ?_⟩⟩
      rw [div_lt_iff₀ hu]
      have h3 : (w : ℝ) < ((2 ^ F.fracBits * (2 : ℚ) ^ q : ℚ) : ℝ) := by exact_mod_cast h2
      rw [Rat.cast_mul, Rat.cast_pow, Rat.cast_zpow, Rat.cast_ofNat] at h3
      exact h3
  have hlow := rr.low
  have hhigh := rr.high
  have hpow : (2 : ℝ) ^ F.fracBits = ((2 ^ F.fracBits : Nat) : ℝ) := by push_cast; rfl
  have hnat : ∀ a b : Nat, (a : ℝ) < b + 1 → (a : ℝ) ≤ b := fun a b h => by
    have h2 : a < b + 1 := by exact_mod_cast h
    exact_mod_cast Nat.lt_succ_iff.mp h2
  have hvw : ∀ {w : ℚ} {y : ℝ}, (w : ℝ) = y * (2 : ℝ) ^ q → (y ≤ n → w ≤ v) ∧ (n ≤ y → v ≤ w) := fun {w y} hy => by
    refine ⟨fun h => ?_, fun h => ?_⟩
    · have : (w : ℝ) ≤ v := by rw [hy, hv]; exact mul_le_mul_of_nonneg_right h hu.le
      exact_mod_cast this
    · have : (v : ℝ) ≤ w := by rw [hy, hv]; exact mul_le_mul_of_nonneg_right h hu.le
      exact_mod_cast this
  have hdist : ∀ y : ℝ, |y * (2 : ℝ) ^ q - x| = |y - r| * (2 : ℝ) ^ q := fun y => by
    rw [hx, ← sub_mul, abs_mul, abs_of_pos hu]
  have hnear : ∀ y : ℝ, ((∃ j : Nat, y = j) ∨ ((2 : ℝ) ^ F.fracBits ≤ r ∧ y < (2 : ℝ) ^ F.fracBits)) →
      |(n : ℝ) - r| ≤ 1 / 2 → |(n : ℝ) - r| ≤ |y - r| ∧ (|(n : ℝ) - r| = |y - r| → y ≠ n →
        |(n : ℝ) - r| = 1 / 2 ∧ (y = n + 1 ∨ y = n - 1)) := by
    intro y hy hn
    rw [abs_le] at hn
    rcases hy with ⟨j, rfl⟩ | ⟨h1, h2⟩
    · have h3 : j = n ∨ n + 1 ≤ j ∨ j + 1 ≤ n := by omega
      rcases h3 with h3 | h3 | h3
      · rw [h3]; exact ⟨le_refl _, fun _ h => absurd rfl h⟩
      · have h4 : (n : ℝ) + 1 ≤ j := by exact_mod_cast h3
        have h5 : |(j : ℝ) - r| = j - r := abs_of_nonneg (by linarith)
        rw [h5]
        refine ⟨abs_le.mpr ⟨by linarith, by linarith⟩, fun he _ => ?_⟩
        have h6 : |(n : ℝ) - r| ≤ 1 / 2 := abs_le.mpr hn
        exact ⟨by linarith, .inl (by linarith)⟩
      · have h4 : (j : ℝ) + 1 ≤ n := by exact_mod_cast h3
        have h5 : |(j : ℝ) - r| = r - j := by rw [abs_sub_comm]; exact abs_of_nonneg (by linarith)
        rw [h5]
        refine ⟨abs_le.mpr ⟨by linarith, by linarith⟩, fun he _ => ?_⟩
        have h6 : |(n : ℝ) - r| ≤ 1 / 2 := abs_le.mpr hn
        exact ⟨by linarith, .inr (by linarith)⟩
    · -- such a number is farther than the smallest number with the last place, which is no nearer than `n`
      have h3 : (2 : ℝ) ^ F.fracBits ≤ n := by
        rw [hpow] at h1 ⊢; exact hnat _ _ (by linarith)
      have h5 : |y - r| = r - y := by rw [abs_sub_comm]; exact abs_of_nonneg (by linarith)
      have h6 : |(n : ℝ) - r| < r - y := by
        rcases le_or_gt (n : ℝ) r with h7 | h7
        · rw [abs_of_nonpos (by linarith)]; linarith
        · rw [abs_of_nonneg (by linarith)]
          have h8 : ((2 ^ F.fracBits : Nat) : ℝ) + 1 ≤ n := by
            have h9 : ((2 ^ F.fracBits : Nat) : ℝ) < n := by rw [← hpow]; linarith
            have h10 : 2 ^ F.fracBits < n := by exact_mod_cast h9
            exact_mod_cast h10
          rw [← hpow] at h8; linarith
      rw [h5]
      exact ⟨h6.le, fun he => absurd he h6.ne⟩
  refine ⟨fun hm => ⟨?_, fun w hw hwx => ?_⟩, fun hm => ⟨?_, fun w hw hwx => ?_⟩, fun hm w hw => ?_, fun hm w hw he hne => ?_,
    fun hm w hw he hne => ?_⟩
  · rw [hv, hx]; exact mul_le_mul_of_nonneg_right (rr.down hm) hu.le
  · obtain ⟨y, hy, hy2⟩ := hcase w hw
    refine (hvw hy).1 ?_
    rw [hy, hx, mul_le_mul_iff_left₀ hu] at hwx
    rcases hy2 with ⟨j, rfl, _⟩ | ⟨h1, h2⟩
    · exact hnat _ _ (by linarith)
    · rw [hpow] at h1 h2
      exact h2.le.trans (hnat _ _ (by linarith))
  · rw [hv, hx]; exact mul_le_mul_of_nonneg_right (rr.up hm) hu.le
  · obtain ⟨y, hy, hy2⟩ := hcase w hw
    refine (hvw hy).2 ?_
    rw [hy, hx, mul_le_mul_iff_left₀ hu] at hwx
    rcases hy2 with ⟨j, rfl, _⟩ | ⟨h1, h2⟩
    · exact hnat _ _ (by linarith)
    · linarith
  · obtain ⟨y, hy, hy2⟩ := hcase w hw
    rw [hv, hy, hdist, hdist]
    exact mul_le_mul_of_nonneg_right (hnear y (hy2.imp (fun ⟨j, h, _⟩ => ⟨j, h⟩) id) (rr.near hm)).1 hu.le
  · obtain ⟨y, hy, hy2⟩ := hcase w hw
    rw [hv, hy, hdist, hdist] at he
    have hyn : y ≠ n := fun h => hne (by have : (w : ℝ) = v := by rw [hy, hv, h]
                                         exact_mod_cast this)
    exact rr.tieEven hm ((hnear y (hy2.imp (fun ⟨j, h, _⟩ => ⟨j, h⟩) id) (rr.near (.inl hm))).2
      (mul_right_cancel₀ hu.ne' he) hyn).1
  · obtain ⟨y, hy, hy2⟩ := hcase w hw
    rw [hv, hy, hdist, hdist] at he
    have hyn : y ≠ n := fun h => hne (by have : (w : ℝ) = v := by rw [hy, hv, h]
                                         exact_mod_cast this)
    have he := mul_right_cancel₀ hu.ne' he
    obtain ⟨h1, h2 | h2⟩ := (hnear y (hy2.imp (fun ⟨j, h, _⟩ => ⟨j, h⟩) id) (rr.near (.inr hm))).2 he hyn
    · refine absurd ?_ (rr.tieAway hm)
      rw [h2] at he
      rcases abs_eq (by norm_num : (0 : ℝ) ≤ 1 / 2) |>.mp h1 with h3 | h3
      · rw [h1, abs_of_nonneg (by linarith)] at he; linarith
      · linarith
    · exact (hvw hy).1 (by linarith)

theorem inexact_flags (tiny : Bool) : ¬(if tiny = true then UF ||| NX else NX) &&& NX = 0 := by cases tiny <;> decide

/-- Zero is a value of the format. -/
theorem zero_representable (F : FFormat) : F.Representable 0 :=
  ⟨0, F.minQ, by positivity, le_refl _, by simp⟩

/-- No finite value of a format is larger than its largest finite number. -/
theorem value_le (F : FFormat) (hF : F.Sound) {b : Nat} {w : ℚ} (h : (F.unpack b).HasValue w) :
    |w| ≤ (2 ^ (F.fracBits + 1) - 1) * (2 : ℚ) ^ (F.minQ + (F.maxExp - 2 : Nat)) := by
  have hmax : 3 ≤ F.maxExp := by
    have : 2 ^ 2 ≤ 2 ^ F.expBits := Nat.pow_le_pow_right (by norm_num) hF.2
    unfold FFormat.maxExp; omega
  have hf : F.fracField b < 2 ^ F.fracBits := Nat.mod_lt _ (by positivity)
  have he : F.expField b < 2 ^ F.expBits := Nat.mod_lt _ (by positivity)
  have hp : (2 : ℚ) ^ (F.fracBits + 1) = 2 * 2 ^ F.fracBits := by ring
  have h1 : (1 : ℚ) ≤ 2 ^ F.fracBits := one_le_pow₀ (by norm_num)
  unfold FFormat.unpack at h
  dsimp only at h
  split at h
  · split at h <;> simp [FVal.HasValue] at h
  · next hne =>
    split at h
    · simp only [FVal.HasValue, signedMant_mul] at h
      rw [h, abs_signed _ (by positivity)]
      have h2 : (F.fracField b : ℚ) + 1 ≤ 2 ^ F.fracBits := by exact_mod_cast hf
      exact mul_le_mul (by linarith) (zpow_le_zpow_right₀ (by norm_num) (by omega)) (by positivity) (by linarith)
    · simp only [FVal.HasValue, signedMant_mul] at h
      rw [h, abs_signed _ (by positivity)]
      have h2 : (F.fracField b : ℚ) + 1 ≤ 2 ^ F.fracBits := by exact_mod_cast hf
      have h3 : F.expField b ≤ F.maxExp - 1 := by unfold FFormat.maxExp at *; omega
      refine mul_le_mul (by push_cast; linarith) (zpow_le_zpow_right₀ (by norm_num) (by omega)) (by positivity) (by linarith)

/-- What `FFormat.round` of `m * 2 ^ e` gives, for a magnitude `x` that its aligned digits stand for: where it does not overflow, a
finite value that is `x` correctly rounded; where it does, `x` is above every value of the format. -/
theorem round_rounds (F : FFormat) (hF : F.Sound) (rm : RoundingMode) (neg : Bool) {m : Nat} (hm : m ≠ 0) (e : Int) {x : ℝ}
    (hx : StandsFor (F.aligned m e) (2 ^ F.below m e) (x / (2 : ℝ) ^ F.lastPlace m e)) :
    ((F.round rm neg m e).flags &&& OF = 0 → ∃ v : ℚ, F.RoundsTo rm neg x (F.round rm neg m e) v) ∧
    ((F.round rm neg m e).flags &&& OF ≠ 0 → F.round rm neg m e = F.overflow rm neg ∧
      ∀ (c : Nat) (w : ℚ), (F.unpack c).HasValue w → |(w : ℝ)| < x) ∧
    (F.round rm neg m e).flags &&& (NV ||| DZ) = 0 := by
  set q := F.lastPlace m e with hq
  set s := F.aligned m e with hs
  set d := 2 ^ F.below m e with hd
  have rq : RoundedQuotient rm neg s d (roundShift rm neg s (F.below m e)) := roundShift_spec rm neg s _
  set n := roundShift rm neg s (F.below m e) with hn
  have hround : F.round rm neg m e =
      if F.infMag ≤ (q - F.minQ).toNat * 2 ^ F.fracBits + n then F.overflow rm neg
      else
        { bits := F.withSign neg ((q - F.minQ).toNat * 2 ^ F.fracBits + n)
          flags := if (s % d != 0) = true then
              (if (e + Nat.log2 m - F.fracBits < F.minQ && !(e + Nat.log2 m - F.fracBits == F.minQ - 1 &&
                roundShift rm neg (if e + Nat.log2 m - F.fracBits < e then m * 2 ^ (e - (e + Nat.log2 m - F.fracBits)).toNat else m)
                  (e + Nat.log2 m - F.fracBits - e).toNat == 2 ^ (F.fracBits + 1))) = true then UF ||| NX else NX)
            else 0 } := rfl
  have hqmin : F.minQ ≤ q := le_max_right _ _
  have hdp : 0 < d := by rw [hd]; positivity
  have hlt : s < 2 ^ (F.fracBits + 1) * d := aligned_lt F e
  have hge : F.minQ < q → 2 ^ F.fracBits * d ≤ s := fun h => (aligned_ge F hm e).resolve_left (ne_of_gt h)
  have hnle : n ≤ 2 ^ (F.fracBits + 1) := by
    by_contra hcon
    have h1 : (2 ^ (F.fracBits + 1) + 1) * d ≤ n * d := Nat.mul_le_mul_right _ (by omega)
    have h2 := rq.low
    rw [add_mul, one_mul] at h1
    omega
  have hnge : (q - F.minQ).toNat = 0 ∨ 2 ^ F.fracBits ≤ n := by
    rcases lt_or_eq_of_le hqmin with h | h
    · right
      by_contra hcon
      have h1 : (n + 1) * d ≤ 2 ^ F.fracBits * d := Nat.mul_le_mul_right _ (by omega)
      have h2 := rq.high
      have h3 := hge h
      rw [add_mul, one_mul] at h1
      omega
    · left; omega
  have hu : (0 : ℝ) < (2 : ℝ) ^ q := by positivity
  obtain ⟨rr, hexact⟩ := rq.real hdp hx
  have hxr : x = x / (2 : ℝ) ^ q * (2 : ℝ) ^ q := (div_mul_cancel₀ _ hu.ne').symm
  have hger : F.minQ < q → (2 : ℝ) ^ F.fracBits ≤ x / (2 : ℝ) ^ q := fun h => by
    have h1 := (le_standsFor (a := 2 ^ F.fracBits * d) hx fun h4 => by
      obtain ⟨j, hj⟩ : 4 ∣ d := Nat.dvd_of_mod_eq_zero h4
      rw [hj, show 2 ^ F.fracBits * (4 * j) = 2 * (2 ^ F.fracBits * (2 * j)) by ring]; omega).mpr (hge h)
    rw [Nat.cast_mul, mul_le_mul_iff_left₀ (by exact_mod_cast hdp)] at h1
    exact_mod_cast h1
  have hspec := real_rounds F rr hqmin hxr hger
  have hvx : (((n : ℚ) * (2 : ℚ) ^ q : ℚ) : ℝ) = x ↔ (n : ℝ) = x / (2 : ℝ) ^ q := by
    rw [eq_div_iff hu.ne']; push_cast; rfl
  rw [hround]
  split
  · next hmag =>
    refine ⟨fun h => absurd h (by simp only [FFormat.overflow]; decide), fun _ => ⟨rfl, fun c w hw => ?_⟩, by
      simp only [FFormat.overflow]; decide⟩
    have h1 := value_le F hF hw
    have h2 : ((2 : ℝ) ^ (F.fracBits + 1) - 1) * (2 : ℝ) ^ (F.minQ + (F.maxExp - 2 : Nat)) < x := by
      have hpow : (2 : ℝ) ^ (F.fracBits + 1) = ((2 ^ (F.fracBits + 1) : Nat) : ℝ) := by push_cast; rfl
      have hmax : 3 ≤ F.maxExp := by
        have : 2 ^ 2 ≤ 2 ^ F.expBits := Nat.pow_le_pow_right (by norm_num) hF.2
        unfold FFormat.maxExp; omega
      have hp : 2 ^ (F.fracBits + 1) = 2 * 2 ^ F.fracBits := by rw [pow_succ, mul_comm]
      unfold FFormat.infMag at hmag
      rcases lt_or_ge (q - F.minQ).toNat (F.maxExp - 1) with h3 | h3
      · -- the last binade: the magnitude has been rounded up to the next power of two
        have h4 : (q - F.minQ).toNat + 2 = F.maxExp ∧ n = 2 ^ (F.fracBits + 1) := by
          by_contra hcon
          have h5 : (q - F.minQ).toNat + 2 < F.maxExp ∨ ((q - F.minQ).toNat + 2 = F.maxExp ∧ n < 2 * 2 ^ F.fracBits) := by omega
          have hpos : 0 < 2 ^ F.fracBits := by positivity
          rcases h5 with h5 | ⟨h5, h6⟩
          · have h7 := Nat.mul_le_mul_right (2 ^ F.fracBits) (Nat.succ_le_of_lt h5)
            rw [Nat.succ_eq_add_one, add_mul, add_mul] at h7
            omega
          · rw [← h5, add_mul] at hmag
            omega
        have h5 : F.minQ + (F.maxExp - 2 : Nat) = q := by omega
        have h6 := rr.low
        rw [h4.2, ← hpow] at h6
        rw [h5, hxr]
        exact mul_lt_mul_of_pos_right (by linarith) hu
      · have h4 := hger (by omega)
        have h5 : (2 : ℝ) ^ (F.minQ + (F.maxExp - 2 : Nat) + 1) ≤ (2 : ℝ) ^ q := zpow_le_zpow_right₀ (by norm_num) (by omega)
        rw [zpow_add₀ (by norm_num), zpow_one] at h5
        have h6 : (0 : ℝ) < (2 : ℝ) ^ (F.minQ + (F.maxExp - 2 : Nat)) := by positivity
        have h7 : (2 : ℝ) ^ (F.fracBits + 1) = 2 ^ F.fracBits * 2 := pow_succ _ _
        rw [h7]
        calc ((2 : ℝ) ^ F.fracBits * 2 - 1) * (2 : ℝ) ^ (F.minQ + (F.maxExp - 2 : Nat))
            < 2 ^ F.fracBits * ((2 : ℝ) ^ (F.minQ + (F.maxExp - 2 : Nat)) * 2) := by nlinarith
          _ ≤ 2 ^ F.fracBits * (2 : ℝ) ^ q := mul_le_mul_of_nonneg_left h5 (by positivity)
          _ ≤ x / (2 : ℝ) ^ q * (2 : ℝ) ^ q := mul_le_mul_of_nonneg_right h4 hu.le
          _ = x := hxr.symm
    have h3 : ((|w| : ℚ) : ℝ) ≤ (((2 ^ (F.fracBits + 1) - 1) * (2 : ℚ) ^ (F.minQ + (F.maxExp - 2 : Nat)) : ℚ) : ℝ) := Rat.cast_le.mpr h1
    rw [Rat.cast_abs, Rat.cast_mul, Rat.cast_sub, Rat.cast_pow, Rat.cast_zpow, Rat.cast_ofNat, Rat.cast_one] at h3
    exact lt_of_le_of_lt h3 h2
  · next hmag =>
    have hflag : ∀ b t : Bool, (if b = true then (if t = true then UF ||| NX else NX) else 0) &&& OF = 0 ∧
        (if b = true then (if t = true then UF ||| NX else NX) else 0) &&& (NV ||| DZ) = 0 := by decide
    refine ⟨fun _ => ?_, fun h => absurd (hflag _ _).1 h, (hflag _ _).2⟩
    obtain ⟨h2, h3, h4, h5, h6⟩ := hspec
    refine ⟨n * (2 : ℚ) ^ q, ?_, by positivity, ?_, h2, h3, h4, ?_, h6⟩
    · have := pattern_value F neg hnge hnle (not_le.mp hmag)
      rwa [Int.toNat_of_nonneg (by omega), add_sub_cancel] at this
    · rw [ne_eq, ne_eq, hvx, ← hexact]
      by_cases h0 : s % d = 0
      · simp [h0]
      · simp only [h0, bne_iff_ne, ne_eq, not_false_eq_true, if_true, iff_true]
        exact inexact_flags _
    · intro hr w hw he hne
      exact withSign_even F hF neg (h5 hr w hw he hne)

theorem signed_ratCast (neg : Bool) (v : ℚ) : ((signed neg v : ℚ) : ℝ) = signed neg (v : ℝ) := by cases neg <;> simp [signed]

/-- A rounded magnitude with its sign is the value the mode picks. -/
theorem FFormat.RoundsTo.picks {F : FFormat} {rm : RoundingMode} {neg : Bool} {x : ℝ} {r : FResult} {v : ℚ}
    (h : F.RoundsTo rm neg x r v) (hx : 0 ≤ x) : F.Picks rm (signed neg x) r.bits (signed neg v) := by
  have hv : (0 : ℝ) ≤ v := by exact_mod_cast h.nonneg
  have habs : ∀ y : ℝ, |signed neg y| = |y| := fun y => by cases neg <;> simp [signed]
  have habsq : |(signed neg v : ℚ)| = v := abs_signed neg h.nonneg
  have hsub : |signed neg (v : ℝ) - signed neg x| = |v - x| := by
    cases neg
    · rfl
    · simp only [signed, if_true]; rw [show -(v : ℝ) - -x = -(v - x) by ring, abs_neg]
  have hneg : ∀ w : ℚ, w ≠ signed neg v → signed neg w ≠ v := fun w hw he => hw (by
    cases neg <;> simp only [signed, Bool.false_eq_true, if_false, if_true] at he ⊢
    · exact he
    · rw [← he, neg_neg])
  unfold FFormat.Picks
  rw [signed_ratCast, hsub, habs, habs, abs_of_nonneg hv, abs_of_nonneg hx, habsq]
  have hdown : truncates rm neg = true → (v : ℝ) ≤ x := fun t => (h.down t).1
  have hup : growsMagnitude rm neg = true → x ≤ v := fun t => (h.up t).1
  refine ⟨?_, ?_, fun hr => ⟨hdown (by subst hr; rfl), ?_⟩, fun c w hw => ?_⟩
  · rintro rfl; cases neg
    · exact hdown rfl
    · exact neg_le_neg (hup rfl)
  · rintro rfl; cases neg
    · exact hup rfl
    · exact neg_le_neg (hdown rfl)
  · cases neg
    · exact mul_nonneg hv hx
    · simp only [signed, if_true]; rw [neg_mul_neg]; exact mul_nonneg hv hx
  · have hrep := unpack_representable F hw
    -- a value of the other sign is no nearer than zero
    have hside : (0 ≤ signed neg w ∧ |(w : ℝ) - signed neg x| = |((|w| : ℚ) : ℝ) - x| ∧ signed neg w = |w|) ∨
        (signed neg w < 0 ∧ x < |(w : ℝ) - signed neg x|) := by
      cases neg
      · simp only [signed, Bool.false_eq_true, if_false]
        rcases le_or_gt 0 w with h0 | h0
        · exact .inl ⟨h0, by rw [abs_of_nonneg h0], (abs_of_nonneg h0).symm⟩
        · have h1 : (w : ℝ) < 0 := by exact_mod_cast h0
          exact .inr ⟨h0, by rw [abs_of_neg (by linarith)]; linarith⟩
      · simp only [signed, if_true]
        rcases le_or_gt w 0 with h0 | h0
        · refine .inl ⟨by linarith, ?_, (abs_of_nonpos h0).symm⟩
          rw [abs_of_nonpos h0, ← abs_neg]; congr 1; push_cast; ring
        · have h1 : (0 : ℝ) < w := by exact_mod_cast h0
          exact .inr ⟨by linarith, by rw [abs_of_pos (by linarith)]; linarith⟩
    have hzero : rm = .rne ∨ rm = .rmm → |(v : ℝ) - x| ≤ x := fun hr => by
      have := h.near hr 0 (zero_representable F)
      rwa [Rat.cast_zero, zero_sub, abs_neg, abs_of_nonneg hx] at this
    refine ⟨?_, ?_, fun hr hle => ?_, fun hr => ?_, fun hr he hne => ?_, fun hr he hne => ?_⟩
    · rintro rfl hle; cases neg
      · simp only [signed, Bool.false_eq_true, if_false] at hle ⊢
        rcases le_or_gt 0 w with h0 | h0
        · have := (h.down rfl).2 _ hrep (by rw [abs_of_nonneg h0]; exact hle)
          rwa [abs_of_nonneg h0] at this
        · exact h0.le.trans h.nonneg
      · simp only [signed, if_true] at hle ⊢
        have h0 : (w : ℝ) ≤ 0 := by linarith
        have h0 : w ≤ 0 := by exact_mod_cast h0
        have := (h.up rfl).2 _ hrep (by rw [abs_of_nonpos h0]; push_cast; linarith)
        rw [abs_of_nonpos h0] at this; linarith
    · rintro rfl hle; cases neg
      · simp only [signed, Bool.false_eq_true, if_false] at hle ⊢
        have h0 : (0 : ℝ) ≤ w := by linarith
        have h0 : 0 ≤ w := by exact_mod_cast h0
        have := (h.up rfl).2 _ hrep (by rw [abs_of_nonneg h0]; exact hle)
        rwa [abs_of_nonneg h0] at this
      · simp only [signed, if_true] at hle ⊢
        rcases le_or_gt w 0 with h0 | h0
        · have := (h.down rfl).2 _ hrep (by rw [abs_of_nonpos h0]; push_cast; linarith)
          rw [abs_of_nonpos h0] at this; linarith
        · have := h.nonneg; linarith
    · refine (h.down (by subst hr; rfl)).2 _ hrep ?_
      exact_mod_cast hle
    · rcases hside with ⟨_, h1, _⟩ | ⟨_, h1⟩
      · rw [h1]; exact h.near hr _ hrep
      · exact (hzero hr).trans h1.le
    · rcases hside with ⟨_, h1, h2⟩ | ⟨_, h1⟩
      · exact h.tieEven hr _ hrep (by rw [he, h1]) fun h3 => hneg w hne (by rw [h2, h3])
      · exact absurd (he ▸ hzero (.inl hr)) (not_le.mpr h1)
    · rcases hside with ⟨_, h1, h2⟩ | ⟨_, h1⟩
      · exact h.tieAway hr _ hrep (by rw [he, h1]) fun h3 => hneg w hne (by rw [h2, h3])
      · exact absurd (he ▸ hzero (.inr hr)) (not_le.mpr h1)

theorem signed_inj {neg : Bool} {a b : ℝ} : signed neg a = signed neg b ↔ a = b := by cases neg <;> simp [signed]

/-- `FFormat.round` of digits that stand for a positive number rounds that number. -/
theorem round_rounds_standsFor (F : FFormat) (hF : F.Sound) (rm : RoundingMode) (neg : Bool) {m : Nat} (hm : m ≠ 0) (e : Int) {x : ℝ}
    (hx0 : 0 < x) (hx : StandsFor (F.aligned m e) (2 ^ F.below m e) (x / (2 : ℝ) ^ F.lastPlace m e)) :
    F.Rounds rm (signed neg x) (F.round rm neg m e) := by
  obtain ⟨h1, h2, h3⟩ := round_rounds F hF rm neg hm e hx
  refine ⟨fun h => ?_, fun h => ?_, h3⟩
  · obtain ⟨v, hv⟩ := h1 h
    exact ⟨signed neg v, hv.value, by rw [hv.inexact, signed_ratCast, ne_eq, ne_eq, signed_inj], hv.picks hx0.le⟩
  · obtain ⟨h4, h5⟩ := h2 h
    rw [h4]
    refine ⟨fun c w hw => ?_, rfl, fun hp => ?_, fun hn => ?_⟩
    · rw [show |signed neg x| = x by cases neg <;> simp [signed, abs_of_pos hx0]]; exact h5 c w hw
    · cases neg
      · cases rm <;> simp [FFormat.overflow]
      · simp only [signed, if_true] at hp; linarith
    · cases neg
      · simp only [signed, Bool.false_eq_true, if_false] at hn; linarith
      · cases rm <;> simp [FFormat.overflow]

/-- `FFormat.round` rounds `m * 2 ^ e`. -/
theorem round_rounds_exact (F : FFormat) (hF : F.Sound) (rm : RoundingMode) (neg : Bool) {m : Nat} (hm : m ≠ 0) (e : Int) :
    F.Rounds rm (signed neg ((m : ℝ) * (2 : ℝ) ^ e)) (F.round rm neg m e) := by
  refine round_rounds_standsFor F hF rm neg hm e (by positivity) (.inl ?_)
  have h := aligned_value F m e
  have h2 : (F.aligned m e : ℝ) * (2 : ℝ) ^ F.lastPlace m e = m * (2 : ℝ) ^ e * 2 ^ F.below m e := by
    have h3 := congrArg (Rat.cast : ℚ → ℝ) h
    simpa using h3
  have hu : (0 : ℝ) < (2 : ℝ) ^ F.lastPlace m e := by positivity
  rw [div_mul_eq_mul_div, div_eq_iff hu.ne', h2]; push_cast; rfl

/-- `FFormat.round` of a magnitude with a sticky last digit rounds the number the digit stands for. -/
theorem round_rounds_sticky (F : FFormat) (hF : F.Sound) (rm : RoundingMode) (neg : Bool) {k rem : Nat} (e : Int) {x : ℝ}
    (hk : 2 ^ (F.fracBits + 2) ≤ k) (h0 : rem = 0 → x = 2 * k * (2 : ℝ) ^ e)
    (h1 : rem ≠ 0 → 2 * k * (2 : ℝ) ^ e < x ∧ x < (2 * k + 2) * (2 : ℝ) ^ e) :
    F.Rounds rm (signed neg x) (F.round rm neg (sticky k rem) e) := by
  have hkp : 0 < k := lt_of_lt_of_le (by positivity) hk
  by_cases hr : rem = 0
  · have := round_rounds_exact F hF rm neg (m := sticky k rem) (by simp only [sticky, hr, if_true]; omega) e
    have h2 : ((sticky k rem : Nat) : ℝ) * (2 : ℝ) ^ e = x := by rw [h0 hr]; simp [sticky, hr]
    rwa [h2] at this
  · obtain ⟨h2, h3⟩ := h1 hr
    have hs : sticky k rem = 2 * k + 1 := by simp [sticky, hr]
    have he : (0 : ℝ) < (2 : ℝ) ^ e := by positivity
    have hlog : F.fracBits + 3 ≤ Nat.log2 (sticky k rem) := by
      rw [Nat.le_log2 (by omega), hs, pow_succ]; omega
    have hq : e + 3 ≤ F.lastPlace (sticky k rem) e :=
      le_trans (by omega) (le_max_left (e + Nat.log2 (sticky k rem) - F.fracBits) F.minQ)
    refine round_rounds_standsFor F hF rm neg (by omega) e ?_ (.inr ?_)
    · exact lt_trans (by positivity) h2
    · have hb : (2 : ℝ) ^ F.below (sticky k rem) e * (2 : ℝ) ^ e = (2 : ℝ) ^ F.lastPlace (sticky k rem) e := by
        unfold FFormat.below
        rw [← zpow_natCast (2 : ℝ), ← zpow_add₀ (by norm_num), Int.toNat_of_nonneg (by omega), sub_add_cancel]
      have ha : F.aligned (sticky k rem) e = 2 * k + 1 := by
        unfold FFormat.aligned; rw [if_neg (by omega), hs]
      have hbn : 3 ≤ F.below (sticky k rem) e := by unfold FFormat.below; omega
      have hd4 : 2 ^ F.below (sticky k rem) e % 4 = 0 := by
        obtain ⟨j, hj⟩ : ∃ j, F.below (sticky k rem) e = j + 2 := ⟨F.below (sticky k rem) e - 2, by omega⟩
        rw [hj, pow_add]; omega
      have hx : x / (2 : ℝ) ^ F.lastPlace (sticky k rem) e * ((2 ^ F.below (sticky k rem) e : Nat) : ℝ) = x / (2 : ℝ) ^ e := by
        rw [← hb]; push_cast
        have : (0 : ℝ) < (2 : ℝ) ^ F.below (sticky k rem) e := by positivity
        field_simp
      rw [ha, hx]
      refine ⟨by omega, hd4, ?_, ?_⟩
      · rw [lt_div_iff₀ he]; push_cast; linarith
      · rw [div_lt_iff₀ he]; push_cast; linarith

/-- An exact zero rounds zero. -/
theorem zero_rounds (F : FFormat) (hF : F.Sound) (rm : RoundingMode) (neg : Bool) : F.Rounds rm 0 (F.zero neg) := by
  have hinf : 0 < F.infMag := by
    have h1 : 2 ^ 1 < 2 ^ F.expBits := Nat.pow_lt_pow_right (by norm_num) (by have := hF.2; omega)
    have : 0 < F.maxExp := by unfold FFormat.maxExp; omega
    unfold FFormat.infMag; positivity
  have hval : (F.unpack (F.zero neg).bits).HasValue 0 := by
    have := pattern_value F neg (k := 0) (sig := 0) (.inl rfl) (by positivity) (by simpa using hinf)
    simpa [signed, FFormat.zero] using this
  refine ⟨fun _ => ⟨0, hval, by simp [FFormat.zero], by simp, by simp, by simp, fun c w hw => ?_⟩,
    fun h => absurd (show (0 : BitVec 5) &&& OF = 0 by decide) h, by simp [FFormat.zero]⟩
  have hw0 : |((0 : ℚ) : ℝ) - 0| = |(w : ℝ) - 0| → w ≠ 0 → False := fun h hne => by
    rw [Rat.cast_zero, sub_zero, abs_zero, sub_zero] at h
    exact hne (by exact_mod_cast abs_eq_zero.mp h.symm)
  refine ⟨fun _ h => by exact_mod_cast h, fun _ h => by exact_mod_cast h, fun _ h => ?_, fun _ => by simp,
    fun _ h hne => (hw0 h hne).elim, fun _ h hne => (hw0 h hne).elim⟩
  rw [abs_zero] at h ⊢; exact_mod_cast h

end Sys2Proof.Ieee
end

