-- ==== Sys2Proof/Tests/Slice0.lean ====
section
/-! SUPPORT. Tests: WellFormed refuses ill-formed terms; words written out from the spec's encodings decode to what the spec says;
one step of each instruction on small states, with results from the spec's own vectors or worked by hand from its rules; and for
every obligation with hypotheses, states and operands that meet them. -/

namespace Sys2Proof.Tests

open Sys2Proof.Machine

/-! ### WellFormed: an ill-formed term for each check, beside a well-formed one -/

/-- Every term of a list is ill-formed. -/
def refusedAll (l : List Instr) : Bool := l.all fun i => !i.wf

/-- Odd offsets and empty fence sets (30_encoding.md R71, R73; 40_base_integer.md R157). -/
theorem test_wf_refuses_words :
    refusedAll [.beq 0 0 1, .bne 0 0 1, .blt 0 0 1, .bge 0 0 1, .bltu 0 0 1, .bgeu 0 0 1,
      .jal 1 1, .fence 0 1, .fence 1 0] = true := by decide

/-- Offsets the format cannot hold and operands the rows exclude (46_compressed.md R270 to R304). -/
theorem test_wf_refuses_parcels_1 :
    refusedAll [.cAddi4spn 0 0, .cAddi4spn 0 2, .cFld 0 0 4, .cLw 0 0 2, .cFlw 0 0 1, .cFsd 0 0 4,
      .cSw 0 0 2, .cFsw 0 0 2, .cAddi 0 1, .cJal 1, .cAddi16sp 0, .cAddi16sp 8] = true := by decide

/-- Offsets the format cannot hold and operands the rows exclude (46_compressed.md R270 to R304). -/
theorem test_wf_refuses_parcels_2 :
    refusedAll [.cLui 2 1, .cLui 1 0, .cJ 3, .cBeqz 0 1, .cBnez 0 1, .cFldsp 0 4,
      .cLwsp 0 0, .cLwsp 1 2, .cFlwsp 0 2, .cJr 0, .cMv 1 0, .cJalr 0] = true := by decide

/-- Offsets the format cannot hold and operands the rows exclude (46_compressed.md R270 to R304). -/
theorem test_wf_refuses_parcels_3 :
    refusedAll [.cAdd 1 0, .cFsdsp 0 4, .cSwsp 0 2, .cFswsp 0 2] = true := by decide

/-- The nearest terms that are instructions. -/
theorem test_wf_accepts :
    ([.jal 1 0x1FFFFE, .beq 0 0 0x1FFE, .fence 1 1, .cAddi4spn 0 4, .cAddi16sp 16, .cLui 1 1, .cLwsp 1 252,
      .cFldsp 0 504, .cJr 1, .cMv 0 1, .cAddi 1 0, .cJ 0xFFE] : List Instr).all Instr.wf = true := by decide

/-! ### Decoding: the first example of each instruction's rule, its word written out bit by bit (40 to 46) -/

/-- A word decodes to an instruction that is well-formed, `decode` answers its record, and `format` its text. -/
def shows (w : Word) (i : Instr) (r : Record) (c : IsCompressed) (text : String) : Bool :=
  decodeInstr w .rv32 == some i && i.wf && decide (decode w .rv32 = .ok r c) && decide (format defaultCsrNames r = text)

theorem test_decode_opimm :
    (shows 0b11111111100001011000010100010011 (.addi 10 11 4088) (.addi 10 11 ⟨0xfffffff8, .signed⟩) .no "addi a0, a1, -8" &&
      shows 0b11111111100001011010010100010011 (.slti 10 11 4088) (.slti 10 11 ⟨0xfffffff8, .signed⟩) .no "slti a0, a1, -8" &&
      shows 0b11111111100001011011010100010011 (.sltiu 10 11 4088) (.sltiu 10 11 ⟨0xfffffff8, .signed⟩) .no "sltiu a0, a1, -8" &&
      shows 0b11111111100001011100010100010011 (.xori 10 11 4088) (.xori 10 11 ⟨0xfffffff8, .signed⟩) .no "xori a0, a1, -8" &&
      shows 0b11111111100001011110010100010011 (.ori 10 11 4088) (.ori 10 11 ⟨0xfffffff8, .signed⟩) .no "ori a0, a1, -8" &&
      shows 0b11111111100001011111010100010011 (.andi 10 11 4088) (.andi 10 11 ⟨0xfffffff8, .signed⟩) .no "andi a0, a1, -8" &&
      shows 0b00000001100001011001010100010011 (.slli 10 11 24) (.slli 10 11 24) .no "slli a0, a1, 24" &&
      shows 0b00000001100001011101010100010011 (.srli 10 11 24) (.srli 10 11 24) .no "srli a0, a1, 24" &&
      shows 0b01000001100001011101010100010011 (.srai 10 11 24) (.srai 10 11 24) .no "srai a0, a1, 24") = true := by decide

theorem test_decode_op :
    (shows 0b00000001100001011000010100110011 (.add 10 11 24) (.add 10 11 24) .no "add a0, a1, s8" &&
      shows 0b01000001100001011000010100110011 (.sub 10 11 24) (.sub 10 11 24) .no "sub a0, a1, s8" &&
      shows 0b00000001100001011001010100110011 (.sll 10 11 24) (.sll 10 11 24) .no "sll a0, a1, s8" &&
      shows 0b00000001100001011010010100110011 (.slt 10 11 24) (.slt 10 11 24) .no "slt a0, a1, s8" &&
      shows 0b00000001100001011011010100110011 (.sltu 10 11 24) (.sltu 10 11 24) .no "sltu a0, a1, s8" &&
      shows 0b00000001100001011100010100110011 (.xor 10 11 24) (.xor 10 11 24) .no "xor a0, a1, s8" &&
      shows 0b00000001100001011101010100110011 (.srl 10 11 24) (.srl 10 11 24) .no "srl a0, a1, s8" &&
      shows 0b01000001100001011101010100110011 (.sra 10 11 24) (.sra 10 11 24) .no "sra a0, a1, s8" &&
      shows 0b00000001100001011110010100110011 (.or 10 11 24) (.or 10 11 24) .no "or a0, a1, s8" &&
      shows 0b00000001100001011111010100110011 (.and 10 11 24) (.and 10 11 24) .no "and a0, a1, s8") = true := by decide

theorem test_decode_memory :
    (shows 0b11111111100001011000010100000011 (.lb 10 11 4088) (.lb 10 11 ⟨0xfffffff8, .signed⟩) .no "lb a0, -8(a1)" &&
      shows 0b11111111100001011001010100000011 (.lh 10 11 4088) (.lh 10 11 ⟨0xfffffff8, .signed⟩) .no "lh a0, -8(a1)" &&
      shows 0b11111111100001011010010100000011 (.lw 10 11 4088) (.lw 10 11 ⟨0xfffffff8, .signed⟩) .no "lw a0, -8(a1)" &&
      shows 0b11111111100001011100010100000011 (.lbu 10 11 4088) (.lbu 10 11 ⟨0xfffffff8, .signed⟩) .no "lbu a0, -8(a1)" &&
      shows 0b11111111100001011101010100000011 (.lhu 10 11 4088) (.lhu 10 11 ⟨0xfffffff8, .signed⟩) .no "lhu a0, -8(a1)" &&
      shows 0b11111111100001011000010100100011 (.sb 24 11 4074) (.sb 24 11 ⟨0xffffffea, .signed⟩) .no "sb s8, -22(a1)" &&
      shows 0b11111111100001011001010100100011 (.sh 24 11 4074) (.sh 24 11 ⟨0xffffffea, .signed⟩) .no "sh s8, -22(a1)" &&
      shows 0b11111111100001011010010100100011 (.sw 24 11 4074) (.sw 24 11 ⟨0xffffffea, .signed⟩) .no "sw s8, -22(a1)") = true := by decide

theorem test_decode_control :
    (shows 0b11111111100001011000010101100011 (.beq 11 24 6122) (.beq 11 24 ⟨0xfffff7ea, .signed⟩) .no "beq a1, s8, -2070" &&
      shows 0b11111111100001011001010101100011 (.bne 11 24 6122) (.bne 11 24 ⟨0xfffff7ea, .signed⟩) .no "bne a1, s8, -2070" &&
      shows 0b11111111100001011100010101100011 (.blt 11 24 6122) (.blt 11 24 ⟨0xfffff7ea, .signed⟩) .no "blt a1, s8, -2070" &&
      shows 0b11111111100001011101010101100011 (.bge 11 24 6122) (.bge 11 24 ⟨0xfffff7ea, .signed⟩) .no "bge a1, s8, -2070" &&
      shows 0b11111111100001011110010101100011 (.bltu 11 24 6122) (.bltu 11 24 ⟨0xfffff7ea, .signed⟩) .no "bltu a1, s8, -2070" &&
      shows 0b11111111100001011111010101100011 (.bgeu 11 24 6122) (.bgeu 11 24 ⟨0xfffff7ea, .signed⟩) .no "bgeu a1, s8, -2070" &&
      shows 0b11111111100001011111010101101111 (.jal 10 1439736) (.jal 10 ⟨0xfff5f7f8, .signed⟩) .no "jal a0, -657416" &&
      shows 0b11111111100001011000010101100111 (.jalr 10 11 4088) (.jalr 10 11 ⟨0xfffffff8, .signed⟩) .no "jalr a0, -8(a1)" &&
      shows 0b11111111100001011111010100110111 (.lui 10 1046623) (.lui 10 ⟨0xff85f000, .unsigned⟩) .no "lui a0, 1046623" &&
      shows 0b11111111100001011111010100010111 (.auipc 10 1046623) (.auipc 10 ⟨0xff85f000, .unsigned⟩) .no "auipc a0, 1046623") = true := by decide

theorem test_decode_fences_and_system :
    (shows 0b00001111100000000000000000001111 (.fence 15 8) (.fence 0b1111 0b1000) .no "fence iorw, i" &&
      shows 0b10000011001100000000000000001111 (.fenceTso) (.fenceTso) .no "fence.tso" &&
      shows 0b00000000000000000001000000001111 (.fenceI) (.fenceI) .no "fence.i" &&
      shows 0b00000000000000000000000001110011 (.ecall) (.ecall) .no "ecall" &&
      shows 0b00000000000100000000000001110011 (.ebreak) (.ebreak) .no "ebreak" &&
      shows 0b00000001000000000000000000001111 (.pause) (.pause) .no "pause") = true := by decide

theorem test_decode_m :
    (shows 0b00000011100001011000010100110011 (.mul 10 11 24) (.mul 10 11 24) .no "mul a0, a1, s8" &&
      shows 0b00000011100001011001010100110011 (.mulh 10 11 24) (.mulh 10 11 24) .no "mulh a0, a1, s8" &&
      shows 0b00000011100001011010010100110011 (.mulhsu 10 11 24) (.mulhsu 10 11 24) .no "mulhsu a0, a1, s8" &&
      shows 0b00000011100001011011010100110011 (.mulhu 10 11 24) (.mulhu 10 11 24) .no "mulhu a0, a1, s8" &&
      shows 0b00000011100001011100010100110011 (.div 10 11 24) (.div 10 11 24) .no "div a0, a1, s8" &&
      shows 0b00000011100001011101010100110011 (.divu 10 11 24) (.divu 10 11 24) .no "divu a0, a1, s8" &&
      shows 0b00000011100001011110010100110011 (.rem 10 11 24) (.rem 10 11 24) .no "rem a0, a1, s8" &&
      shows 0b00000011100001011111010100110011 (.remu 10 11 24) (.remu 10 11 24) .no "remu a0, a1, s8") = true := by decide

theorem test_decode_a :
    (shows 0b00010110000001011010010100101111 (.lrW 1 1 10 11) (.lrW 1 1 10 11) .no "lr.w.aqrl a0, (a1)" &&
      shows 0b00011111100001011010010100101111 (.scW 1 1 10 11 24) (.scW 1 1 10 11 24) .no "sc.w.aqrl a0, s8, (a1)" &&
      shows 0b00001111100001011010010100101111 (.amoswapW 1 1 10 11 24) (.amoswapW 1 1 10 11 24) .no "amoswap.w.aqrl a0, s8, (a1)" &&
      shows 0b00000111100001011010010100101111 (.amoaddW 1 1 10 11 24) (.amoaddW 1 1 10 11 24) .no "amoadd.w.aqrl a0, s8, (a1)" &&
      shows 0b00100111100001011010010100101111 (.amoxorW 1 1 10 11 24) (.amoxorW 1 1 10 11 24) .no "amoxor.w.aqrl a0, s8, (a1)" &&
      shows 0b01100111100001011010010100101111 (.amoandW 1 1 10 11 24) (.amoandW 1 1 10 11 24) .no "amoand.w.aqrl a0, s8, (a1)" &&
      shows 0b01000111100001011010010100101111 (.amoorW 1 1 10 11 24) (.amoorW 1 1 10 11 24) .no "amoor.w.aqrl a0, s8, (a1)" &&
      shows 0b10000111100001011010010100101111 (.amominW 1 1 10 11 24) (.amominW 1 1 10 11 24) .no "amomin.w.aqrl a0, s8, (a1)" &&
      shows 0b10100111100001011010010100101111 (.amomaxW 1 1 10 11 24) (.amomaxW 1 1 10 11 24) .no "amomax.w.aqrl a0, s8, (a1)" &&
      shows 0b11000111100001011010010100101111 (.amominuW 1 1 10 11 24) (.amominuW 1 1 10 11 24) .no "amominu.w.aqrl a0, s8, (a1)" &&
      shows 0b11100111100001011010010100101111 (.amomaxuW 1 1 10 11 24) (.amomaxuW 1 1 10 11 24) .no "amomaxu.w.aqrl a0, s8, (a1)") = true := by decide

theorem test_decode_csr :
    (shows 0b11111111100001011001010101110011 (.csrrw 10 4088 11) (.csrrw 10 0xff8 11) .no "csrrw a0, 4088, a1" &&
      shows 0b11111111100001011010010101110011 (.csrrs 10 4088 11) (.csrrs 10 0xff8 11) .no "csrrs a0, 4088, a1" &&
      shows 0b11111111100001011011010101110011 (.csrrc 10 4088 11) (.csrrc 10 0xff8 11) .no "csrrc a0, 4088, a1" &&
      shows 0b11111111100001011101010101110011 (.csrrwi 10 4088 11) (.csrrwi 10 0xff8 11) .no "csrrwi a0, 4088, 11" &&
      shows 0b11111111100001011110010101110011 (.csrrsi 10 4088 11) (.csrrsi 10 0xff8 11) .no "csrrsi a0, 4088, 11" &&
      shows 0b11111111100001011111010101110011 (.csrrci 10 4088 11) (.csrrci 10 0xff8 11) .no "csrrci a0, 4088, 11") = true := by decide

theorem test_decode_single1 :
    (shows 0b11111111100001011010010100000111 (.flw 10 11 4088) (.fload .s 10 11 ⟨0xfffffff8, .signed⟩) .no "flw fa0, -8(a1)" &&
      shows 0b11111111100001011010010100100111 (.fsw 24 11 4074) (.fstore .s 24 11 ⟨0xffffffea, .signed⟩) .no "fsw fs8, -22(a1)" &&
      shows 0b11111001100001011111010101000011 (.fmaddS .dyn 10 11 24 31) (.fmadd .s .dyn 10 11 24 31) .no "fmadd.s fa0, fa1, fs8, ft11" &&
      shows 0b11111001100001011111010101000111 (.fmsubS .dyn 10 11 24 31) (.fmsub .s .dyn 10 11 24 31) .no "fmsub.s fa0, fa1, fs8, ft11" &&
      shows 0b11111001100001011111010101001011 (.fnmsubS .dyn 10 11 24 31) (.fnmsub .s .dyn 10 11 24 31) .no "fnmsub.s fa0, fa1, fs8, ft11" &&
      shows 0b11111001100001011111010101001111 (.fnmaddS .dyn 10 11 24 31) (.fnmadd .s .dyn 10 11 24 31) .no "fnmadd.s fa0, fa1, fs8, ft11" &&
      shows 0b00000001100001011111010101010011 (.faddS .dyn 10 11 24) (.fadd .s .dyn 10 11 24) .no "fadd.s fa0, fa1, fs8" &&
      shows 0b00001001100001011111010101010011 (.fsubS .dyn 10 11 24) (.fsub .s .dyn 10 11 24) .no "fsub.s fa0, fa1, fs8" &&
      shows 0b00010001100001011111010101010011 (.fmulS .dyn 10 11 24) (.fmul .s .dyn 10 11 24) .no "fmul.s fa0, fa1, fs8") = true := by decide

theorem test_decode_single2 :
    (shows 0b00011001100001011111010101010011 (.fdivS .dyn 10 11 24) (.fdiv .s .dyn 10 11 24) .no "fdiv.s fa0, fa1, fs8" &&
      shows 0b01011000000001011111010101010011 (.fsqrtS .dyn 10 11) (.fsqrt .s .dyn 10 11) .no "fsqrt.s fa0, fa1" &&
      shows 0b00100001100001011000010101010011 (.fsgnjS 10 11 24) (.fsgnj .s 10 11 24) .no "fsgnj.s fa0, fa1, fs8" &&
      shows 0b00100001100001011001010101010011 (.fsgnjnS 10 11 24) (.fsgnjn .s 10 11 24) .no "fsgnjn.s fa0, fa1, fs8" &&
      shows 0b00100001100001011010010101010011 (.fsgnjxS 10 11 24) (.fsgnjx .s 10 11 24) .no "fsgnjx.s fa0, fa1, fs8" &&
      shows 0b00101001100001011000010101010011 (.fminS 10 11 24) (.fmin .s 10 11 24) .no "fmin.s fa0, fa1, fs8" &&
      shows 0b00101001100001011001010101010011 (.fmaxS 10 11 24) (.fmax .s 10 11 24) .no "fmax.s fa0, fa1, fs8" &&
      shows 0b10100001100001011010010101010011 (.feqS 10 11 24) (.feq .s 10 11 24) .no "feq.s a0, fa1, fs8" &&
      shows 0b10100001100001011001010101010011 (.fltS 10 11 24) (.flt .s 10 11 24) .no "flt.s a0, fa1, fs8") = true := by decide

theorem test_decode_single3 :
    (shows 0b10100001100001011000010101010011 (.fleS 10 11 24) (.fle .s 10 11 24) .no "fle.s a0, fa1, fs8" &&
      shows 0b11100000000001011001010101010011 (.fclassS 10 11) (.fclass .s 10 11) .no "fclass.s a0, fa1" &&
      shows 0b11000000000001011111010101010011 (.fcvtWS .dyn 10 11) (.fcvtW .s .dyn 10 11) .no "fcvt.w.s a0, fa1" &&
      shows 0b11000000000101011111010101010011 (.fcvtWuS .dyn 10 11) (.fcvtWu .s .dyn 10 11) .no "fcvt.wu.s a0, fa1" &&
      shows 0b11010000000001011111010101010011 (.fcvtSW .dyn 10 11) (.fcvtFW .s .dyn 10 11) .no "fcvt.s.w fa0, a1" &&
      shows 0b11010000000101011111010101010011 (.fcvtSWu .dyn 10 11) (.fcvtFWu .s .dyn 10 11) .no "fcvt.s.wu fa0, a1" &&
      shows 0b11100000000001011000010101010011 (.fmvXW 10 11) (.fmvXW 10 11) .no "fmv.x.w a0, fa1" &&
      shows 0b11110000000001011000010101010011 (.fmvWX 10 11) (.fmvWX 10 11) .no "fmv.w.x fa0, a1") = true := by decide

theorem test_decode_double1 :
    (shows 0b11111111100001011011010100000111 (.fld 10 11 4088) (.fload .d 10 11 ⟨0xfffffff8, .signed⟩) .no "fld fa0, -8(a1)" &&
      shows 0b11111111100001011011010100100111 (.fsd 24 11 4074) (.fstore .d 24 11 ⟨0xffffffea, .signed⟩) .no "fsd fs8, -22(a1)" &&
      shows 0b11111011100001011111010101000011 (.fmaddD .dyn 10 11 24 31) (.fmadd .d .dyn 10 11 24 31) .no "fmadd.d fa0, fa1, fs8, ft11" &&
      shows 0b11111011100001011111010101000111 (.fmsubD .dyn 10 11 24 31) (.fmsub .d .dyn 10 11 24 31) .no "fmsub.d fa0, fa1, fs8, ft11" &&
      shows 0b11111011100001011111010101001011 (.fnmsubD .dyn 10 11 24 31) (.fnmsub .d .dyn 10 11 24 31) .no "fnmsub.d fa0, fa1, fs8, ft11" &&
      shows 0b11111011100001011111010101001111 (.fnmaddD .dyn 10 11 24 31) (.fnmadd .d .dyn 10 11 24 31) .no "fnmadd.d fa0, fa1, fs8, ft11" &&
      shows 0b00000011100001011111010101010011 (.faddD .dyn 10 11 24) (.fadd .d .dyn 10 11 24) .no "fadd.d fa0, fa1, fs8" &&
      shows 0b00001011100001011111010101010011 (.fsubD .dyn 10 11 24) (.fsub .d .dyn 10 11 24) .no "fsub.d fa0, fa1, fs8" &&
      shows 0b00010011100001011111010101010011 (.fmulD .dyn 10 11 24) (.fmul .d .dyn 10 11 24) .no "fmul.d fa0, fa1, fs8") = true := by decide

theorem test_decode_double2 :
    (shows 0b00011011100001011111010101010011 (.fdivD .dyn 10 11 24) (.fdiv .d .dyn 10 11 24) .no "fdiv.d fa0, fa1, fs8" &&
      shows 0b01011010000001011111010101010011 (.fsqrtD .dyn 10 11) (.fsqrt .d .dyn 10 11) .no "fsqrt.d fa0, fa1" &&
      shows 0b00100011100001011000010101010011 (.fsgnjD 10 11 24) (.fsgnj .d 10 11 24) .no "fsgnj.d fa0, fa1, fs8" &&
      shows 0b00100011100001011001010101010011 (.fsgnjnD 10 11 24) (.fsgnjn .d 10 11 24) .no "fsgnjn.d fa0, fa1, fs8" &&
      shows 0b00100011100001011010010101010011 (.fsgnjxD 10 11 24) (.fsgnjx .d 10 11 24) .no "fsgnjx.d fa0, fa1, fs8" &&
      shows 0b00101011100001011000010101010011 (.fminD 10 11 24) (.fmin .d 10 11 24) .no "fmin.d fa0, fa1, fs8" &&
      shows 0b00101011100001011001010101010011 (.fmaxD 10 11 24) (.fmax .d 10 11 24) .no "fmax.d fa0, fa1, fs8" &&
      shows 0b01000000000101011111010101010011 (.fcvtSD .dyn 10 11) (.fcvtSD .dyn 10 11) .no "fcvt.s.d fa0, fa1" &&
      shows 0b01000010000001011000010101010011 (.fcvtDS 10 11) (.fcvtDS 10 11) .no "fcvt.d.s fa0, fa1") = true := by decide

theorem test_decode_double3 :
    (shows 0b10100011100001011010010101010011 (.feqD 10 11 24) (.feq .d 10 11 24) .no "feq.d a0, fa1, fs8" &&
      shows 0b10100011100001011001010101010011 (.fltD 10 11 24) (.flt .d 10 11 24) .no "flt.d a0, fa1, fs8" &&
      shows 0b10100011100001011000010101010011 (.fleD 10 11 24) (.fle .d 10 11 24) .no "fle.d a0, fa1, fs8" &&
      shows 0b11100010000001011001010101010011 (.fclassD 10 11) (.fclass .d 10 11) .no "fclass.d a0, fa1" &&
      shows 0b11000010000001011111010101010011 (.fcvtWD .dyn 10 11) (.fcvtW .d .dyn 10 11) .no "fcvt.w.d a0, fa1" &&
      shows 0b11000010000101011111010101010011 (.fcvtWuD .dyn 10 11) (.fcvtWu .d .dyn 10 11) .no "fcvt.wu.d a0, fa1" &&
      shows 0b11010010000001011000010101010011 (.fcvtDW 10 11) (.fcvtFW .d .rne 10 11) .no "fcvt.d.w fa0, a1" &&
      shows 0b11010010000101011000010101010011 (.fcvtDWu 10 11) (.fcvtFWu .d .rne 10 11) .no "fcvt.d.wu fa0, a1") = true := by decide

theorem test_decode_parcel1 :
    (shows 0b00000000000000000001010111110100 (.cAddi4spn 5 748) (.addi 13 2 ⟨0x000002ec, .signed⟩) .yes "addi a3, sp, 748" &&
      shows 0b00000000000000000011010111110100 (.cFld 5 3 232) (.fload .d 13 11 ⟨0x000000e8, .signed⟩) .yes "fld fa3, 232(a1)" &&
      shows 0b00000000000000000101010111110100 (.cLw 5 3 108) (.lw 13 11 ⟨0x0000006c, .signed⟩) .yes "lw a3, 108(a1)" &&
      shows 0b00000000000000000111010111110100 (.cFlw 5 3 108) (.fload .s 13 11 ⟨0x0000006c, .signed⟩) .yes "flw fa3, 108(a1)" &&
      shows 0b00000000000000001011010111110100 (.cFsd 5 3 232) (.fstore .d 13 11 ⟨0x000000e8, .signed⟩) .yes "fsd fa3, 232(a1)" &&
      shows 0b00000000000000001101010111110100 (.cSw 5 3 108) (.sw 13 11 ⟨0x0000006c, .signed⟩) .yes "sw a3, 108(a1)" &&
      shows 0b00000000000000001111010111110100 (.cFsw 5 3 108) (.fstore .s 13 11 ⟨0x0000006c, .signed⟩) .yes "fsw fa3, 108(a1)" &&
      shows 0b00000000000000000001000001110101 (.cNop 61) (.addi 0 0 ⟨0xfffffffd, .signed⟩) .yes "addi zero, zero, -3" &&
      shows 0b00000000000000000001010111110101 (.cAddi 11 61) (.addi 11 11 ⟨0xfffffffd, .signed⟩) .yes "addi a1, a1, -3") = true := by decide

theorem test_decode_parcel2 :
    (shows 0b00000000000000000011010111110101 (.cJal 3820) (.jal 1 ⟨0xfffffeec, .signed⟩) .yes "jal ra, -276" &&
      shows 0b00000000000000000101010111110101 (.cLi 11 61) (.addi 11 0 ⟨0xfffffffd, .signed⟩) .yes "addi a1, zero, -3" &&
      shows 0b00000000000000000111000101110101 (.cAddi16sp 880) (.addi 2 2 ⟨0xffffff70, .signed⟩) .yes "addi sp, sp, -144" &&
      shows 0b00000000000000000111010111110101 (.cLui 11 61) (.lui 11 ⟨0xffffd000, .unsigned⟩) .yes "lui a1, 1048573" &&
      shows 0b00000000000000001000000111110101 (.cSrli 3 29) (.srli 11 11 29) .yes "srli a1, a1, 29" &&
      shows 0b00000000000000001000010111110101 (.cSrai 3 29) (.srai 11 11 29) .yes "srai a1, a1, 29" &&
      shows 0b00000000000000001001100111110101 (.cAndi 3 61) (.andi 11 11 ⟨0xfffffffd, .signed⟩) .yes "andi a1, a1, -3" &&
      shows 0b00000000000000001000110110010101 (.cSub 3 5) (.sub 11 11 13) .yes "sub a1, a1, a3" &&
      shows 0b00000000000000001000110110110101 (.cXor 3 5) (.xor 11 11 13) .yes "xor a1, a1, a3") = true := by decide

theorem test_decode_parcel3 :
    (shows 0b00000000000000001000110111010101 (.cOr 3 5) (.or 11 11 13) .yes "or a1, a1, a3" &&
      shows 0b00000000000000001000110111110101 (.cAnd 3 5) (.and 11 11 13) .yes "and a1, a1, a3" &&
      shows 0b00000000000000001011010111110101 (.cJ 3820) (.jal 0 ⟨0xfffffeec, .signed⟩) .yes "jal zero, -276" &&
      shows 0b00000000000000001101010111110101 (.cBeqz 3 492) (.beq 11 0 ⟨0xffffffec, .signed⟩) .yes "beq a1, zero, -20" &&
      shows 0b00000000000000001111010111110101 (.cBnez 3 492) (.bne 11 0 ⟨0xffffffec, .signed⟩) .yes "bne a1, zero, -20" &&
      shows 0b00000000000000000000010111110110 (.cSlli 11 29) (.slli 11 11 29) .yes "slli a1, a1, 29" &&
      shows 0b00000000000000000011010111110110 (.cFldsp 11 376) (.fload .d 11 2 ⟨0x00000178, .signed⟩) .yes "fld fa1, 376(sp)" &&
      shows 0b00000000000000000101010111110110 (.cLwsp 11 124) (.lw 11 2 ⟨0x0000007c, .signed⟩) .yes "lw a1, 124(sp)" &&
      shows 0b00000000000000000111010111110110 (.cFlwsp 11 124) (.fload .s 11 2 ⟨0x0000007c, .signed⟩) .yes "flw fa1, 124(sp)") = true := by decide

theorem test_decode_parcel4 :
    (shows 0b00000000000000001000010110000010 (.cJr 11) (.jalr 0 11 ⟨0x00000000, .signed⟩) .yes "jalr zero, 0(a1)" &&
      shows 0b00000000000000001000010111110110 (.cMv 11 29) (.add 11 0 29) .yes "add a1, zero, t4" &&
      shows 0b00000000000000001001000000000010 (.cEbreak) (.ebreak) .yes "ebreak" &&
      shows 0b00000000000000001001010110000010 (.cJalr 11) (.jalr 1 11 ⟨0x00000000, .signed⟩) .yes "jalr ra, 0(a1)" &&
      shows 0b00000000000000001001010111110110 (.cAdd 11 29) (.add 11 11 29) .yes "add a1, a1, t4" &&
      shows 0b00000000000000001011010111110110 (.cFsdsp 29 232) (.fstore .d 29 2 ⟨0x000000e8, .signed⟩) .yes "fsd ft9, 232(sp)" &&
      shows 0b00000000000000001101010111110110 (.cSwsp 29 232) (.sw 29 2 ⟨0x000000e8, .signed⟩) .yes "sw t4, 232(sp)" &&
      shows 0b00000000000000001111010111110110 (.cFswsp 29 232) (.fstore .s 29 2 ⟨0x000000e8, .signed⟩) .yes "fsw ft9, 232(sp)") = true := by decide

/-! ### The vectors of 95_test_vectors.md L1 and L2 -/

/-- Every word of a list decodes to the record beside it. -/
def agree (x : Xlen) (c : IsCompressed) (l : List (Word × Record)) : Bool := l.all fun e => decide (decode e.1 x = .ok e.2 c)

/-- Every word of a list yields `DecodeError`. -/
def errors (x : Xlen) (l : List Word) : Bool := l.all fun w => decide (decode w x = .decodeError)

theorem test_vectors_l1_4_1 :
    agree .rv32 .no [(0x3002d573, .csrrwi 10 0x300 5), (0x30005573, .csrrwi 10 0x300 0),
      (0x300fd573, .csrrwi 10 0x300 31)] = true := by decide

theorem test_vectors_l2_1_1 :
    agree .rv32 .no [(0x00000013, .addi 0 0 ⟨0x00000000, .signed⟩), (0x7ff08513, .addi 10 1 ⟨0x000007ff, .signed⟩),
      (0x80008513, .addi 10 1 ⟨0xfffff800, .signed⟩), (0x00500013, .addi 0 0 ⟨0x00000005, .signed⟩),
      (0xfff5b513, .sltiu 10 11 ⟨0xffffffff, .signed⟩), (0xfff5c513, .xori 10 11 ⟨0xffffffff, .signed⟩),
      (0x01f59513, .slli 10 11 31), (0x4075d513, .srai 10 11 7),
      (0x00c58533, .add 10 11 12), (0x40c58533, .sub 10 11 12),
      (0x40c5d533, .sra 10 11 12), (0x00c5b533, .sltu 10 11 12)] = true := by decide

theorem test_vectors_l2_1_2 :
    agree .rv32 .no [(0x00a50533, .add 10 10 10), (0xfffff537, .lui 10 ⟨0xfffff000, .unsigned⟩),
      (0x00000537, .lui 10 ⟨0x00000000, .unsigned⟩), (0x80000297, .auipc 5 ⟨0x80000000, .unsigned⟩),
      (0x800000ef, .jal 1 ⟨0xfff00000, .signed⟩), (0x7ffff06f, .jal 0 ⟨0x000ffffe, .signed⟩),
      (0x000000ef, .jal 1 ⟨0x00000000, .signed⟩), (0x001280e7, .jalr 1 5 ⟨0x00000001, .signed⟩),
      (0x80028067, .jalr 0 5 ⟨0xfffff800, .signed⟩), (0x80b50063, .beq 10 11 ⟨0xfffff000, .signed⟩),
      (0x7eb51fe3, .bne 10 11 ⟨0x00000ffe, .signed⟩), (0xfe004fe3, .blt 0 0 ⟨0xfffffffe, .signed⟩)] = true := by decide

theorem test_vectors_l2_1_3 :
    agree .rv32 .no [(0x00b57463, .bgeu 10 11 ⟨0x00000008, .signed⟩), (0xfff10503, .lb 10 2 ⟨0xffffffff, .signed⟩),
      (0x7ff14503, .lbu 10 2 ⟨0x000007ff, .signed⟩), (0x80a12023, .sw 10 2 ⟨0xfffff800, .signed⟩),
      (0x7ea10fa3, .sb 10 2 ⟨0x000007ff, .signed⟩), (0x0ff0000f, .fence 0b1111 0b1111),
      (0x0330000f, .fence 0b0011 0b0011), (0x8330000f, .fenceTso),
      (0x0000100f, .fenceI), (0x00000073, .ecall),
      (0x00100073, .ebreak)] = true := by decide

theorem test_vectors_l2_1_4 :
    errors .rv32 [0x02059513, 0x40759513, 0x40c59533, 0x80c58533, 0x000290e7, 0x00b52463, 0x00013503, 0x00016503,
      0x00a13023, 0x00f0000f, 0x0f00000f, 0x0ff0008f] = true := by decide

theorem test_vectors_l2_1_5 :
    errors .rv32 [0x8ff0000f, 0x0010100f, 0x30200073, 0x10500073, 0x12000073, 0x00004073, 0x0000001b, 0x0000003b,
      0x0000000b, 0x0000001f, 0xffffffff] = true := by decide

theorem test_vectors_l2_1_6 :
    errors .rv64 [0x02059513] = true := by decide

theorem test_vectors_l2_2_1 :
    agree .rv32 .no [(0x02c58533, .mul 10 11 12), (0x02c59533, .mulh 10 11 12),
      (0x02c5a533, .mulhsu 10 11 12), (0x02c5b533, .mulhu 10 11 12),
      (0x02c5c533, .div 10 11 12), (0x02c5d533, .divu 10 11 12),
      (0x02c5e533, .rem 10 11 12), (0x02c5f533, .remu 10 11 12),
      (0x02004033, .div 0 0 0)] = true := by decide

theorem test_vectors_l2_2_2 :
    errors .rv32 [0x06c58533, 0x02c5853b] = true := by decide

theorem test_vectors_l2_3_1 :
    agree .rv32 .no [(0x1005a52f, .lrW 0 0 10 11), (0x1405a52f, .lrW 1 0 10 11),
      (0x1ec5a52f, .scW 1 1 10 11 12), (0x0ac5a52f, .amoswapW 0 1 10 11 12),
      (0x02c5a52f, .amoaddW 0 1 10 11 12), (0x22c5a52f, .amoxorW 0 1 10 11 12),
      (0x62c5a52f, .amoandW 0 1 10 11 12), (0x42c5a52f, .amoorW 0 1 10 11 12),
      (0x82c5a52f, .amominW 0 1 10 11 12), (0xa2c5a52f, .amomaxW 0 1 10 11 12),
      (0xc2c5a52f, .amominuW 0 1 10 11 12), (0xe2c5a52f, .amomaxuW 0 1 10 11 12)] = true := by decide

theorem test_vectors_l2_3_2 :
    errors .rv32 [0x1055a52f, 0x28c5a52f, 0xf8c5a52f, 0x00c5b52f, 0x00c5852f] = true := by decide

theorem test_vectors_l2_4_1 :
    agree .rv32 .no [(0x3002d573, .csrrwi 10 0x300 5), (0x300fd573, .csrrwi 10 0x300 31),
      (0x30059573, .csrrw 10 0x300 11), (0xc0002573, .csrrs 10 0xc00 0),
      (0x00303573, .csrrc 10 0x003 0), (0xfff0e573, .csrrsi 10 0xfff 1),
      (0x7c007573, .csrrci 10 0x7c0 0), (0x0000f073, .csrrci 0 0x000 1),
      (0x0100000f, .pause), (0x0110000f, .fence 0b0001 0b0001)] = true := by decide

theorem test_vectors_l2_4_2 :
    errors .rv32 [0x0100008f] = true := by decide

theorem test_vectors_l2_5_1 :
    agree .rv32 .no [(0xffc12507, .fload .s 10 2 ⟨0xfffffffc, .signed⟩), (0x80a12027, .fstore .s 10 2 ⟨0xfffff800, .signed⟩),
      (0x00c58553, .fadd .s .rne 10 11 12), (0x00c59553, .fadd .s .rtz 10 11 12),
      (0x00c5a553, .fadd .s .rdn 10 11 12), (0x00c5b553, .fadd .s .rup 10 11 12),
      (0x00c5c553, .fadd .s .rmm 10 11 12), (0x00c5f553, .fadd .s .dyn 10 11 12),
      (0x68c5f543, .fmadd .s .dyn 10 11 12 13), (0x68c5954f, .fnmadd .s .rtz 10 11 12 13),
      (0x5805f553, .fsqrt .s .dyn 10 11), (0x20c58553, .fsgnj .s 10 11 12)] = true := by decide

theorem test_vectors_l2_5_2 :
    agree .rv32 .no [(0x20c5a553, .fsgnjx .s 10 11 12), (0x28c59553, .fmax .s 10 11 12),
      (0xc0059553, .fcvtW .s .rtz 10 11), (0xc015f553, .fcvtWu .s .dyn 10 11),
      (0xd005f553, .fcvtFW .s .dyn 10 11), (0xe0058553, .fmvXW 10 11),
      (0xe0059553, .fclass .s 10 11), (0xf0058553, .fmvWX 10 11),
      (0xa0c5a553, .feq .s 10 11 12), (0xa0c58553, .fle .s 10 11 12)] = true := by decide

theorem test_vectors_l2_5_3 :
    errors .rv32 [0x00014507, 0x00c5d553, 0x00c5e553, 0x04c58553, 0x06c58553, 0x6cc5954f, 0x5815f553, 0x20c5b553,
      0xc025f553, 0xe005a553, 0xf0059553, 0xa0c5b553] = true := by decide

theorem test_vectors_l2_6_1 :
    agree .rv32 .no [(0x00813507, .fload .d 10 2 ⟨0x00000008, .signed⟩), (0xfea13c27, .fstore .d 10 2 ⟨0xfffffff8, .signed⟩),
      (0x02c5c553, .fadd .d .rmm 10 11 12), (0x6ac58547, .fmsub .d .rne 10 11 12 13),
      (0x4015f553, .fcvtSD .dyn 10 11), (0x40159553, .fcvtSD .rtz 10 11),
      (0x42058553, .fcvtDS 10 11), (0xd2058553, .fcvtFW .d .rne 10 11),
      (0xd2158553, .fcvtFWu .d .rne 10 11), (0xc2059553, .fcvtW .d .rtz 10 11),
      (0xe2059553, .fclass .d 10 11), (0xa2c59553, .flt .d 10 11 12)] = true := by decide

theorem test_vectors_l2_6_2 :
    agree .rv32 .no [(0x5a05f553, .fsqrt .d .dyn 10 11)] = true := by decide

theorem test_vectors_l2_6_3 :
    errors .rv32 [0x4205f553, 0xd2059553, 0xe2058553, 0xf2058553] = true := by decide

theorem test_vectors_l2_7_1 :
    agree .rv32 .yes [(0x1101, .addi 2 2 ⟨0xffffffe0, .signed⟩), (0x0001, .addi 0 0 ⟨0x00000000, .signed⟩),
      (0x0005, .addi 0 0 ⟨0x00000001, .signed⟩), (0x0081, .addi 1 1 ⟨0x00000000, .signed⟩),
      (0x1ffc, .addi 15 2 ⟨0x000003fc, .signed⟩), (0x0040, .addi 8 2 ⟨0x00000004, .signed⟩),
      (0x5ffc, .lw 15 15 ⟨0x0000007c, .signed⟩), (0xdffc, .sw 15 15 ⟨0x0000007c, .signed⟩),
      (0x3ffc, .fload .d 15 15 ⟨0x000000f8, .signed⟩), (0x7ffc, .fload .s 15 15 ⟨0x0000007c, .signed⟩),
      (0x2001, .jal 1 ⟨0x00000000, .signed⟩), (0x3ffd, .jal 1 ⟨0xfffffffe, .signed⟩)] = true := by decide

theorem test_vectors_l2_7_2 :
    agree .rv32 .yes [(0xa001, .jal 0 ⟨0x00000000, .signed⟩), (0xb001, .jal 0 ⟨0xfffff800, .signed⟩),
      (0xaffd, .jal 0 ⟨0x000007fe, .signed⟩), (0x557d, .addi 10 0 ⟨0xffffffff, .signed⟩),
      (0x4001, .addi 0 0 ⟨0x00000000, .signed⟩), (0x6105, .addi 2 2 ⟨0x00000020, .signed⟩),
      (0x7139, .addi 2 2 ⟨0xffffffc0, .signed⟩), (0x757d, .lui 10 ⟨0xfffff000, .unsigned⟩),
      (0x6505, .lui 10 ⟨0x00001000, .unsigned⟩), (0x807d, .srli 8 8 31),
      (0x8405, .srai 8 8 1), (0x8001, .srli 8 8 0)] = true := by decide

theorem test_vectors_l2_7_3 :
    agree .rv32 .yes [(0x987d, .andi 8 8 ⟨0xffffffff, .signed⟩), (0x8c05, .sub 8 8 9),
      (0x8c25, .xor 8 8 9), (0x8c45, .or 8 8 9),
      (0x8c65, .and 8 8 9), (0xc001, .beq 8 0 ⟨0x00000000, .signed⟩),
      (0xec7d, .bne 8 0 ⟨0x000000fe, .signed⟩), (0xf001, .bne 8 0 ⟨0xffffff00, .signed⟩),
      (0x057e, .slli 10 10 31), (0x0002, .slli 0 0 0),
      (0x2502, .fload .d 10 2 ⟨0x00000000, .signed⟩), (0x357e, .fload .d 10 2 ⟨0x000001f8, .signed⟩)] = true := by decide

theorem test_vectors_l2_7_4 :
    agree .rv32 .yes [(0x4502, .lw 10 2 ⟨0x00000000, .signed⟩), (0x5ffe, .lw 31 2 ⟨0x000000fc, .signed⟩),
      (0x6502, .fload .s 10 2 ⟨0x00000000, .signed⟩), (0x8502, .jalr 0 10 ⟨0x00000000, .signed⟩),
      (0x852e, .add 10 0 11), (0x802e, .add 0 0 11),
      (0x9002, .ebreak), (0x9502, .jalr 1 10 ⟨0x00000000, .signed⟩),
      (0x952e, .add 10 10 11), (0xbffe, .fstore .d 31 2 ⟨0x000001f8, .signed⟩),
      (0xdffe, .sw 31 2 ⟨0x000000fc, .signed⟩), (0xe02a, .fstore .s 10 2 ⟨0x00000000, .signed⟩)] = true := by decide

theorem test_vectors_l2_7_5 :
    agree .rv32 .yes [(0xdead1101, .addi 2 2 ⟨0xffffffe0, .signed⟩)] = true := by decide

theorem test_vectors_l2_7_6 :
    errors .rv32 [0x0000, 0x0010, 0x8000, 0x6101, 0x6501, 0x9001, 0x9c05, 0x9c45,
      0x1502, 0x4002, 0x8002, 0xffff0000] = true := by decide

theorem test_vectors_l2_7_7 :
    errors .rv64 [0x2001, 0x7ffc, 0xe02a, 0x6502, 0xfffc] = true := by decide

theorem test_vectors_l2_7_8 :
    agree .rv64 .yes [(0x1101, .addi 2 2 ⟨0xffffffe0, .signed⟩), (0x852e, .add 10 0 11)] = true := by decide

/-- L1.5: the 21 funct5 values no AMO has. -/
theorem test_vectors_amo_funct5 :
    (errors .rv32 [0x28c5a52f, 0x30c5a52f, 0x38c5a52f, 0x48c5a52f, 0x50c5a52f, 0x58c5a52f,
      0x68c5a52f, 0x70c5a52f, 0x78c5a52f, 0x88c5a52f, 0x90c5a52f] &&
      errors .rv64 [0x98c5a52f, 0xa8c5a52f, 0xb0c5a52f, 0xb8c5a52f, 0xc8c5a52f, 0xd0c5a52f,
      0xd8c5a52f, 0xe8c5a52f, 0xf0c5a52f, 0xf8c5a52f]) = true := by decide

/-- L2.8. -/
theorem test_format_1 :
    (decide (format defaultCsrNames (.addi 8 8 ⟨0x00000001, .signed⟩) = "addi s0, s0, 1") &&
      decide (format defaultCsrNames (.fadd .s .rtz 1 2 3) = "fadd.s ft1, ft2, ft3, rtz") &&
      decide (format defaultCsrNames (.fadd .s .dyn 1 2 3) = "fadd.s ft1, ft2, ft3") &&
      decide (format defaultCsrNames (.fnmadd .d .rmm 30 30 30 30) = "fnmadd.d ft10, ft10, ft10, ft10, rmm") &&
      decide (format defaultCsrNames (.csrrs 10 0x001 0) = "csrrs a0, fflags, zero") &&
      decide (format defaultCsrNames (.csrrw 0 0x123 1) = "csrrw zero, 291, ra") &&
      decide (format defaultCsrNames (.fence 0b1010 0b0101) = "fence ir, ow") &&
      decide (format defaultCsrNames (.amoswapW 1 1 10 11 12) = "amoswap.w.aqrl a0, a2, (a1)") &&
      decide (format defaultCsrNames (.scW 0 1 10 11 12) = "sc.w.rl a0, a2, (a1)") &&
      decide (format defaultCsrNames (.fcvtDS 10 11) = "fcvt.d.s fa0, fa1")) = true := by decide

/-- L2.8. -/
theorem test_format_2 :
    (decide (format defaultCsrNames (.lui 10 ⟨0x12345000, .unsigned⟩) = "lui a0, 74565") &&
      decide (format defaultCsrNames (.addi 10 0 ⟨0x00001388, .signed⟩) = "addi a0, zero, 5000") &&
      decide (format defaultCsrNames (.lui 10 ⟨0x00001234, .unsigned⟩) = "lui a0, 1") &&
      decide (format defaultCsrNames (.fence 0b0000 0b0011) = "fence 0, rw") &&
      decide (format defaultCsrNames (.fcvtFW .d .rtz 10 11) = "fcvt.d.w fa0, a1") &&
      decide (format defaultCsrNames (.jalr 1 5 ⟨0x00000000, .signed⟩) = "jalr ra, 0(t0)") &&
      decide (format defaultCsrNames (.lw 10 2 ⟨0x0000000c, .signed⟩) = "lw a0, 12(sp)") &&
      decide (format defaultCsrNames (.pause) = "pause") &&
      decide (format defaultCsrNames (.fenceTso) = "fence.tso")) = true := by decide

/-! ### The decode walks of 95_test_vectors.md L3 -/

theorem test_walk_1 :
    decodeWalk .rv32 12 [0x01, 0x45, 0x95, 0x45, 0x2e, 0x95, 0xfd, 0x15, 0xf5, 0xfd, 0x02, 0x90] =
      [.ok (.addi 10 0 ⟨0x00000000, .signed⟩) .yes, .ok (.addi 11 0 ⟨0x00000005, .signed⟩) .yes,
      .ok (.add 10 10 11) .yes, .ok (.addi 11 11 ⟨0xffffffff, .signed⟩) .yes,
      .ok (.bne 11 0 ⟨0xfffffffc, .signed⟩) .yes, .ok (.ebreak) .yes] := by decide

theorem test_walk_2 :
    decodeWalk .rv32 12 [0xb7, 0x12, 0x00, 0x00, 0x13, 0x03, 0xa0, 0x02, 0x23, 0xa0, 0x62, 0x00, 0x83, 0xa3, 0x02, 0x00,
      0x9e, 0x87, 0x2f, 0xae, 0x62, 0x00, 0x83, 0xae, 0x02, 0x00, 0x73, 0x00, 0x00, 0x00] =
      [.ok (.lui 5 ⟨0x00001000, .unsigned⟩) .no, .ok (.addi 6 0 ⟨0x0000002a, .signed⟩) .no,
      .ok (.sw 6 5 ⟨0x00000000, .signed⟩) .no, .ok (.lw 7 5 ⟨0x00000000, .signed⟩) .no,
      .ok (.add 15 0 7) .yes, .ok (.amoaddW 0 0 28 5 6) .no,
      .ok (.lw 29 5 ⟨0x00000000, .signed⟩) .no, .ok (.ecall) .no] := by decide

theorem test_walk_3 :
    decodeWalk .rv32 12 [0x13, 0x05, 0x90, 0xff, 0x93, 0x05, 0x20, 0x00, 0xb3, 0x02, 0xb5, 0x02, 0x33, 0x46, 0xb5, 0x02,
      0xb3, 0x66, 0xb5, 0x02, 0x33, 0x57, 0x05, 0x02, 0xb3, 0x67, 0x05, 0x02, 0x73, 0x10, 0x05, 0x34,
      0x73, 0x28, 0x00, 0x34, 0x73, 0x00, 0x10, 0x00] =
      [.ok (.addi 10 0 ⟨0xfffffff9, .signed⟩) .no, .ok (.addi 11 0 ⟨0x00000002, .signed⟩) .no,
      .ok (.mul 5 10 11) .no, .ok (.div 12 10 11) .no,
      .ok (.rem 13 10 11) .no, .ok (.divu 14 10 0) .no,
      .ok (.rem 15 10 0) .no, .ok (.csrrw 0 0x340 10) .no,
      .ok (.csrrs 16 0x340 0) .no, .ok (.ebreak) .no] := by decide

theorem test_walk_4 :
    decodeWalk .rv32 12 [0x13, 0x05, 0x30, 0x00, 0x53, 0x75, 0x05, 0xd0, 0xd3, 0x75, 0xa5, 0x00, 0xd3, 0x95, 0x05, 0xc0,
      0x53, 0x86, 0x05, 0xe0, 0x73, 0x00, 0x10, 0x00] =
      [.ok (.addi 10 0 ⟨0x00000003, .signed⟩) .no, .ok (.fcvtFW .s .dyn 10 10) .no,
      .ok (.fadd .s .dyn 11 10 10) .no, .ok (.fcvtW .s .rtz 11 11) .no,
      .ok (.fmvXW 12 11) .no, .ok (.ebreak) .no] := by decide

theorem test_walk_5 :
    decodeWalk .rv32 12 [0x05, 0x45, 0x00, 0x00, 0x02, 0x90] =
      [.ok (.addi 10 0 ⟨0x00000001, .signed⟩) .yes, .decodeError] := by decide

/-! ### One step of each instruction on small states -/

/-- A state at pc 0x100 with some registers and bytes of memory set. -/
def st (x : Xlen) (xs : List (Reg × XWord)) (fs : List (Reg × FWord)) (bytes : List Host.Cell) : State :=
  fs.foldl (fun s e => writeF s e.1 e.2)
    (xs.foldl (fun s e => writeX s e.1 e.2) { State.reset with xlen := x, pc := 0x100, mem := bytes, imem := bytes })

/-- `exec` answers a next state with a property. -/
def after (i : Instr) (s : State) (p : State → Bool) : Bool :=
  match exec i s with
  | .next t => p t
  | _ => false

/-- An instruction leaves a value in an integer register, and the pc after it. -/
def gives (i : Instr) (s : State) (r : Reg) (v : XWord) : Bool :=
  after i s fun t => readX t r == v && t.pc == s.pc + BitVec.ofNat 64 i.compressed.bytes

/-- An instruction leaves a value in an FP register, and flags. -/
def givesF (i : Instr) (s : State) (r : Reg) (v : FWord) (flags : BitVec 5) : Bool :=
  after i s fun t => readF t r == v && t.fflags == flags && t.pc == s.pc + BitVec.ofNat 64 i.compressed.bytes

/-- An instruction leaves a value in an integer register, and flags. -/
def givesFX (i : Instr) (s : State) (r : Reg) (v : XWord) (flags : BitVec 5) : Bool :=
  gives i s r v && after i s fun t => t.fflags == flags

/-- An instruction takes an exception: code, trap value, saved pc and mode. -/
def traps (i : Instr) (s : State) (code tval : XWord) : Bool :=
  after i s fun t => csrFileGet t 0x342 == code && csrFileGet t 0x343 == tval && csrFileGet t 0x341 == s.pc &&
    t.mode == .m && t.pc == 0

/-- x11 = -7, x12 = 2, x13 = the most negative, x14 = -1, x15 = 37. -/
def ints : State := st .rv32 [(11, 0xFFFFFFF9), (12, 2), (13, 0x80000000), (14, 0xFFFFFFFF), (15, 37)] [] []

/-- The same numbers in 64 bits. -/
def ints64 : State :=
  st .rv64 [(11, 0xFFFFFFFFFFFFFFF9), (12, 2), (13, 0x8000000000000000), (14, 0xFFFFFFFFFFFFFFFF), (15, 37)] [] []

/-- Worked by hand from 40_base_integer.md R120 to R128. -/
theorem test_op_imm :
    (gives (.addi 10 14 1) ints 10 0 && gives (.slti 10 11 0xFFA) ints 10 1 && gives (.sltiu 10 12 0xFFF) ints 10 1 &&
      gives (.xori 10 12 0xFFF) ints 10 0xFFFFFFFD && gives (.ori 10 12 0x7F1) ints 10 0x7F3 &&
      gives (.andi 10 11 0xF) ints 10 9 && gives (.slli 10 14 31) ints 10 0x80000000 && gives (.srli 10 13 31) ints 10 1 &&
      gives (.srai 10 13 31) ints 10 0xFFFFFFFF) = true := by decide

/-- Worked by hand from 40_base_integer.md R129 to R138; the shift amount of 37 is 5. -/
theorem test_op :
    (gives (.add 10 13 13) ints 10 0 && gives (.sub 10 12 11) ints 10 9 && gives (.sll 10 12 15) ints 10 64 &&
      gives (.slt 10 13 12) ints 10 1 && gives (.sltu 10 13 12) ints 10 0 && gives (.xor 10 11 14) ints 10 6 &&
      gives (.srl 10 13 15) ints 10 0x04000000 && gives (.sra 10 13 15) ints 10 0xFC000000 &&
      gives (.or 10 12 13) ints 10 0x80000002 && gives (.and 10 11 14) ints 10 0xFFFFFFF9) = true := by decide

/-- A source that is also the destination, and a write to x0 that is discarded (10_state.md R31). -/
theorem test_same_register_and_x0 :
    (gives (.sub 11 12 11) ints 11 9 && gives (.add 0 11 12) ints 0 0 && gives (.jalr 0 0 0x110) { ints with pc := 0x10C } 0 0) =
      true := by decide

/-- Under Rv64 a shift amount is still five bits (40_base_integer.md R131, R136). -/
theorem test_op_rv64 :
    (gives (.sll 10 12 15) ints64 10 64 && gives (.sra 10 13 15) ints64 10 0xFC00000000000000 &&
      gives (.slt 10 13 12) ints64 10 1 && gives (.mulhu 10 14 14) ints64 10 0xFFFFFFFFFFFFFFFE &&
      gives (.lui 10 0x80000) ints64 10 0xFFFFFFFF80000000) = true := by decide

/-- Worked by hand from 40_base_integer.md R155, R156. -/
theorem test_upper :
    (gives (.lui 10 0xFFFFF) ints 10 0xFFFFF000 && gives (.auipc 10 0xFFFFF) ints 10 0xFFFFF100) = true := by decide

/-- The values of 41_m_extension.md R169. -/
theorem test_mul_div :
    (gives (.mul 10 11 12) ints 10 0xFFFFFFF2 && gives (.mulh 10 13 13) ints 10 0x40000000 &&
      gives (.mulhsu 10 14 14) ints 10 0xFFFFFFFF && gives (.mulhu 10 14 14) ints 10 0xFFFFFFFE &&
      gives (.div 10 11 12) ints 10 0xFFFFFFFD && gives (.rem 10 11 12) ints 10 0xFFFFFFFF &&
      gives (.divu 10 11 12) ints 10 0x7FFFFFFC && gives (.remu 10 11 12) ints 10 1) = true := by decide

/-- Division by zero and the signed overflow (41_m_extension.md R169). -/
theorem test_div_corners :
    (gives (.div 10 11 0) ints 10 0xFFFFFFFF && gives (.divu 10 11 0) ints 10 0xFFFFFFFF &&
      gives (.rem 10 11 0) ints 10 0xFFFFFFF9 && gives (.remu 10 11 0) ints 10 0xFFFFFFF9 &&
      gives (.div 10 13 14) ints 10 0x80000000 && gives (.rem 10 13 14) ints 10 0) = true := by decide

/-- x16 = 0x1000, where memory holds 80 FF 34 12, then 01 to 04. -/
def mems : State :=
  st .rv32 [(11, 0xFFFFFFF9), (12, 2), (13, 0x80000000), (16, 0x1000), (8, 0x1000), (2, 0x1000)]
    [(11, 0x1122334455667788)]
    [(0x1000, 0x80), (0x1001, 0xFF), (0x1002, 0x34), (0x1003, 0x12), (0x1004, 1), (0x1005, 2), (0x1006, 3), (0x1007, 4)]

/-- A store leaves these bytes from 0x1000. -/
def stores (i : Instr) (s : State) (bytes : List Byte) : Bool :=
  after i s fun t => decide ((List.range 8).map (fun k => byteAt t.mem (0x1000 + k)) = bytes)

/-- Worked by hand from 40_base_integer.md R139 to R143, 44_f_extension.md R205, 45_d_extension.md R235. -/
theorem test_loads :
    (gives (.lb 10 16 0) mems 10 0xFFFFFF80 && gives (.lbu 10 16 0) mems 10 0x80 && gives (.lh 10 16 0) mems 10 0xFFFFFF80 &&
      gives (.lhu 10 16 0) mems 10 0xFF80 && gives (.lw 10 16 0) mems 10 0x1234FF80 && gives (.lbu 16 16 3) mems 16 0x12 &&
      givesF (.flw 10 16 4) mems 10 0xFFFFFFFF04030201 0 && givesF (.fld 10 16 0) mems 10 0x040302011234FF80 0) = true := by
  decide

/-- Worked by hand from 40_base_integer.md R144 to R146, 44_f_extension.md R206, 45_d_extension.md R236. -/
theorem test_stores :
    (stores (.sb 11 16 1) mems [0x80, 0xF9, 0x34, 0x12, 1, 2, 3, 4] &&
      stores (.sh 11 16 2) mems [0x80, 0xFF, 0xF9, 0xFF, 1, 2, 3, 4] &&
      stores (.sw 13 16 4) mems [0x80, 0xFF, 0x34, 0x12, 0, 0, 0, 0x80] &&
      stores (.fsw 11 16 0) mems [0x88, 0x77, 0x66, 0x55, 1, 2, 3, 4] &&
      stores (.fsd 11 16 0) mems [0x88, 0x77, 0x66, 0x55, 0x44, 0x33, 0x22, 0x11]) = true := by decide

/-- A transfer of control: where it goes, and the register that takes the link. -/
def goes (i : Instr) (s : State) (target : XWord) (link : Reg) (v : XWord) : Bool :=
  after i s fun t => t.pc == target && readX t link == v

/-- Worked by hand from 40_base_integer.md R147 to R154: a branch taken and not, a link, an odd JALR target, a register that is
base and link. -/
theorem test_branches :
    (goes (.beq 11 11 0x1FFE) ints 0xFE 0 0 && goes (.bne 11 11 8) ints 0x104 0 0 && goes (.blt 13 12 8) ints 0x108 0 0 &&
      goes (.bge 13 12 8) ints 0x104 0 0 && goes (.bltu 13 12 8) ints 0x104 0 0 && goes (.bgeu 13 12 8) ints 0x108 0 0) = true := by
  decide

theorem test_jumps :
    (goes (.jal 1 0x1FFFFC) ints 0xFC 1 0x104 && goes (.jalr 16 16 1) mems 0x1000 16 0x104 && goes (.jalr 1 0 0xFFF) ints 0xFFFFFFFE 1 0x104) =
      true := by decide

/-- The words of L3.2 and worked by hand: AMOADD, and the other operations on the word 0x1234FF80 with 0x80000000
(42_a_extension.md R182 to R190). -/
theorem test_amos :
    (gives (.amoaddW 0 0 10 16 12) mems 10 0x1234FF80 && stores (.amoaddW 0 0 10 16 12) mems [0x82, 0xFF, 0x34, 0x12, 1, 2, 3, 4] &&
      stores (.amoswapW 1 0 10 16 13) mems [0, 0, 0, 0x80, 1, 2, 3, 4] &&
      stores (.amoxorW 0 1 10 16 13) mems [0x80, 0xFF, 0x34, 0x92, 1, 2, 3, 4] &&
      stores (.amoandW 0 0 10 16 11) mems [0x80, 0xFF, 0x34, 0x12, 1, 2, 3, 4] &&
      stores (.amoorW 0 0 10 16 13) mems [0x80, 0xFF, 0x34, 0x92, 1, 2, 3, 4] &&
      stores (.amominW 0 0 10 16 13) mems [0, 0, 0, 0x80, 1, 2, 3, 4] &&
      stores (.amomaxW 0 0 10 16 13) mems [0x80, 0xFF, 0x34, 0x12, 1, 2, 3, 4] &&
      stores (.amominuW 0 0 10 16 13) mems [0x80, 0xFF, 0x34, 0x12, 1, 2, 3, 4] &&
      stores (.amomaxuW 0 0 10 16 13) mems [0, 0, 0, 0x80, 1, 2, 3, 4]) = true := by decide

/-- A register that is destination, address and source at once keeps the old word (42_a_extension.md R183). -/
theorem test_amo_same_register : gives (.amoaddW 0 0 16 16 16) mems 16 0x1234FF80 = true := by decide

/-- A reservation, a store-conditional that succeeds and one that does not (20_memory.md R58). -/
theorem test_reservations :
    (gives (.lrW 0 0 10 16) mems 10 0x1234FF80 && after (.lrW 0 0 10 16) mems (fun t => reserved t 0x1000) &&
      gives (.scW 0 0 10 16 13) (reserve mems 0x1000) 10 0 &&
      stores (.scW 0 0 10 16 13) (reserve mems 0x1000) [0, 0, 0, 0x80, 1, 2, 3, 4] &&
      stores (.scW 0 0 10 16 13) (reserve mems 0x1004) [0x80, 0xFF, 0x34, 0x12, 1, 2, 3, 4] &&
      after (.scW 0 0 10 16 13) (reserve mems 0x1004) (fun t => t.reservations.isEmpty)) = true := by decide

/-- mscratch holds 0xF0 and frm is RTZ. -/
def csrs : State := { csrFileSet ints 0x340 0xF0 with frm := 1, fflags := 0x11 }

/-- Worked by hand from 43_zicsr_zihintpause.md R195 to R200. -/
theorem test_zicsr :
    (gives (.csrrw 12 0x340 12) csrs 12 0xF0 && after (.csrrw 12 0x340 12) csrs (fun t => csrFileGet t 0x340 == 2) &&
      after (.csrrs 10 0x340 12) csrs (fun t => csrFileGet t 0x340 == 0xF2) &&
      after (.csrrc 10 0x340 11) csrs (fun t => csrFileGet t 0x340 == 0) &&
      after (.csrrwi 10 0x340 31) csrs (fun t => csrFileGet t 0x340 == 31) &&
      after (.csrrsi 10 0x340 1) csrs (fun t => csrFileGet t 0x340 == 0xF1) &&
      after (.csrrci 10 0x340 0x10) csrs (fun t => csrFileGet t 0x340 == 0xE0) && gives (.csrrs 10 0xF14 0) csrs 10 0) = true := by
  decide

/-- fflags, frm and fcsr are views of one another (44_f_extension.md R231). -/
theorem test_fcsr :
    (gives (.csrrs 10 0x003 0) csrs 10 0x31 && gives (.csrrs 10 0x001 0) csrs 10 0x11 && gives (.csrrs 10 0x002 0) csrs 10 1 &&
      after (.csrrwi 0 0x002 4) csrs (fun t => t.frm == 4 && t.fflags == 0x11) &&
      after (.csrrw 0 0x003 14) csrs (fun t => t.frm == 7 && t.fflags == 31)) = true := by decide

/-- Fences, PAUSE and FENCE.I (20_memory.md R56, R57). -/
theorem test_fences :
    (gives (.fence 15 8) ints 0 0 && gives .fenceTso ints 0 0 && gives .pause ints 0 0 &&
      after .fenceI { mems with imem := [] } (fun t => decide (t.imem = mems.mem))) = true := by decide

/-- Exceptions: codes and trap values (60_exceptions.md R356, R357). -/
theorem test_exceptions :
    (traps .ecall ints 11 0 && traps .ecall { ints with mode := .u } 8 0 && traps .ecall { ints with mode := .s } 9 0 &&
      traps .ebreak ints 3 0x100 && traps .cEbreak ints 3 0x100 && traps (.lrW 0 0 10 12) ints 4 2 &&
      traps (.amoaddW 0 0 10 12 12) ints 6 2 && traps (.scW 0 0 10 12 12) ints 6 2 &&
      traps (.csrrwi 0 0xF14 1) { ints with word := 0xF140D073 } 2 0xF140D073 &&
      traps (.csrrs 10 0x300 0) { ints with mode := .u, word := 0x30002573 } 2 0x30002573 &&
      traps (.faddD .dyn 1 2 3) { ints with frm := 5, word := 0x023170D3 } 2 0x023170D3 &&
      traps (.fsgnjS 1 2 3) { ints with fpOn := false, word := 0x203100D3 } 2 0x203100D3) = true := by decide

/-- A state with one barrier more, for accesses of some kinds, in every mode. -/
def barred (b : Barrier) (kinds : List AccessKind) (base size : Nat) (s : State) : State :=
  { s with cfg := { s.cfg with regions := ⟨base, size, kinds, [.m, .s, .u], b⟩ :: s.cfg.regions } }

/-- A state with a response to misaligned accesses, and its place in the order. -/
def misaligning (r : Misaligned) (last : Bool) (s : State) : State :=
  { s with cfg := { s.cfg with misaligned := r, misalignedLast := last } }

/-- Misaligned accesses, by the parameters; x12 = 2 (20_memory.md R53, R54, 60_exceptions.md R357). -/
theorem test_misaligned :
    (traps (.lw 10 12 0) (misaligning .misalignedException false ints) 4 2 &&
      traps (.sw 10 12 0) (misaligning .misalignedException false ints) 6 2 &&
      traps (.fld 10 12 0) (misaligning .misalignedException true ints) 4 2 &&
      traps (.lw 10 12 0) (misaligning .accessFault false ints) 5 2 && traps (.fsd 10 12 0) (misaligning .accessFault true ints) 7 2 &&
      gives (.lw 10 12 0) ints 10 0 && gives (.lh 10 12 0) (misaligning .accessFault false ints) 10 0 &&
      (let s := { ints with cfg := { defaultConfig with misalignedAtomicFaults := true } }
       traps (.lrW 0 0 10 12) s 5 2 && traps (.scW 0 0 10 12 12) s 7 2 && traps (.amoorW 0 0 10 12 12) s 7 2)) = true := by decide

/-- Barriers stop accesses of the kinds and in the modes they list alone (20_memory.md R55, 60_exceptions.md R357). -/
theorem test_barriers :
    (traps (.lb 10 12 0) (barred .accessFault [.load] 2 1 ints) 5 2 && gives (.sb 10 12 0) (barred .accessFault [.load] 2 1 ints) 0 0 &&
      traps (.sh 10 12 0) (barred .accessFault [.store] 3 1 ints) 7 2 && gives (.lh 10 12 0) (barred .accessFault [.store] 3 1 ints) 10 0 &&
      traps (.lbu 10 12 0) (barred .pageFault [.load] 0 4 ints) 13 2 && traps (.sb 10 12 0) (barred .pageFault [.store] 0 4 ints) 15 2 &&
      traps (.lrW 0 0 10 16) (barred .pageFault [.loadReserved] 0x1003 1 mems) 13 0x1000 &&
      traps (.amoaddW 0 0 10 16 12) (barred .pageFault [.amo] 0x1003 1 mems) 15 0x1000 &&
      traps (.scW 0 0 10 16 12) (barred .translationFault [.storeConditional] 0x1003 1 (reserve mems 0x1000)) 7 0x1000 &&
      traps (.lw 10 16 0) (barred .translationFault [.load] 0x1003 1 mems) 5 0x1000 &&
      traps (.sw 10 16 0) (barred .breakpoint [.store] 0x1003 1 mems) 3 0x100 &&
      (let s := { ints with cfg := { defaultConfig with regions := [⟨2, 1, [.load], [.u], .pageFault⟩] } }
       gives (.lb 10 12 0) s 10 0 && traps (.lb 10 12 0) { s with mode := .u } 13 2)) = true := by decide

/-- The order of the exceptions of one access (60_exceptions.md R358 items 4 to 8). -/
theorem test_exception_order :
    (let s := barred .accessFault [.load] 2 8 (barred .pageFault [.load] 4 1 (misaligning .misalignedException false ints))
     let last := { s with cfg := { s.cfg with misalignedLast := true } }
     traps (.lw 10 12 0) s 4 2 && traps (.lw 10 12 0) last 13 2 && traps (.lh 10 12 0) s 5 2 &&
       traps (.lw 10 12 4) last 5 6 && traps (.lw 10 12 9) last 4 11 && traps (.lw 10 12 0) (barred .breakpoint [.load] 5 1 s) 3 0x100) =
      true := by decide

/-- A step takes an exception. -/
def stepTraps (s : State) (code tval : XWord) : Bool :=
  match step s with
  | .next t => csrFileGet t 0x342 == code && csrFileGet t 0x343 == tval && t.result.isNone
  | _ => false

/-- Fetches: four bytes of a word and two of a parcel, with the pc as trap value (60_exceptions.md R357, R358 items 1 to 3). -/
theorem test_fetch_exceptions :
    (let word := { ints.withFetchWord 32 0x13 with result := none }
     let parcel := { ints.withFetchWord 16 0x1101 with result := none }
     stepTraps (barred .pageFault [.fetch] 0x103 1 word) 12 0x100 && stepTraps (barred .accessFault [.fetch] 0x103 1 word) 1 0x100 &&
       stepTraps (barred .translationFault [.fetch] 0x100 1 word) 1 0x100 &&
       stepTraps (barred .breakpoint [.fetch] 0x103 1 (barred .pageFault [.fetch] 0x100 1 word)) 3 0x100 &&
       fetchable (barred .pageFault [.fetch] 0x102 2 parcel) && fetchable (barred .accessFault [.load, .store] 0x100 4 word)) =
      true := by decide

/-- The counters of 47_formatter.md R327: 0xB01, 0xB21 and 0xB81 are none; a write of one is kept. -/
theorem test_counters :
    ([0xB00, 0xB02, 0xB1F, 0xB80, 0xB82, 0xB9F, 0xC00, 0xC01, 0xC1F, 0xC80, 0xC9F] : List Csr).all isCounter = true ∧
      ([0xB01, 0xB20, 0xB21, 0xB81, 0xBA0, 0xC20, 0xCA0, 0x300] : List Csr).any isCounter = false ∧
      after (.csrrwi 0 0xB00 5) csrs (fun t => csrFileGet t 0xB00 == 5) = true ∧
      (let s := { csrFileSet csrs 0xB01 9 with cfg := { defaultConfig with csrPresent := [0xB01] } }
       gives (.csrrsi 10 0xB01 6) s 10 9 && after (.csrrsi 10 0xB01 6) s (fun t => csrFileGet t 0xB01 == 15)) = true := by decide

/-- The hardware port `xlen`: 0 is Rv32 and 1 is Rv64 (10_state.md R21). -/
theorem test_port :
    decodePort 0x2001 0 = .ok (.jal 1 ⟨0, .signed⟩) .yes ∧ decodePort 0x2001 1 = .decodeError ∧
      Xlen.rv32.port = 0 ∧ Xlen.rv64.port = 1 := by decide

/-- The trap value of a parcel is its 16 bits (95_test_vectors.md L3.5). -/
theorem test_step_reserved_parcel :
    (match step (State.reset.withFetchWord 32 0x90020000) with
      | .next t => csrFileGet t 0x342 == 2 && csrFileGet t 0x343 == 0 && decide (t.result = some .decodeError)
      | _ => false) = true := by decide

/-- f1 = 1.5, f2 = 2.25, f3 = -0.5, f4 = +infinity, f5 a signaling NaN, f6 = -0, f7 = +0 as singles; f8 an unboxed 1.0;
f21 = 1.5, f22 = 2.25, f23 = -0.5 as doubles; x11 = -7, x14 = all ones. -/
def fps : State :=
  st .rv32 [(11, 0xFFFFFFF9), (14, 0xFFFFFFFF)]
    [(1, 0xFFFFFFFF3FC00000), (2, 0xFFFFFFFF40100000), (3, 0xFFFFFFFFBF000000), (4, 0xFFFFFFFF7F800000),
      (5, 0xFFFFFFFF7F800001), (6, 0xFFFFFFFF80000000), (7, 0xFFFFFFFF00000000), (8, 0x000000003F800000),
      (21, 0x3FF8000000000000), (22, 0x4002000000000000), (23, 0xBFE0000000000000)] []

/-- Sums, products, quotients and roots, worked by hand in binary32 (44_f_extension.md R211 to R215, R231). -/
theorem test_single_arithmetic :
    (givesF (.faddS .dyn 10 1 2) fps 10 0xFFFFFFFF40700000 0 && givesF (.fsubS .rne 10 1 2) fps 10 0xFFFFFFFFBF400000 0 &&
      givesF (.fmulS .rne 10 1 2) fps 10 0xFFFFFFFF40580000 0 && givesF (.fdivS .rne 10 2 1) fps 10 0xFFFFFFFF3FC00000 0 &&
      givesF (.fdivS .rne 10 1 7) fps 10 0xFFFFFFFF7F800000 0b01000 && givesF (.fsqrtS .rne 10 2) fps 10 0xFFFFFFFF3FC00000 0 &&
      givesF (.fsqrtS .rne 10 3) fps 10 0xFFFFFFFF7FC00000 0b10000 && givesF (.faddS .rne 10 8 1) fps 10 0xFFFFFFFF7FC00000 0 &&
      givesF (.faddS .rne 10 5 1) fps 10 0xFFFFFFFF7FC00000 0b10000) = true := by decide

/-- Fused forms: 1.5 * 2.25 and -0.5 with their four signs (44_f_extension.md R207 to R210). -/
theorem test_single_fused :
    (givesF (.fmaddS .rne 10 1 2 3) fps 10 0xFFFFFFFF40380000 0 && givesF (.fmsubS .rne 10 1 2 3) fps 10 0xFFFFFFFF40780000 0 &&
      givesF (.fnmsubS .rne 10 1 2 3) fps 10 0xFFFFFFFFC0780000 0 && givesF (.fnmaddS .rne 10 1 2 3) fps 10 0xFFFFFFFFC0380000 0) =
      true := by decide

/-- Signs, minima and maxima (44_f_extension.md R216 to R220). -/
theorem test_single_signs :
    (givesF (.fsgnjS 10 1 3) fps 10 0xFFFFFFFFBFC00000 0 && givesF (.fsgnjnS 10 1 3) fps 10 0xFFFFFFFF3FC00000 0 &&
      givesF (.fsgnjxS 10 3 3) fps 10 0xFFFFFFFF3F000000 0 && givesF (.fminS 10 7 6) fps 10 0xFFFFFFFF80000000 0 &&
      givesF (.fmaxS 10 5 1) fps 10 0xFFFFFFFF3FC00000 0b10000) = true := by decide

/-- Comparisons, classes and moves (44_f_extension.md R221 to R224, R229, R230). -/
theorem test_single_compares :
    (givesFX (.feqS 10 6 7) fps 10 1 0 && givesFX (.fltS 10 1 2) fps 10 1 0 && givesFX (.fleS 10 2 1) fps 10 0 0 &&
      givesFX (.feqS 10 5 1) fps 10 0 0b10000 && givesFX (.fclassS 10 5) fps 10 0x100 0 && givesFX (.fclassS 10 6) fps 10 8 0 &&
      givesFX (.fmvXW 10 3) fps 10 0xBF000000 0 && givesF (.fmvWX 10 11) fps 10 0xFFFFFFFFFFFFFFF9 0) = true := by decide

/-- Conversions: inexact, saturating, and from the largest unsigned (44_f_extension.md R225 to R228). -/
theorem test_single_conversions :
    (givesFX (.fcvtWS .rtz 10 3) fps 10 0 1 && givesFX (.fcvtWS .rdn 10 3) fps 10 0xFFFFFFFF 1 &&
      givesFX (.fcvtWS .rne 10 4) fps 10 0x7FFFFFFF 0b10000 && givesFX (.fcvtWuS .rdn 10 3) fps 10 0 0b10000 &&
      givesFX (.fcvtWuS .rne 10 5) fps 10 0xFFFFFFFF 0b10000 && givesF (.fcvtSW .rne 10 11) fps 10 0xFFFFFFFFC0E00000 0 &&
      givesF (.fcvtSWu .rtz 10 14) fps 10 0xFFFFFFFF4F7FFFFF 1) = true := by decide

/-- The same in binary64 (45_d_extension.md R241 to R245). -/
theorem test_double_arithmetic :
    (givesF (.faddD .dyn 10 21 22) fps 10 0x400E000000000000 0 && givesF (.fsubD .rne 10 21 22) fps 10 0xBFE8000000000000 0 &&
      givesF (.fmulD .rne 10 21 22) fps 10 0x400B000000000000 0 && givesF (.fdivD .rne 10 22 21) fps 10 0x3FF8000000000000 0 &&
      givesF (.fsqrtD .rne 10 22) fps 10 0x3FF8000000000000 0) = true := by decide

theorem test_double_fused :
    (givesF (.fmaddD .rne 10 21 22 23) fps 10 0x4007000000000000 0 && givesF (.fmsubD .rne 10 21 22 23) fps 10 0x400F000000000000 0 &&
      givesF (.fnmsubD .rne 10 21 22 23) fps 10 0xC00F000000000000 0 &&
      givesF (.fnmaddD .rne 10 21 22 23) fps 10 0xC007000000000000 0) = true := by decide

theorem test_double_signs :
    (givesF (.fsgnjD 10 21 23) fps 10 0xBFF8000000000000 0 && givesF (.fsgnjnD 10 21 23) fps 10 0x3FF8000000000000 0 &&
      givesF (.fsgnjxD 10 23 23) fps 10 0x3FE0000000000000 0 && givesF (.fminD 10 21 23) fps 10 0xBFE0000000000000 0 &&
      givesF (.fmaxD 10 21 23) fps 10 0x3FF8000000000000 0) = true := by decide

theorem test_double_compares :
    (givesFX (.feqD 10 21 21) fps 10 1 0 && givesFX (.fltD 10 23 21) fps 10 1 0 && givesFX (.fleD 10 21 23) fps 10 0 0 &&
      givesFX (.fclassD 10 23) fps 10 2 0) = true := by decide

theorem test_double_conversions :
    (givesFX (.fcvtWD .rdn 10 23) fps 10 0xFFFFFFFF 1 && givesFX (.fcvtWuD .rne 10 22) fps 10 2 1 &&
      givesF (.fcvtSD .rne 10 21) fps 10 0xFFFFFFFF3FC00000 0 && givesF (.fcvtDS 10 1) fps 10 0x3FF8000000000000 0 &&
      givesF (.fcvtDW 10 11) fps 10 0xC01C000000000000 0 && givesF (.fcvtDWu 10 14) fps 10 0x41EFFFFFFFE00000 0) = true := by decide

/-- The compressed integer instructions, as their expansions (46_compressed.md R266); x8 = 0x1000, x2 = 0x1000, x11 = -7, x12 = 2. -/
theorem test_parcel_integer :
    (gives (.cAddi4spn 2 1020) mems 10 0x13FC && gives (.cNop 1) mems 0 0 && gives (.cAddi 12 0x3F) mems 12 1 &&
      gives (.cLi 10 0x20) mems 10 0xFFFFFFE0 && gives (.cAddi16sp 0x3F0) mems 2 0xFF0 && gives (.cLui 10 0x20) mems 10 0xFFFE0000 &&
      gives (.cSrli 3 31) mems 11 1 && gives (.cSrai 3 1) mems 11 0xFFFFFFFC && gives (.cAndi 3 0x3E) mems 11 0xFFFFFFF8 &&
      gives (.cSub 4 3) mems 12 9 && gives (.cXor 3 4) mems 11 0xFFFFFFFB) = true := by decide

theorem test_parcel_moves :
    (gives (.cOr 3 4) mems 11 0xFFFFFFFB && gives (.cAnd 0 3) mems 8 0x1000 && gives (.cSlli 12 31) mems 12 0 &&
      gives (.cMv 10 11) mems 10 0xFFFFFFF9 && gives (.cAdd 12 11) mems 12 0xFFFFFFFB) = true := by decide

theorem test_parcel_loads :
    (gives (.cLw 2 0 0) mems 10 0x1234FF80 && gives (.cLwsp 10 4) mems 10 0x04030201 &&
      givesF (.cFld 2 0 0) mems 10 0x040302011234FF80 0 && givesF (.cFlw 2 0 4) mems 10 0xFFFFFFFF04030201 0 &&
      givesF (.cFldsp 10 0) mems 10 0x040302011234FF80 0 && givesF (.cFlwsp 10 4) mems 10 0xFFFFFFFF04030201 0) = true := by decide

theorem test_parcel_stores :
    (stores (.cSw 3 0 0) mems [0xF9, 0xFF, 0xFF, 0xFF, 1, 2, 3, 4] &&
      stores (.cSwsp 12 4) mems [0x80, 0xFF, 0x34, 0x12, 2, 0, 0, 0] &&
      stores (.cFsd 3 0 0) mems [0x88, 0x77, 0x66, 0x55, 0x44, 0x33, 0x22, 0x11] &&
      stores (.cFsw 3 0 4) mems [0x80, 0xFF, 0x34, 0x12, 0x88, 0x77, 0x66, 0x55] &&
      stores (.cFsdsp 11 0) mems [0x88, 0x77, 0x66, 0x55, 0x44, 0x33, 0x22, 0x11] &&
      stores (.cFswsp 11 0) mems [0x88, 0x77, 0x66, 0x55, 1, 2, 3, 4]) = true := by decide

theorem test_parcel_jumps :
    (goes (.cJ 0xFFC) mems 0xFC 0 0 && goes (.cJal 0x7FE) mems 0x8FE 1 0x102 && goes (.cJr 16) mems 0x1000 0 0 &&
      goes (.cJalr 16) mems 0x1000 1 0x102 && goes (.cBeqz 0 0x1FE) mems 0x102 0 0 && goes (.cBnez 0 0x1FE) mems 0xFE 0 0) = true := by
  decide


/-! ### Witnesses: states and operands that meet the hypotheses of each obligation, clause by clause -/

theorem witness_DecodeEncodeWords :
    (Instr.jal 31 0x1FFFFE).compressed = .no ∧ (Instr.jal 31 0x1FFFFE).wf = true ∧ (Instr.fence 1 15).compressed = .no ∧
      (Instr.fence 1 15).wf = true := by decide

theorem witness_DecodeEncodeParcels :
    (Instr.cJal 0xFFE).compressed = .yes ∧ (Instr.cJal 0xFFE).wf = true ∧ (Instr.cJal 0xFFE).availableIn .rv32 = true ∧
      (Instr.cLui 31 0x3F).compressed = .yes ∧ (Instr.cLui 31 0x3F).wf = true ∧ (Instr.cLui 31 0x3F).availableIn .rv64 = true := by
  decide

theorem witness_DecodedEncodesBack :
    decodeInstr 0xFFFF1101 .rv64 = some (.cAddi 2 0x20) ∧ decodeInstr 0x800000EF .rv32 = some (.jal 1 0x100000) := by decide

/-- Both sides of the equivalence hold somewhere and fail somewhere. -/
theorem witness_ErrorExactlyWithoutRow :
    decode 0xFFFF0000 .rv32 = .decodeError ∧ decode 0x2001 .rv64 = .decodeError ∧
      decode 0x2001 .rv32 = .ok (.jal 1 ⟨0, .signed⟩) .yes := by decide

theorem witness_LengthFromLowBits :
    decode 0xDEAD1101 .rv32 = .ok (.addi 2 2 ⟨0xFFFFFFE0, .signed⟩) .yes ∧
      decode 0xFE010113 .rv64 = .ok (.addi 2 2 ⟨0xFFFFFFE0, .signed⟩) .no := by decide

theorem witness_UpperHalfIgnored :
    BitVec.extractLsb' 0 2 0xDEAD1101#32 ≠ 0b11#2 ∧ decode 0xDEAD1101 .rv32 ≠ .decodeError ∧
      BitVec.extractLsb' 0 2 0xFFFF0000#32 ≠ 0b11#2 ∧ decode 0xFFFF0000 .rv32 = .decodeError := by decide

theorem witness_Canonicalization :
    BitVec.extractLsb' 0 2 0x7FFC#32 ≠ 0b11#2 ∧ decodeInstr 0x7FFC .rv32 = some (.cFlw 7 7 124) := by decide

/-- One word for each value of funct3, and for each outcome of the shifts. -/
theorem witness_OpImmDispatch :
    ([0x13, 0x1013, 0x02001013, 0x2013, 0x3013, 0x4013, 0x5013, 0x40005013, 0x80005013, 0x6013, 0x7013] : List Word).map
        (fun w => (w.extractLsb' 0 7, w.extractLsb' 12 3)) =
      [(0b0010011#7, 0b000#3), (0b0010011#7, 0b001#3), (0b0010011#7, 0b001#3), (0b0010011#7, 0b010#3), (0b0010011#7, 0b011#3),
        (0b0010011#7, 0b100#3), (0b0010011#7, 0b101#3), (0b0010011#7, 0b101#3), (0b0010011#7, 0b101#3), (0b0010011#7, 0b110#3),
        (0b0010011#7, 0b111#3)] := by decide

/-- One word for each value of funct3 under funct7 0000000 and 0000001, and for each outcome under the others. -/
theorem witness_OpDispatch :
    ((List.range 8).all fun k => decide ((BitVec.ofNat 32 (0x33 + 4096 * k)).extractLsb' 0 7 = 0b0110011#7 ∧
        (BitVec.ofNat 32 (0x33 + 4096 * k)).extractLsb' 12 3 = BitVec.ofNat 3 k ∧
        (BitVec.ofNat 32 (0x33 + 4096 * k)).extractLsb' 25 7 = 0#7 ∧
        (BitVec.ofNat 32 (0x02000033 + 4096 * k)).extractLsb' 0 7 = 0b0110011#7 ∧
        (BitVec.ofNat 32 (0x02000033 + 4096 * k)).extractLsb' 12 3 = BitVec.ofNat 3 k ∧
        (BitVec.ofNat 32 (0x02000033 + 4096 * k)).extractLsb' 25 7 = 1#7)) = true ∧
      ([0x40000033, 0x40005033, 0x40001033, 0x04000033, 0xFE000033] : List Word).map
        (fun w => (w.extractLsb' 0 7, w.extractLsb' 25 7)) =
      [(0b0110011#7, 0b0100000#7), (0b0110011#7, 0b0100000#7), (0b0110011#7, 0b0100000#7), (0b0110011#7, 0b0000010#7),
        (0b0110011#7, 0b1111111#7)] := by decide

/-- PAUSE, FENCE.TSO, FENCE with the smallest sets, an empty set, FENCE.I and a reserved word. -/
theorem witness_MiscMemDispatch :
    ([0x0100000F, 0x8330000F, 0x0110000F, 0x0010000F, 0x0000100F, 0x0010100F] : List Word).all
      (fun w => decide (w.extractLsb' 0 7 = 0b0001111#7)) = true := by decide

/-- One word for each value of funct3, with both exact words of 000. -/
theorem witness_SystemDispatch :
    ([0x73, 0x00100073, 0x30200073, 0x1073, 0x2073, 0x3073, 0x4073, 0x5073, 0x6073, 0xFFFFFFF3] : List Word).map
        (fun w => (w.extractLsb' 0 7, w.extractLsb' 12 3)) =
      [(0b1110011#7, 0#3), (0b1110011#7, 0#3), (0b1110011#7, 0#3), (0b1110011#7, 1#3), (0b1110011#7, 2#3), (0b1110011#7, 3#3),
        (0b1110011#7, 4#3), (0b1110011#7, 5#3), (0b1110011#7, 6#3), (0b1110011#7, 7#3)] := by decide

/-- Another funct3, then a word for each funct5 of the clauses, LR.W with both kinds of rs2, and two of no row. -/
theorem witness_AmoDispatch :
    ([0x302F, 0x1000202F, 0x1010202F, 0x1800202F, 0x0800202F, 0x202F, 0x2000202F, 0x6000202F, 0x4000202F, 0x8000202F, 0xA000202F,
        0xC000202F, 0xE000202F, 0x2800202F, 0xF800202F] : List Word).map
        (fun w => (w.extractLsb' 0 7, w.extractLsb' 12 3, w.extractLsb' 27 5)) =
      [(0x2F#7, 3#3, 0#5), (0x2F#7, 2#3, 2#5), (0x2F#7, 2#3, 2#5), (0x2F#7, 2#3, 3#5), (0x2F#7, 2#3, 1#5), (0x2F#7, 2#3, 0#5),
        (0x2F#7, 2#3, 4#5), (0x2F#7, 2#3, 12#5), (0x2F#7, 2#3, 8#5), (0x2F#7, 2#3, 16#5), (0x2F#7, 2#3, 20#5), (0x2F#7, 2#3, 24#5),
        (0x2F#7, 2#3, 28#5), (0x2F#7, 2#3, 5#5), (0x2F#7, 2#3, 31#5)] := by decide

/-- A word from its fields funct5, fmt, rs2, funct3 and opcode. -/
def wordOf (f5 : BitVec 5) (fmt : BitVec 2) (rs2 : BitVec 5) (f3 : BitVec 3) (op : BitVec 7) : Word :=
  f5 ++ fmt ++ rs2 ++ 0#5 ++ f3 ++ 0#5 ++ op

/-- Every value of funct3 under each of the four opcodes. -/
theorem witness_LoadStoreDispatch :
    ([0b0000011, 0b0100011, 0b0000111, 0b0100111] : List (BitVec 7)).all (fun op => (List.range 8).all fun k =>
      decide ((wordOf 31 3 31 (BitVec.ofNat 3 k) op).extractLsb' 0 7 = op ∧
        (wordOf 31 3 31 (BitVec.ofNat 3 k) op).extractLsb' 12 3 = BitVec.ofNat 3 k)) = true := by decide

/-- Every value of funct3 under each of the five opcodes. -/
theorem witness_ControlDispatch :
    ([0b1100011, 0b1101111, 0b1100111, 0b0110111, 0b0010111] : List (BitVec 7)).all (fun op => (List.range 8).all fun k =>
      decide ((wordOf 31 3 31 (BitVec.ofNat 3 k) op).extractLsb' 0 7 = op ∧
        (wordOf 31 3 31 (BitVec.ofNat 3 k) op).extractLsb' 12 3 = BitVec.ofNat 3 k)) = true := by decide

/-- A word with the fields it is made from. -/
def hasFields (f5 : BitVec 5) (fmt : BitVec 2) (rs2 : BitVec 5) (f3 : BitVec 3) (op : BitVec 7) : Bool :=
  let w := wordOf f5 fmt rs2 f3 op
  decide (w.extractLsb' 27 5 = f5 ∧ w.extractLsb' 25 2 = fmt ∧ w.extractLsb' 20 5 = rs2 ∧ w.extractLsb' 12 3 = f3 ∧ w.extractLsb' 0 7 = op)

/-- Every fmt and funct3 under the fused opcodes; under OP-FP every fmt and funct5 with rs2 0, 1 and 2, and every funct3. -/
theorem witness_FpDispatch :
    (([0b1000011, 0b1000111, 0b1001011, 0b1001111] : List (BitVec 7)).all (fun op => (List.range 8).all fun k =>
        (List.range 4).all fun f => hasFields 31 (BitVec.ofNat 2 f) 31 (BitVec.ofNat 3 k) op) &&
      (List.range 32).all (fun f5 => (List.range 4).all fun f =>
        hasFields (BitVec.ofNat 5 f5) (BitVec.ofNat 2 f) (BitVec.ofNat 5 (f5 % 3)) (BitVec.ofNat 3 (f5 % 8)) 0b1010011 &&
          hasFields (BitVec.ofNat 5 f5) (BitVec.ofNat 2 f) 0 (BitVec.ofNat 3 (f5 / 4)) 0b1010011)) = true := by decide

/-- The quadrant, funct3, bit 12, rd and rs2 fields of a parcel. -/
def parcelFields (w : Word) : BitVec 2 × BitVec 3 × BitVec 1 × BitVec 5 × BitVec 5 :=
  (w.extractLsb' 0 2, w.extractLsb' 13 3, w.extractLsb' 12 1, w.extractLsb' 7 5, w.extractLsb' 2 5)

/-- A parcel of each reserved form, (a) to (i), and the five slots of (j). -/
theorem witness_ReservedParcels :
    (BitVec.extractLsb' 5 8 0x001C#32 = 0#8 ∧ BitVec.extractLsb' 10 2 0x9405#32 = 0b01#2 ∧ BitVec.extractLsb' 10 2 0x9001#32 = 0b00#2 ∧
      BitVec.extractLsb' 10 2 0x9C05#32 = 0b11#2) ∧
      ([0x001C, 0x9FFC, 0x6101, 0x6F81, 0x9001, 0x9405, 0x9C05, 0x1502, 0x5002, 0x8002, 0x7FFC, 0xFFFC, 0x2001, 0x6502, 0xE02A] :
        List Word).map parcelFields =
      [(0#2, 0#3, 0#1, 0#5, 7#5), (0#2, 4#3, 1#1, 31#5, 31#5), (1#2, 3#3, 0#1, 2#5, 0#5), (1#2, 3#3, 0#1, 31#5, 0#5),
        (1#2, 4#3, 1#1, 0#5, 0#5), (1#2, 4#3, 1#1, 8#5, 1#5), (1#2, 4#3, 1#1, 24#5, 1#5), (2#2, 0#3, 1#1, 10#5, 0#5),
        (2#2, 2#3, 1#1, 0#5, 0#5), (2#2, 4#3, 0#1, 0#5, 0#5), (0#2, 3#3, 1#1, 31#5, 31#5), (0#2, 7#3, 1#1, 31#5, 31#5),
        (1#2, 1#3, 0#1, 0#5, 0#5), (2#2, 3#3, 0#1, 10#5, 0#5), (2#2, 7#3, 0#1, 0#5, 10#5)] := by decide

/-- A parcel for each clause, in their order, and the sub-selectors of those of quadrant 1 with funct3 100. -/
theorem witness_CompressedDispatch :
    ([0x1FFC, 0x3FFC, 0x5FFC, 0x7FFC, 0xBFFC, 0xDFFC, 0xFFFC, 0x107D, 0x3FFD, 0x4F81, 0x7101, 0x7F81, 0x6005, 0x807D,
        0x847D, 0x987D, 0x8C01, 0x8C21, 0x8C41, 0x8FFD, 0xBFFD, 0xDFFD, 0xE001, 0x0FFE, 0x3FFE, 0x50FE, 0x7FFE, 0x8082,
        0x8006, 0x9002, 0x9F82, 0x907E, 0xBFFE, 0xDFFE, 0xFFFE] : List Word).map parcelFields =
      [(0#2, 0#3, 1#1, 31#5, 31#5), (0#2, 1#3, 1#1, 31#5, 31#5), (0#2, 2#3, 1#1, 31#5, 31#5), (0#2, 3#3, 1#1, 31#5, 31#5), (0#2, 5#3, 1#1, 31#5, 31#5),
        (0#2, 6#3, 1#1, 31#5, 31#5), (0#2, 7#3, 1#1, 31#5, 31#5), (1#2, 0#3, 1#1, 0#5, 31#5), (1#2, 1#3, 1#1, 31#5, 31#5), (1#2, 2#3, 0#1, 31#5, 0#5),
        (1#2, 3#3, 1#1, 2#5, 0#5), (1#2, 3#3, 1#1, 31#5, 0#5), (1#2, 3#3, 0#1, 0#5, 1#5), (1#2, 4#3, 0#1, 0#5, 31#5), (1#2, 4#3, 0#1, 8#5, 31#5),
        (1#2, 4#3, 1#1, 16#5, 31#5), (1#2, 4#3, 0#1, 24#5, 0#5), (1#2, 4#3, 0#1, 24#5, 8#5), (1#2, 4#3, 0#1, 24#5, 16#5), (1#2, 4#3, 0#1, 31#5, 31#5),
        (1#2, 5#3, 1#1, 31#5, 31#5), (1#2, 6#3, 1#1, 31#5, 31#5), (1#2, 7#3, 0#1, 0#5, 0#5), (2#2, 0#3, 0#1, 31#5, 31#5), (2#2, 1#3, 1#1, 31#5, 31#5),
        (2#2, 2#3, 1#1, 1#5, 31#5), (2#2, 3#3, 1#1, 31#5, 31#5), (2#2, 4#3, 0#1, 1#5, 0#5), (2#2, 4#3, 0#1, 0#5, 1#5), (2#2, 4#3, 1#1, 0#5, 0#5),
        (2#2, 4#3, 1#1, 31#5, 0#5), (2#2, 4#3, 1#1, 0#5, 31#5), (2#2, 5#3, 1#1, 31#5, 31#5), (2#2, 6#3, 1#1, 31#5, 31#5), (2#2, 7#3, 1#1, 31#5, 31#5)] ∧
      ([0x807D, 0x847D, 0x987D, 0x8C01, 0x8C21, 0x8C41, 0x8FFD] : List Word).map (fun w => (w.extractLsb' 10 2, w.extractLsb' 5 2)) =
      [(0#2, 3#2), (1#2, 3#2), (2#2, 3#2), (3#2, 0#2), (3#2, 1#2), (3#2, 2#2), (3#2, 3#2)] := by decide

/-- A word of each of the five slots, and one of none. -/
theorem witness_XlenChangesFiveSlots :
    ([0x2001, 0x7FFC, 0xFFFC, 0x6502, 0xE02A, 0x1101, 0x13] : List Word).map (fun w => (w.extractLsb' 0 2, w.extractLsb' 13 3)) =
      [(1#2, 1#3), (0#2, 3#3), (0#2, 7#3), (2#2, 3#3), (2#2, 7#3), (1#2, 0#3), (3#2, 0#3)] := by decide

/-- A fused word with four long names and a mode. -/
theorem witness_FormatBounded :
    decode 0xF3EF4F4F .rv32 = .ok (.fnmadd .d .rmm 30 30 30 30) .no := by decide

/-- A CSR the table has, and the first and last addresses it has not. -/
theorem witness_FormatOperandTexts :
    defaultCsrNames.lookup (0xC1F#12).toNat = some "hpmcounter31" ∧ defaultCsrNames.lookup (0#12).toNat = none ∧
      defaultCsrNames.lookup (0xFFF#12).toNat = none := by decide

/-- A word, and a parcel just below addresses that fault. -/
theorem witness_StepRunsDecoded :
    (fetchable (State.reset.withFetchWord 32 0x13) = true ∧
        decodeInstr (fetchWord (State.reset.withFetchWord 32 0x13)) .rv32 = some (.addi 0 0 0)) ∧
      (let s := { State.reset.withFetchWord 16 0x1101 with cfg := { defaultConfig with regions := [⟨2, 8, [.fetch], [.m], .accessFault⟩] } }
       fetchable s = true ∧ decodeInstr (fetchWord s) s.xlen = some (.cAddi 2 0x20)) := by decide

/-- Four bytes at the top of the address space that fetch and memory agree on; FENCE.I completes; a word and no bits in canonical
memories. -/
theorem witness_FetchedWord :
    (let s := { mems with pc := 0xFFFFFFFE }
     ∀ k, k < 4 → byteAt s.imem (addrKey s.xlen (s.pc + BitVec.ofNat 64 k)) = byteAt s.mem (addrKey s.xlen (s.pc + BitVec.ofNat 64 k))) ∧
      (∃ t, exec .fenceI mems = .next t) ∧
      (32 ≤ 32 ∧ Memory.wf mems.mem = true ∧ Memory.wf mems.imem = true) ∧ 0 ≤ 32 ∧ Memory.wf State.reset.imem = true :=
  ⟨by decide, ⟨_, rfl⟩, by decide, by decide, by decide⟩

/-- A parcel and a word that do not decode, with the instruction bits and with 0 as trap value; then a word whose last byte meets
each barrier, and one that meets two. -/
theorem witness_UndecodableAndUnfetchableTrap :
    (∀ s ∈ [State.reset, State.reset.withFetchWord 32 0xFFFFFFFF, { State.reset with cfg := { defaultConfig with illegalTvalZero := true } }],
      cellsWf 0 s.csrs = true ∧ fetchable s = true ∧ decode (fetchWord s) s.xlen = .decodeError) ∧
      (let s := State.reset.withFetchWord 32 0x13
       (fetchWord s).extractLsb' 0 2 = 0b11#2 ∧ cellsWf 0 s.csrs = true ∧
         Met (barred .breakpoint [.fetch] 3 1 s) .breakpoint .fetch 0 4 ∧
         (let p := barred .accessFault [.fetch] 0 1 (barred .pageFault [.fetch] 3 1 s)
          ¬Met p .breakpoint .fetch 0 4 ∧ Met p .pageFault .fetch 0 4) ∧
         (let p := barred .translationFault [.fetch] 3 1 s
          ¬Met p .breakpoint .fetch 0 4 ∧ ¬Met p .pageFault .fetch 0 4 ∧ Met p .translationFault .fetch 0 4) ∧
         (let p := barred .accessFault [.fetch] 3 1 s
          ¬Met p .breakpoint .fetch 0 4 ∧ ¬Met p .pageFault .fetch 0 4 ∧ Met p .accessFault .fetch 0 4)) := by
  unfold Met; decide

theorem reset_storage : StorageInv State.reset :=
  ⟨by decide, by decide, by decide, by decide, by decide, by decide⟩

theorem reset_width : WidthInv State.reset := ⟨by decide, by decide, by decide, by decide, by decide⟩

theorem reset_answer : AnswerInv State.reset := rfl

theorem witness_StepKeepsStorage : StorageInv State.reset ∧ ∃ t, step State.reset = .next t := ⟨reset_storage, _, rfl⟩

theorem witness_StepKeepsWidths : WidthInv State.reset ∧ ∃ t, step State.reset = .next t := ⟨reset_width, _, rfl⟩

theorem witness_StepKeepsAnswer : AnswerInv State.reset ∧ ∃ t, step State.reset = .next t := ⟨reset_answer, _, rfl⟩

/-- A call from user mode changes the mode. -/
theorem witness_OnlyTrapsChangeMode :
    cellsWf 0 State.reset.csrs = true ∧ after .ecall { ints with mode := .u } (fun t => t.mode == .m) = true := by decide

/-- Eight bytes that wrap at the top of the address space, and the first byte outside them. -/
theorem witness_LoadAfterStore :
    Memory.wf mems.mem = true ∧
      ∀ key, inAccess .rv32 4 1 key = true → inAccess .rv32 0xFFFFFFFC 8 key = false := by
  refine ⟨by decide, fun key h => ?_⟩
  simp only [inAccess, Bool.or_false, beq_iff_eq] at h
  subst h; decide

/-- A divisor that is not 0, one that is, the signed overflow under both XLEN values, and a remainder of each sign. -/
theorem witness_MulDivResults :
    regU ints 12 ≠ 0 ∧ regU ints 0 = 0 ∧
      (regS ints 13 = -2 ^ (ints.xlen.bits - 1) ∧ regS ints 14 = -1) ∧
      (regS ints64 13 = -2 ^ (ints64.xlen.bits - 1) ∧ regS ints64 14 = -1) ∧
      (regS ints 11 - (regS ints 11).tdiv (regS ints 12) * regS ints 12 = -1) ∧
      (regS ints 15 - (regS ints 15).tdiv (regS ints 12) * regS ints 12 = 1) := by decide

/-- Misaligned accesses trap, and the byte at 0x2000 cannot be read or written. -/
def strict : State :=
  barred .accessFault [.load, .store, .loadReserved, .storeConditional, .amo] 0x2000 1 (misaligning .misalignedException false mems)

/-- What `AccessOk` says, over a list of the barriers. -/
def accessOk (s : State) (kind : AccessKind) (a : XWord) (n : Nat) : Bool :=
  (aligned s a n || misalignedResponse s kind == .perform) &&
    [Barrier.breakpoint, .pageFault, .translationFault, .accessFault].all fun b => !meets s b kind a n

theorem accessOk_of {s : State} {kind : AccessKind} {a : XWord} {n : Nat} (h : accessOk s kind a n = true) :
    AccessOk s kind a n := by
  simp only [accessOk, Bool.and_eq_true, Bool.or_eq_true, beq_iff_eq, List.all_cons, Bool.not_eq_true', List.all_nil] at h
  exact ⟨h.1, fun b => by cases b <;> simp [h]⟩

/-- Accesses of each size: aligned ones that end just below a byte that cannot be read or written, where misaligned ones trap; and
misaligned ones where they do not. -/
theorem witness_LoadsAndStoresComplete :
    (AccessOk strict .load (readX strict 16 + (0x7FF#12).signExtend 64) 1 ∧
      AccessOk strict .load (readX strict 16 + (0x7FE#12).signExtend 64) 2 ∧
      AccessOk strict .load (readX strict 16 + (0x7FC#12).signExtend 64) 4) ∧
      (AccessOk mems .load (readX mems 16 + (0x7FF#12).signExtend 64) 2 ∧ AccessOk mems .load (readX mems 16 + (0x801#12).signExtend 64) 4) ∧
      Memory.wf strict.mem = true ∧ AccessOk strict .store (readX strict 16 + (0x7FF#12).signExtend 64) 1 ∧
      AccessOk strict .store (readX strict 16 + (0x7FE#12).signExtend 64) 2 ∧
      AccessOk strict .store (readX strict 16 + (0x7FC#12).signExtend 64) 4 := by
  refine ⟨⟨?_, ?_, ?_⟩, ⟨?_, ?_⟩, ?_, ?_, ?_, ?_⟩ <;> first | exact accessOk_of (by decide) | decide

/-- Each clause of `TrapsByPriority` for a load of four bytes at 2, the last byte of which meets each barrier; the atomics, always
misaligned there; and SC.W with a reservation and with none. -/
theorem witness_AccessTraps :
    cellsWf 0 ints.csrs = true ∧ ints.fpOn = true ∧ readX ints 12 = 2 ∧
      Met (barred .breakpoint [.load] 5 1 ints) .breakpoint .load 2 4 ∧
      (let s := barred .pageFault [.load] 5 1 (misaligning .misalignedException false ints)
       ¬Met s .breakpoint .load 2 4 ∧ MisalignedFirst s .load 2 4) ∧
      (let s := barred .pageFault [.load] 5 1 (misaligning .misalignedException true ints)
       ¬Met s .breakpoint .load 2 4 ∧ ¬MisalignedFirst s .load 2 4 ∧ Met s .pageFault .load 2 4) ∧
      (∀ b ∈ [Barrier.translationFault, .accessFault],
        let s := barred b [.load] 5 1 ints
        ¬Met s .breakpoint .load 2 4 ∧ ¬MisalignedFirst s .load 2 4 ∧ ¬Met s .pageFault .load 2 4 ∧ Met s b .load 2 4) ∧
      (let s := misaligning .accessFault false ints
       ¬MisalignedFirst s .load 2 4 ∧ addrKey s.xlen 2 % 4 ≠ 0 ∧ misalignedResponse s .load = .accessFault) ∧
      (let s := misaligning .misalignedException true ints
       (∀ b ∈ [Barrier.breakpoint, .pageFault, .translationFault, .accessFault], ¬Met s b .load 2 4) ∧
         misalignedResponse s .load = .misalignedException ∧ s.cfg.misalignedLast = true) ∧
      MisalignedFirst ints .loadReserved (readX ints 12) 4 ∧ MisalignedFirst ints .amo (readX ints 12) 4 ∧
      (reserved (reserve mems 0x1000) (readX mems 16) = true ∧
        Met (barred .pageFault [.storeConditional] 0x1003 1 (reserve mems 0x1000)) .pageFault .storeConditional 0x1000 4) ∧
      (reserved ints (readX ints 12) = false ∧ addrKey ints.xlen (readX ints 12) % 4 ≠ 0) := by
  unfold Met MisalignedFirst; decide

/-- Each condition holds of some operands and fails of others. -/
theorem witness_TransfersComplete :
    (regU ints 11 = regU ints 11 ∧ ¬regU ints 11 = regU ints 12) ∧ (regS ints 13 < regS ints 12 ∧ ¬regS ints 12 < regS ints 12) ∧
      (regS ints 12 ≥ regS ints 12 ∧ ¬regS ints 13 ≥ regS ints 12) ∧ (regU ints 12 < regU ints 13 ∧ ¬regU ints 13 < regU ints 12) ∧
      (regU ints 13 ≥ regU ints 13 ∧ ¬regU ints 12 ≥ regU ints 13) := by decide

theorem witness_CallsAndBreakpointsTrap :
    cellsWf 0 ints.csrs = true ∧ ints.mode = .m ∧ { ints with mode := .u }.mode = .u ∧ { ints with mode := .s }.mode = .s := by decide

/-- Each of the six forms on mscratch in machine mode, writing and not; a counter written, and one read from user mode. -/
theorem witness_CsrFileComplete :
    cellsWf 0 csrs.csrs = true ∧ csrLegal csrs 0x340 true = true ∧ csrLegal csrs 0xF14 false = true ∧
      (0x340#12).toNat ∉ [1, 2, 3] ∧ isCounter 0x340 = false ∧ isCounter 0xF14 = false ∧
      (zicsrForms csrs 10 12 0x340 31).map (fun e => (e.1, e.2.1)) =
        [(.csrrw 10 0x340 12, true), (.csrrs 10 0x340 12, true), (.csrrc 10 0x340 12, true), (.csrrwi 10 0x340 31, true),
          (.csrrsi 10 0x340 31, true), (.csrrci 10 0x340 31, true)] ∧
      (zicsrForms csrs 0 0 0xF14 0).map (fun e => e.2.1) = [true, false, false, true, false, false] ∧
      (csrLegal csrs 0xB00 true = true ∧ isCounter 0xB00 = true ∧ (0xB00#12).toNat ∉ [1, 2, 3]) ∧
      csrLegal { csrs with mode := .u } 0xC00 false = true ∧ isCounter 0xC00 = true := by decide

/-- fflags, frm and fcsr, written from user mode. -/
theorem witness_FcsrViews :
    (let s := { csrs with mode := .u }
     csrLegal s 1 true = true ∧ csrLegal s 2 true = true ∧ csrLegal s 3 true = true) := by decide

/-- A CSR that does not exist, one above the mode, a write to a read-only one; each frm value that is no mode; the unit off. -/
theorem witness_IllegalRecordsTrap :
    cellsWf 0 csrs.csrs = true ∧ (0x123#12).toNat ∉ csrs.cfg.csrPresent ∧
      Mode.s.level < ((0x300#12).extractLsb' 8 2).toNat ∧ (0xF14#12).extractLsb' 10 2 = 0b11#2 ∧
      ({ csrs with frm := 5 }.frm = 0b101#3 ∧ { csrs with frm := 6 }.frm = 0b110#3 ∧ { csrs with frm := 7 }.frm = 0b111#3) ∧
      { csrs with fpOn := false }.fpOn = false := by decide

/-- LR.W; then SC.W with a reservation, with one of another word, and with none. -/
theorem witness_ReservationsComplete :
    (AccessOk strict .loadReserved (readX strict 16) 4 ∧ AccessOk strict .loadReserved 0x1FFC 4) ∧
      (Memory.wf strict.mem = true ∧ addrKey strict.xlen (readX strict 16) % 4 = 0 ∧
        reserved (reserve strict 0x1000) (readX strict 16) = true ∧ AccessOk (reserve strict 0x1000) .storeConditional 0x1000 4) ∧
      reserved (reserve mems 0x1004) (readX mems 16) = false ∧ reserved mems (readX mems 16) = false := by
  refine ⟨⟨?_, ?_⟩, ⟨?_, ?_, ?_, ?_⟩, ?_, ?_⟩ <;> first | exact accessOk_of (by decide) | decide

theorem witness_AmosComplete : Memory.wf strict.mem = true ∧ AccessOk strict .amo (readX strict 16) 4 :=
  ⟨by decide, accessOk_of (by decide)⟩

/-- A static mode, and the dynamic one while frm holds RMM. -/
theorem witness_FpArithmeticCompletes :
    RoundsIn fps .rtz .rtz ∧ RoundsIn { fps with frm := 4 } .dyn .rmm := by
  unfold RoundsIn; decide

theorem witness_FpNonRoundingComplete : fps.fpOn = true := by decide

theorem witness_FpConversionsComplete : RoundsIn fps .rup .rup ∧ RoundsIn { fps with frm := 2 } .dyn .rdn ∧ fps.fpOn = true := by
  unfold RoundsIn; decide

theorem witness_FpLoadsStoresComplete :
    strict.fpOn = true ∧ Memory.wf strict.mem = true ∧ AccessOk strict .load (readX strict 16 + (0x7FC#12).signExtend 64) 4 ∧
      AccessOk strict .load (readX strict 16 + (0x7F8#12).signExtend 64) 8 ∧
      AccessOk strict .store (readX strict 16 + (0x7FC#12).signExtend 64) 4 ∧
      AccessOk strict .store (readX strict 16 + (0x7F8#12).signExtend 64) 8 ∧
      AccessOk mems .load (readX mems 16 + (0x801#12).signExtend 64) 8 := by
  refine ⟨?_, ?_, ?_, ?_, ?_, ?_, ?_⟩ <;> first | exact accessOk_of (by decide) | decide

/-- A quiet and a signaling NaN of each format, at the ends of their ranges. -/
theorem witness_NanResultsAreCanonical :
    ((Ieee.single.unpack 0x7F800001).isNan = true ∧ (Ieee.single.unpack 0x7FBFFFFF).isSignaling = true ∧
        (Ieee.single.unpack 0xFFC00000).isNan = true ∧ (Ieee.single.unpack 0xFFC00000).isSignaling = false) ∧
      (Ieee.double.unpack 0x7FF0000000000001).isSignaling = true ∧ (Ieee.double.unpack 0x7FF8000000000000).isNan = true := by decide

theorem one_half_single : (Ieee.single.unpack 0x3FC00000).HasValue (3 / 2) := by
  rw [show Ieee.single.unpack 0x3FC00000 = .fin false 0xC00000 (-23) by decide]; norm_num [Ieee.FVal.HasValue, Ieee.signedMant, zpow_neg]

theorem two_quarter_single : (Ieee.single.unpack 0x40100000).HasValue (9 / 4) := by
  rw [show Ieee.single.unpack 0x40100000 = .fin false 0x900000 (-22) by decide]; norm_num [Ieee.FVal.HasValue, Ieee.signedMant, zpow_neg]

theorem minus_half_double : (Ieee.double.unpack 0xBFE0000000000000).HasValue (-1 / 2) := by
  rw [show Ieee.double.unpack 0xBFE0000000000000 = .fin true 0x10000000000000 (-53) by decide]
  norm_num [Ieee.FVal.HasValue, Ieee.signedMant, zpow_neg]

theorem zero_single : (Ieee.single.unpack 0).HasValue 0 := by
  rw [show Ieee.single.unpack 0 = .fin false 0 (-149) by decide]; norm_num [Ieee.FVal.HasValue, Ieee.signedMant]

theorem minus_zero_single : (Ieee.single.unpack 0x80000000).HasValue 0 := by
  rw [show Ieee.single.unpack 0x80000000 = .fin true 0 (-149) by decide]; norm_num [Ieee.FVal.HasValue, Ieee.signedMant]

/-- An infinity of each sign and format, and two numbers, one of them 0. -/
theorem witness_InfinityResults :
    Ieee.single.unpack 0x7F800000 = .inf false ∧ Ieee.single.unpack 0xFF800000 = .inf true ∧
      Ieee.double.unpack 0xFFF0000000000000 = .inf true ∧ (Ieee.single.unpack 0x40100000).HasValue (9 / 4) ∧
      (Ieee.single.unpack 0).HasValue 0 := ⟨by decide, by decide, by decide, two_quarter_single, zero_single⟩

/-- 1.5 and 2.25 as singles, -0.5 as a double; a sum, difference and product without flags, 1 and the half of its last place, a
tie, and the largest finite number doubled. -/
theorem witness_SumsAndProductsRound :
    (Ieee.single.unpack 0x3FC00000).HasValue (3 / 2) ∧ (Ieee.single.unpack 0x40100000).HasValue (9 / 4) ∧
      (Ieee.double.unpack 0xBFE0000000000000).HasValue (-1 / 2) ∧ (Ieee.single.add .rne 0x3FC00000 0x40100000).flags = 0 ∧
      (Ieee.single.sub .rup 0x3FC00000 0x40100000).flags = 0 ∧ (Ieee.single.mul .rdn 0x3FC00000 0x40100000).flags = 0 ∧
      Ieee.single.add .rne 0x3F800000 0x33800000 = ⟨0x3F800000, 1⟩ ∧ Ieee.single.add .rmm 0x3F800000 0x33800000 = ⟨0x3F800001, 1⟩ ∧
      Ieee.single.add .rtz 0x7F7FFFFF 0x7F7FFFFF = ⟨0x7F7FFFFF, 5⟩ :=
  ⟨one_half_single, two_quarter_single, minus_half_double, by decide, by decide, by decide, by decide, by decide, by decide⟩

/-- A divisor that is not 0 and one that is, a number that is 0 and one that is not; a root of each sign of number. -/
theorem witness_QuotientsAndRootsRound :
    (Ieee.single.unpack 0x3FC00000).HasValue (3 / 2) ∧ (Ieee.single.unpack 0x80000000).HasValue 0 ∧
      (Ieee.double.unpack 0xBFE0000000000000).HasValue (-1 / 2) ∧ Ieee.single.div .rup 0x3F800000 0x40400000 = ⟨0x3EAAAAAB, 1⟩ ∧
      Ieee.single.sqrt .rdn 0x40000000 = ⟨0x3FB504F3, 1⟩ :=
  ⟨one_half_single, minus_zero_single, minus_half_double, by decide, by decide⟩

/-- Three finite operands, and one of each format to convert; the largest unsigned integer, rounded up. -/
theorem witness_FusedAndConversionsRound :
    (Ieee.single.unpack 0x3FC00000).HasValue (3 / 2) ∧ (Ieee.single.unpack 0x40100000).HasValue (9 / 4) ∧
      (Ieee.single.unpack 0x80000000).HasValue 0 ∧ (Ieee.double.unpack 0xBFE0000000000000).HasValue (-1 / 2) ∧
      Ieee.single.ofInt .rne (2 ^ 32 - 1) = ⟨0x4F800000, 1⟩ :=
  ⟨one_half_single, two_quarter_single, minus_zero_single, minus_half_double, by decide⟩

theorem place_of_value {f : Ieee.FVal} {v : ℚ} (h : f.HasValue v) : f.HasPlace ((v : WithTop ℚ) : WithBot (WithTop ℚ)) := by
  cases f with
  | nan => exact h.elim
  | inf => exact h.elim
  | fin => exact ⟨v, h, rfl⟩

/-- The two zeros have the same place, 1.5 another, and the infinities the ends; a NaN of each kind. -/
theorem witness_ComparisonsFollowValues :
    (Ieee.single.unpack 0x80000000).HasPlace (((0 : ℚ) : WithTop ℚ) : WithBot (WithTop ℚ)) ∧
      (Ieee.single.unpack 0).HasPlace (((0 : ℚ) : WithTop ℚ) : WithBot (WithTop ℚ)) ∧
      (Ieee.single.unpack 0x3FC00000).HasPlace (((3 / 2 : ℚ) : WithTop ℚ) : WithBot (WithTop ℚ)) ∧
      (Ieee.single.unpack 0x7F800000).HasPlace ⊤ ∧ (Ieee.double.unpack 0xFFF0000000000000).HasPlace ⊥ ∧
      (Ieee.single.unpack 0x7FC00000).isNan = true ∧ (Ieee.double.unpack 0x7FF0000000000001).isNan = true := by
  refine ⟨place_of_value minus_zero_single, place_of_value zero_single, place_of_value one_half_single, ?_, ?_, by decide, by decide⟩
  · rw [show Ieee.single.unpack 0x7F800000 = .inf false by decide]; rfl
  · rw [show Ieee.double.unpack 0xFFF0000000000000 = .inf true by decide]; rfl

/-- A pattern of each class of each format: the first or last of its range. -/
theorem witness_ClassesOfPatterns :
    ([0xFF800000, 0xFF7FFFFF, 0x80000001, 0x80000000, 0, 0x007FFFFF, 0x00800000, 0x7F800000, 0xFFBFFFFF, 0xFFFFFFFF].map
        Ieee.single.classBit = [0, 1, 2, 3, 4, 5, 6, 7, 8, 9] ∧ 0xFFFFFFFF < 2 ^ 32) ∧
      [0xFFF0000000000000, 0xFFEFFFFFFFFFFFFF, 0x8000000000000001, 0x8000000000000000, 0, 0x000FFFFFFFFFFFFF, 0x0010000000000000,
        0x7FF0000000000000, 0xFFF7FFFFFFFFFFFF, 0xFFFFFFFFFFFFFFFF].map Ieee.double.classBit = [0, 1, 2, 3, 4, 5, 6, 7, 8, 9] ∧
      0xFFFFFFFFFFFFFFFF < 2 ^ 64 := by decide

/-- A NaN beside a number; the zeros; the range of FCVT.W; an infinity of each sign; and numbers in, below and above a range. -/
theorem witness_MinMaxAndSaturation :
    (Ieee.single.unpack 0x7F800001).isNan = true ∧ (Ieee.single.unpack 0x3FC00000).isNan = false ∧
      0x80000000 = Ieee.single.signWeight ∧ (-2 ^ 31 : Int) ≤ 2 ^ 31 - 1 ∧
      ((Ieee.single.unpack 0x7F800000).HasPlace ⊤ ∧ (Ieee.double.unpack 0xFFF0000000000000).HasPlace ⊥) ∧
      (Ieee.single.unpack 0x40100000).HasValue (9 / 4) ∧ Ieee.single.toInt .rne (-2 ^ 31) (2 ^ 31 - 1) 0x40100000 = (2, 1) ∧
      Ieee.double.toInt .rdn 0 (2 ^ 32 - 1) 0xBFE0000000000000 = (0, 16) ∧ Ieee.double.toInt .rtz 0 (2 ^ 32 - 1) 0xBFE0000000000000 = (0, 1) ∧
      Ieee.single.toInt .rne (-2 ^ 31) (2 ^ 31 - 1) 0x4F000000 = (2 ^ 31 - 1, 16) :=
  ⟨by decide, by decide, by decide, by decide,
    ⟨witness_ComparisonsFollowValues.2.2.2.1, witness_ComparisonsFollowValues.2.2.2.2.1⟩,
    two_quarter_single, by decide, by decide, by decide, by decide⟩

theorem witness_CompressedAccessesComplete :
    Memory.wf strict.mem = true ∧ strict.fpOn = true ∧ AccessOk strict .load (readX strict (CReg.toReg 0) + (124#7).setWidth 64) 4 ∧
      AccessOk strict .load (readX strict (CReg.toReg 0) + (248#8).setWidth 64) 8 ∧
      AccessOk strict .load (readX strict 2 + (252#8).setWidth 64) 4 ∧ AccessOk strict .load (readX strict 2 + (504#9).setWidth 64) 8 ∧
      AccessOk strict .store (readX strict (CReg.toReg 0) + (124#7).setWidth 64) 4 ∧
      AccessOk strict .store (readX strict (CReg.toReg 0) + (248#8).setWidth 64) 8 ∧
      AccessOk strict .store (readX strict 2 + (252#8).setWidth 64) 4 ∧ AccessOk strict .store (readX strict 2 + (504#9).setWidth 64) 8 := by
  refine ⟨?_, ?_, ?_, ?_, ?_, ?_, ?_, ?_, ?_, ?_⟩ <;> first | exact accessOk_of (by decide) | decide

/-- Both outcomes of C.BEQZ and C.BNEZ. -/
theorem witness_CompressedTransfersComplete :
    regU ints (CReg.toReg 0) = 0 ∧ regU mems (CReg.toReg 0) ≠ 0 := by decide


end Sys2Proof.Tests
end

section
/-! What the decoder answers: a well-formed row, of the form that the two low bits of the word name (30_encoding.md
R60, 10_state.md R25). -/

namespace Sys2Proof

/-- Every row a decoder answers is well-formed and of the form `c`. -/
def AnswersForm (c : IsCompressed) (o : Option Instr) : Prop := ∀ i, o = some i → i.wf = true ∧ i.compressed = c

@[simp] theorem answersForm_none (c : IsCompressed) : AnswersForm c none := fun _ h => nomatch h

@[simp] theorem answersForm_some {c : IsCompressed} {i : Instr} :
    AnswersForm c (some i) ↔ i.wf = true ∧ i.compressed = c := by simp [AnswersForm]

@[simp] theorem answersForm_ite {c : IsCompressed} {p : Prop} [Decidable p] {a b : Option Instr} :
    AnswersForm c (if p then a else b) ↔ (p → AnswersForm c a) ∧ (¬p → AnswersForm c b) := by
  split <;> simp [*]

theorem answersForm_withRm {c : IsCompressed} {w : Word} {mk : RoundingMode → Instr}
    (h : ∀ m, (mk m).wf = true ∧ (mk m).compressed = c) : AnswersForm c (withRm w mk) := by
  intro i hi
  obtain ⟨m, -, rfl⟩ := Option.map_eq_some_iff.1 hi
  exact h m

/-! ### The 32-bit words -/

theorem answersForm_decodeOpImm (w : Word) : AnswersForm .no (decodeOpImm w) := by
  simp [decodeOpImm, Instr.wf, Instr.compressed]

theorem answersForm_decodeOp (w : Word) : AnswersForm .no (decodeOp w) := by
  simp [decodeOp, Instr.wf, Instr.compressed]

theorem answersForm_decodeLoad (w : Word) : AnswersForm .no (decodeLoad w) := by
  simp [decodeLoad, Instr.wf, Instr.compressed]

theorem answersForm_decodeStore (w : Word) : AnswersForm .no (decodeStore w) := by
  simp [decodeStore, Instr.wf, Instr.compressed]

/-- Bit 0 of a B immediate is 0. -/
theorem answersForm_decodeBranch (w : Word) : AnswersForm .no (decodeBranch w) := by
  simp [decodeBranch, Instr.wf, Instr.compressed]

/-- The dispatch checks that FENCE's two sets are not empty. -/
theorem answersForm_decodeMiscMem (w : Word) : AnswersForm .no (decodeMiscMem w) := by
  simp +contextual [decodeMiscMem, Instr.wf, Instr.compressed]

theorem answersForm_decodeSystem (w : Word) : AnswersForm .no (decodeSystem w) := by
  simp [decodeSystem, Instr.wf, Instr.compressed]

theorem answersForm_decodeAmo (w : Word) : AnswersForm .no (decodeAmo w) := by
  simp [decodeAmo, Instr.wf, Instr.compressed]

theorem answersForm_decodeLoadFp (w : Word) : AnswersForm .no (decodeLoadFp w) := by
  simp [decodeLoadFp, Instr.wf, Instr.compressed]

theorem answersForm_decodeStoreFp (w : Word) : AnswersForm .no (decodeStoreFp w) := by
  simp [decodeStoreFp, Instr.wf, Instr.compressed]

theorem answersForm_decodeFused (w : Word) {single double : RoundingMode → Reg → Reg → Reg → Reg → Instr}
    (hs : ∀ m d a b c, (single m d a b c).wf = true ∧ (single m d a b c).compressed = .no)
    (hd : ∀ m d a b c, (double m d a b c).wf = true ∧ (double m d a b c).compressed = .no) :
    AnswersForm .no (decodeFused w single double) := by
  rw [decodeFused, answersForm_ite, answersForm_ite]
  exact ⟨fun _ => answersForm_withRm fun _ => hs _ _ _ _ _, fun _ =>
    ⟨fun _ => answersForm_withRm fun _ => hd _ _ _ _ _, fun _ => answersForm_none _⟩⟩

theorem answersForm_decodeOpFpSingle (w : Word) : AnswersForm .no (decodeOpFpSingle w) := by
  simp only [decodeOpFpSingle, answersForm_ite, answersForm_some, answersForm_none, answersForm_withRm, Instr.wf,
    Instr.compressed, implies_true, and_self]

theorem answersForm_decodeOpFpDouble (w : Word) : AnswersForm .no (decodeOpFpDouble w) := by
  simp only [decodeOpFpDouble, answersForm_ite, answersForm_some, answersForm_none, answersForm_withRm, Instr.wf,
    Instr.compressed, implies_true, and_self]

theorem answersForm_decode32 (w : Word) : AnswersForm .no (decode32 w) := by
  simp only [decode32, answersForm_ite, answersForm_some, answersForm_none, answersForm_decodeOpImm, answersForm_decodeOp,
    answersForm_decodeLoad, answersForm_decodeStore, answersForm_decodeBranch, answersForm_decodeMiscMem,
    answersForm_decodeSystem, answersForm_decodeAmo, answersForm_decodeLoadFp, answersForm_decodeStoreFp,
    answersForm_decodeFused, answersForm_decodeOpFpSingle, answersForm_decodeOpFpDouble, Instr.wf, Instr.compressed,
    lowZero_immJ, implies_true, and_self]

/-! ### The parcels: the dispatch checks each row's condition, and the low bits of an offset are 0 -/

theorem answersForm_decodeQ0 (h : Parcel) (x : Xlen) : AnswersForm .yes (decodeQ0 h x) := by
  simp +contextual [decodeQ0, Instr.wf, Instr.compressed]

theorem answersForm_decodeQ1Alu (h : Parcel) : AnswersForm .yes (decodeQ1Alu h) := by
  simp [decodeQ1Alu, Instr.wf, Instr.compressed]

theorem answersForm_decodeQ1 (h : Parcel) (x : Xlen) : AnswersForm .yes (decodeQ1 h x) := by
  simp +contextual [decodeQ1, answersForm_decodeQ1Alu, Instr.wf, Instr.compressed]

theorem answersForm_decodeQ2Reg (h : Parcel) : AnswersForm .yes (decodeQ2Reg h) := by
  simp +contextual [decodeQ2Reg, Instr.wf, Instr.compressed]

theorem answersForm_decodeQ2 (h : Parcel) (x : Xlen) : AnswersForm .yes (decodeQ2 h x) := by
  simp +contextual [decodeQ2, answersForm_decodeQ2Reg, Instr.wf, Instr.compressed]

theorem answersForm_decode16 (h : Parcel) (x : Xlen) : AnswersForm .yes (decode16 h x) := by
  simp [decode16, answersForm_decodeQ0, answersForm_decodeQ1, answersForm_decodeQ2]

/-! ### Every word -/

/-- A word is long exactly where its two low bits are 11. -/
theorem isLong_iff (w : Word) : isLong w = true ↔ w.extractLsb' 0 2 = 0b11#2 := beq_iff_eq

theorem answersForm_decodeInstr (w : Word) (x : Xlen) :
    AnswersForm (if isLong w then .no else .yes) (decodeInstr w x) := by
  unfold decodeInstr
  split
  · exact answersForm_decode32 w
  · exact answersForm_decode16 _ x

/-- Whatever the decoder reads is well-formed. -/
theorem wf_of_decodeInstr {w : Word} {x : Xlen} {i : Instr} (h : decodeInstr w x = some i) : i.wf = true :=
  (answersForm_decodeInstr w x i h).1

/-- The row the decoder reads is of the form that the two low bits name. -/
theorem compressed_of_decodeInstr {w : Word} {x : Xlen} {i : Instr} (h : decodeInstr w x = some i) :
    i.compressed = if isLong w then .no else .yes := (answersForm_decodeInstr w x i h).2

/-- The record and the form that `decode` answers are those of the row read. -/
theorem decode_eq_ok_iff {w : Word} {x : Xlen} {r : Record} {c : IsCompressed} :
    decode w x = .ok r c ↔ ∃ i, decodeInstr w x = some i ∧ i.record = r ∧ i.compressed = c := by
  unfold decode
  split <;> simp [*]

end Sys2Proof
end

section
/-! The invariant of the widths: what keeps it, said once for each write, for a taken exception and for a new pc. -/

namespace Sys2Proof.Machine

/-- The invariant reads the Xlen, the pc, the integer registers and the CSR file, and nothing else. -/
theorem WidthInv.congr {s t : State} (h : WidthInv s) (hl : t.xlen = s.xlen) (hp : t.pc = s.pc) (hx : t.x = s.x)
    (hc : t.csrs = s.csrs) : WidthInv t := by
  obtain ⟨h1, h2, h3, h4, h5⟩ := h
  constructor <;> simpa only [hl, hp, hx, hc]

theorem WidthInv.withPc {s : State} (h : WidthInv s) {p : XWord} (he : p.getLsbD 0 = false) (hf : narrow s.xlen p = p) :
    WidthInv { s with pc := p } := ⟨he, hf, h.xFits, h.xZero, h.csrsFit⟩

theorem WidthInv.writeX {s : State} (h : WidthInv s) (r : Reg) (v : XWord) : WidthInv (writeX s r v) := by
  by_cases hr : r = 0
  · rwa [Machine.writeX, if_pos hr]
  · have hne : r.toNat ≠ 0 := fun e => hr (BitVec.eq_of_toNat_eq e)
    have hx : (Machine.writeX s r v).x = s.x.set r.toNat (narrow s.xlen v) r.isLt := by rw [Machine.writeX, if_neg hr]
    refine ⟨by simpa using h.pcEven, by simpa using h.pcFits, fun k hk => ?_, ?_, by simpa using h.csrsFit⟩
    · rw [writeX_xlen, hx, Vector.getElem_set]
      split
      · exact narrow_narrow _ _
      · exact h.xFits k hk
    · rw [hx, Vector.getElem_set_ne _ _ hne, h.xZero]

theorem WidthInv.csrFileSet {s : State} (h : WidthInv s) (a : Nat) (v : XWord) : WidthInv (csrFileSet s a v) :=
  ⟨h.pcEven, h.pcFits, h.xFits, h.xZero, forall_csrFileSet h.csrsFit (narrow_narrow _ _)⟩

/-- The three CSRs outside the file are no part of the invariant. -/
theorem WidthInv.csrWrite {s : State} (h : WidthInv s) (c : Csr) (v : XWord) : WidthInv (csrWrite s c v) := by
  unfold Machine.csrWrite
  split
  · exact h.congr rfl rfl rfl rfl
  split
  · exact h.congr rfl rfl rfl rfl
  split
  · exact h.congr rfl rfl rfl rfl
  · exact h.csrFileSet _ _

/-- The entry of a trap: four CSRs take values of XLEN bits, and the base in mtvec has its two low bits cleared. -/
theorem WidthInv.takeException {s : State} (h : WidthInv s) (code : Nat) (tval : XWord) :
    WidthInv (takeException s code tval) := by
  have saved := (((h.csrFileSet 0x341 s.pc).csrFileSet 0x342 (BitVec.ofNat 64 code)).csrFileSet 0x343 tval).csrFileSet 0x300
    (trapStatus (csrFileGet s 0x300) s.mode)
  have even : (narrow s.xlen (csrFileGet s 0x305 &&& ~~~(3#64))).getLsbD 0 = false := by
    rw [narrow_getLsbD_zero]; simp
  exact (saved.withPc even (narrow_narrow _ _)).congr rfl rfl rfl rfl

/-- Every write of an instruction keeps the invariant and the Xlen. -/
theorem closedFrom_widthInv {s : State} (h : WidthInv s) : ClosedFrom s fun q => q.xlen = s.xlen ∧ WidthInv q where
  base := ⟨rfl, h⟩
  writeX q r v hq := ⟨(writeX_xlen q r v).trans hq.1, hq.2.writeX r v⟩
  writeF _ _ _ hq := ⟨hq.1, hq.2.congr rfl rfl rfl rfl⟩
  accrue _ _ hq := ⟨hq.1, hq.2.congr rfl rfl rfl rfl⟩
  storeMem _ _ _ _ hq := ⟨hq.1, hq.2.congr rfl rfl rfl rfl⟩
  reserve _ _ hq := ⟨hq.1, hq.2.congr rfl rfl rfl rfl⟩
  release _ hq := ⟨hq.1, hq.2.congr rfl rfl rfl rfl⟩
  fence _ hq := ⟨hq.1, hq.2.congr rfl rfl rfl rfl⟩
  csrWrite q c v hq := ⟨(csrWrite_xlen q c v).trans hq.1, hq.2.csrWrite c v⟩

/-- A well-formed instruction keeps the invariant. -/
theorem exec_widthInv {i : Instr} {s : State} (hi : i.wf = true) (h : WidthInv s) : NextWith WidthInv (exec i s) := by
  have rule : ExecRule i s (fun q => q.xlen = s.xlen ∧ WidthInv q) WidthInv :=
    { closed := closedFrom_widthInv h
      done := fun q p ⟨hl, hq⟩ ⟨hf, he⟩ =>
        (hq.congr rfl rfl rfl rfl : WidthInv (emit i q)).withPc (he hi h.pcEven) (by rwa [emit_xlen, hl])
      trap := fun code tval _ => (h.congr rfl rfl rfl rfl : WidthInv (emit i s)).takeException code tval }
  exact rule.exec

/-- Every step keeps the invariant: a fetch that is stopped and a rejected word take an exception, and the decoder answers
well-formed rows alone. -/
theorem step_widthInv {s t : State} (h : WidthInv s) (ht : step s = .next t) : WidthInv t := by
  refine step_rule ht (fun i hi => ?_) ?_ fun code _ => ?_
  · exact exec_widthInv (wf_of_decodeInstr hi) (h.congr rfl rfl rfl rfl)
  · exact (h.congr rfl rfl rfl rfl : WidthInv { present s with result := some .decodeError, text := "" }).takeException _ _
  · exact (h.congr rfl rfl rfl rfl : WidthInv { s with tick := s.tick + 1 }).takeException _ _

end Sys2Proof.Machine

open Sys2Proof.Machine

/-- Settles O28: each write, the entry of a trap and each new pc keep the widths, and the rule for a step carries them over
every instruction. -/
theorem stepKeepsWidths : Obligations.StepKeepsWidths := fun _ _ h ht => step_widthInv h ht

end

section
/-! The 32-bit expansion of a compressed row (46_compressed.md R266): it has the row's record, and the decoder reads it from
its encoding. -/

namespace Sys2Proof

/-! ### The record -/

theorem immS_signExtend {n m : Nat} (v : BitVec n) (h : n ≤ m) (hm : m ≤ 32) : immS (v.signExtend m) = immS v := by
  have : (v.signExtend m).signExtend 32 = v.signExtend 32 := BitVec.eq_of_toInt_eq <| by
    rw [BitVec.toInt_signExtend_of_le hm, BitVec.toInt_signExtend_of_le h, BitVec.toInt_signExtend_of_le (h.trans hm)]
  rw [immS, this, immS]

theorem toInt_setWidth_of_lt {n m : Nat} (v : BitVec n) (h : n < m) : (v.setWidth m).toInt = v.toNat := by
  have hv : v.toNat < 2 ^ n := v.isLt
  have hp : 2 ^ (n + 1) ≤ 2 ^ m := Nat.pow_le_pow_right (by decide) h
  have ht : (v.setWidth m).toNat = v.toNat := by
    rw [BitVec.toNat_setWidth, Nat.mod_eq_of_lt (hv.trans_le (Nat.pow_le_pow_right (by decide) h.le))]
  rw [BitVec.toInt_eq_toNat_of_lt (by rw [ht]; omega), ht]

/-- A zero-extended offset is not negative: sign extension leaves it as it is. -/
theorem immS_setWidth {n m : Nat} (v : BitVec n) (h : n < m) (hm : m ≤ 32) : immS (v.setWidth m) = immZ v := by
  have : (v.setWidth m).signExtend 32 = v.setWidth 32 := BitVec.eq_of_toInt_eq <| by
    rw [BitVec.toInt_signExtend_of_le hm, toInt_setWidth_of_lt v h, toInt_setWidth_of_lt v (h.trans_le hm)]
  rw [immS, this, immZ]

theorem immU_signExtend (v : BitVec 6) : immU (v.signExtend 20) = immHi v := by
  have : v.signExtend 20 ++ 0#12 = (v ++ 0#12).signExtend 32 := BitVec.eq_of_toInt_eq <| by
    rw [BitVec.toInt_append, BitVec.toInt_signExtend_of_le (by decide), BitVec.toInt_signExtend_of_le (by decide),
      BitVec.toInt_append]
    rfl
  rw [immU, this, immHi]

/-- A row and its expansion have one record (30_encoding.md R108): the expansion's immediate is the row's, extended. -/
theorem record_expand (i : Instr) : i.expand.record = i.record := by
  cases i with
  | cAddi4spn _ _ | cFld _ _ _ | cLw _ _ _ | cFlw _ _ _ | cFsd _ _ _ | cSw _ _ _ | cFsw _ _ _ | cFldsp _ _ | cLwsp _ _
  | cFlwsp _ _ | cFsdsp _ _ | cSwsp _ _ | cFswsp _ _ => simp [Instr.expand, Instr.record, immS_setWidth]
  | cNop _ | cAddi _ _ | cJal _ | cLi _ _ | cAddi16sp _ | cAndi _ _ | cJ _ | cBeqz _ _ | cBnez _ _ =>
    simp [Instr.expand, Instr.record, immS_signExtend]
  | cLui _ _ => simp [Instr.expand, Instr.record, immU_signExtend]
  | _ => rfl

/-! ### The encoding -/

theorem lowZero_one_iff {n : Nat} (v : BitVec n) : lowZero v 1 = true ↔ v.getLsbD 0 = false := by
  rw [BitVec.getLsbD, Nat.testBit_zero]; simp [lowZero]

theorem lowZero_signExtend {n m : Nat} {v : BitVec n} (h : lowZero v 1 = true) (hn : 0 < n) :
    lowZero (v.signExtend m) 1 = true := by
  rw [lowZero_one_iff] at *
  rw [BitVec.getLsbD_signExtend, if_pos hn, h, Bool.and_false]

/-- The decoder reads the instruction from its encoding, under either Xlen. -/
def RoundTrips (i : Instr) : Prop := ∀ x, decodeInstr (encode i) x = some i

theorem roundTrips_addi (rd rs1 : Reg) (imm : BitVec 12) : RoundTrips (.addi rd rs1 imm) := by
  simp [RoundTrips, encode, decodeInstr, decode32, decodeOpImm]

theorem roundTrips_andi (rd rs1 : Reg) (imm : BitVec 12) : RoundTrips (.andi rd rs1 imm) := by
  simp [RoundTrips, encode, decodeInstr, decode32, decodeOpImm]

theorem roundTrips_slli (rd rs1 : Reg) (shamt : U5) : RoundTrips (.slli rd rs1 shamt) := by
  simp [RoundTrips, encode, decodeInstr, decode32, decodeOpImm]

theorem roundTrips_srli (rd rs1 : Reg) (shamt : U5) : RoundTrips (.srli rd rs1 shamt) := by
  simp [RoundTrips, encode, decodeInstr, decode32, decodeOpImm]

theorem roundTrips_srai (rd rs1 : Reg) (shamt : U5) : RoundTrips (.srai rd rs1 shamt) := by
  simp [RoundTrips, encode, decodeInstr, decode32, decodeOpImm]

theorem roundTrips_add (rd rs1 rs2 : Reg) : RoundTrips (.add rd rs1 rs2) := by
  simp [RoundTrips, encode, decodeInstr, decode32, decodeOp]

theorem roundTrips_sub (rd rs1 rs2 : Reg) : RoundTrips (.sub rd rs1 rs2) := by
  simp [RoundTrips, encode, decodeInstr, decode32, decodeOp]

theorem roundTrips_xor (rd rs1 rs2 : Reg) : RoundTrips (.xor rd rs1 rs2) := by
  simp [RoundTrips, encode, decodeInstr, decode32, decodeOp]

theorem roundTrips_or (rd rs1 rs2 : Reg) : RoundTrips (.or rd rs1 rs2) := by
  simp [RoundTrips, encode, decodeInstr, decode32, decodeOp]

theorem roundTrips_and (rd rs1 rs2 : Reg) : RoundTrips (.and rd rs1 rs2) := by
  simp [RoundTrips, encode, decodeInstr, decode32, decodeOp]

theorem roundTrips_lui (rd : Reg) (upper : BitVec 20) : RoundTrips (.lui rd upper) := by
  simp [RoundTrips, encode, decodeInstr, decode32]

theorem roundTrips_lw (rd base : Reg) (offset : BitVec 12) : RoundTrips (.lw rd base offset) := by
  simp [RoundTrips, encode, decodeInstr, decode32, decodeLoad]

theorem roundTrips_flw (rd base : Reg) (offset : BitVec 12) : RoundTrips (.flw rd base offset) := by
  simp [RoundTrips, encode, decodeInstr, decode32, decodeLoadFp]

theorem roundTrips_fld (rd base : Reg) (offset : BitVec 12) : RoundTrips (.fld rd base offset) := by
  simp [RoundTrips, encode, decodeInstr, decode32, decodeLoadFp]

theorem roundTrips_sw (src base : Reg) (offset : BitVec 12) : RoundTrips (.sw src base offset) := by
  simp [RoundTrips, encode, decodeInstr, decode32, decodeStore]

theorem roundTrips_fsw (src base : Reg) (offset : BitVec 12) : RoundTrips (.fsw src base offset) := by
  simp [RoundTrips, encode, decodeInstr, decode32, decodeStoreFp]

theorem roundTrips_fsd (src base : Reg) (offset : BitVec 12) : RoundTrips (.fsd src base offset) := by
  simp [RoundTrips, encode, decodeInstr, decode32, decodeStoreFp]

theorem roundTrips_jal (rd : Reg) {offset : BitVec 21} (h : lowZero offset 1 = true) : RoundTrips (.jal rd offset) := by
  simp [RoundTrips, encode, decodeInstr, decode32, immJ_jWord, h]

theorem roundTrips_jalr (rd base : Reg) (offset : BitVec 12) : RoundTrips (.jalr rd base offset) := by
  simp [RoundTrips, encode, decodeInstr, decode32]

theorem roundTrips_beq (rs1 rs2 : Reg) {offset : BitVec 13} (h : lowZero offset 1 = true) :
    RoundTrips (.beq rs1 rs2 offset) := by
  simp [RoundTrips, encode, decodeInstr, decode32, decodeBranch, immB_bWord, h]

theorem roundTrips_bne (rs1 rs2 : Reg) {offset : BitVec 13} (h : lowZero offset 1 = true) :
    RoundTrips (.bne rs1 rs2 offset) := by
  simp [RoundTrips, encode, decodeInstr, decode32, decodeBranch, immB_bWord, h]

theorem roundTrips_ebreak : RoundTrips .ebreak := fun _ => rfl

/-- The decoder reads the expansion of a well-formed compressed row from its encoding. -/
theorem roundTrips_expand {i : Instr} (hc : i.compressed = .yes) (hw : i.wf = true) : RoundTrips i.expand := by
  cases i with
  | cAddi4spn _ _ | cNop _ | cAddi _ _ | cLi _ _ | cAddi16sp _ => exact roundTrips_addi _ _ _
  | cFld _ _ _ | cFldsp _ _ => exact roundTrips_fld _ _ _
  | cLw _ _ _ | cLwsp _ _ => exact roundTrips_lw _ _ _
  | cFlw _ _ _ | cFlwsp _ _ => exact roundTrips_flw _ _ _
  | cFsd _ _ _ | cFsdsp _ _ => exact roundTrips_fsd _ _ _
  | cSw _ _ _ | cSwsp _ _ => exact roundTrips_sw _ _ _
  | cFsw _ _ _ | cFswsp _ _ => exact roundTrips_fsw _ _ _
  | cJal _ | cJ _ => exact roundTrips_jal _ (lowZero_signExtend hw (by decide))
  | cBeqz _ _ => exact roundTrips_beq _ _ (lowZero_signExtend hw (by decide))
  | cBnez _ _ => exact roundTrips_bne _ _ (lowZero_signExtend hw (by decide))
  | cLui _ _ => exact roundTrips_lui _ _
  | cSlli _ _ => exact roundTrips_slli _ _ _
  | cSrli _ _ => exact roundTrips_srli _ _ _
  | cSrai _ _ => exact roundTrips_srai _ _ _
  | cAndi _ _ => exact roundTrips_andi _ _ _
  | cSub _ _ => exact roundTrips_sub _ _ _
  | cXor _ _ => exact roundTrips_xor _ _ _
  | cOr _ _ => exact roundTrips_or _ _ _
  | cAnd _ _ => exact roundTrips_and _ _ _
  | cJr _ | cJalr _ => exact roundTrips_jalr _ _ _
  | cMv _ _ | cAdd _ _ => exact roundTrips_add _ _ _
  | cEbreak => exact roundTrips_ebreak
  | _ => cases hc

theorem compressed_expand (i : Instr) : i.expand.compressed = .no := by cases i <;> rfl

/-- The record of a compressed row is also answered with No, from the encoding of its expansion. -/
theorem decode_encode_expand {i : Instr} (hc : i.compressed = .yes) (hw : i.wf = true) (x : Xlen) :
    decode (encode i.expand) x = .ok i.record .no :=
  decode_eq_ok_iff.2 ⟨i.expand, roundTrips_expand hc hw x, record_expand i, compressed_expand i⟩

end Sys2Proof

open Sys2Proof

/-- Settles O5: the row the decoder reads has the form the two low bits name, and a compressed row's expansion has its record
and is read from its own encoding. -/
theorem lengthFromLowBits : Obligations.LengthFromLowBits := by
  intro w x r c hd
  obtain ⟨i, hi, rfl, rfl⟩ := decode_eq_ok_iff.1 hd
  have hform := compressed_of_decodeInstr hi
  have hlong := isLong_iff w
  refine ⟨?_, ?_, ?_, ?_⟩
  · rw [hform, Ne, ← hlong]; split <;> simp [*]
  · exact ⟨fun hc => ⟨i, hi, hc, rfl⟩, fun ⟨j, hj, hc, _⟩ => Option.some.inj (hi.symm.trans hj) ▸ hc⟩
  · simp only [hform, ← hlong]; split <;> rfl
  · cases hc : i.compressed with
    | no => exact ⟨w, hc ▸ hd⟩
    | yes => exact ⟨encode i.expand, decode_encode_expand hc (wf_of_decodeInstr hi) x⟩

end

section
/-! The invariant of the storage (20_memory.md R54, R55, 10_state.md R44): what keeps it, said once for each write and for a
taken exception. -/

namespace Sys2Proof.Machine

/-- The invariant reads the Xlen, both memories and the CSR file, and nothing else. -/
theorem StorageInv.congr {s t : State} (h : StorageInv s) (hl : t.xlen = s.xlen) (hm : t.mem = s.mem) (hi : t.imem = s.imem)
    (hc : t.csrs = s.csrs) : StorageInv t := by
  obtain ⟨h1, h2, h3, h4, h5, h6⟩ := h
  constructor <;> simpa only [hl, hm, hi, hc]

theorem StorageInv.storeMem {s : State} (h : StorageInv s) (a : XWord) (n v : Nat) : StorageInv (storeMem s a n v) :=
  { h with
    mem := Memory.wf_storeNat s.xlen h.mem n a v
    memKeys := keys_storeNat s.xlen h.memKeys n a v }

/-- FENCE.I: fetches see memory, which is in canonical form (20_memory.md R57). -/
theorem StorageInv.fence {s : State} (h : StorageInv s) : StorageInv { s with imem := s.mem } :=
  { h with imem := h.mem, imemKeys := h.memKeys }

theorem StorageInv.csrFileSet {s : State} (h : StorageInv s) {a : Nat} (ha : a < 4096 ∧ a ∉ [1, 2, 3]) (v : XWord) :
    StorageInv (csrFileSet s a v) :=
  { h with
    csrs := csrsWf_csrFileSet h.csrs a v
    csrKeys := forall_csrFileSet h.csrKeys ha }

/-- The three CSRs that are kept elsewhere do not reach the file. -/
theorem StorageInv.csrWrite {s : State} (h : StorageInv s) (c : Csr) (v : XWord) : StorageInv (csrWrite s c v) := by
  unfold Machine.csrWrite
  split
  · exact h.congr rfl rfl rfl rfl
  split
  · exact h.congr rfl rfl rfl rfl
  split
  · exact h.congr rfl rfl rfl rfl
  · refine h.csrFileSet ⟨c.isLt, ?_⟩ v
    simp only [List.mem_cons, List.not_mem_nil, or_false]
    bv_omega

/-- The entry of a trap writes four CSRs of the file and no memory. -/
theorem StorageInv.takeException {s : State} (h : StorageInv s) (code : Nat) (tval : XWord) :
    StorageInv (takeException s code tval) := by
  have saved := (((h.csrFileSet (a := 0x341) (by decide) s.pc).csrFileSet (a := 0x342) (by decide)
    (BitVec.ofNat 64 code)).csrFileSet (a := 0x343) (by decide) tval).csrFileSet (a := 0x300) (by decide)
    (trapStatus (csrFileGet s 0x300) s.mode)
  exact saved.congr rfl rfl rfl rfl

/-- Every write of an instruction keeps the invariant. -/
theorem closedFrom_storageInv {s : State} (h : StorageInv s) : ClosedFrom s StorageInv where
  base := h
  writeX _ _ _ hq := hq.congr (writeX_xlen ..) (writeX_mem ..) (writeX_imem ..) (writeX_csrs ..)
  writeF _ _ _ hq := hq.congr rfl rfl rfl rfl
  accrue _ _ hq := hq.congr rfl rfl rfl rfl
  storeMem _ a n v hq := hq.storeMem a n v
  reserve _ _ hq := hq.congr rfl rfl rfl rfl
  release _ hq := hq.congr rfl rfl rfl rfl
  fence _ hq := hq.fence
  csrWrite _ c v hq := hq.csrWrite c v

/-- Every instruction keeps the invariant. -/
theorem exec_storageInv (i : Instr) {s : State} (h : StorageInv s) : NextWith StorageInv (exec i s) := by
  have rule : ExecRule i s StorageInv StorageInv :=
    { closed := closedFrom_storageInv h
      done := fun _ _ hq _ => hq.congr rfl rfl rfl rfl
      trap := fun code tval _ => (h.congr rfl rfl rfl rfl : StorageInv (emit i s)).takeException code tval }
  exact rule.exec

/-- Every step keeps the invariant: a fetch that is stopped and a rejected word take an exception. -/
theorem step_storageInv {s t : State} (h : StorageInv s) (ht : step s = .next t) : StorageInv t := by
  refine step_rule ht (fun i _ => exec_storageInv i (h.congr rfl rfl rfl rfl)) ?_ fun code _ => ?_
  · exact (h.congr rfl rfl rfl rfl : StorageInv { present s with result := some .decodeError, text := "" }).takeException _ _
  · exact (h.congr rfl rfl rfl rfl : StorageInv { s with tick := s.tick + 1 }).takeException _ _

end Sys2Proof.Machine

open Sys2Proof.Machine

/-- Settles O27: each write and the entry of a trap keep the storage canonical and within its address spaces, and the rule for
a step carries this over every instruction. -/
theorem stepKeepsStorage : Obligations.StepKeepsStorage := fun _ _ h ht => step_storageInv h ht

end

section
/-! The word fetched, byte by byte (20_memory.md R51), and the instruction a step runs (10_state.md R21, R22). -/

namespace Sys2Proof.Machine

/-- The four bytes of a word, taken out again. -/
theorem extractLsb'_bytes (b : Nat → Byte) {k : Nat} (hk : k < 4) :
    (b 3 ++ b 2 ++ b 1 ++ b 0 : Word).extractLsb' (8 * k) 8 = b k := by
  interval_cases k
  · exact BitVec.extractLsb'_append_eq_right
  · rw [BitVec.extractLsb'_append_eq_of_le (by decide)]; exact BitVec.extractLsb'_append_eq_right
  · rw [BitVec.extractLsb'_append_eq_of_le (by decide), BitVec.extractLsb'_append_eq_of_le (by decide)]
    exact BitVec.extractLsb'_append_eq_right
  · rw [BitVec.extractLsb'_append_eq_of_le (by decide), BitVec.extractLsb'_append_eq_of_le (by decide)]
    exact BitVec.extractLsb'_append_eq_left

/-- The byte fetched `k` bytes above the pc. -/
def fetchedByte (s : State) (k : Nat) : Byte := fetchByte s (addrKey s.xlen (s.pc + BitVec.ofNat 64 k))

/-- The word fetched is the four bytes fetched, the lowest address in the lowest bits. -/
theorem fetchWord_eq (s : State) :
    fetchWord s = fetchedByte s 3 ++ fetchedByte s 2 ++ fetchedByte s 1 ++ fetchedByte s 0 := by
  rw [fetchedByte, fetchedByte, fetchedByte, fetchedByte, BitVec.add_zero]; rfl

theorem extractLsb'_fetchWord (s : State) {k : Nat} (hk : k < 4) : (fetchWord s).extractLsb' (8 * k) 8 = fetchedByte s k := by
  rw [fetchWord_eq, extractLsb'_bytes (fetchedByte s) hk]

/-- The word fetched is the number whose bytes the fetch sees. -/
theorem fetchWord_of_bytes {s : State} {v : Nat} (h : ∀ k, k < 4 → fetchedByte s k = BitVec.ofNat 8 (v / 256 ^ k)) :
    fetchWord s = BitVec.ofNat 32 v := by
  rw [fetchWord_eq, h 0 (by decide), h 1 (by decide), h 2 (by decide), h 3 (by decide), word_of_bytes]

/-- The word fetched after an instruction is placed: its bits, those above its width zero. -/
theorem fetchWord_withFetchWord {s : State} (hm : Memory.wf s.mem = true) (hi : Memory.wf s.imem = true) (nbits w : Nat) :
    fetchWord (s.withFetchWord nbits w) = BitVec.ofNat 32 (w % 2 ^ nbits) := by
  refine fetchWord_of_bytes fun k hk => ?_
  have stored {m : List Host.Cell} (h : Memory.wf m = true) :
      byteAt (placeBytes s.xlen m s.pc (w % 2 ^ nbits)) (addrKey s.xlen (s.pc + BitVec.ofNat 64 k)) =
        BitVec.ofNat 8 (w % 2 ^ nbits / 256 ^ k) := byteAt_storeNat s.xlen h (by decide) s.pc _ hk
  exact (fetchByte_eq ((stored hi).trans (stored hm).symm)).trans (stored hm)

/-- A step runs the instruction decoded from the word at the pc. -/
theorem step_of_decodeInstr {s : State} {i : Instr} (hf : fetchable s = true) (hi : decodeInstr (fetchWord s) s.xlen = some i) :
    step s = exec i (present s) := by
  have hnone : fetchException s = none := Option.isNone_iff_eq_none.1 hf
  simp only [step, hnone, present_word, present_xlen, hi]

end Sys2Proof.Machine

open Sys2Proof.Machine

/-- Settles O23: no exception stops the fetch, and the word decodes. -/
theorem stepRunsDecoded : Obligations.StepRunsDecoded := fun _ _ hf hi => step_of_decodeInstr hf hi

/-- Settles O24: the word is the bytes fetched, which are those of memory where the two views agree; FENCE.I makes them one; and
an instruction is placed in both. -/
theorem fetchedWord : Obligations.FetchedWord := by
  refine ⟨fun s hag k hk => ?_, fun s t ht => ?_, fun s nbits w _ hm hi => ⟨fetchWord_withFetchWord hm hi nbits w, rfl⟩⟩
  · exact (extractLsb'_fetchWord s hk).trans (fetchByte_eq (hag k hk))
  · cases ht; exact ⟨rfl, rfl⟩

end

section
/-! Loads after stores (20_memory.md R54, 00_scope.md R12). -/

open Sys2Proof.Machine

/-- Settles O32: a store puts its bytes where the load reads them, and leaves those of a disjoint load as they were. -/
theorem loadAfterStore : Obligations.LoadAfterStore := by
  intro x m n a v hm hn
  refine ⟨?_, fun k hk => loadNat_byte x m hk a, fun n' b hdis => ?_⟩
  · exact loadNat_of_bytes x _ fun k hk => byteAt_storeNat x hm hn a v hk
  · exact loadNat_congr x fun k hk => byteAt_storeNat_other x m n a v _ (hdis _ ((inAccess_iff x b n' _).2 ⟨k, hk, rfl⟩))

end

section
/-! Decoding what was encoded (30_encoding.md R62 to R77, R83 to R91): a well-formed row is read from its own word. The rows go
by the dispatch that reads them. -/

namespace Sys2Proof

/-- A code has a mode where it is the code of that mode (10_state.md R37). -/
theorem RoundingMode.ofCode_eq_some_iff {c : BitVec 3} {m : RoundingMode} : RoundingMode.ofCode c = some m ↔ c = m.code := by
  cases m <;> revert c <;> decide

@[simp] theorem withRm_rWord (f7 : BitVec 7) (s2 s1 : Reg) (m : RoundingMode) (d : Reg) (o : BitVec 7)
    (mk : RoundingMode → Instr) : withRm (rWord f7 s2 s1 m.code d o) mk = some (mk m) := by
  rw [withRm, funct3_rWord, RoundingMode.ofCode_eq_some_iff.2 rfl, Option.map_some]

/-! ### The 32-bit rows -/

/-- FENCE's successor set is not PAUSE's, and its mode bits are not FENCE.TSO's. -/
theorem roundTrips_fence {pred succ : FenceSet} (hp : pred ≠ 0) (hs : succ ≠ 0) : RoundTrips (.fence pred succ) := by
  have pause : encode (.fence pred succ) ≠ 0x0100000F#32 := fun h =>
    hs ((succ_fenceWord ..).symm.trans (congrArg WField.succ h))
  have tso : encode (.fence pred succ) ≠ 0x8330000F#32 := fun h =>
    absurd ((fm_fenceWord ..).symm.trans (congrArg WField.fm h)) (by decide)
  intro x
  calc decodeInstr (encode (.fence pred succ)) x
    _ = decodeMiscMem (encode (.fence pred succ)) := by simp [encode, decodeInstr, decode32]
    _ = some (.fence pred succ) := by
      rw [decodeMiscMem, if_neg pause, if_neg tso]; simpa [encode] using ⟨hp, hs⟩

/-- A well-formed 32-bit row is read from its encoding. -/
theorem roundTrips_of_no {i : Instr} (hc : i.compressed = .no) (hw : i.wf = true) : RoundTrips i := by
  cases i with
  | addi _ _ _ => exact roundTrips_addi _ _ _
  | andi _ _ _ => exact roundTrips_andi _ _ _
  | slli _ _ _ => exact roundTrips_slli _ _ _
  | srli _ _ _ => exact roundTrips_srli _ _ _
  | srai _ _ _ => exact roundTrips_srai _ _ _
  | slti _ _ _ | sltiu _ _ _ | xori _ _ _ | ori _ _ _ => simp [RoundTrips, encode, decodeInstr, decode32, decodeOpImm]
  | add _ _ _ => exact roundTrips_add _ _ _
  | sub _ _ _ => exact roundTrips_sub _ _ _
  | xor _ _ _ => exact roundTrips_xor _ _ _
  | or _ _ _ => exact roundTrips_or _ _ _
  | and _ _ _ => exact roundTrips_and _ _ _
  | sll _ _ _ | slt _ _ _ | sltu _ _ _ | srl _ _ _ | sra _ _ _ | mul _ _ _ | mulh _ _ _ | mulhsu _ _ _ | mulhu _ _ _
  | div _ _ _ | divu _ _ _ | rem _ _ _ | remu _ _ _ => simp [RoundTrips, encode, decodeInstr, decode32, decodeOp]
  | lw _ _ _ => exact roundTrips_lw _ _ _
  | lb _ _ _ | lh _ _ _ | lbu _ _ _ | lhu _ _ _ => simp [RoundTrips, encode, decodeInstr, decode32, decodeLoad]
  | sw _ _ _ => exact roundTrips_sw _ _ _
  | sb _ _ _ | sh _ _ _ => simp [RoundTrips, encode, decodeInstr, decode32, decodeStore]
  | flw _ _ _ => exact roundTrips_flw _ _ _
  | fld _ _ _ => exact roundTrips_fld _ _ _
  | fsw _ _ _ => exact roundTrips_fsw _ _ _
  | fsd _ _ _ => exact roundTrips_fsd _ _ _
  | beq _ _ _ => exact roundTrips_beq _ _ hw
  | bne _ _ _ => exact roundTrips_bne _ _ hw
  | blt _ _ _ | bge _ _ _ | bltu _ _ _ | bgeu _ _ _ =>
    simp [RoundTrips, encode, decodeInstr, decode32, decodeBranch, immB_bWord _ _ _ _ _ hw]
  | jal _ _ => exact roundTrips_jal _ hw
  | jalr _ _ _ => exact roundTrips_jalr _ _ _
  | lui _ _ => exact roundTrips_lui _ _
  | auipc _ _ => simp [RoundTrips, encode, decodeInstr, decode32]
  | fence _ _ =>
    simp only [Instr.wf, Bool.and_eq_true, bne_iff_ne] at hw
    exact roundTrips_fence hw.1 hw.2
  | fenceTso | fenceI | pause | ecall => exact fun _ => rfl
  | ebreak => exact roundTrips_ebreak
  | lrW _ _ _ _ | scW _ _ _ _ _ | amoswapW _ _ _ _ _ | amoaddW _ _ _ _ _ | amoxorW _ _ _ _ _ | amoandW _ _ _ _ _
  | amoorW _ _ _ _ _ | amominW _ _ _ _ _ | amomaxW _ _ _ _ _ | amominuW _ _ _ _ _ | amomaxuW _ _ _ _ _ =>
    simp [RoundTrips, encode, decodeInstr, decode32, decodeAmo]
  | csrrw _ _ _ | csrrs _ _ _ | csrrc _ _ _ | csrrwi _ _ _ | csrrsi _ _ _ | csrrci _ _ _ =>
    simp [RoundTrips, encode, decodeInstr, decode32, decodeSystem]
  | fmaddS _ _ _ _ _ | fmsubS _ _ _ _ _ | fnmsubS _ _ _ _ _ | fnmaddS _ _ _ _ _ | fmaddD _ _ _ _ _ | fmsubD _ _ _ _ _
  | fnmsubD _ _ _ _ _ | fnmaddD _ _ _ _ _ => simp [RoundTrips, encode, decodeInstr, decode32, decodeFused]
  | faddS _ _ _ _ | fsubS _ _ _ _ | fmulS _ _ _ _ | fdivS _ _ _ _ | fsqrtS _ _ _ | fsgnjS _ _ _ | fsgnjnS _ _ _
  | fsgnjxS _ _ _ | fminS _ _ _ | fmaxS _ _ _ | feqS _ _ _ | fltS _ _ _ | fleS _ _ _ | fclassS _ _ | fcvtWS _ _ _
  | fcvtWuS _ _ _ | fcvtSW _ _ _ | fcvtSWu _ _ _ | fmvXW _ _ | fmvWX _ _ | fcvtSD _ _ _ =>
    simp [RoundTrips, encode, decodeInstr, decode32, decodeOpFpSingle]
  | faddD _ _ _ _ | fsubD _ _ _ _ | fmulD _ _ _ _ | fdivD _ _ _ _ | fsqrtD _ _ _ | fsgnjD _ _ _ | fsgnjnD _ _ _
  | fsgnjxD _ _ _ | fminD _ _ _ | fmaxD _ _ _ | feqD _ _ _ | fltD _ _ _ | fleD _ _ _ | fclassD _ _ | fcvtWD _ _ _
  | fcvtWuD _ _ _ | fcvtDW _ _ | fcvtDWu _ _ | fcvtDS _ _ =>
    simp [RoundTrips, encode, decodeInstr, decode32, decodeOpFpDouble]
  | _ => cases hc

/-! ### The 16-bit rows -/

/-- A well-formed 16-bit row is read from its encoding under an Xlen under which it applies. -/
theorem decodeInstr_encode_of_yes {i : Instr} {x : Xlen} (hc : i.compressed = .yes) (hw : i.wf = true)
    (hx : i.availableIn x = true) : decodeInstr (encode i) x = some i := by
  cases i with
  | cAddi4spn _ _ =>
    simp only [Instr.wf, Bool.and_eq_true, bne_iff_ne, BitVec.ofNat_eq_ofNat] at hw
    obtain ⟨hz, hn⟩ := hw
    simp [encode, decodeInstr, decode16, decodeQ0, immSpn_ciwWord _ _ _ _ hz, hn]
  | cFld _ _ _ | cFsd _ _ _ =>
    simp [encode, decodeInstr, decode16, decodeQ0, offsetD_clWord _ _ _ _ _ hw]
  | cLw _ _ _ | cSw _ _ _ =>
    simp [encode, decodeInstr, decode16, decodeQ0, offsetW_clWord _ _ _ _ _ hw]
  | cFlw _ _ _ | cFsw _ _ _ =>
    obtain rfl : x = .rv32 := eq_of_beq hx
    simp [encode, decodeInstr, decode16, decodeQ0, offsetW_clWord _ _ _ _ _ hw]
  | cNop _ | cLi _ _ => simp [encode, decodeInstr, decode16, decodeQ1]
  | cAddi _ _ =>
    simp only [Instr.wf, bne_iff_ne, BitVec.ofNat_eq_ofNat] at hw
    simp [encode, decodeInstr, decode16, decodeQ1, hw]
  | cJal _ => 
    obtain rfl : x = .rv32 := eq_of_beq hx
    simp [encode, decodeInstr, decode16, decodeQ1, offsetJ_cjWord _ _ _ hw]
  | cAddi16sp _ =>
    simp only [Instr.wf, Bool.and_eq_true, bne_iff_ne, BitVec.ofNat_eq_ofNat] at hw
    obtain ⟨hz, hn⟩ := hw
    simp [encode, decodeInstr, decode16, decodeQ1, immSp16_ciWord _ _ _ _ hz, hn]
  | cLui _ _ =>
    simp only [Instr.wf, Bool.and_eq_true, bne_iff_ne, BitVec.ofNat_eq_ofNat] at hw
    obtain ⟨hr, hn⟩ := hw
    simp [encode, decodeInstr, decode16, decodeQ1, hr, hn]
  | cSrli _ _ | cSrai _ _ | cAndi _ _ | cSub _ _ | cXor _ _ | cOr _ _ | cAnd _ _ =>
    simp [encode, decodeInstr, decode16, decodeQ1, decodeQ1Alu]
  | cJ _ => simp [encode, decodeInstr, decode16, decodeQ1, offsetJ_cjWord _ _ _ hw]
  | cBeqz _ _ | cBnez _ _ => simp [encode, decodeInstr, decode16, decodeQ1, offsetB_cbWord _ _ _ _ hw]
  | cSlli _ _ => simp [encode, decodeInstr, decode16, decodeQ2]
  | cFldsp _ _ => simp [encode, decodeInstr, decode16, decodeQ2, offsetFldsp_ciWord _ _ _ _ hw]
  | cLwsp _ _ =>
    simp only [Instr.wf, Bool.and_eq_true, bne_iff_ne, BitVec.ofNat_eq_ofNat] at hw
    obtain ⟨hz, hn⟩ := hw
    simp [encode, decodeInstr, decode16, decodeQ2, offsetLwsp_ciWord _ _ _ _ hz, hn]
  | cFlwsp _ _ =>
    obtain rfl : x = .rv32 := eq_of_beq hx
    simp [encode, decodeInstr, decode16, decodeQ2, offsetLwsp_ciWord _ _ _ _ hw]
  | cFsdsp _ _ => simp [encode, decodeInstr, decode16, decodeQ2, offsetFsdsp_cssWord _ _ _ _ hw]
  | cSwsp _ _ => simp [encode, decodeInstr, decode16, decodeQ2, offsetSwsp_cssWord _ _ _ _ hw]
  | cFswsp _ _ =>
    obtain rfl : x = .rv32 := eq_of_beq hx
    simp [encode, decodeInstr, decode16, decodeQ2, offsetSwsp_cssWord _ _ _ _ hw]
  | cJr _ | cJalr _ | cMv _ _ | cAdd _ _ =>
    simp only [Instr.wf, bne_iff_ne, BitVec.ofNat_eq_ofNat] at hw
    simp [encode, decodeInstr, decode16, decodeQ2, decodeQ2Reg, hw]
  | cEbreak => rfl
  | _ => cases hc

end Sys2Proof

open Sys2Proof

/-- Settles O1: each row's word has the row's fields, by which its dispatch reads the row. -/
theorem decodeEncodeWords : Obligations.DecodeEncodeWords := fun _ x hc hw => roundTrips_of_no hc hw x

/-- Settles O2: each row's parcel has the row's fields, and its conditions rule out the rows that share its slot. -/
theorem decodeEncodeParcels : Obligations.DecodeEncodeParcels := fun _ _ hc hw hx => decodeInstr_encode_of_yes hc hw hx

end

section
/-! Encoding what was decoded (30_encoding.md R62 to R77, R83 to R91): a row read from a word has that word as its encoding. -/

namespace Sys2Proof

/-! ### The fields of a format, with the values a dispatch has found in them -/

section
variable {w : Word} {f3 : BitVec 3} {o : BitVec 7}

theorem rWord_eq {f7 : BitVec 7} {s2 : Reg} (h7 : WField.funct7 w = f7) (h2 : WField.rs2 w = s2) (h3 : WField.funct3 w = f3)
    (ho : WField.opcode w = o) : rWord f7 s2 (WField.rs1 w) f3 (WField.rd w) o = w := by
  subst h7 h2 h3 ho; exact rWord_fields w

theorem iWord_eq (h3 : WField.funct3 w = f3) (ho : WField.opcode w = o) :
    iWord (WField.immI w) (WField.rs1 w) f3 (WField.rd w) o = w := by
  subst h3 ho; exact iWord_fields w

theorem iWord_csr_eq (h3 : WField.funct3 w = f3) (ho : WField.opcode w = o) :
    iWord (WField.csr w) (WField.rs1 w) f3 (WField.rd w) o = w := by
  subst h3 ho; exact iWord_csr_fields w

theorem sWord_eq (h3 : WField.funct3 w = f3) (ho : WField.opcode w = o) :
    sWord (WField.immS w) (WField.rs2 w) (WField.rs1 w) f3 o = w := by
  subst h3 ho; exact sWord_fields w

theorem bWord_eq (h3 : WField.funct3 w = f3) (ho : WField.opcode w = o) :
    bWord (WField.immB w) (WField.rs2 w) (WField.rs1 w) f3 o = w := by
  subst h3 ho; exact bWord_fields w

theorem uWord_eq (ho : WField.opcode w = o) : uWord (WField.immU w) (WField.rd w) o = w := by
  subst ho; exact uWord_fields w

theorem jWord_eq (ho : WField.opcode w = o) : jWord (WField.immJ w) (WField.rd w) o = w := by
  subst ho; exact jWord_fields w

theorem fenceWord_eq {f : BitVec 4} {s1 d : Reg} (hf : WField.fm w = f) (h1 : WField.rs1 w = s1) (h3 : WField.funct3 w = f3)
    (hd : WField.rd w = d) (ho : WField.opcode w = o) : fenceWord f (WField.pred w) (WField.succ w) s1 f3 d o = w := by
  subst hf h1 h3 hd ho; exact fenceWord_fields w

end

section
variable {h : Parcel} {f3 : BitVec 3} {q : BitVec 2}

theorem ciwWord_eq (h3 : PField.funct3 h = f3) (hq : PField.op h = q) :
    ciwWord f3 (h.extractLsb' 5 8) (PField.rs2' h) q = parcelWord h := by
  subst h3 hq; exact ciwWord_fields h

theorem clWord_eq (h3 : PField.funct3 h = f3) (hq : PField.op h = q) :
    clWord f3 (h.extractLsb' 10 3) (PField.rs1' h) (PField.sub2 h) (PField.rs2' h) q = parcelWord h := by
  subst h3 hq; exact clWord_fields h

theorem ciWord_eq {i : BitVec 1} {d : Reg} (h3 : PField.funct3 h = f3) (hi : PField.bit12 h = i) (hd : PField.rd h = d)
    (hq : PField.op h = q) : ciWord f3 i d (PField.rs2 h) q = parcelWord h := by
  subst h3 hi hd hq; exact ciWord_fields h

theorem crWord_eq {f4 : BitVec 4} {d s : Reg} (h4 : PField.funct3 h ++ PField.bit12 h = f4) (hd : PField.rd h = d)
    (hs : PField.rs2 h = s) (hq : PField.op h = q) : crWord f4 d s q = parcelWord h := by
  subst h4 hd hs hq; exact crWord_fields h

theorem cssWord_eq (h3 : PField.funct3 h = f3) (hq : PField.op h = q) :
    cssWord f3 (h.extractLsb' 7 6) (PField.rs2 h) q = parcelWord h := by
  subst h3 hq; exact cssWord_fields h

theorem caWord_eq {f2 : BitVec 2} (h3 : PField.funct3 h = 0b100#3) (hb : PField.bit12 h = 0#1)
    (h2 : PField.funct2 h = 0b11#2) (hs : PField.sub2 h = f2) (hq : PField.op h = q) :
    caWord 0b100011#6 (PField.rs1' h) f2 (PField.rs2' h) q = parcelWord h := by
  subst hs hq; rw [← caWord_fields h, h3, hb, h2]; rfl

theorem cbWord_eq (h3 : PField.funct3 h = f3) (hq : PField.op h = q) :
    cbWord f3 (h.extractLsb' 10 3) (PField.rs1' h) (PField.rs2 h) q = parcelWord h := by
  subst h3 hq; exact cbWord_fields h

theorem cbAluWord_eq {i : BitVec 1} {f2 : BitVec 2} (h3 : PField.funct3 h = f3) (hi : PField.bit12 h = i)
    (h2 : PField.funct2 h = f2) (hq : PField.op h = q) :
    cbAluWord f3 i f2 (PField.rs1' h) (PField.rs2 h) q = parcelWord h := by
  subst h3 hi h2 hq; exact cbAluWord_fields h

theorem cjWord_eq (h3 : PField.funct3 h = f3) (hq : PField.op h = q) :
    cjWord f3 (h.extractLsb' 2 11) q = parcelWord h := by
  subst h3 hq; exact cjWord_fields h

end

/-! ### The value left in a field where a dispatch has ruled out the others -/

theorem eq_seven_iff {f : BitVec 3} :
    f = 7#3 ↔ f ≠ 0#3 ∧ f ≠ 1#3 ∧ f ≠ 2#3 ∧ f ≠ 3#3 ∧ f ≠ 4#3 ∧ f ≠ 5#3 ∧ f ≠ 6#3 := by
  revert f; decide

theorem eq_five_iff {f : BitVec 3} :
    f = 5#3 ↔ f ≠ 0#3 ∧ f ≠ 1#3 ∧ f ≠ 2#3 ∧ f ≠ 3#3 ∧ f ≠ 4#3 ∧ f ≠ 6#3 ∧ f ≠ 7#3 := by
  revert f; decide

theorem eq_three_iff {f : BitVec 2} : f = 3#2 ↔ f ≠ 0#2 ∧ f ≠ 1#2 ∧ f ≠ 2#2 := by
  revert f; decide

theorem eq_one_iff {b : BitVec 1} : b = 1#1 ↔ b ≠ 0#1 := by
  revert b; decide

/-! ### Rows read from a word -/

/-- Every row a decoder answers applies under `x` and has the word `w` as its encoding. -/
def ReadFrom (w : Word) (x : Xlen) (o : Option Instr) : Prop := ∀ i, o = some i → i.availableIn x = true ∧ encode i = w

@[simp] theorem readFrom_none (w : Word) (x : Xlen) : ReadFrom w x none := fun _ h => nomatch h

@[simp] theorem readFrom_some {w : Word} {x : Xlen} {i : Instr} :
    ReadFrom w x (some i) ↔ i.availableIn x = true ∧ encode i = w := by simp [ReadFrom]

@[simp] theorem readFrom_ite {w : Word} {x : Xlen} {p : Prop} [Decidable p] {a b : Option Instr} :
    ReadFrom w x (if p then a else b) ↔ (p → ReadFrom w x a) ∧ (¬p → ReadFrom w x b) := by
  split <;> simp [*]

/-- A row with one word. -/
theorem readFrom_ite_word {w k : Word} {x : Xlen} {i : Instr} {o : Option Instr} (hx : i.availableIn x = true)
    (hk : encode i = k) (ho : ReadFrom w x o) : ReadFrom w x (if w = k then some i else o) :=
  readFrom_ite.2 ⟨fun h => readFrom_some.2 ⟨hx, hk.trans h.symm⟩, fun _ => ho⟩

@[simp] theorem readFrom_withRm {w : Word} {x : Xlen} {mk : RoundingMode → Instr} :
    ReadFrom w x (withRm w mk) ↔ ∀ m, WField.funct3 w = m.code → (mk m).availableIn x = true ∧ encode (mk m) = w := by
  simp [ReadFrom, withRm, RoundingMode.ofCode_eq_some_iff]

/-! ### The 32-bit words -/

section
variable {w : Word} (x : Xlen)

theorem readFrom_decodeOpImm (ho : WField.opcode w = 0b0010011) : ReadFrom w x (decodeOpImm w) := by
  simp only [decodeOpImm, BitVec.ofNat_eq_ofNat]
  repeat' (rw [readFrom_ite]; refine ⟨fun _ => ?_, fun _ => ?_⟩)
  all_goals simp [Instr.availableIn, encode, iWord_eq, rWord_eq, eq_five_iff, *]

theorem readFrom_decodeOp (ho : WField.opcode w = 0b0110011) : ReadFrom w x (decodeOp w) := by
  simp only [decodeOp, BitVec.ofNat_eq_ofNat]
  repeat' (rw [readFrom_ite]; refine ⟨fun _ => ?_, fun _ => ?_⟩)
  all_goals simp [Instr.availableIn, encode, rWord_eq, eq_seven_iff, *]

theorem readFrom_decodeLoad (ho : WField.opcode w = 0b0000011) : ReadFrom w x (decodeLoad w) := by
  simp +contextual [decodeLoad, Instr.availableIn, encode, iWord_eq, ho]

theorem readFrom_decodeStore (ho : WField.opcode w = 0b0100011) : ReadFrom w x (decodeStore w) := by
  simp +contextual [decodeStore, Instr.availableIn, encode, sWord_eq, ho]

theorem readFrom_decodeBranch (ho : WField.opcode w = 0b1100011) : ReadFrom w x (decodeBranch w) := by
  simp +contextual [decodeBranch, Instr.availableIn, encode, bWord_eq, ho]

theorem readFrom_decodeMiscMem (ho : WField.opcode w = 0b0001111) : ReadFrom w x (decodeMiscMem w) := by
  unfold decodeMiscMem
  refine readFrom_ite_word rfl rfl (readFrom_ite_word rfl rfl (readFrom_ite.2 ⟨fun h3 => ?_, fun _ => ?_⟩))
  · simp +contextual [Instr.availableIn, encode, fenceWord_eq, h3, ho]
  · exact readFrom_ite_word rfl rfl (readFrom_none w x)

theorem readFrom_decodeSystem (ho : WField.opcode w = 0b1110011) : ReadFrom w x (decodeSystem w) := by
  unfold decodeSystem
  refine readFrom_ite.2 ⟨fun _ => readFrom_ite_word rfl rfl (readFrom_ite_word rfl rfl (readFrom_none w x)), fun _ => ?_⟩
  simp +contextual [Instr.availableIn, encode, iWord_csr_eq, ho]

theorem readFrom_decodeAmo (ho : WField.opcode w = 0b0101111) : ReadFrom w x (decodeAmo w) := by
  simp only [decodeAmo, BitVec.ofNat_eq_ofNat]
  repeat' (rw [readFrom_ite]; refine ⟨fun _ => ?_, fun _ => ?_⟩)
  all_goals simp [Instr.availableIn, encode, rWord_eq, ← funct7_amo_fields, *]

theorem readFrom_decodeLoadFp (ho : WField.opcode w = 0b0000111) : ReadFrom w x (decodeLoadFp w) := by
  simp +contextual [decodeLoadFp, Instr.availableIn, encode, iWord_eq, ho]

theorem readFrom_decodeStoreFp (ho : WField.opcode w = 0b0100111) : ReadFrom w x (decodeStoreFp w) := by
  simp +contextual [decodeStoreFp, Instr.availableIn, encode, sWord_eq, ho]

theorem readFrom_decodeFused {o : BitVec 7} {single double : RoundingMode → Reg → Reg → Reg → Reg → Instr}
    (ho : WField.opcode w = o)
    (hs : ∀ m d a b c, (single m d a b c).availableIn x = true ∧
      encode (single m d a b c) = rWord (c ++ 0b00#2) b a m.code d o)
    (hd : ∀ m d a b c, (double m d a b c).availableIn x = true ∧
      encode (double m d a b c) = rWord (c ++ 0b01#2) b a m.code d o) :
    ReadFrom w x (decodeFused w single double) := by
  simp +contextual [decodeFused, hs, hd, rWord_eq, ← funct7_fields, ho]

theorem readFrom_decodeOpFpSingle (ho : WField.opcode w = 0b1010011) (hf : WField.fmt w = 0b00) :
    ReadFrom w x (decodeOpFpSingle w) := by
  simp only [decodeOpFpSingle, BitVec.ofNat_eq_ofNat]
  repeat' (rw [readFrom_ite]; refine ⟨fun _ => ?_, fun _ => ?_⟩)
  all_goals simp +contextual [Instr.availableIn, encode, rWord_eq, ← funct7_fields, *]

theorem readFrom_decodeOpFpDouble (ho : WField.opcode w = 0b1010011) (hf : WField.fmt w = 0b01) :
    ReadFrom w x (decodeOpFpDouble w) := by
  simp only [decodeOpFpDouble, BitVec.ofNat_eq_ofNat]
  repeat' (rw [readFrom_ite]; refine ⟨fun _ => ?_, fun _ => ?_⟩)
  all_goals simp +contextual [Instr.availableIn, encode, rWord_eq, ← funct7_fields, *]

theorem readFrom_decode32 (w : Word) : ReadFrom w x (decode32 w) := by
  unfold decode32
  refine readFrom_ite.2 ⟨readFrom_decodeLoad x, fun _ => ?_⟩
  refine readFrom_ite.2 ⟨readFrom_decodeLoadFp x, fun _ => ?_⟩
  refine readFrom_ite.2 ⟨readFrom_decodeMiscMem x, fun _ => ?_⟩
  refine readFrom_ite.2 ⟨readFrom_decodeOpImm x, fun _ => ?_⟩
  refine readFrom_ite.2 ⟨fun ho => readFrom_some.2 ⟨rfl, uWord_eq ho⟩, fun _ => ?_⟩
  refine readFrom_ite.2 ⟨readFrom_decodeStore x, fun _ => ?_⟩
  refine readFrom_ite.2 ⟨readFrom_decodeStoreFp x, fun _ => ?_⟩
  refine readFrom_ite.2 ⟨readFrom_decodeAmo x, fun _ => ?_⟩
  refine readFrom_ite.2 ⟨readFrom_decodeOp x, fun _ => ?_⟩
  refine readFrom_ite.2 ⟨fun ho => readFrom_some.2 ⟨rfl, uWord_eq ho⟩, fun _ => ?_⟩
  iterate 4
    refine readFrom_ite.2 ⟨fun ho => readFrom_decodeFused x ho (fun _ _ _ _ _ => ⟨rfl, rfl⟩) fun _ _ _ _ _ => ⟨rfl, rfl⟩,
      fun _ => ?_⟩
  refine readFrom_ite.2 ⟨fun ho => readFrom_ite.2 ⟨readFrom_decodeOpFpSingle x ho, fun _ => readFrom_ite.2
    ⟨readFrom_decodeOpFpDouble x ho, fun _ => readFrom_none w x⟩⟩, fun _ => ?_⟩
  refine readFrom_ite.2 ⟨readFrom_decodeBranch x, fun _ => ?_⟩
  refine readFrom_ite.2 ⟨fun ho => readFrom_ite.2 ⟨fun h3 => readFrom_some.2 ⟨rfl, iWord_eq h3 ho⟩, fun _ =>
    readFrom_none w x⟩, fun _ => ?_⟩
  refine readFrom_ite.2 ⟨fun ho => readFrom_some.2 ⟨rfl, jWord_eq ho⟩, fun _ => ?_⟩
  exact readFrom_ite.2 ⟨readFrom_decodeSystem x, fun _ => readFrom_none w x⟩

end

/-! ### The parcels -/

section
variable {h : Parcel} (x : Xlen)

theorem readFrom_decodeQ0 (hq : PField.op h = 0b00) : ReadFrom (parcelWord h) x (decodeQ0 h x) := by
  simp +contextual [decodeQ0, Instr.availableIn, encode, ciwWord_eq, clWord_eq, hq]

theorem readFrom_decodeQ1Alu (hq : PField.op h = 0b01) (h3 : PField.funct3 h = 0b100) :
    ReadFrom (parcelWord h) x (decodeQ1Alu h) := by
  simp +contextual [decodeQ1Alu, Instr.availableIn, encode, cbAluWord_eq, caWord_eq, eq_three_iff, hq, h3]

theorem readFrom_decodeQ1 (hq : PField.op h = 0b01) : ReadFrom (parcelWord h) x (decodeQ1 h x) := by
  simp only [decodeQ1, BitVec.ofNat_eq_ofNat]
  repeat' (rw [readFrom_ite]; refine ⟨fun _ => ?_, fun _ => ?_⟩)
  all_goals simp [Instr.availableIn, encode, ciWord_eq, cjWord_eq, cbWord_eq, readFrom_decodeQ1Alu, eq_seven_iff, *]

theorem readFrom_decodeQ2Reg (hq : PField.op h = 0b10) (h3 : PField.funct3 h = 0b100) :
    ReadFrom (parcelWord h) x (decodeQ2Reg h) := by
  simp +contextual [decodeQ2Reg, Instr.availableIn, encode, crWord_eq (h := h), ← eq_one_iff, hq, h3]

theorem readFrom_decodeQ2 (hq : PField.op h = 0b10) : ReadFrom (parcelWord h) x (decodeQ2 h x) := by
  simp only [decodeQ2, BitVec.ofNat_eq_ofNat]
  repeat' (rw [readFrom_ite]; refine ⟨fun _ => ?_, fun _ => ?_⟩)
  all_goals simp [Instr.availableIn, encode, ciWord_eq, cssWord_eq, readFrom_decodeQ2Reg, eq_seven_iff, *]

theorem readFrom_decode16 (h : Parcel) : ReadFrom (parcelWord h) x (decode16 h x) := by
  simp +contextual [decode16, readFrom_decodeQ0, readFrom_decodeQ1, readFrom_decodeQ2]

end

/-- What the decoder reads applies under the Xlen, and encodes to the word, or to the low half of it. -/
theorem readFrom_decodeInstr (w : Word) (x : Xlen) :
    ReadFrom (if w.extractLsb' 0 2 = 0b11#2 then w else w &&& 0x0000FFFF#32) x (decodeInstr w x) := by
  unfold decodeInstr
  simp only [isLong_iff]
  split
  · exact readFrom_decode32 x w
  · rw [← parcelWord_lowParcel]; exact readFrom_decode16 x _

end Sys2Proof

open Sys2Proof

/-- Settles O3: the dispatch answers well-formed rows, and a word is built again from the fields it found. -/
theorem decodedEncodesBack : Obligations.DecodedEncodesBack := fun w x i hi =>
  ⟨wf_of_decodeInstr hi, readFrom_decodeInstr w x i hi⟩

end

section
/-! A compressed row and its expansion (30_encoding.md R108). -/

open Sys2Proof

/-- Settles O7: the parcel decodes to its row's record, and so does the encoding of the row's expansion. -/
theorem canonicalization : Obligations.Canonicalization := by
  intro w x i hs hi
  have hc : i.compressed = .yes := by rw [compressed_of_decodeInstr hi, if_neg (mt (isLong_iff w).1 hs)]
  exact ⟨compressed_expand i, i.record, decode_eq_ok_iff.2 ⟨i, hi, rfl, hc⟩,
    decode_encode_expand hc (wf_of_decodeInstr hi) x⟩

end

section
/-! What a word decodes to, by its major opcode or its quadrant (30_encoding.md R78, R106): the answer for the row that the
family's dispatch reads. -/

namespace Sys2Proof

/-- The answer for what a dispatch reads: the record and the form of a row, or the error. -/
def answer (o : Option Instr) : DecodeResult := o.elim .decodeError fun i => .ok i.record i.compressed

@[simp] theorem answer_none : answer none = .decodeError := rfl

@[simp] theorem answer_some (i : Instr) : answer (some i) = .ok i.record i.compressed := rfl

@[simp] theorem answer_ite {p : Prop} [Decidable p] (a b : Option Instr) :
    answer (if p then a else b) = if p then answer a else answer b := apply_ite ..

theorem decode_eq_answer (w : Word) (x : Xlen) : decode w x = answer (decodeInstr w x) := by
  unfold decode; split <;> simp [*]

/-- A word whose opcode ends in 11 goes to the dispatch of the 32-bit words. -/
theorem decode_of_opcode {w : Word} {o : BitVec 7} (ho : w.extractLsb' 0 7 = o) (hl : o.extractLsb' 0 2 = 0b11#2) (x : Xlen) :
    decode w x = answer (decode32 w) := by
  have h : w.extractLsb' 0 2 = 0b11#2 := by rw [← hl, ← ho, BitVec.extractLsb'_extractLsb'_of_le (by decide)]
  rw [decode_eq_answer, decodeInstr, if_pos ((isLong_iff w).2 h)]

section
variable {w : Word} (x : Xlen)

theorem decode_load (ho : w.extractLsb' 0 7 = 0b0000011#7) : decode w x = answer (decodeLoad w) := by
  simp [decode_of_opcode ho, decode32, WField.opcode, ho]

theorem decode_store (ho : w.extractLsb' 0 7 = 0b0100011#7) : decode w x = answer (decodeStore w) := by
  simp [decode_of_opcode ho, decode32, WField.opcode, ho]

theorem decode_loadFp (ho : w.extractLsb' 0 7 = 0b0000111#7) : decode w x = answer (decodeLoadFp w) := by
  simp [decode_of_opcode ho, decode32, WField.opcode, ho]

theorem decode_storeFp (ho : w.extractLsb' 0 7 = 0b0100111#7) : decode w x = answer (decodeStoreFp w) := by
  simp [decode_of_opcode ho, decode32, WField.opcode, ho]

theorem decode_branch (ho : w.extractLsb' 0 7 = 0b1100011#7) : decode w x = answer (decodeBranch w) := by
  simp [decode_of_opcode ho, decode32, WField.opcode, ho]

theorem decode_jal (ho : w.extractLsb' 0 7 = 0b1101111#7) :
    decode w x = .ok (.jal (WField.rd w) (immS (WField.immJ w))) .no := by
  simp [decode_of_opcode ho, decode32, WField.opcode, ho, Instr.record, Instr.compressed]

theorem decode_jalr (ho : w.extractLsb' 0 7 = 0b1100111#7) : decode w x =
    if WField.funct3 w = 0b000 then .ok (.jalr (WField.rd w) (WField.rs1 w) (immS (WField.immI w))) .no else .decodeError := by
  simp [decode_of_opcode ho, decode32, WField.opcode, ho, Instr.record, Instr.compressed]

theorem decode_lui (ho : w.extractLsb' 0 7 = 0b0110111#7) :
    decode w x = .ok (.lui (WField.rd w) (immU (WField.immU w))) .no := by
  simp [decode_of_opcode ho, decode32, WField.opcode, ho, Instr.record, Instr.compressed]

theorem decode_auipc (ho : w.extractLsb' 0 7 = 0b0010111#7) :
    decode w x = .ok (.auipc (WField.rd w) (immU (WField.immU w))) .no := by
  simp [decode_of_opcode ho, decode32, WField.opcode, ho, Instr.record, Instr.compressed]

end

/-! ### The parcels -/

/-- A field of the low half is that field of the word. -/
theorem extractLsb'_lowParcel (w : Word) {a n : Nat} (h : a + n ≤ 16) :
    (lowParcel w).extractLsb' a n = w.extractLsb' a n := by
  rw [lowParcel, BitVec.extractLsb'_extractLsb'_of_le h]

theorem op_lowParcel (w : Word) : PField.op (lowParcel w) = w.extractLsb' 0 2 := extractLsb'_lowParcel w (by decide)

theorem funct3_lowParcel (w : Word) : PField.funct3 (lowParcel w) = w.extractLsb' 13 3 := extractLsb'_lowParcel w (by decide)

theorem bit12_lowParcel (w : Word) : PField.bit12 (lowParcel w) = w.extractLsb' 12 1 := extractLsb'_lowParcel w (by decide)

theorem rd_lowParcel (w : Word) : PField.rd (lowParcel w) = w.extractLsb' 7 5 := extractLsb'_lowParcel w (by decide)

theorem rs2_lowParcel (w : Word) : PField.rs2 (lowParcel w) = w.extractLsb' 2 5 := extractLsb'_lowParcel w (by decide)

theorem rs1c_lowParcel (w : Word) : PField.rs1' (lowParcel w) = w.extractLsb' 7 3 := extractLsb'_lowParcel w (by decide)

theorem rs2c_lowParcel (w : Word) : PField.rs2' (lowParcel w) = w.extractLsb' 2 3 := extractLsb'_lowParcel w (by decide)

theorem funct2_lowParcel (w : Word) : PField.funct2 (lowParcel w) = w.extractLsb' 10 2 := extractLsb'_lowParcel w (by decide)

theorem sub2_lowParcel (w : Word) : PField.sub2 (lowParcel w) = w.extractLsb' 5 2 := extractLsb'_lowParcel w (by decide)

theorem decode_of_not_long {w : Word} (h : w.extractLsb' 0 2 ≠ 0b11#2) (x : Xlen) :
    decode w x = answer (decode16 (lowParcel w) x) := by
  rw [decode_eq_answer, decodeInstr, if_neg (mt (isLong_iff w).1 h)]

section
variable {w : Word} (x : Xlen)

theorem decode_q0 (hq : w.extractLsb' 0 2 = 0b00#2) : decode w x = answer (decodeQ0 (lowParcel w) x) := by
  simp [decode_of_not_long, decode16, op_lowParcel, hq]

theorem decode_q1 (hq : w.extractLsb' 0 2 = 0b01#2) : decode w x = answer (decodeQ1 (lowParcel w) x) := by
  simp [decode_of_not_long, decode16, op_lowParcel, hq]

theorem decode_q2 (hq : w.extractLsb' 0 2 = 0b10#2) : decode w x = answer (decodeQ2 (lowParcel w) x) := by
  simp [decode_of_not_long, decode16, op_lowParcel, hq]

end

/-! ### The immediates that a dispatch compares with 0 -/

/-- A C.ADDI4SPN immediate is 0 where its bits are. -/
theorem immSpn_eq_zero {h : Parcel} (hi : h.extractLsb' 5 8 = 0#8) : PField.immSpn h = 0 := by
  have hz := immSpn_ciwWord (PField.funct3 h) 0 (PField.rs2' h) (PField.op h) rfl
  rwa [show spnHigh 0 = h.extractLsb' 5 8 from hi.symm, ciwWord_fields, lowParcel_parcelWord] at hz

/-- A C.ADDI16SP immediate is 0 where its bits are. -/
theorem immSp16_eq_zero {h : Parcel} (h12 : PField.bit12 h = 0#1) (h2 : PField.rs2 h = 0#5) : PField.immSp16 h = 0 := by
  have hz := immSp16_ciWord (PField.funct3 h) 0 (PField.rd h) (PField.op h) rfl
  rwa [show BitVec.extractLsb' 9 1 (0 : BitVec 10) = PField.bit12 h from h12.symm,
    show sp16Low 0 = PField.rs2 h from h2.symm, ciWord_fields, lowParcel_parcelWord] at hz

/-- A CI immediate is 0 where its bits are. -/
theorem immCI_eq_zero {h : Parcel} (h12 : PField.bit12 h = 0#1) (h2 : PField.rs2 h = 0#5) : PField.immCI h = 0 :=
  congrArg₂ (· ++ ·) h12 h2

end Sys2Proof

open Sys2Proof

/-- Settles O13: the dispatch of each opcode, whose fields are the bits of the word. -/
theorem loadStoreDispatch : Obligations.LoadStoreDispatch := by
  intro w x
  refine ⟨fun ho => ?_, fun ho => ?_, fun ho => ?_, fun ho => ?_⟩
  · simp +contextual [decode_load x ho, decodeLoad, Instr.record, Instr.compressed, immS, WField.funct3, WField.rd, WField.rs1,
      WField.immI]
  · simp +contextual [decode_store x ho, decodeStore, Instr.record, Instr.compressed, immS, WField.funct3, WField.rs1,
      WField.rs2, WField.immS]
  · simp +contextual [decode_loadFp x ho, decodeLoadFp, Instr.record, Instr.compressed, immS, WField.funct3, WField.rd,
      WField.rs1, WField.immI]
  · simp +contextual [decode_storeFp x ho, decodeStoreFp, Instr.record, Instr.compressed, immS, WField.funct3, WField.rs1,
      WField.rs2, WField.immS]

/-- Settles O14: BRANCH by its dispatch; the other opcodes have one row each. -/
theorem controlDispatch : Obligations.ControlDispatch := by
  intro w x
  refine ⟨fun ho => ?_, fun ho => decode_jal x ho, fun ho => decode_jalr x ho, fun ho => decode_lui x ho,
    fun ho => decode_auipc x ho⟩
  simp +contextual [decode_branch x ho, decodeBranch, Instr.record, Instr.compressed, immS, WField.funct3, WField.rs1,
    WField.rs2, WField.immB]

/-- Settles O16: each class is a slot that its quadrant's dispatch rejects. -/
theorem reservedParcels : Obligations.ReservedParcels := by
  rintro w x (⟨hq, h3, hi⟩ | ⟨hq, h3⟩ | ⟨hq, h3, hd, h12, h2⟩ | ⟨hq, h3, hd, h12, h2⟩ | ⟨hq, h3, hf, h12⟩ |
    ⟨hq, h3, hf, h12⟩ | ⟨hq, h3, h12⟩ | ⟨hq, h3, hd⟩ | ⟨hq, h3, h12, hd, h2⟩ | ⟨rfl, ⟨hq, h3⟩ | ⟨hq, h3⟩ | ⟨hq, h3⟩⟩)
  · have hz := immSpn_eq_zero ((extractLsb'_lowParcel w (by decide)).trans hi)
    simp [decode_q0 x hq, decodeQ0, funct3_lowParcel, h3, hz]
  · simp [decode_q0 x hq, decodeQ0, funct3_lowParcel, h3]
  · have hz := immSp16_eq_zero ((bit12_lowParcel w).trans h12) ((rs2_lowParcel w).trans h2)
    simp [decode_q1 x hq, decodeQ1, funct3_lowParcel, rd_lowParcel, h3, hd, hz]
  · have hz := immCI_eq_zero ((bit12_lowParcel w).trans h12) ((rs2_lowParcel w).trans h2)
    simp [decode_q1 x hq, decodeQ1, funct3_lowParcel, rd_lowParcel, h3, hd, hz]
  · rcases hf with hf | hf <;>
      simp [decode_q1 x hq, decodeQ1, decodeQ1Alu, funct3_lowParcel, bit12_lowParcel, funct2_lowParcel, h3, hf, h12]
  · simp [decode_q1 x hq, decodeQ1, decodeQ1Alu, funct3_lowParcel, bit12_lowParcel, funct2_lowParcel, h3, hf, h12]
  · simp [decode_q2 x hq, decodeQ2, funct3_lowParcel, bit12_lowParcel, h3, h12]
  · simp [decode_q2 x hq, decodeQ2, funct3_lowParcel, rd_lowParcel, h3, hd]
  · simp [decode_q2 x hq, decodeQ2, decodeQ2Reg, funct3_lowParcel, bit12_lowParcel, rd_lowParcel, rs2_lowParcel, h3, h12, hd,
      h2]
  · rcases h3 with h3 | h3 <;> simp [decode_q0 _ hq, decodeQ0, funct3_lowParcel, h3]
  · simp [decode_q1 _ hq, decodeQ1, funct3_lowParcel, h3]
  · rcases h3 with h3 | h3 <;> simp [decode_q2 _ hq, decodeQ2, funct3_lowParcel, h3]

/-- Settles O17: the dispatch of each quadrant, whose fields and immediates are gathered from the bits of the word. -/
theorem compressedDispatch : Obligations.CompressedDispatch := by
  intro w x
  refine ⟨fun hq => ?_, fun hq => ?_, fun hq => ?_⟩
  · simp +contextual [decode_q0 _ hq, decodeQ0, Instr.record, Instr.compressed, immZ, CReg.toReg, funct3_lowParcel,
      rs1c_lowParcel, rs2c_lowParcel, PField.immSpn, PField.offsetD, PField.offsetW, extractLsb'_lowParcel]
  · simp +contextual [decode_q1 _ hq, decodeQ1, decodeQ1Alu, Instr.record, Instr.compressed, immS, immHi, CReg.toReg,
      funct3_lowParcel, bit12_lowParcel, rd_lowParcel, rs2_lowParcel, rs1c_lowParcel, rs2c_lowParcel, funct2_lowParcel,
      sub2_lowParcel, PField.immCI, PField.immSp16, PField.offsetJ, PField.offsetB, extractLsb'_lowParcel]
  · simp +contextual [decode_q2 _ hq, decodeQ2, decodeQ2Reg, Instr.record, Instr.compressed, immS, immZ, funct3_lowParcel,
      bit12_lowParcel, rd_lowParcel, rs2_lowParcel, PField.offsetLwsp, PField.offsetFldsp, PField.offsetSwsp,
      PField.offsetFsdsp, extractLsb'_lowParcel]

end

section
/-! What a word of OP-IMM, OP, MISC-MEM or SYSTEM decodes to (40_base_integer.md R116 to R119): the answer for the row that its
dispatch reads. -/

namespace Sys2Proof

section
variable {w : Word} (x : Xlen)

theorem decode_opImm (ho : w.extractLsb' 0 7 = 0b0010011#7) : decode w x = answer (decodeOpImm w) := by
  simp [decode_of_opcode ho, decode32, WField.opcode, ho]

theorem decode_op (ho : w.extractLsb' 0 7 = 0b0110011#7) : decode w x = answer (decodeOp w) := by
  simp [decode_of_opcode ho, decode32, WField.opcode, ho]

theorem decode_miscMem (ho : w.extractLsb' 0 7 = 0b0001111#7) : decode w x = answer (decodeMiscMem w) := by
  simp [decode_of_opcode ho, decode32, WField.opcode, ho]

theorem decode_system (ho : w.extractLsb' 0 7 = 0b1110011#7) : decode w x = answer (decodeSystem w) := by
  simp [decode_of_opcode ho, decode32, WField.opcode, ho]

end

/-! ### The dispatch where funct3, or funct7, leaves a choice -/

section
open WField
variable {w : Word}

theorem decodeOpImm_leftShift (h3 : funct3 w = 0b001) :
    decodeOpImm w = if funct7 w = 0b0000000 then some (.slli (rd w) (rs1 w) (rs2 w)) else none := by
  simp [decodeOpImm, h3]

theorem decodeOpImm_rightShift (h3 : funct3 w = 0b101) :
    decodeOpImm w = if funct7 w = 0b0000000 then some (.srli (rd w) (rs1 w) (rs2 w))
      else if funct7 w = 0b0100000 then some (.srai (rd w) (rs1 w) (rs2 w)) else none := by
  simp [decodeOpImm, h3]

theorem decodeOp_subOrSra (h7 : funct7 w = 0b0100000) :
    decodeOp w = if funct3 w = 0b000 then some (.sub (rd w) (rs1 w) (rs2 w))
      else if funct3 w = 0b101 then some (.sra (rd w) (rs1 w) (rs2 w)) else none := by
  simp [decodeOp, h7]

end

end Sys2Proof

open Sys2Proof

/-- Settles O8: the dispatch compares funct3, and for the three shifts w[31:25]. -/
theorem opImmDispatch : Obligations.OpImmDispatch := by
  intro w x ho
  rw [decode_opImm x ho]
  refine ⟨fun h3 => ?addi, fun h3 => ?slti, fun h3 => ?sltiu, fun h3 => ?xori, fun h3 => ?ori, fun h3 => ?andi,
    fun h3 => ?slli, fun h3 => ?rightShifts⟩
  case addi | slti | sltiu | xori | ori | andi =>
    simp [decodeOpImm, Instr.record, Instr.compressed, immS, WField.funct3, WField.rd, WField.rs1, WField.immI, h3]
  case slli => rw [decodeOpImm_leftShift h3, answer_ite]; rfl
  case rightShifts => rw [decodeOpImm_rightShift h3, answer_ite, answer_ite]; rfl

/-- Settles O9: the dispatch compares funct7, then funct3; with the funct7 of SUB and SRA, six values of funct3 are rejected. -/
theorem opDispatch : Obligations.OpDispatch := by
  intro w x ho
  rw [decode_op x ho]
  refine ⟨?_, ?_, ?_, ?_, ?_, ?_, ?_, ?_, fun h7 => ?subOrSra, ?_, ?_, ?_, ?_, ?_, ?_, ?_, ?_, ?_⟩
  case subOrSra => rw [decodeOp_subOrSra h7, answer_ite, answer_ite]; rfl
  all_goals
    simp +contextual [decodeOp, Instr.record, Instr.compressed, WField.funct3, WField.funct7, WField.rd, WField.rs1, WField.rs2]

/-- Settles O10: the dispatch follows the rule's order. -/
theorem miscMemDispatch : Obligations.MiscMemDispatch := by
  intro w x ho
  rw [decode_miscMem x ho, decodeMiscMem]
  simp only [answer_ite, answer_some, answer_none]
  rfl

/-- Settles O11: the dispatch compares funct3, and for 000 the whole word. -/
theorem systemDispatch : Obligations.SystemDispatch := by
  intro w x ho
  rw [decode_system x ho]
  refine ⟨fun h3 => ?calls, fun h3 => ?reserved, fun h3 => ?csrrw, fun h3 => ?csrrs, fun h3 => ?csrrc, fun h3 => ?csrrwi,
    fun h3 => ?csrrsi, fun h3 => ?csrrci⟩
  case calls => simp [decodeSystem, Instr.record, Instr.compressed, WField.funct3, h3]
  case reserved => simp [decodeSystem, WField.funct3, h3]
  case csrrw | csrrs | csrrc | csrrwi | csrrsi | csrrci =>
    simp [decodeSystem, Instr.record, Instr.compressed, WField.funct3, WField.rd, WField.rs1, WField.csr, h3]

end

section
/-! The integer instructions as numbers (40_base_integer.md R120 to R138, R155, R156): the XLEN-bit pattern that each function of
OP and OP-IMM gives. -/

namespace Sys2Proof.Machine

theorem narrow_toNat_eq_modX (x : Xlen) (w : XWord) : (narrow x w).toNat = modX x w.toNat :=
  narrow_eq_modX x w _ (ofInt_toNat w).symm

theorem aluAdd_modX (x : Xlen) {a b : XWord} {u v : Int} (ha : a = BitVec.ofInt 64 u) (hb : b = BitVec.ofInt 64 v) :
    (narrow x (aluAdd x a b)).toNat = modX x (u + v) := narrow_eq_modX x _ _ (by rw [aluAdd, BitVec.ofInt_add, ha, hb])

theorem aluSub_modX (x : Xlen) {a b : XWord} {u v : Int} (ha : a = BitVec.ofInt 64 u) (hb : b = BitVec.ofInt 64 v) :
    (narrow x (aluSub x a b)).toNat = modX x (u - v) := narrow_eq_modX x _ _ <| by
    rw [aluSub, ha, hb, BitVec.sub_eq_add_neg, ← BitVec.ofInt_neg, ← BitVec.ofInt_add, Int.sub_eq_add_neg]

theorem aluSlt_modX (x : Xlen) (a b : XWord) :
    (narrow x (aluSlt x a b)).toNat = modX x (if signedVal x a < signedVal x b then 1 else 0) := by
  simp [aluSlt, boolWord_toNat]

theorem aluSltu_modX (x : Xlen) (a b : XWord) :
    (narrow x (aluSltu x a b)).toNat = modX x (if unsignedVal x a < unsignedVal x b then 1 else 0) := by
  simp [aluSltu, boolWord_toNat]

theorem aluSll_modX (x : Xlen) (a b : XWord) :
    (narrow x (aluSll x a b)).toNat = modX x (a.toNat * 2 ^ shiftAmount b) := narrow_eq_modX x _ _ (shiftLeft_eq_ofInt _ _)

theorem aluSrl_modX (x : Xlen) (a b : XWord) :
    (narrow x (aluSrl x a b)).toNat = modX x (unsignedVal x a / 2 ^ shiftAmount b : Nat) :=
  narrow_eq_modX x _ _ (ushiftRight_eq_ofInt _ _)

theorem aluSra_modX (x : Xlen) (a b : XWord) :
    (narrow x (aluSra x a b)).toNat = modX x (signedVal x a / 2 ^ shiftAmount b) :=
  narrow_eq_modX x _ _ (sshiftRight_eq_ofInt _ _)

theorem pc_add_upperImm (s : State) (v : BitVec 20) :
    (narrow s.xlen (s.pc + upperImm v)).toNat = modX s.xlen (s.pc.toNat + v.toInt * 4096) :=
  aluAdd_modX s.xlen (ofInt_toNat s.pc).symm (upperImm_eq_ofInt v)

theorem shiftAmount_readX (s : State) (r : Reg) : shiftAmount (readX s r) = regU s r % 32 := rfl

end Sys2Proof.Machine

open Sys2Proof.Machine

/-- Settles O33: each instruction writes rd alone, with the number its function gives for the register and the immediate. -/
theorem immediateResults : Obligations.ImmediateResults := by
  intro s rd rs1 imm shamt upper
  refine ⟨retireX_effect _ _ _ _ s ?addi, retireX_effect _ _ _ _ s ?slti, retireX_effect _ _ _ _ s ?sltiu,
    retireX_effect _ _ _ _ s ?xori, retireX_effect _ _ _ _ s ?ori, retireX_effect _ _ _ _ s ?andi,
    retireX_effect _ _ _ _ s ?slli, retireX_effect _ _ _ _ s ?srli, retireX_effect _ _ _ _ s ?srai,
    retireX_effect _ _ _ _ s ?lui, retireX_effect _ _ _ _ s ?auipc⟩
  case addi => exact aluAdd_modX _ (ofInt_regU s rs1).symm (sextImm_eq_ofInt imm)
  case slti => rw [aluSlt_modX, signedVal_readX, signedVal_sextImm _ _ (by decide)]
  case sltiu => rw [aluSltu_modX, unsignedVal_readX, unsignedVal_sextImm]
  case xori | ori | andi => exact narrow_toNat_eq_modX _ _
  case slli => rw [aluSll_modX, shiftAmount_zextImm]; rfl
  case srli => rw [aluSrl_modX, unsignedVal_readX, shiftAmount_zextImm]
  case srai => rw [aluSra_modX, signedVal_readX, shiftAmount_zextImm]
  case lui => exact narrow_eq_modX _ _ _ (upperImm_eq_ofInt upper)
  case auipc => exact pc_add_upperImm s upper

/-- Settles O34: each instruction writes rd alone, with the number its function gives for the two registers. -/
theorem opResults : Obligations.OpResults := by
  intro s rd rs1 rs2
  refine ⟨retireX_effect _ _ _ _ s ?add, retireX_effect _ _ _ _ s ?sub, retireX_effect _ _ _ _ s ?sll,
    retireX_effect _ _ _ _ s ?slt, retireX_effect _ _ _ _ s ?sltu, retireX_effect _ _ _ _ s ?xor,
    retireX_effect _ _ _ _ s ?srl, retireX_effect _ _ _ _ s ?sra, retireX_effect _ _ _ _ s ?or,
    retireX_effect _ _ _ _ s ?and⟩
  case add => exact aluAdd_modX _ (ofInt_regU s rs1).symm (ofInt_regU s rs2).symm
  case sub => exact aluSub_modX _ (ofInt_regU s rs1).symm (ofInt_regU s rs2).symm
  case sll => exact aluSll_modX _ _ _
  case slt => rw [aluSlt_modX, signedVal_readX, signedVal_readX]
  case sltu => rw [aluSltu_modX, unsignedVal_readX, unsignedVal_readX]
  case srl => rw [aluSrl_modX, unsignedVal_readX, shiftAmount_readX]
  case sra => rw [aluSra_modX, signedVal_readX, shiftAmount_readX]
  case xor | or | and => exact narrow_toNat_eq_modX _ _

end

section
/-! Integer loads and stores (40_base_integer.md R139 to R146): the XLEN-bit pattern that a load gives. -/

namespace Sys2Proof.Machine

section
variable (x : Xlen) (m : List Host.Cell) {n : Nat} (a : XWord)

/-- The bytes loaded, sign-extended. -/
theorem sextLoad_modX (h : 0 < n) :
    (narrow x (sextLoad n (loadNat x m n a))).toNat = modX x (twos (8 * n) (loadNat x m n a)) :=
  narrow_eq_modX x _ _ (by rw [sextLoad_eq_ofInt h, loadNat_mod])

/-- The bytes loaded, zero-extended. -/
theorem zextLoad_modX (h : n ≤ 8) : (narrow x (zextLoad n (loadNat x m n a))).toNat = modX x (loadNat x m n a) :=
  narrow_eq_modX x _ _ (by rw [zextLoad_eq_ofInt h, loadNat_mod])

end

end Sys2Proof.Machine

open Sys2Proof.Machine

/-- Settles O36: where the access raises no exception, a load writes rd alone, and a store its bytes alone. -/
theorem loadsAndStoresComplete : Obligations.LoadsAndStoresComplete := by
  refine ⟨fun s rd base offset => ⟨fun h => ⟨?lb, ?lbu⟩, fun h => ⟨?lh, ?lhu⟩, fun h => ?lw⟩,
    fun s src base offset hm => ⟨fun h => ?sb, fun h => ?sh, fun h => ?sw⟩⟩
  case lb | lh | lw => exact loadX_effect _ _ _ _ _ _ _ s h (sextLoad_modX _ _ _ (by decide))
  case lbu | lhu => exact loadX_effect _ _ _ _ _ _ _ s h (zextLoad_modX _ _ _ (by decide))
  case sb | sh | sw => exact storeValue_effect _ _ _ _ _ s hm (by decide) h

end

section
/-! Branches and jumps (40_base_integer.md R147 to R154): the conditions as comparisons of numbers, and where a transfer goes. -/

namespace Sys2Proof.Machine

section
variable (s : State) (r q : Reg)

theorem condEq_readX : condEq s.xlen (readX s r) (readX s q) = true ↔ regU s r = regU s q := by
  simp [condEq, regU, BitVec.toNat_inj]

theorem condNe_readX : condNe s.xlen (readX s r) (readX s q) = true ↔ regU s r ≠ regU s q := by
  simp [condNe, regU, BitVec.toNat_inj]

theorem condLt_readX : condLt s.xlen (readX s r) (readX s q) = true ↔ regS s r < regS s q := by
  simp [condLt, signedVal_readX]

theorem condGe_readX : condGe s.xlen (readX s r) (readX s q) = true ↔ regS s r ≥ regS s q := by
  simp [condGe, signedVal_readX]

theorem condLtu_readX : condLtu s.xlen (readX s r) (readX s q) = true ↔ regU s r < regU s q := by
  simp [condLtu, unsignedVal_readX]

theorem condGeu_readX : condGeu s.xlen (readX s r) (readX s q) = true ↔ regU s r ≥ regU s q := by
  simp [condGeu, unsignedVal_readX]

end

/-- An instruction that branches on a condition goes to its target or to the next instruction. -/
theorem completesBranch_of_branchOn {i : Instr} {s : State} {taken : Bool} {p : Prop} {n : Nat} {offset : BitVec n}
    (h : exec i s = branchOn i taken (sextImm offset) s) (hp : taken = true ↔ p) :
    CompletesBranch i p (s.pc.toNat + offset.toInt) s := by
  refine ⟨fun ht => ?_, fun hn => ?_⟩
  · rw [CompletesJump, h, hp.2 ht]
    exact branchOn_taken i _ _ s (pc_add_sextImm s offset)
  · rw [CompletesJump, h, Bool.eq_false_iff.2 (mt hp.1 hn)]
    exact branchOn_not_taken i _ s

/-- The target of JALR: the sum modulo 2^XLEN, with bit 0 cleared (40_base_integer.md R154). -/
theorem jalr_target (s : State) (base : Reg) (imm : BitVec 12) :
    (narrow s.xlen ((readX s base + sextImm imm) &&& ~~~1#64)).toNat =
      modX s.xlen (modX s.xlen (regU s base + imm.toInt) / 2 * 2 : Nat) := by
  have sum : (narrow s.xlen (readX s base + sextImm imm)).toNat = modX s.xlen (regU s base + imm.toInt) :=
    aluAdd_modX _ (ofInt_regU s base).symm (sextImm_eq_ofInt imm)
  rw [narrow_clear_bit0, sum, modX_natCast, Nat.mod_eq_of_lt]
  exact (Nat.div_mul_le_self _ 2).trans_lt (modX_lt _ _)

end Sys2Proof.Machine

open Sys2Proof.Machine

/-- Settles O38: a branch by its condition, a jump by its target. -/
theorem transfersComplete : Obligations.TransfersComplete := by
  refine ⟨fun s rs1 rs2 offset => ⟨?beq, ?bne, ?blt, ?bge, ?bltu, ?bgeu⟩, fun s rd base offset imm => ⟨?jal, ?jalr⟩⟩
  case beq => exact completesBranch_of_branchOn rfl (condEq_readX s rs1 rs2)
  case bne => exact completesBranch_of_branchOn rfl (condNe_readX s rs1 rs2)
  case blt => exact completesBranch_of_branchOn rfl (condLt_readX s rs1 rs2)
  case bge => exact completesBranch_of_branchOn rfl (condGe_readX s rs1 rs2)
  case bltu => exact completesBranch_of_branchOn rfl (condLtu_readX s rs1 rs2)
  case bgeu => exact completesBranch_of_branchOn rfl (condGeu_readX s rs1 rs2)
  case jal => exact jumpTo_effect _ _ _ _ s (pc_add_sextImm s offset)
  case jalr => exact jumpTo_effect _ _ _ _ s (jalr_target s base imm)

end

section
/-! Fences, PAUSE and the instructions that take an exception (40_base_integer.md R157 to R161, 43_zicsr_zihintpause.md R201). -/

open Sys2Proof Sys2Proof.Machine

/-- Settles O39: three instructions advance the pc alone, and FENCE.I also takes memory as what fetches see. -/
theorem fencesComplete : Obligations.FencesComplete := by
  intro s pred succ
  refine ⟨retire_effect _ s, retire_effect _ s, retire_effect _ s, _, rfl, ?_, ?_, ?_⟩
  · simp [Answers]
  · exact nextPc_toNat .fenceI s
  · simp [KeepsMem, KeepsX, KeepsInputs, KeepsF, KeepsFcsr, KeepsSystem, KeepsReservations, readX, readF, csrFileGet]

/-- Settles O40: each takes its exception, ECALL's code being that of the mode. -/
theorem callsAndBreakpointsTrap : Obligations.CallsAndBreakpointsTrap := by
  intro s hw
  have ecall : Traps .ecall (ecallCode s.mode) 0 s :=
    raise_effect .ecall _ 0 s hw (by cases s.mode <;> decide)
  refine ⟨fun hu => ?_, fun hs => ?_, fun hm => ?_, raise_effect .ebreak 3 s.pc s hw (by decide),
    raise_effect .cEbreak 3 s.pc s hw (by decide)⟩
  · rwa [hu] at ecall
  · rwa [hs] at ecall
  · rwa [hm] at ecall

end

section
/-! The M extension as numbers (41_m_extension.md R169): the XLEN-bit pattern that each of its functions gives. A quotient and a
remainder have one equation where the divisor is not 0 and one where it is; the signed overflow is a case of the first. -/

namespace Sys2Proof.Machine

section
variable (x : Xlen) {a b : XWord}

theorem aluMul_modX {u v : Int} (ha : a = BitVec.ofInt 64 u) (hb : b = BitVec.ofInt 64 v) :
    (narrow x (aluMul x a b)).toNat = modX x (u * v) := narrow_eq_modX x _ _ (by rw [aluMul, BitVec.ofInt_mul, ha, hb])

theorem aluMulh_modX : (narrow x (aluMulh x a b)).toNat = modX x (signedVal x a * signedVal x b / 2 ^ x.bits) :=
  narrow_ofInt x _

theorem aluMulhsu_modX : (narrow x (aluMulhsu x a b)).toNat = modX x (signedVal x a * unsignedVal x b / 2 ^ x.bits) :=
  narrow_ofInt x _

theorem aluMulhu_modX :
    (narrow x (aluMulhu x a b)).toNat = modX x (unsignedVal x a * unsignedVal x b / 2 ^ x.bits : Nat) :=
  narrow_eq_modX x _ _ (BitVec.ofInt_natCast ..).symm

theorem narrow_allOnes_modX : (narrow x (BitVec.allOnes 64)).toNat = modX x (-1) := narrow_eq_modX x _ _ rfl

/-- A word is also the pattern of its signed value. -/
theorem narrow_toNat_eq_modX_signedVal (a : XWord) : (narrow x a).toNat = modX x (signedVal x a) := by
  rw [← narrow_ofInt_signedVal, narrow_ofInt]

theorem aluDiv_modX (hb : signedVal x b ≠ 0) :
    (narrow x (aluDiv x a b)).toNat = modX x ((signedVal x a).tdiv (signedVal x b)) := by
  rw [aluDiv, if_neg hb, narrow_ofInt]

theorem aluDiv_of_zero (hb : signedVal x b = 0) : (narrow x (aluDiv x a b)).toNat = modX x (-1) := by
  rw [aluDiv, if_pos hb, narrow_allOnes_modX]

theorem aluDivu_modX (hb : unsignedVal x b ≠ 0) :
    (narrow x (aluDivu x a b)).toNat = modX x (unsignedVal x a / unsignedVal x b : Nat) := by
  rw [aluDivu, if_neg hb, ← BitVec.ofInt_natCast, narrow_ofInt]

theorem aluDivu_of_zero (hb : unsignedVal x b = 0) : (narrow x (aluDivu x a b)).toNat = modX x (2 ^ x.bits - 1) := by
  rw [aluDivu, if_pos hb, narrow_allOnes_modX, modX_congr x (Int.sub_emod_left _ 1)]

theorem aluRem_modX (hb : signedVal x b ≠ 0) : (narrow x (aluRem x a b)).toNat =
    modX x (signedVal x a - (signedVal x a).tdiv (signedVal x b) * signedVal x b) := by
  rw [aluRem, if_neg hb, narrow_ofInt, Int.tmod_def, mul_comm]

theorem aluRem_of_zero (hb : signedVal x b = 0) : (narrow x (aluRem x a b)).toNat = modX x (signedVal x a) := by
  rw [aluRem, if_pos hb, narrow_toNat_eq_modX_signedVal]

theorem aluRemu_modX (hb : unsignedVal x b ≠ 0) : (narrow x (aluRemu x a b)).toNat =
    modX x (unsignedVal x a - (unsignedVal x a / unsignedVal x b : Nat) * unsignedVal x b) := by
  rw [aluRemu, if_neg hb, ← BitVec.ofInt_natCast, narrow_ofInt, Int.natCast_emod, Int.emod_def, Int.natCast_ediv, mul_comm]

theorem aluRemu_of_zero (hb : unsignedVal x b = 0) : (narrow x (aluRemu x a b)).toNat = modX x (unsignedVal x a) := by
  rw [aluRemu, if_pos hb, modX_natCast, unsignedVal_eq, Nat.mod_mod, narrow_toNat]

/-- The quotient of the signed overflow does not fit in XLEN bits as a signed number: its pattern is that of the dividend. -/
theorem modX_two_pow_pred : modX x (2 ^ (x.bits - 1)) = modX x (-2 ^ (x.bits - 1)) := by cases x <;> decide

end

/-- The low XLEN bits of a product do not depend on how its factors are read. -/
theorem modX_regU_mul_regU (s : State) (r q : Reg) : modX s.xlen (regU s r * regU s q) = modX s.xlen (regS s r * regS s q) :=
  modX_congr _ <| by rw [Int.mul_emod, ← regS_emod, ← regS_emod, ← Int.mul_emod]

/-- The remainder of a division toward zero has the sign of the dividend. -/
theorem pos_sub_tdiv_mul_iff {a b : Int} (h : a - a.tdiv b * b ≠ 0) : 0 < a - a.tdiv b * b ↔ 0 < a := by
  rw [mul_comm, ← Int.tmod_def] at h ⊢
  rcases le_or_gt a 0 with ha | ha
  · have : 0 ≤ -a.tmod b := Int.neg_tmod a b ▸ Int.tmod_nonneg b (neg_nonneg.2 ha)
    omega
  · have : 0 ≤ a.tmod b := Int.tmod_nonneg b ha.le
    omega

end Sys2Proof.Machine

open Sys2Proof.Machine

/-- Settles O35: each instruction writes rd alone, with the number its function gives; the signed overflow is division by -1, whose
quotient, minus the dividend, has the pattern of the dividend. -/
theorem mulDivResults : Obligations.MulDivResults := by
  intro s rd rs1 rs2
  refine ⟨retireX_effect _ _ _ _ s ?mul, retireX_effect _ _ _ _ s ?mulSigned, retireX_effect _ _ _ _ s ?mulh,
    retireX_effect _ _ _ _ s ?mulhsu, retireX_effect _ _ _ _ s ?mulhu, fun hb => ?nonzero, fun hb => ?zero,
    fun ha hb => ?overflow, pos_sub_tdiv_mul_iff⟩
  case mul => exact aluMul_modX _ (ofInt_regU s rs1).symm (ofInt_regU s rs2).symm
  case mulSigned =>
    rw [← modX_regU_mul_regU]
    exact aluMul_modX _ (ofInt_regU s rs1).symm (ofInt_regU s rs2).symm
  case mulh => rw [aluMulh_modX, signedVal_readX, signedVal_readX]
  case mulhsu => rw [aluMulhsu_modX, signedVal_readX, unsignedVal_readX]
  case mulhu => rw [aluMulhu_modX, unsignedVal_readX, unsignedVal_readX]
  case nonzero =>
    have hu : unsignedVal s.xlen (readX s rs2) ≠ 0 := by rwa [unsignedVal_readX]
    have hs : signedVal s.xlen (readX s rs2) ≠ 0 := by rwa [signedVal_readX, Ne, regS_eq_zero_iff]
    refine ⟨retireX_effect _ _ _ _ s ?div, retireX_effect _ _ _ _ s ?divu, retireX_effect _ _ _ _ s ?rem,
      retireX_effect _ _ _ _ s ?remu⟩
    case div => rw [aluDiv_modX _ hs, signedVal_readX, signedVal_readX]
    case divu => rw [aluDivu_modX _ hu, unsignedVal_readX, unsignedVal_readX]
    case rem => rw [aluRem_modX _ hs, signedVal_readX, signedVal_readX]
    case remu => rw [aluRemu_modX _ hu, unsignedVal_readX, unsignedVal_readX]
  case zero =>
    have hu : unsignedVal s.xlen (readX s rs2) = 0 := by rwa [unsignedVal_readX]
    have hs : signedVal s.xlen (readX s rs2) = 0 := by rwa [signedVal_readX, regS_eq_zero_iff]
    refine ⟨retireX_effect _ _ _ _ s (aluDiv_of_zero _ hs), retireX_effect _ _ _ _ s (aluDivu_of_zero _ hu),
      retireX_effect _ _ _ _ s ?rem, retireX_effect _ _ _ _ s ?remu⟩
    case rem => rw [aluRem_of_zero _ hs, signedVal_readX]
    case remu => rw [aluRemu_of_zero _ hu, unsignedVal_readX]
  case overflow =>
    have hs : signedVal s.xlen (readX s rs2) ≠ 0 := by rw [signedVal_readX, hb]; decide
    have quotient : (regS s rs1).tdiv (regS s rs2) = 2 ^ (s.xlen.bits - 1) := by
      rw [ha, hb, Int.tdiv_neg, Int.tdiv_one, neg_neg]
    refine ⟨retireX_effect _ _ _ _ s ?div, retireX_effect _ _ _ _ s ?rem⟩
    case div => rw [aluDiv_modX _ hs, signedVal_readX, signedVal_readX, quotient, modX_two_pow_pred]
    case rem => rw [aluRem_modX _ hs, signedVal_readX, signedVal_readX, quotient, ha, hb, mul_neg_one, sub_self]

end

section
/-! What a word of AMO decodes to (42_a_extension.md R178 to R180). -/

namespace Sys2Proof

section
variable {w : Word}

theorem decode_amo (x : Xlen) (ho : w.extractLsb' 0 7 = 0b0101111#7) : decode w x = answer (decodeAmo w) := by
  simp [decode_of_opcode ho, decode32, WField.opcode, ho]

theorem decodeAmo_of_funct3_ne (h3 : WField.funct3 w ≠ 0b010) : decodeAmo w = none := if_neg h3

theorem decodeAmo_lrW (h3 : WField.funct3 w = 0b010) (h5 : WField.rs3 w = 0b00010) :
    decodeAmo w = if WField.rs2 w = 0 then some (.lrW (WField.aq w) (WField.rl w) (WField.rd w) (WField.rs1 w)) else none := by
  simp [decodeAmo, h3, h5]

end

end Sys2Proof

open Sys2Proof

/-- Settles O12: the dispatch compares funct3, then funct5, and for LR.W also rs2. -/
theorem amoDispatch : Obligations.AmoDispatch := by
  intro w x ho
  rw [decode_amo x ho]
  refine ⟨fun h3 => ?otherFunct3, fun h3 => ⟨fun h5 => ?lrW, fun h5 => ?scW, fun h5 => ?swap, fun h5 => ?add, fun h5 => ?xor,
    fun h5 => ?and, fun h5 => ?or, fun h5 => ?min, fun h5 => ?max, fun h5 => ?minu, fun h5 => ?maxu, fun h5 => ?otherFunct5⟩⟩
  case otherFunct3 => rw [decodeAmo_of_funct3_ne h3, answer_none]
  case lrW => rw [decodeAmo_lrW h3 h5, answer_ite]; rfl
  case otherFunct5 =>
    simp only [List.mem_cons, List.not_mem_nil, or_false, not_or] at h5
    simp [decodeAmo, WField.rs3, h5]
  case scW | swap | add | xor | and | or | min | max | minu | maxu =>
    simp [decodeAmo, Instr.record, Instr.compressed, WField.funct3, WField.rs3, WField.aq, WField.rl, WField.rd, WField.rs1,
      WField.rs2, h3, h5]

end

section
/-! LR.W and SC.W (42_a_extension.md R180, R181, 20_memory.md R58). Each completes as a write of `rd` in the state that carries
its reservation, release or store, so what `retireX` does from that state is what the instruction does. -/

namespace Sys2Proof.Machine

section
variable {i : Instr} {rd addr src : Reg} {s t : State}

/-- A load-reserved is never performed misaligned (20_memory.md R54). -/
theorem addrKey_mod_of_accessOk_loadReserved {a : XWord} {n : Nat} (h : AccessOk s .loadReserved a n) :
    addrKey s.xlen a % n = 0 := by
  have atomic : misalignedResponse s .loadReserved ≠ .perform := by
    rw [misalignedResponse]; split <;> decide
  exact beq_iff_eq.1 (h.1.resolve_right atomic)

theorem loadReserved_of_accessOk (h : AccessOk s .loadReserved (readX s addr) 4) :
    loadReserved i rd addr s =
      retireX i rd ((loadWord s (readX s addr)).signExtend 64) (reserve s (readX s addr)) :=
  withAccess_ok _ _ _ _ _ _ h

theorem storeConditional_of_reserved (hr : reserved s (readX s addr) = true)
    (h : AccessOk s .storeConditional (readX s addr) 4) :
    storeConditional i rd addr src s = retireX i rd 0 (release (storeMem s (readX s addr) 4 (regU s src))) :=
  (if_pos hr).trans (withAccess_ok _ _ _ _ _ _ h)

theorem storeConditional_of_not_reserved (hr : reserved s (readX s addr) = false)
    (ha : addrKey s.xlen (readX s addr) % 4 = 0) :
    storeConditional i rd addr src s = retireX i rd (scFailureValue s) (release s) :=
  (if_neg (by simp [hr])).trans (if_neg (by simp [aligned, ha]))

theorem reserved_congr (hr : t.reservations = s.reservations) (hl : t.xlen = s.xlen) (a : XWord) :
    reserved t a = reserved s a := by
  rw [reserved, reserved, hr, hl]

/-- A state whose memory is that after a store holds the bytes stored. -/
theorem stores_of_byteAt_storeNat (hm : Memory.wf s.mem = true) {a : XWord} {n v : Nat} (hn : n ≤ 8)
    (h : ∀ k, byteAt t.mem k = byteAt (storeNat s.xlen s.mem n a v) k) : Stores s t a n v :=
  ⟨fun _ hk => (h _).trans (byteAt_storeNat s.xlen hm hn a v hk),
    fun key hk => (h key).trans (byteAt_storeNat_other s.xlen s.mem n a v key hk)⟩

/-- What a failing store-conditional leaves in its destination is not 0. -/
theorem modX_scFailureValue_ne_zero (s : State) : modX s.xlen (scFailureValue s).toNat ≠ 0 := fun h =>
  scFailureValue_ne_zero s (BitVec.eq_of_toNat_eq ((narrow_toNat_eq_modX _ _).trans h))

end

end Sys2Proof.Machine

open Sys2Proof Sys2Proof.Machine

/-- Settles O44: LR.W registers the reservation it reads back, since the access is aligned; SC.W stores where a reservation holds
the word and makes no access where none does. -/
theorem reservationsComplete : Obligations.ReservationsComplete := by
  refine ⟨fun s aq rl rd addr hok => ?loadReserved,
    fun s aq rl rd addr src hm ha => ⟨fun hr hok => ?stores, fun hr => ?fails⟩⟩
  case loadReserved =>
    obtain ⟨t, ht, e⟩ := retireX_effect (.lrW aq rl rd addr) rd _ _ (reserve s (readX s addr))
      (narrow_eq_modX _ _ _ (loadWord_signExtend s (readX s addr)))
    obtain ⟨-, hl, -, -⟩ := e.inputs
    have held : reserved t (readX s addr) = true :=
      (reserved_congr e.reservations hl _).trans (reserved_reserve (addrKey_mod_of_accessOk_loadReserved hok))
    exact ⟨t, (loadReserved_of_accessOk hok).trans ht, e.answers, e.advances, e.dest, held, e.others, e.inputs, e.fp, e.fcsr,
      e.system, e.memory, e.fetched⟩
  case stores =>
    obtain ⟨t, ht, e⟩ := retireX_effect (.scW aq rl rd addr src) rd 0 0 (release (storeMem s (readX s addr) 4 (regU s src)))
      (by simp [modX])
    have dest : regU t rd = 0 := by rw [e.dest]; simp [modX]
    exact ⟨t, (storeConditional_of_reserved hr hok).trans ht, stores_of_byteAt_storeNat hm (by decide) e.memory, dest,
      e.answers, e.advances, e.reservations, e.others, e.inputs, e.fp, e.fcsr, e.system, e.fetched⟩
  case fails =>
    obtain ⟨t, ht, e⟩ := retireX_effect (.scW aq rl rd addr src) rd (scFailureValue s) _ (release s)
      (narrow_toNat_eq_modX _ _)
    have dest : rd = 0 ∨ regU t rd ≠ 0 := or_iff_not_imp_left.2 fun hd => by
      rw [e.dest, if_neg hd]; exact modX_scFailureValue_ne_zero s
    exact ⟨t, (storeConditional_of_not_reserved hr ha).trans ht, e.memory, dest, e.answers, e.advances, e.reservations,
      e.others, e.inputs, e.fp, e.fcsr, e.system, e.fetched⟩

end

section
/-! The AMOs (42_a_extension.md R182 to R190): the function of each as an operation on numbers. -/

namespace Sys2Proof.Machine

/-- The word function `f` is the operation `new` of the two words as unsigned numbers, modulo 2^32. -/
def IsWordOp (f : BitVec 32 → BitVec 32 → BitVec 32) (new : Int → Int → Int) : Prop :=
  ∀ a b, f a b = BitVec.ofInt 32 (new a.toNat b.toNat)

/-- The signed number of a word, as the claims write it. -/
theorem twos_toNat_natCast (a : BitVec 32) : twos 32 (a.toNat : Int).toNat = a.toInt := twos_toNat (by decide) a

theorem amoSwap_isWordOp : IsWordOp amoSwap fun _ v => v := fun _ b => by simp [amoSwap]

theorem amoAdd_isWordOp : IsWordOp amoAdd fun old v => old + v := fun a b => by simp [amoAdd, BitVec.ofInt_add]

theorem amoXor_isWordOp : IsWordOp amoXor fun old v => ((old.toNat ^^^ v.toNat : Nat) : Int) := fun a b => by
  simp [amoXor, BitVec.ofNat_xor]

theorem amoAnd_isWordOp : IsWordOp amoAnd fun old v => ((old.toNat &&& v.toNat : Nat) : Int) := fun a b => by
  simp [amoAnd, BitVec.ofNat_and]

theorem amoOr_isWordOp : IsWordOp amoOr fun old v => ((old.toNat ||| v.toNat : Nat) : Int) := fun a b => by
  simp [amoOr, BitVec.ofNat_or]

theorem amoMin_isWordOp : IsWordOp amoMin fun old v => min (twos 32 old.toNat) (twos 32 v.toNat) := fun a b => by
  simp only [twos_toNat_natCast, min_def, apply_ite (BitVec.ofInt 32), BitVec.ofInt_toInt, amoMin]

theorem amoMax_isWordOp : IsWordOp amoMax fun old v => max (twos 32 old.toNat) (twos 32 v.toNat) := fun a b => by
  simp only [twos_toNat_natCast, max_def, apply_ite (BitVec.ofInt 32), BitVec.ofInt_toInt, amoMax]

theorem amoMinu_isWordOp : IsWordOp amoMinu fun old v => min old v := fun a b => by
  simp [amoMinu, min_def, apply_ite (BitVec.ofInt 32)]

theorem amoMaxu_isWordOp : IsWordOp amoMaxu fun old v => max old v := fun a b => by
  simp [amoMaxu, max_def, apply_ite (BitVec.ofInt 32)]

/-- The number that such a function gives for the word loaded and the register's low word. -/
theorem IsWordOp.toNat_loadWord {f : BitVec 32 → BitVec 32 → BitVec 32} {new : Int → Int → Int} (hf : IsWordOp f new)
    (s : State) (a : XWord) (src : Reg) : (f (loadWord s a) ((readX s src).setWidth 32)).toNat =
      (new (loadNat s.xlen s.mem 4 a) (regU s src % 2 ^ 32 : Nat) % 2 ^ 32).toNat := by
  rw [hf, BitVec.toNat_ofInt, loadWord_toNat, BitVec.toNat_setWidth]
  rfl

end Sys2Proof.Machine

open Sys2Proof Sys2Proof.Machine

/-- Settles O45: each AMO is `amo` with its function, which is the operation of the claim. -/
theorem amosComplete : Obligations.AmosComplete := by
  intro s aq rl rd addr src i new hm hok hi
  obtain ⟨f, hexec, hf⟩ : ∃ f, exec i s = amo i f rd addr src s ∧ IsWordOp f new := by
    simp only [List.mem_cons, List.not_mem_nil, or_false, Prod.mk.injEq] at hi
    obtain ⟨rfl, rfl⟩ | ⟨rfl, rfl⟩ | ⟨rfl, rfl⟩ | ⟨rfl, rfl⟩ | ⟨rfl, rfl⟩ | ⟨rfl, rfl⟩ | ⟨rfl, rfl⟩ | ⟨rfl, rfl⟩ |
      ⟨rfl, rfl⟩ := hi
    · exact ⟨amoSwap, rfl, amoSwap_isWordOp⟩
    · exact ⟨amoAdd, rfl, amoAdd_isWordOp⟩
    · exact ⟨amoMin, rfl, amoMin_isWordOp⟩
    · exact ⟨amoMax, rfl, amoMax_isWordOp⟩
    · exact ⟨amoMinu, rfl, amoMinu_isWordOp⟩
    · exact ⟨amoMaxu, rfl, amoMaxu_isWordOp⟩
    · exact ⟨amoXor, rfl, amoXor_isWordOp⟩
    · exact ⟨amoAnd, rfl, amoAnd_isWordOp⟩
    · exact ⟨amoOr, rfl, amoOr_isWordOp⟩
  rw [hexec, ← hf.toNat_loadWord]
  exact amo_effect i f rd addr src s hm hok

end

section
/-! The Zicsr instructions (43_zicsr_zihintpause.md R195 to R200). A legal one completes as a write of `rd` in the state that
carries what it wrote to the CSR, so what `retireX` does from that state is what the instruction does. -/

namespace Sys2Proof.Machine

section
variable {i : Instr} {rd : Reg} {c : Csr} {new : XWord → XWord} {s t : State}

theorem csrAccess_without_write (h : csrLegal s c false = true) :
    csrAccess i rd c false new s = retireX i rd (csrValue s c) s :=
  if_pos h

/-- Of the state an instruction starts in, its completion takes the address of the next instruction alone. -/
theorem retire_congr {u : State} (h : nextPc i s = nextPc i t) : retire i s u = retire i t u := by
  rw [retire, retire, h]

theorem csrAccess_with_write (h : csrLegal s c true = true) :
    csrAccess i rd c true new s = retireX i rd (csrValue s c) (csrWrite s c (new (csrValue s c))) :=
  (if_pos h).trans (retire_congr (by rw [nextPc, nextPc, csrWrite_pc, csrWrite_xlen]))

/-- The destination of an integer instruction as a word, where its value is given as a word. -/
theorem IntEffect.readX_dest {w : XWord} (e : IntEffect i rd w.toNat s t) :
    readX t rd = if rd = 0 then 0 else narrow s.xlen w := by
  apply BitVec.eq_of_toNat_eq
  rw [← regU, e.dest]
  split
  · rfl
  · exact (narrow_toNat_eq_modX _ _).symm

/-- A CSR of the file is none of the three views of the FP state. -/
theorem ne_views_of_file (hc : c.toNat ∉ [1, 2, 3]) : c ≠ 0x001 ∧ c ≠ 0x002 ∧ c ≠ 0x003 := by
  refine ⟨?_, ?_, ?_⟩ <;> rintro rfl <;> exact absurd hc (by decide)

theorem csrWrite_file (hc : c.toNat ∉ [1, 2, 3]) (v : XWord) : csrWrite s c v = csrFileSet s c.toNat v := by
  obtain ⟨h1, h2, h3⟩ := ne_views_of_file hc
  rw [csrWrite, if_neg h1, if_neg h2, if_neg h3]

theorem csrValue_file (hc : c.toNat ∉ [1, 2, 3]) : csrValue s c = narrow s.xlen
    (if isCounter c then csrFileGet s c.toNat + Config.counterAdvance s.tick c.toNat else csrFileGet s c.toNat) := by
  obtain ⟨h1, h2, h3⟩ := ne_views_of_file hc
  rw [csrValue, if_neg h1, if_neg h2, if_neg h3, apply_ite (narrow s.xlen)]

theorem narrow_csrValue_file (hc : c.toNat ∉ [1, 2, 3]) : narrow s.xlen (csrValue s c) = csrValue s c := by
  rw [csrValue_file hc, narrow_narrow]

theorem csrValue_file_of_not_counter (hc : c.toNat ∉ [1, 2, 3]) (hn : isCounter c = false) :
    csrValue s c = narrow s.xlen (csrFileGet s c.toNat) := by
  rw [csrValue_file hc, hn, if_neg Bool.false_ne_true]

end

end Sys2Proof.Machine

open Sys2Proof Sys2Proof.Machine

/-- Settles O41: each form is `csrAccess` with its function; the old value is what the CSR reads as, and of the file a write
changes the one CSR. -/
theorem csrFileComplete : Obligations.CsrFileComplete := by
  intro s rd rs1 c imm i writes operand new hw hi hl hc
  rw [exec_zicsrForms hi]
  cases writes with
  | false =>
    obtain ⟨t, ht, e⟩ := retireX_effect i rd _ _ s (narrow_toNat_eq_modX s.xlen (csrValue s c))
    obtain ⟨file, mode, fpOn⟩ := e.system
    exact ⟨t, csrValue s c, (csrAccess_without_write hl).trans ht, e.answers, e.advances, csrValue_file_of_not_counter hc,
      e.readX_dest, e.others, file _, fun a _ => file a, mode, fpOn, e.inputs, e.fp, e.fcsr, e.memory, e.fetched,
      e.reservations⟩
  | true =>
    have access : csrAccess i rd c true (fun old => new old operand) s =
        retireX i rd (csrValue s c) (csrFileSet s c.toNat (new (csrValue s c) operand)) := by
      rw [csrAccess_with_write hl, csrWrite_file hc]
    obtain ⟨t, ht, e⟩ := retireX_effect i rd _ _ (csrFileSet s c.toNat (new (csrValue s c) operand))
      (narrow_toNat_eq_modX s.xlen (csrValue s c))
    obtain ⟨file, mode, fpOn⟩ := e.system
    have written : csrFileGet t c.toNat = narrow s.xlen (new (narrow s.xlen (csrValue s c)) operand) := by
      rw [narrow_csrValue_file hc, file, csrFileGet_csrFileSet_same hw]
    exact ⟨t, csrValue s c, access.trans ht, e.answers, e.advances, csrValue_file_of_not_counter hc, e.readX_dest, e.others,
      written, fun a ha => (file a).trans (csrFileGet_csrFileSet_other s _ a _ ha), mode, fpOn, e.inputs, e.fp, e.fcsr,
      e.memory, e.fetched, e.reservations⟩

end

section
/-! The F and D instructions on registers and memory (44_f_extension.md R205 to R230, 45_d_extension.md R235 to R260): what each
shared operation completes with, from the one that an instruction's meaning is. -/

namespace Sys2Proof.Machine

section
variable {i : Instr} {p : Fmt} {rd : Reg} {s : State}

/-! ### Operations with a rounding mode -/

theorem completesResult_of_mode {rm m : RoundingMode} {body : RoundingMode → Host.Outcome State Fault Refusal}
    {r : Ieee.FResult} (hm : RoundsIn s rm m) (h : exec i s = withMode i rm s body) (hb : body m = retireFp i p rd r s) :
    CompletesResult i p rd r s := by
  rw [CompletesResult, CompletesFp, h, withMode_of_roundsIn i hm, hb]
  exact retireFp_effect i p rd r s

theorem completesResult_of_fpOfInt {rm m : RoundingMode} {v : Int} (hm : RoundsIn s rm m)
    (h : exec i s = fpOfInt i p v rm rd s) : CompletesResult i p rd ((Ieee.ofFmt p).ofInt m v) s :=
  completesResult_of_mode hm h rfl

theorem completesResult_of_fpConvert {src : Fmt} {rs1 : Reg} {rm m : RoundingMode} (hm : RoundsIn s rm m)
    (h : exec i s = fpConvert i p src rm rd rs1 s) :
    CompletesResult i p rd ((Ieee.ofFmt p).convert (Ieee.ofFmt src) m (readFp s src rs1)) s :=
  completesResult_of_mode hm h rfl

theorem completesFpInt_of_mode {rm m : RoundingMode} {body : RoundingMode → Host.Outcome State Fault Refusal} {w : XWord}
    {v : Int} {flags : BitVec 5} (hm : RoundsIn s rm m) (h : exec i s = withMode i rm s body)
    (hb : body m = retireFpX i rd w flags s) (hv : (narrow s.xlen w).toNat = modX s.xlen v) :
    CompletesFpInt i rd v flags s := by
  rw [CompletesFpInt, h, withMode_of_roundsIn i hm, hb]
  exact retireFpX_effect i rd w v flags s hv

/-- An exact conversion rounds in RNE, whatever the state's mode. -/
theorem roundsIn_rne (hon : s.fpOn = true) : RoundsIn s .rne .rne := ⟨hon, by decide, .inl rfl⟩

/-! ### Operations without one -/

theorem completesResult_of_on {r : Ieee.FResult} (hon : s.fpOn = true)
    (h : exec i s = whenFpOn i s (retireFp i p rd r s)) : CompletesResult i p rd r s := by
  rw [CompletesResult, CompletesFp, h, whenFpOn_on hon]
  exact retireFp_effect i p rd r s

theorem completesFp_of_on {v : Nat} (hon : s.fpOn = true)
    (h : exec i s = whenFpOn i s (retire i s (writeFp s p rd v))) : CompletesFp i rd (boxed p v) 0 s := by
  rw [CompletesFp, h, whenFpOn_on hon]
  exact retire_writeFp_effect i p rd v s

theorem completesFpInt_of_on {w : XWord} {v : Int} {flags : BitVec 5} (hon : s.fpOn = true)
    (h : exec i s = whenFpOn i s (retireFpX i rd w flags s)) (hv : (narrow s.xlen w).toNat = modX s.xlen v) :
    CompletesFpInt i rd v flags s := by
  rw [CompletesFpInt, h, whenFpOn_on hon]
  exact retireFpX_effect i rd w v flags s hv

/-- An operation that raises no flag writes its integer register alone. -/
theorem retireFpX_zero (w : XWord) : retireFpX i rd w 0#5 s = retireX i rd w s := by
  rw [retireFpX, accrue_zero, retireX]

theorem completesFpInt_of_on_retireX {w : XWord} {v : Int} (hon : s.fpOn = true)
    (h : exec i s = whenFpOn i s (retireX i rd w s)) (hv : (narrow s.xlen w).toNat = modX s.xlen v) :
    CompletesFpInt i rd v 0 s :=
  completesFpInt_of_on hon (h.trans (congrArg _ (retireFpX_zero w).symm)) hv

/-! ### Loads and stores -/

theorem completesFp_of_fpLoad {base : Reg} {offset : XWord} (hon : s.fpOn = true)
    (hok : AccessOk s .load (readX s base + offset) (fmtBytes p)) (h : exec i s = fpLoad i p rd base offset s) :
    CompletesFp i rd (boxed p (loadNat s.xlen s.mem (fmtBytes p) (readX s base + offset))) 0 s := by
  rw [CompletesFp, h, fpLoad, whenFpOn_on hon, withAccess_ok _ _ _ _ _ _ hok]
  exact retire_writeFp_effect i p rd _ s

theorem completesStore_of_fpStore {src base : Reg} {offset : XWord} (hon : s.fpOn = true) (hmem : Memory.wf s.mem = true)
    (hok : AccessOk s .store (readX s base + offset) (fmtBytes p)) (h : exec i s = fpStore i p src base offset s) :
    CompletesStore i (readX s base + offset) (fmtBytes p) (readF s src).toNat s := by
  rw [CompletesStore, h, fpStore, whenFpOn_on hon]
  exact storeValue_effect i (fmtBytes p) _ base offset s hmem (by cases p <;> decide) hok

end

/-! ### The numbers written -/

/-- A number as the pattern of a register. -/
theorem narrow_ofNat_modX (x : Xlen) (n : Nat) : (narrow x (BitVec.ofNat 64 n)).toNat = modX x n :=
  narrow_eq_modX x _ _ (BitVec.ofInt_natCast ..).symm

/-- A word, sign-extended, is the pattern of its signed number. -/
theorem narrow_signExtend_modX (x : Xlen) (b : BitVec 32) : (narrow x (b.signExtend 64)).toNat = modX x (twos 32 b.toNat) :=
  narrow_eq_modX x _ _ (by rw [twos_toNat (by decide), signExtend_eq_ofInt])

theorem narrow_ofInt_signExtend_modX (x : Xlen) (v : Int) :
    (narrow x ((BitVec.ofInt 32 v).signExtend 64)).toNat = modX x (twos 32 (v % 2 ^ 32).toNat) := by
  rw [narrow_signExtend_modX, BitVec.toNat_ofInt]; rfl

/-- The low word of a register as a signed number. -/
theorem toInt_setWidth_readX (s : State) (r : Reg) : ((readX s r).setWidth 32).toInt = twos 32 (regU s r % 2 ^ 32) := by
  rw [← twos_toNat (by decide), BitVec.toNat_setWidth, regU]

/-- The low word of a register as an unsigned number. -/
theorem toNat_setWidth_readX (s : State) (r : Reg) : ((readX s r).setWidth 32).toNat = regU s r % 2 ^ 32 :=
  BitVec.toNat_setWidth ..

theorem injectSign_signBit (F : Ieee.FFormat) (a b : Nat) :
    F.injectSign (F.signBit b) a = b / F.signWeight % 2 * F.signWeight + a % F.signWeight := by
  rw [injectSign_eq, signBit_toNat]

theorem injectSign_not_signBit (F : Ieee.FFormat) (a b : Nat) :
    F.injectSign (!F.signBit b) a = (1 - b / F.signWeight % 2) * F.signWeight + a % F.signWeight := by
  rw [injectSign_eq, ← signBit_toNat]
  cases F.signBit b <;> rfl

theorem injectSign_xor_signBit (F : Ieee.FFormat) (a b : Nat) :
    F.injectSign (F.signBit a != F.signBit b) a =
      (a / F.signWeight + b / F.signWeight) % 2 * F.signWeight + a % F.signWeight := by
  rw [injectSign_eq, Nat.add_mod, ← signBit_toNat, ← signBit_toNat]
  cases F.signBit a <;> cases F.signBit b <;> rfl

end Sys2Proof.Machine

open Sys2Proof Sys2Proof.Machine

/-- Settles O46: each is an operation with a rounding mode. -/
theorem fpArithmeticCompletes : Obligations.FpArithmeticCompletes := by
  intro s rm m rd rs1 rs2 rs3 hm
  and_intros <;> exact completesResult_of_mode hm rfl rfl

/-- Settles O47: each is an operation without a mode, and the number it writes is that of the claim. -/
theorem fpNonRoundingComplete : Obligations.FpNonRoundingComplete := by
  intro s rd rs1 rs2 hon
  refine ⟨?fsgnjS, ?fsgnjnS, ?fsgnjxS, ?fminS, ?fmaxS, ?fsgnjD, ?fsgnjnD, ?fsgnjxD, ?fminD, ?fmaxD, ?feqS, ?fltS, ?fleS,
    ?fclassS, ?feqD, ?fltD, ?fleD, ?fclassD, ?fmvXW, ?fmvWX⟩
  case fsgnjS => exact injectSign_signBit Ieee.single _ _ ▸ completesFp_of_on (p := .s) hon rfl
  case fsgnjnS => exact injectSign_not_signBit Ieee.single _ _ ▸ completesFp_of_on (p := .s) hon rfl
  case fsgnjxS => exact injectSign_xor_signBit Ieee.single _ _ ▸ completesFp_of_on (p := .s) hon rfl
  case fsgnjD => exact injectSign_signBit Ieee.double _ _ ▸ completesFp_of_on (p := .d) hon rfl
  case fsgnjnD => exact injectSign_not_signBit Ieee.double _ _ ▸ completesFp_of_on (p := .d) hon rfl
  case fsgnjxD => exact injectSign_xor_signBit Ieee.double _ _ ▸ completesFp_of_on (p := .d) hon rfl
  case fminS | fmaxS | fminD | fmaxD => exact completesResult_of_on hon rfl
  case feqS | fltS | fleS | feqD | fltD | fleD => exact completesFpInt_of_on hon rfl (narrow_ofNat_modX _ _)
  case fclassS | fclassD =>
    exact completesFpInt_of_on_retireX hon rfl (by rw [narrow_ofNat_modX, Ieee.FFormat.classify]; push_cast; rfl)
  case fmvXW =>
    exact completesFpInt_of_on_retireX hon rfl (by rw [narrow_signExtend_modX, BitVec.toNat_setWidth])
  case fmvWX => exact completesFp_of_on (p := .s) hon (by rw [regU, writeFp, BitVec.ofNat_toNat]; rfl)

/-- Settles O48: each is an operation with a rounding mode, the exact ones with a mode of their own. -/
theorem fpConversionsComplete : Obligations.FpConversionsComplete := by
  refine ⟨fun s rm m rd rs1 hm => ⟨?fcvtWS, ?fcvtWuS, ?fcvtWD, ?fcvtWuD, ?fcvtSW, ?fcvtSWu, ?fcvtSD⟩,
    fun s rd rs1 hon => ⟨?fcvtDW, ?fcvtDWu, ?fcvtDS⟩⟩
  case fcvtWS | fcvtWuS | fcvtWD | fcvtWuD =>
    exact completesFpInt_of_mode hm rfl rfl (narrow_ofInt_signExtend_modX _ _)
  case fcvtSW => exact toInt_setWidth_readX s rs1 ▸ completesResult_of_fpOfInt (p := .s) hm rfl
  case fcvtSWu => exact toNat_setWidth_readX s rs1 ▸ completesResult_of_fpOfInt (p := .s) hm rfl
  case fcvtSD => exact completesResult_of_fpConvert (p := .s) (src := .d) hm rfl
  case fcvtDW => exact toInt_setWidth_readX s rs1 ▸ completesResult_of_fpOfInt (p := .d) (roundsIn_rne hon) rfl
  case fcvtDWu => exact toNat_setWidth_readX s rs1 ▸ completesResult_of_fpOfInt (p := .d) (roundsIn_rne hon) rfl
  case fcvtDS => exact completesResult_of_fpConvert (p := .d) (src := .s) (roundsIn_rne hon) rfl

/-- Settles O49: where the access raises no exception, a load writes the register with its bytes, and a store its bytes. -/
theorem fpLoadsStoresComplete : Obligations.FpLoadsStoresComplete := by
  intro s r base offset hon
  refine ⟨fun hok => ?flw, fun hok => ?fld, fun hmem hok => ?fsw, fun hmem hok => ?fsd⟩
  case flw => exact completesFp_of_fpLoad (p := .s) hon hok rfl
  case fld => exact completesFp_of_fpLoad (p := .d) hon hok rfl
  case fsw => exact completesStore_of_fpStore (p := .s) hon hmem hok rfl
  case fsd => exact completesStore_of_fpStore (p := .d) hon hmem hok rfl

end

section
/-! The views of the FP state (44_f_extension.md R231): what fflags, frm and fcsr read as, and what a write to each changes. -/

namespace Sys2Proof.Machine

section
variable {s : State} {c : Csr} {old : XWord}

/-- The three addresses and the patterns that they read as. -/
def viewPatterns (s : State) : List (Nat × XWord) :=
  [(1, s.fflags.setWidth 64), (2, s.frm.setWidth 64), (3, (s.frm ++ s.fflags).setWidth 64)]

/-- A view is the CSR of its address. -/
theorem eq_of_mem_viewPatterns (h : (c.toNat, old) ∈ viewPatterns s) : c = 0x001 ∧ old = s.fflags.setWidth 64 ∨
    c = 0x002 ∧ old = s.frm.setWidth 64 ∨ c = 0x003 ∧ old = (s.frm ++ s.fflags).setWidth 64 := by
  simpa [viewPatterns, ← BitVec.toNat_inj] using h

theorem csrValue_view (h : (c.toNat, old) ∈ viewPatterns s) : csrValue s c = old := by
  obtain ⟨rfl, rfl⟩ | ⟨rfl, rfl⟩ | ⟨rfl, rfl⟩ := eq_of_mem_viewPatterns h <;> rfl

/-- A view has at most eight bits. -/
theorem narrow_view (h : (c.toNat, old) ∈ viewPatterns s) : narrow s.xlen old = old := by
  have small {n : Nat} (hn : n ≤ 8) (b : BitVec n) : narrow s.xlen (b.setWidth 64) = b.setWidth 64 := by
    rw [← BitVec.ofNat_toNat]
    exact narrow_ofNat_small _ (b.isLt.trans_le (Nat.pow_le_pow_right (by decide) (by omega)))
  obtain ⟨-, rfl⟩ | ⟨-, rfl⟩ | ⟨-, rfl⟩ := eq_of_mem_viewPatterns h
  · exact small (by decide) _
  · exact small (by decide) _
  · exact small (by decide) _

/-- A write to a view changes the flags, the mode or both, and nothing else. -/
theorem csrWrite_view (h : (c.toNat, old) ∈ viewPatterns s) (v : XWord) : csrWrite s c v =
    { s with fflags := if c.toNat = 2 then s.fflags else v.setWidth 5
             frm := if c.toNat = 2 then v.setWidth 3 else if c.toNat = 3 then v.extractLsb' 5 3 else s.frm } := by
  obtain ⟨rfl, rfl⟩ | ⟨rfl, rfl⟩ | ⟨rfl, rfl⟩ := eq_of_mem_viewPatterns h <;> rfl

end

end Sys2Proof.Machine

open Sys2Proof Sys2Proof.Machine

/-- Settles O42: each form is `csrAccess` with its function, and the state it writes rd in has the flags and the mode written. -/
theorem fcsrViews : Obligations.FcsrViews := by
  intro s rd rs1 c imm i writes operand new hi hl old hold
  have hread : csrValue s c = old := csrValue_view hold
  rw [exec_zicsrForms hi]
  cases writes with
  | false =>
    obtain ⟨t, ht, e⟩ := retireX_effect i rd _ _ s (narrow_toNat_eq_modX s.xlen old)
    have dest := e.readX_dest
    rw [narrow_view hold] at dest
    obtain ⟨flags, mode⟩ := e.fcsr
    exact ⟨t, by rw [csrAccess_without_write hl, hread, ht], e.answers, e.advances, dest, e.others, by simp [flags],
      by simp [mode], e.inputs, e.fp, e.system, e.memory, e.fetched, e.reservations⟩
  | true =>
    obtain ⟨t, ht, e⟩ := retireX_effect i rd _ _ (csrWrite s c (new old operand)) (narrow_toNat_eq_modX _ old)
    rw [csrWrite_view hold] at e
    have dest := e.readX_dest
    rw [narrow_view hold] at dest
    obtain ⟨flags, mode⟩ := e.fcsr
    refine ⟨t, by rw [csrAccess_with_write hl, hread, ht], e.answers, e.advances, dest, e.others, ?_, ?_, e.inputs, e.fp,
      e.system, e.memory, e.fetched, e.reservations⟩
    · simp [flags, apply_ite BitVec.toNat]
    · simp [mode, apply_ite BitVec.toNat, Nat.shiftRight_eq_div_pow]

end

section
/-! What a word of OP-FP or of a fused opcode decodes to (44_f_extension.md R202, R203, 45_d_extension.md R232). -/

namespace Sys2Proof

/-! ### The values of funct3 and fmt that a claim lists -/

/-- The code of a precision (44_f_extension.md R202). -/
def Fmt.code : Fmt → BitVec 2
  | .s => 0b00
  | .d => 0b01

theorem eq_code_of_mem_modes {m : RoundingMode} {c : BitVec 3} (h : (m, c) ∈ [(RoundingMode.rne, 0b000#3), (.rtz, 0b001#3),
    (.rdn, 0b010#3), (.rup, 0b011#3), (.rmm, 0b100#3), (.dyn, 0b111#3)]) : c = m.code := by
  simp only [List.mem_cons, Prod.mk.injEq, List.not_mem_nil, or_false] at h
  obtain ⟨rfl, rfl⟩ | ⟨rfl, rfl⟩ | ⟨rfl, rfl⟩ | ⟨rfl, rfl⟩ | ⟨rfl, rfl⟩ | ⟨rfl, rfl⟩ := h <;> rfl

theorem eq_code_of_mem_fmts {p : Fmt} {f : BitVec 2} (h : (p, f) ∈ [(Fmt.s, 0b00#2), (Fmt.d, 0b01#2)]) : f = p.code := by
  simp only [List.mem_cons, Prod.mk.injEq, List.not_mem_nil, or_false] at h
  obtain ⟨rfl, rfl⟩ | ⟨rfl, rfl⟩ := h <;> rfl

section
variable {w : Word}

theorem withRm_of_code {m : RoundingMode} (h : WField.funct3 w = m.code) (mk : RoundingMode → Instr) :
    withRm w mk = some (mk m) := by
  rw [withRm, RoundingMode.ofCode_eq_some_iff.2 h, Option.map_some]

/-- funct3 101 and 110 are no modes (44_f_extension.md R203). -/
theorem withRm_of_reserved (h : WField.funct3 w = 0b101 ∨ WField.funct3 w = 0b110) (mk : RoundingMode → Instr) :
    withRm w mk = none := by
  rcases h with h | h <;> rw [withRm, h] <;> rfl

/-- Of the modes, RNE has the code that the exact conversions require. -/
theorem code_eq_zero_iff {m : RoundingMode} : m.code = 0b000#3 ↔ m = .rne := by cases m <;> decide

/-! ### The dispatch of an opcode by fmt -/

/-- The row of a fused opcode in a precision. -/
theorem decodeFused_of_fmt {p : Fmt} (hf : WField.fmt w = p.code)
    (single double : RoundingMode → Reg → Reg → Reg → Reg → Instr) : decodeFused w single double = withRm w fun m =>
      (match p with | .s => single | .d => double) m (WField.rd w) (WField.rs1 w) (WField.rs2 w) (WField.rs3 w) := by
  cases p <;> simp [decodeFused, hf, Fmt.code]

theorem decodeFused_of_reserved (hf : WField.fmt w = 0b10 ∨ WField.fmt w = 0b11)
    (single double : RoundingMode → Reg → Reg → Reg → Reg → Instr) : decodeFused w single double = none := by
  rcases hf with hf | hf <;> simp [decodeFused, hf]

variable (x : Xlen)

theorem decode_fmadd (ho : w.extractLsb' 0 7 = 0b1000011#7) : decode w x = answer (decodeFused w .fmaddS .fmaddD) := by
  simp [decode_of_opcode ho, decode32, WField.opcode, ho]

theorem decode_fmsub (ho : w.extractLsb' 0 7 = 0b1000111#7) : decode w x = answer (decodeFused w .fmsubS .fmsubD) := by
  simp [decode_of_opcode ho, decode32, WField.opcode, ho]

theorem decode_fnmsub (ho : w.extractLsb' 0 7 = 0b1001011#7) : decode w x = answer (decodeFused w .fnmsubS .fnmsubD) := by
  simp [decode_of_opcode ho, decode32, WField.opcode, ho]

theorem decode_fnmadd (ho : w.extractLsb' 0 7 = 0b1001111#7) : decode w x = answer (decodeFused w .fnmaddS .fnmaddD) := by
  simp [decode_of_opcode ho, decode32, WField.opcode, ho]

/-- The dispatch of OP-FP in a precision. -/
def decodeOpFp (p : Fmt) (w : Word) : Option Instr :=
  match p with
  | .s => decodeOpFpSingle w
  | .d => decodeOpFpDouble w

theorem decode_opFp {p : Fmt} (ho : w.extractLsb' 0 7 = 0b1010011#7) (hf : WField.fmt w = p.code) :
    decode w x = answer (decodeOpFp p w) := by
  cases p <;> simp [decode_of_opcode ho, decode32, decodeOpFp, Fmt.code, WField.opcode, ho, hf]

theorem decode_opFp_of_reserved (ho : w.extractLsb' 0 7 = 0b1010011#7) (hf : WField.fmt w = 0b10 ∨ WField.fmt w = 0b11) :
    decode w x = .decodeError := by
  rcases hf with hf | hf <;> simp [decode_of_opcode ho, decode32, WField.opcode, ho, hf]

/-- A row of OP-FP with a mode, or with the code of one (the exact conversions), is not read where funct3 gives none. -/
theorem decodeOpFp_of_reserved (p : Fmt) (h3 : WField.funct3 w = 0b101 ∨ WField.funct3 w = 0b110)
    (h5 : WField.rs3 w ∈ [0b00000#5, 0b00001#5, 0b00010#5, 0b00011#5, 0b01011#5, 0b11000#5, 0b11010#5, 0b01000#5]) :
    decodeOpFp p w = none := by
  have f3 : WField.funct3 w ≠ 0#3 := by rcases h3 with h3 | h3 <;> simp [h3]
  simp only [List.mem_cons, List.not_mem_nil, or_false] at h5
  cases p with
  | s =>
    rcases h5 with h5 | h5 | h5 | h5 | h5 | h5 | h5 | h5 <;>
      simp [decodeOpFp, decodeOpFpSingle, withRm_of_reserved h3, h5]
  | d =>
    rcases h5 with h5 | h5 | h5 | h5 | h5 | h5 | h5 | h5 <;>
      simp [decodeOpFp, decodeOpFpDouble, withRm_of_reserved h3, f3, h5]

/-- A fused opcode with a fmt or a mode that no row has. -/
theorem decode_fused_of_none (ho : w.extractLsb' 0 7 ∈ [0b1000011#7, 0b1000111#7, 0b1001011#7, 0b1001111#7])
    (h : ∀ single double, decodeFused w single double = none) : decode w x = .decodeError := by
  simp only [List.mem_cons, List.not_mem_nil, or_false] at ho
  rcases ho with ho | ho | ho | ho
  · rw [decode_fmadd x ho, h, answer_none]
  · rw [decode_fmsub x ho, h, answer_none]
  · rw [decode_fnmsub x ho, h, answer_none]
  · rw [decode_fnmadd x ho, h, answer_none]

end

end Sys2Proof

open Sys2Proof

/-- Settles O15: the dispatch compares fmt, then funct5 and, where a row fixes them, rs2 and funct3; elsewhere funct3 gives the
mode. -/
theorem fpDispatch : Obligations.FpDispatch := by
  intro w x
  refine ⟨fun ho hf => ?reservedFmt, fun p f hp hf => ⟨fun m c hm h3 => ?fused, fun h3 ho => ?fusedReserved⟩,
    fun ho p f hp hf => ⟨fun m c hm h3 => ?withMode, fun h3 h5 => ?modeReserved, fun h5 => ?sign, fun h5 => ?minMax,
      fun h5 => ?compare, fun h5 => ?classify, fun h5 => ?move, fun h5 => ?otherFunct5⟩⟩
  case reservedFmt =>
    rw [List.mem_cons, List.mem_cons, List.mem_cons, List.mem_cons, List.mem_singleton] at ho
    by_cases hop : w.extractLsb' 0 7 = 0b1010011#7
    · exact decode_opFp_of_reserved x hop hf
    · exact decode_fused_of_none x (by simpa [hop] using ho) (decodeFused_of_reserved hf)
  case fused =>
    obtain rfl := eq_code_of_mem_fmts hp
    obtain rfl := eq_code_of_mem_modes hm
    refine ⟨fun ho => ?_, fun ho => ?_, fun ho => ?_, fun ho => ?_⟩
    · rw [decode_fmadd x ho, decodeFused_of_fmt hf, withRm_of_code h3]; cases p <;> rfl
    · rw [decode_fmsub x ho, decodeFused_of_fmt hf, withRm_of_code h3]; cases p <;> rfl
    · rw [decode_fnmsub x ho, decodeFused_of_fmt hf, withRm_of_code h3]; cases p <;> rfl
    · rw [decode_fnmadd x ho, decodeFused_of_fmt hf, withRm_of_code h3]; cases p <;> rfl
  case fusedReserved =>
    obtain rfl := eq_code_of_mem_fmts hp
    exact decode_fused_of_none x ho fun _ _ => (decodeFused_of_fmt hf _ _).trans (withRm_of_reserved h3 _)
  all_goals
    obtain rfl := eq_code_of_mem_fmts hp
    rw [decode_opFp x ho hf]
  case withMode =>
    obtain rfl := eq_code_of_mem_modes hm
    have f3 : WField.funct3 w = m.code := h3
    refine ⟨fun h5 => ?fadd, fun h5 => ?fsub, fun h5 => ?fmul, fun h5 => ?fdiv, fun h5 => ?fsqrt, fun h5 => ?toInt,
      fun h5 => ?ofInt, fun h5 hs => ?toSingle, fun h5 hd => ?toDouble⟩
    case fadd | fsub | fmul | fdiv | fsqrt | toInt =>
      cases p <;>
        simp [decodeOpFp, decodeOpFpSingle, decodeOpFpDouble, withRm_of_code f3, WField.rs3, WField.rs2, WField.rs1, WField.rd,
          h5, Instr.record, Instr.compressed]
    case ofInt =>
      cases p with
      | s =>
        simp [decodeOpFp, decodeOpFpSingle, withRm_of_code f3, WField.rs3, WField.rs2, WField.rs1, WField.rd, h5, Instr.record,
          Instr.compressed]
      | d =>
        by_cases hr : m = .rne <;>
          simp [decodeOpFp, decodeOpFpDouble, f3, code_eq_zero_iff, WField.rs3, WField.rs2, WField.rs1, WField.rd, h5, hr,
            Instr.record, Instr.compressed]
    case toSingle =>
      subst hs
      simp [decodeOpFp, decodeOpFpSingle, withRm_of_code f3, WField.rs3, WField.rs2, WField.rs1, WField.rd, h5, Instr.record,
        Instr.compressed]
    case toDouble =>
      subst hd
      simp [decodeOpFp, decodeOpFpDouble, f3, code_eq_zero_iff, and_comm, WField.rs3, WField.rs2, WField.rs1, WField.rd, h5,
        Instr.record, Instr.compressed]
  case modeReserved => rw [decodeOpFp_of_reserved p h3 h5, answer_none]
  case sign | minMax | compare | classify | move =>
    have f5 : WField.rs3 w = _ := h5
    cases p <;> simp [decodeOpFp, decodeOpFpSingle, decodeOpFpDouble, f5, Instr.record, Instr.compressed] <;> rfl
  case otherFunct5 =>
    simp only [List.mem_cons, List.not_mem_nil, or_false, not_or] at h5
    cases p <;> simp [decodeOpFp, decodeOpFpSingle, decodeOpFpDouble, WField.rs3, h5]

end

section
/-! NaN operands and infinities (44_f_extension.md R231): what each operation of the arithmetic gives for them. -/

namespace Sys2Proof.Ieee

/-- What a pattern can stand for: its sign bit is the sign of an infinity or a finite value. -/
theorem unpack_cases (F : FFormat) (b : Nat) : (∃ s, F.unpack b = .nan s) ∨ F.unpack b = .inf (F.signBit b) ∨
    ∃ m e, F.unpack b = .fin (F.signBit b) m e := by
  unfold FFormat.unpack
  dsimp only
  split
  · split
    · exact .inr (.inl rfl)
    · exact .inl ⟨_, rfl⟩
  · split <;> exact .inr (.inr ⟨_, _, rfl⟩)

/-- A finite pattern's value, with the sign of its sign bit. -/
theorem unpack_of_hasValue {F : FFormat} {b : Nat} {v : ℚ} (h : (F.unpack b).HasValue v) : ∃ m e,
    F.unpack b = .fin (F.signBit b) m e ∧ v = (signedMant (F.signBit b) m : ℚ) * (2 : ℚ) ^ e := by
  rcases unpack_cases F b with ⟨s, hb⟩ | hb | ⟨m, e, hb⟩ <;> rw [hb] at h
  · exact h.elim
  · exact h.elim
  · exact ⟨m, e, hb, h⟩

theorem signedMant_eq_zero_iff {neg : Bool} {m : Nat} : signedMant neg m = 0 ↔ m = 0 := by
  cases neg <;> simp [signedMant]

theorem value_eq_zero_iff {neg : Bool} {m : Nat} {e : Int} : (signedMant neg m : ℚ) * (2 : ℚ) ^ e = 0 ↔ m = 0 := by
  rw [mul_eq_zero, or_iff_left (by positivity), Int.cast_eq_zero, signedMant_eq_zero_iff]

/-- The pattern of the canonical NaN of either format. -/
theorem eq_canonicalNan_of_mem {F : FFormat} {canonical : Nat}
    (h : (F, canonical) ∈ [(single, 0x7FC00000), (double, 0x7FF8000000000000)]) : canonical = F.canonicalNan := by
  simp only [List.mem_cons, Prod.mk.injEq, List.not_mem_nil, or_false] at h
  obtain ⟨rfl, rfl⟩ | ⟨rfl, rfl⟩ := h <;> decide

theorem isNan_of_isSignaling {a : FVal} (h : a.isSignaling = true) : a.isNan = true := by
  cases a with
  | nan s => rfl
  | inf n | fin n m e => exact absurd h Bool.false_ne_true

/-! ### The other sign -/

@[simp] theorem isNan_negate (a : FVal) : a.negate.isNan = a.isNan := by cases a <;> rfl

@[simp] theorem isSignaling_negate (a : FVal) : a.negate.isSignaling = a.isSignaling := by cases a <;> rfl

/-- A product or an addend, negated as the instruction says. -/
def FVal.negateIf (neg : Bool) (a : FVal) : FVal := if neg then a.negate else a

@[simp] theorem isNan_negateIf (neg : Bool) (a : FVal) : (a.negateIf neg).isNan = a.isNan := by
  cases neg <;> simp [FVal.negateIf]

@[simp] theorem isSignaling_negateIf (neg : Bool) (a : FVal) : (a.negateIf neg).isSignaling = a.isSignaling := by
  cases neg <;> simp [FVal.negateIf]

@[simp] theorem negateIf_inf (neg n : Bool) : (FVal.inf n).negateIf neg = .inf (n != neg) := by
  cases neg <;> simp [FVal.negateIf, FVal.negate]

@[simp] theorem negateIf_fin (neg n : Bool) (m : Nat) (e : Int) : (FVal.fin n m e).negateIf neg = .fin (n != neg) m e := by
  cases neg <;> simp [FVal.negateIf, FVal.negate]

section
variable (F : FFormat) (rm : RoundingMode)

/-- A fused operation is the sum of the exact product and the addend, and a NaN where there is no product. -/
theorem fused_eq (n1 n2 : Bool) (a b c : Nat) : F.fused rm n1 n2 a b c =
    match product (F.unpack a) (F.unpack b) with
    | (some p, _) => F.sum rm (p.negateIf n1) ((F.unpack c).negateIf n2)
    | (none, invalid) => F.nan (invalid || (F.unpack c).isSignaling) := by
  have h : ((F.unpack c).negateIf n2).isSignaling = (F.unpack c).isSignaling := isSignaling_negateIf ..
  rw [← h]; rfl

/-! ### NaN operands -/

section
variable {va vb : FVal}

theorem sum_of_nan (h : va.isNan = true ∨ vb.isNan = true) : F.sum rm va vb = F.nan (va.isSignaling || vb.isSignaling) := by
  cases va <;> cases vb <;> simp [FVal.isNan] at h <;> simp [FFormat.sum, FVal.isSignaling]

theorem product_of_nan (h : va.isNan = true ∨ vb.isNan = true) : product va vb = (none, va.isSignaling || vb.isSignaling) := by
  cases va <;> cases vb <;> simp [FVal.isNan] at h <;> simp [product, FVal.isSignaling]

end

section
variable {a b c : Nat}

theorem add_of_nan (h : (F.unpack a).isNan = true ∨ (F.unpack b).isNan = true) :
    F.add rm a b = F.nan ((F.unpack a).isSignaling || (F.unpack b).isSignaling) := sum_of_nan F rm h

theorem sub_of_nan (h : (F.unpack a).isNan = true ∨ (F.unpack b).isNan = true) :
    F.sub rm a b = F.nan ((F.unpack a).isSignaling || (F.unpack b).isSignaling) := by
  rw [FFormat.sub, sum_of_nan F rm (by simpa using h), isSignaling_negate]

theorem mul_of_nan (h : (F.unpack a).isNan = true ∨ (F.unpack b).isNan = true) :
    F.mul rm a b = F.nan ((F.unpack a).isSignaling || (F.unpack b).isSignaling) := by
  rw [FFormat.mul, product_of_nan h]

theorem div_of_nan (h : (F.unpack a).isNan = true ∨ (F.unpack b).isNan = true) :
    F.div rm a b = F.nan ((F.unpack a).isSignaling || (F.unpack b).isSignaling) := by
  unfold FFormat.div
  generalize F.unpack a = va at h ⊢
  generalize F.unpack b = vb at h ⊢
  cases va <;> cases vb <;> simp [FVal.isNan] at h <;> simp [FVal.isSignaling]

theorem sqrt_of_nan (h : (F.unpack a).isNan = true) : F.sqrt rm a = F.nan (F.unpack a).isSignaling := by
  unfold FFormat.sqrt
  generalize F.unpack a = va at h ⊢
  cases va <;> simp [FVal.isNan] at h
  rfl

theorem convert_of_nan {G : FFormat} (h : (G.unpack a).isNan = true) : F.convert G rm a = F.nan (G.unpack a).isSignaling := by
  unfold FFormat.convert
  generalize G.unpack a = va at h ⊢
  cases va <;> simp [FVal.isNan] at h
  rfl

/-- A fused operation of a NaN is a NaN, invalid for a signaling one (and where the product is invalid). -/
theorem fused_of_nan (n1 n2 : Bool)
    (h : (F.unpack a).isNan = true ∨ (F.unpack b).isNan = true ∨ (F.unpack c).isNan = true) :
    ∃ invalid, F.fused rm n1 n2 a b c = F.nan invalid ∧ ((F.unpack a).isSignaling = true ∨
      (F.unpack b).isSignaling = true ∨ (F.unpack c).isSignaling = true → invalid = true) := by
  rw [fused_eq]
  by_cases hab : (F.unpack a).isNan = true ∨ (F.unpack b).isNan = true
  · rw [product_of_nan hab]
    exact ⟨_, rfl, by simp [or_assoc]⟩
  · have hc : (F.unpack c).isNan = true := by tauto
    have quiet {v : FVal} (hv : ¬v.isNan = true) : ¬v.isSignaling = true := mt isNan_of_isSignaling hv
    obtain ⟨ha, hb⟩ := not_or.1 hab
    have signaling (hs : (F.unpack a).isSignaling = true ∨ (F.unpack b).isSignaling = true ∨ (F.unpack c).isSignaling = true) :
        (F.unpack c).isSignaling = true := (hs.resolve_left (quiet ha)).resolve_left (quiet hb)
    split
    · rw [sum_of_nan F rm (.inr ((isNan_negateIf n2 _).trans hc)), isSignaling_negateIf, isSignaling_negateIf]
      exact ⟨_, rfl, fun hs => by rw [signaling hs, Bool.or_true]⟩
    · exact ⟨_, rfl, fun hs => by rw [signaling hs, Bool.or_true]⟩

end

/-! ### Infinities -/

theorem sum_inf_inf (na nb : Bool) :
    F.sum rm (.inf na) (.inf nb) = if na = nb then ⟨F.withSign nb F.infMag, 0⟩ else ⟨F.canonicalNan, NV⟩ := by
  cases na <;> cases nb <;> rfl

theorem product_comm (va vb : FVal) : product va vb = product vb va := by
  cases va <;> cases vb <;> simp [product, Bool.or_comm, bne_comm, mul_comm, add_comm]

theorem product_inf_fin (na nb : Bool) {m : Nat} (e : Int) :
    product (.inf na) (.fin nb m e) = if m = 0 then (none, true) else (some (.inf (na != nb)), false) := rfl

section
variable {a b c : Nat} {p : FVal} {invalid : Bool}

theorem mul_of_product (h : product (F.unpack a) (F.unpack b) = (some p, invalid)) : F.mul rm a b = F.pack rm p := by
  rw [FFormat.mul, h]

theorem mul_of_no_product (h : product (F.unpack a) (F.unpack b) = (none, invalid)) : F.mul rm a b = F.nan invalid := by
  rw [FFormat.mul, h]

variable (n1 n2 : Bool)

theorem fused_of_product (h : product (F.unpack a) (F.unpack b) = (some p, invalid)) :
    F.fused rm n1 n2 a b c = F.sum rm (p.negateIf n1) ((F.unpack c).negateIf n2) := by
  rw [fused_eq, h]

/-- An invalid product makes a fused operation invalid, whatever the addend. -/
theorem fused_of_no_product (h : product (F.unpack a) (F.unpack b) = (none, true)) :
    F.fused rm n1 n2 a b c = F.nan true := by
  rw [fused_eq, h]; rfl

theorem fused_comm : F.fused rm n1 n2 a b c = F.fused rm n1 n2 b a c := by rw [fused_eq, fused_eq, product_comm]

/-- A fused operation whose product is an infinity. -/
theorem fused_of_product_inf {n : Bool} (h : product (F.unpack a) (F.unpack b) = (some (.inf n), invalid)) :
    (∀ v, (F.unpack c).HasValue v → F.fused rm n1 n2 a b c = ⟨F.withSign (n != n1) F.infMag, 0⟩) ∧
      ∀ sc, F.unpack c = .inf sc → F.fused rm n1 n2 a b c =
        if (n != n1) ≠ (sc != n2) then ⟨F.canonicalNan, NV⟩ else ⟨F.withSign (sc != n2) F.infMag, 0⟩ := by
  rw [fused_of_product F rm n1 n2 h, negateIf_inf]
  refine ⟨fun v hc => ?_, fun sc hc => ?_⟩
  · obtain ⟨mc, ec, uc, -⟩ := unpack_of_hasValue hc
    rw [uc, negateIf_fin]; rfl
  · rw [hc, negateIf_inf, sum_inf_inf, ite_not]

end

end

end Sys2Proof.Ieee

open Sys2Proof Sys2Proof.Ieee

/-- Settles O50: each operation with a NaN gives `FFormat.nan`, invalid where an operand is a signaling NaN. -/
theorem nanResultsAreCanonical : Obligations.NanResultsAreCanonical := by
  intro F canonical hF m n1 n2 a b c
  obtain rfl := eq_canonicalNan_of_mem hF
  refine ⟨fun G _ h => ?convert, fun h => ?binary, fun h => ?sqrt, fun h => ?fused⟩
  case convert => rw [convert_of_nan F m h]; exact ⟨rfl, fun hs => by rw [hs]; rfl⟩
  case binary =>
    rw [add_of_nan F m h, sub_of_nan F m h, mul_of_nan F m h, div_of_nan F m h]
    refine ⟨rfl, rfl, rfl, rfl, fun hs => ?_⟩
    rw [← Bool.or_eq_true] at hs
    rw [hs]; exact ⟨rfl, rfl, rfl, rfl⟩
  case sqrt => rw [sqrt_of_nan F m h]; exact ⟨rfl, fun hs => by rw [hs]; rfl⟩
  case fused =>
    obtain ⟨invalid, hn, hs⟩ := fused_of_nan F m n1 n2 h
    rw [hn]; exact ⟨rfl, fun h => by rw [hs h]; rfl⟩

/-- Settles O51: a sum or a product with an infinity is one of a few cases, and each operation is made of the two. -/
theorem infinityResults : Obligations.InfinityResults := by
  intro F canonical hF m n1 n2 sa sb sc a b c va vb vc
  obtain rfl := eq_canonicalNan_of_mem hF
  refine ⟨fun ha => ⟨fun hb => ?finite, fun hb => ?infinite, ?sqrt⟩, fun ha hb hc => ?addend, fused_comm F m n1 n2,
    fun G _ ha => ?convert⟩
  case finite =>
    obtain ⟨mb, eb, ub, rfl⟩ := unpack_of_hasValue hb
    have hp := congrArg₂ product ha ub
    rw [product_inf_fin] at hp
    simp only [value_eq_zero_iff]
    refine ⟨?_, ?_, ?_, ?_, ?mul, ?mulComm, ?_, ?_, ?fused⟩
    case mulComm => rw [FFormat.mul, FFormat.mul, product_comm]
    case mul =>
      split at hp
      · next h0 => rw [mul_of_no_product F m hp, if_pos h0]; rfl
      · next h0 => rw [mul_of_product F m hp, if_neg h0]; rfl
    case fused =>
      split at hp
      · next h0 =>
        simp only [fused_of_no_product F m n1 n2 hp, h0, true_or, if_true]
        exact ⟨fun _ => rfl, fun _ => rfl⟩
      · next h0 =>
        obtain ⟨finite, infinite⟩ := fused_of_product_inf (c := c) F m n1 n2 hp
        simp only [h0, false_or, if_false]
        exact ⟨finite vc, infinite sc⟩
    all_goals
      simp [FFormat.add, FFormat.sub, FFormat.div, FFormat.sum, FFormat.infinity, FFormat.zero, FVal.negate, ha, ub, bne_comm]
  case infinite =>
    have hp : product (F.unpack a) (F.unpack b) = (some (.inf (sa != sb)), false) := congrArg₂ product ha hb
    obtain ⟨finite, infinite⟩ := fused_of_product_inf (c := c) F m n1 n2 hp
    refine ⟨?add, ?sub, mul_of_product F m hp, ?div, finite vc, infinite sc⟩
    case add => cases sa <;> cases sb <;> simp [FFormat.add, ha, hb, sum_inf_inf]
    case sub => cases sa <;> cases sb <;> simp [FFormat.sub, ha, hb, sum_inf_inf, FVal.negate]
    case div => rw [FFormat.div, ha, hb]; rfl
  case sqrt => rw [FFormat.sqrt, ha]; cases sa <;> rfl
  case addend =>
    obtain ⟨ma, ea, ua, -⟩ := unpack_of_hasValue ha
    obtain ⟨mb, eb, ub, -⟩ := unpack_of_hasValue hb
    rw [fused_of_product F m n1 n2 (congrArg₂ product ua ub), negateIf_fin, hc, negateIf_inf]; rfl
  case convert => rw [FFormat.convert, ha]; rfl

end

section
/-! The classes of the patterns of a format (44_f_extension.md R224, R231). -/

namespace Sys2Proof.Ieee

section
variable (F : FFormat)

/-- The fields of a magnitude under a sign. -/
theorem withSign_fields (neg : Bool) {mag : Nat} (h : mag < F.signWeight) :
    F.signBit (F.withSign neg mag) = neg ∧ F.expField (F.withSign neg mag) = mag / 2 ^ F.fracBits ∧
      F.fracField (F.withSign neg mag) = mag % 2 ^ F.fracBits := by
  have hw : F.signWeight = 2 ^ F.fracBits * 2 ^ F.expBits := by rw [FFormat.signWeight, pow_add, mul_comm]
  have hexp : mag / 2 ^ F.fracBits < 2 ^ F.expBits := Nat.div_lt_of_lt_mul (hw ▸ h)
  cases neg
  · refine ⟨by simp [FFormat.withSign, FFormat.signBit, Nat.div_eq_of_lt h], Nat.mod_eq_of_lt hexp, rfl⟩
  · have hs : (F.signWeight + mag) / F.signWeight = 1 := by
      rw [Nat.add_div_left _ (by omega), Nat.div_eq_of_lt h]
    simp only [FFormat.withSign, FFormat.signBit, FFormat.expField, FFormat.fracField, if_true, hs]
    rw [hw, Nat.mul_add_div (by positivity), Nat.mul_add_mod, Nat.add_mod_left, Nat.mod_eq_of_lt hexp]
    exact ⟨rfl, rfl, rfl⟩

/-- What a magnitude under a sign stands for, by where it lies. -/
theorem unpack_withSign (neg : Bool) {mag : Nat} (h : mag < F.signWeight) : F.unpack (F.withSign neg mag) =
    if F.infMag ≤ mag then (if mag = F.infMag then .inf neg else .nan (mag < F.canonicalNan))
    else if mag < 2 ^ F.fracBits then .fin neg mag F.minQ
    else .fin neg (2 ^ F.fracBits + mag % 2 ^ F.fracBits) (F.minQ + (mag / 2 ^ F.fracBits : Nat) - 1) := by
  obtain ⟨hsign, hexp, hfrac⟩ := withSign_fields F neg h
  have hp : 0 < 2 ^ F.fracBits := by positivity
  have hdiv := Nat.div_add_mod' mag (2 ^ F.fracBits)
  have hmod := Nat.mod_lt mag hp
  have hw : F.signWeight = 2 ^ F.fracBits * (F.maxExp + 1) := by
    rw [FFormat.signWeight, FFormat.maxExp, Nat.sub_add_cancel (Nat.one_le_two_pow), pow_add, mul_comm]
  have hle : mag / 2 ^ F.fracBits ≤ F.maxExp := Nat.lt_succ_iff.1 (Nat.div_lt_of_lt_mul (hw ▸ h))
  have hinf : F.infMag = F.maxExp * 2 ^ F.fracBits := rfl
  have hnan : F.canonicalNan = F.infMag + 2 ^ (F.fracBits - 1) := rfl
  simp only [FFormat.unpack, hsign, hexp, hfrac]
  rcases hle.eq_or_lt with hq | hq
  · rw [hq, ← hinf] at hdiv
    rw [if_pos hq, if_pos (show F.infMag ≤ mag by omega)]
    by_cases h0 : mag % 2 ^ F.fracBits = 0
    · rw [if_pos h0, if_pos (by omega)]
    · rw [if_neg h0, if_neg (by omega)]
      exact congrArg FVal.nan (decide_eq_decide.2 ⟨fun _ => by omega, fun _ => by omega⟩)
  · have hlt : mag < F.infMag := by rwa [Nat.div_lt_iff_lt_mul hp] at hq
    rw [if_neg hq.ne, if_neg (not_le.2 hlt)]
    by_cases hs : mag < 2 ^ F.fracBits
    · rw [if_pos (Nat.div_eq_of_lt hs), if_pos hs, Nat.mod_eq_of_lt hs]
    · rw [if_neg (Nat.div_pos (not_lt.1 hs) hp).ne', if_neg hs]

/-- The classes, by the magnitude of a pattern and its sign. -/
theorem classBit_withSign (neg : Bool) {mag : Nat} (h : mag < F.signWeight) :
    F.classBit (F.withSign neg mag) =
      if F.infMag ≤ mag then
        if mag = F.infMag then (if neg then 0 else 7) else if mag < F.canonicalNan then 8 else 9
      else if mag = 0 then (if neg then 3 else 4) else if mag < 2 ^ F.fracBits then (if neg then 2 else 5)
      else if neg then 1 else 6 := by
  have hp : 0 < 2 ^ F.fracBits := by positivity
  rw [FFormat.classBit, unpack_withSign F neg h]
  by_cases hi : F.infMag ≤ mag
  · by_cases he : mag = F.infMag
    · simp [he]
    · simp [hi, he]
  · by_cases hs : mag < 2 ^ F.fracBits
    · simp [hi, hs]
    · simp [hi, hs, show ¬mag = 0 by omega]

/-- Every pattern of the format's width is a magnitude under a sign. -/
theorem exists_withSign {a : Nat} (h : a < 2 * F.signWeight) : ∃ neg mag, mag < F.signWeight ∧ a = F.withSign neg mag := by
  by_cases ha : a < F.signWeight
  · exact ⟨false, a, ha, rfl⟩
  · exact ⟨true, a - F.signWeight, by omega, (Nat.add_sub_of_le (by omega)).symm⟩

end

end Sys2Proof.Ieee

open Sys2Proof Sys2Proof.Ieee

/-- Settles O56: the class of a pattern goes by its sign and by where its magnitude lies between the least normal number, the
infinity and the least quiet NaN. -/
theorem classesOfPatterns : Obligations.ClassesOfPatterns := by
  refine ⟨fun a ha => ⟨rfl, ?single⟩, fun a ha => ⟨rfl, ?double⟩⟩
  case single =>
    obtain ⟨neg, mag, hm, rfl⟩ := exists_withSign single ha
    have hc := classBit_withSign single neg hm
    rw [show single.infMag = 0x7F800000 by decide, show single.canonicalNan = 0x7FC00000 by decide,
      show 2 ^ single.fracBits = 0x00800000 by decide] at hc
    rw [show single.signWeight = 0x80000000 by decide] at hm
    generalize single.classBit _ = k at hc ⊢
    rw [FFormat.withSign, show single.signWeight = 0x80000000 by decide]
    split_ifs at hc ⊢ <;> omega
  case double =>
    obtain ⟨neg, mag, hm, rfl⟩ := exists_withSign double ha
    have hc := classBit_withSign double neg hm
    rw [show double.infMag = 0x7FF0000000000000 by decide, show double.canonicalNan = 0x7FF8000000000000 by decide,
      show 2 ^ double.fracBits = 0x0010000000000000 by decide] at hc
    rw [show double.signWeight = 0x8000000000000000 by decide] at hm
    generalize double.classBit _ = k at hc ⊢
    rw [FFormat.withSign, show double.signWeight = 0x8000000000000000 by decide]
    split_ifs at hc ⊢ <;> omega

end

section
/-! The comparisons and FMIN and FMAX (44_f_extension.md R219 to R223, R231): the order of two FP values is that of their places
on the rational line with its two ends. -/

namespace Sys2Proof.Ieee

/-- A magnitude brought to a smaller exponent has the same value. -/
theorem signedMant_aligned (neg : Bool) (m : Nat) {e ea : Int} (h : e ≤ ea) :
    (signedMant neg (m * 2 ^ (ea - e).toNat) : ℚ) * (2 : ℚ) ^ e = (signedMant neg m : ℚ) * (2 : ℚ) ^ ea := by
  rw [signedMant_mul, signedMant_mul]
  congr 1
  push_cast
  rw [mul_assoc, ← zpow_natCast, ← zpow_add₀ (by norm_num), Int.toNat_of_nonneg (by omega), sub_add_cancel]

section
variable {a b : FVal} {pa pb : WithBot (WithTop ℚ)}

theorem FVal.HasPlace.not_nan (h : a.HasPlace pa) : a.isNan = false := by
  cases a with
  | nan s => exact h.elim
  | inf n | fin n m e => rfl

theorem FVal.HasPlace.not_signaling (h : a.HasPlace pa) : a.isSignaling = false := by
  cases a with
  | nan s => exact h.elim
  | inf n | fin n m e => rfl

theorem less_iff (ha : a.HasPlace pa) (hb : b.HasPlace pb) : a.less b = true ↔ pa < pb := by
  cases a with
  | nan s => exact ha.elim
  | inf na =>
    cases b with
    | nan s => exact hb.elim
    | inf nb => cases na <;> cases nb <;> simp_all [FVal.HasPlace, FVal.less]
    | fin nb mb eb =>
      obtain ⟨q, -, rfl⟩ := hb
      cases na <;> simp_all [FVal.HasPlace, FVal.less]
  | fin na ma ea =>
    obtain ⟨qa, hqa, rfl⟩ := ha
    cases b with
    | nan s => exact hb.elim
    | inf nb =>
      obtain rfl := hb
      cases nb
      · exact iff_of_true rfl (WithBot.coe_lt_coe.2 (WithTop.coe_lt_top qa))
      · exact iff_of_false Bool.false_ne_true not_lt_bot
    | fin nb mb eb =>
      obtain ⟨qb, hqb, rfl⟩ := hb
      have hpos : (0 : ℚ) < (2 : ℚ) ^ min ea eb := by positivity
      rw [FVal.less, decide_eq_true_iff, WithBot.coe_lt_coe, WithTop.coe_lt_coe, hqa, hqb,
        ← signedMant_aligned na ma (min_le_left ea eb), ← signedMant_aligned nb mb (min_le_right ea eb),
        mul_lt_mul_iff_left₀ hpos, Int.cast_lt]

/-- A value with a NaN is not less than another. -/
theorem less_of_nan (h : a.isNan = true ∨ b.isNan = true) : a.less b = false := by
  cases a <;> cases b <;> simp [FVal.isNan] at h <;> rfl

/-- The first of two in the order of FMIN is at most the second; else the second is at most the first. -/
theorem before_iff_le (ha : a.HasPlace pa) (hb : b.HasPlace pb) : if a.before b then pa ≤ pb else pb ≤ pa := by
  have hab := less_iff ha hb
  have hba := less_iff hb ha
  split
  · next h =>
    simp only [FVal.before, Bool.or_eq_true, Bool.and_eq_true, Bool.not_eq_true', ← Bool.not_eq_true, hab, hba] at h
    rcases h with h | ⟨⟨h, -⟩, -⟩
    · exact h.le
    · exact not_lt.1 h
  · next h =>
    simp only [FVal.before, Bool.or_eq_true, hab, not_or] at h
    exact not_lt.1 h.1

end

section
variable (F : FFormat) {a b : Nat} {pa pb : WithBot (WithTop ℚ)}

/-- FMIN and FMAX of two that are no NaN. -/
theorem minMax_bits (larger : Bool) (ha : (F.unpack a).isNan = false) (hb : (F.unpack b).isNan = false) :
    (F.minMax larger a b).bits =
      if (if larger then (F.unpack b).before (F.unpack a) else (F.unpack a).before (F.unpack b)) then a else b := by
  simp [FFormat.minMax, ha, hb]

/-- FMIN gives the operand of the smaller place. -/
theorem minMax_false_spec (ha : (F.unpack a).HasPlace pa) (hb : (F.unpack b).HasPlace pb) :
    ((F.minMax false a b).bits = a ∧ min pa pb = pa) ∨ ((F.minMax false a b).bits = b ∧ min pa pb = pb) := by
  have order := before_iff_le ha hb
  rw [minMax_bits F false ha.not_nan hb.not_nan, if_neg Bool.false_ne_true]
  split at order
  · next h => exact .inl ⟨if_pos h, min_eq_left order⟩
  · next h => exact .inr ⟨if_neg h, min_eq_right order⟩

/-- FMAX gives the operand of the larger place. -/
theorem minMax_true_spec (ha : (F.unpack a).HasPlace pa) (hb : (F.unpack b).HasPlace pb) :
    ((F.minMax true a b).bits = a ∧ max pa pb = pa) ∨ ((F.minMax true a b).bits = b ∧ max pa pb = pb) := by
  have order := before_iff_le hb ha
  rw [minMax_bits F true ha.not_nan hb.not_nan, if_pos rfl]
  split at order
  · next h => exact .inl ⟨if_pos h, max_eq_left order⟩
  · next h => exact .inr ⟨if_neg h, max_eq_right order⟩

theorem signalingFlags_of_place {va vb : FVal} (ha : va.HasPlace pa) (hb : vb.HasPlace pb) : signalingFlags va vb = 0 := by
  simp [signalingFlags, ha.not_signaling, hb.not_signaling]

theorem nanFlags_of_place {va vb : FVal} (ha : va.HasPlace pa) (hb : vb.HasPlace pb) : nanFlags va vb = 0 := by
  simp [nanFlags, ha.not_nan, hb.not_nan]

end

end Sys2Proof.Ieee

open Sys2Proof Sys2Proof.Ieee

/-- Settles O55: the order of two values that are no NaN is that of their places, and a NaN has no place in it. -/
theorem comparisonsFollowValues : Obligations.ComparisonsFollowValues := by
  intro F _ a b
  refine ⟨fun pa pb ha hb => ?places, fun h => ?nan⟩
  case places =>
    have flags := signalingFlags_of_place ha hb
    have lt : (F.unpack a).less (F.unpack b) = decide (pa < pb) := Bool.eq_iff_iff.2 (by simp [less_iff ha hb])
    have gt : (F.unpack b).less (F.unpack a) = decide (pb < pa) := Bool.eq_iff_iff.2 (by simp [less_iff hb ha])
    refine ⟨?eq, ?lt, ?le, ?_, ?_, flags, ?_, ?_, flags⟩
    case eq =>
      have same : pa = pb ↔ pb ≤ pa ∧ pa ≤ pb := le_antisymm_iff.trans and_comm
      simp [FFormat.eq, ha.not_nan, hb.not_nan, flags, lt, gt, same]
    case lt => simp [FFormat.lt, nanFlags_of_place ha hb, lt]
    case le => simp [FFormat.le, nanFlags_of_place ha hb, ha.not_nan, hb.not_nan, gt]
    · exact (minMax_false_spec F ha hb).imp And.left And.left
    · obtain ⟨h, hp⟩ | ⟨h, hp⟩ := minMax_false_spec F ha hb <;> rwa [h, hp]
    · exact (minMax_true_spec F ha hb).imp And.left And.left
    · obtain ⟨h, hp⟩ | ⟨h, hp⟩ := minMax_true_spec F ha hb <;> rwa [h, hp]
  case nan =>
    have flags : nanFlags (F.unpack a) (F.unpack b) = NV := by simp [nanFlags, h]
    refine ⟨?lt, ?le, ?eq, rfl⟩
    case lt => rw [FFormat.lt, less_of_nan h, flags]; rfl
    case le => rcases h with h | h <;> simp [FFormat.le, h, flags]
    case eq => rcases h with h | h <;> simp [FFormat.eq, h]

end

section
/-! Conversion to an integer, and FMIN and FMAX with a NaN or zeros (44_f_extension.md R219, R220, R225, R226, R231,
10_state.md R37). -/

namespace Sys2Proof.Ieee

/-! ### Rounding a finite value to an integer -/

/-- Rounding to an integer shifts the digits below the point out of the magnitude. -/
theorem roundToInt_eq (rm : RoundingMode) (neg : Bool) (m : Nat) (e : Int) : roundToInt rm neg m e =
    (roundShift rm neg (m * 2 ^ e.toNat) (-e).toNat, m * 2 ^ e.toNat % 2 ^ (-e).toNat != 0) := by
  unfold roundToInt
  split
  · next h => simp [show (-e).toNat = 0 by omega, roundShift, Nat.mod_one]
  · next h => simp [show e.toNat = 0 by omega]

/-- A magnitude, its digits below the point shifted out, is the value of a finite pattern. -/
theorem mant_mul_zpow (m : Nat) (e : Int) :
    (m : ℚ) * (2 : ℚ) ^ e = ((m * 2 ^ e.toNat : Nat) : ℚ) / ((2 ^ (-e).toNat : Nat) : ℚ) := by
  rw [eq_div_iff (by positivity)]
  push_cast
  rw [mul_assoc, ← zpow_natCast, ← zpow_natCast, ← zpow_add₀ (by norm_num)]
  congr 2; omega

theorem signedMant_cast (neg : Bool) (n : Nat) : ((signedMant neg n : Int) : ℚ) = signed neg (n : ℚ) := by
  cases neg <;> simp [signedMant, signed]

/-- A rounded magnitude with its sign is the integer that the mode rounds the signed number to. -/
theorem RoundedReal.roundsToInt {rm : RoundingMode} {neg : Bool} {w : ℚ} {n : Nat} (h : RoundedReal rm neg w n) (hw : 0 ≤ w) :
    RoundsToInt rm (signed neg w) (signedMant neg n) := by
  have low : (n : ℚ) < w + 1 := by exact_mod_cast h.low
  have high : w < n + 1 := by exact_mod_cast h.high
  have down : truncates rm neg = true → (n : ℚ) ≤ w := fun t => by exact_mod_cast h.down t
  have up : growsMagnitude rm neg = true → w ≤ n := fun t => by exact_mod_cast h.up t
  have near : rm = .rne ∨ rm = .rmm → |(n : ℚ) - w| ≤ 1 / 2 := fun t => by
    have := h.near t
    rify; exact this
  have tieEven : rm = .rne → |(n : ℚ) - w| = 1 / 2 → n % 2 = 0 := fun t he =>
    h.tieEven t (by rify at he; exact he)
  have tieAway : rm = .rmm → w ≠ n + 1 / 2 := fun t he => h.tieAway t (by rify at he; exact he)
  have hn : (0 : ℚ) ≤ n := Nat.cast_nonneg n
  have dist : |signed neg w - signed neg (n : ℚ)| = |(n : ℚ) - w| := by
    cases neg
    · exact abs_sub_comm _ _
    · simp only [signed, if_true]; congr 1; ring
  unfold RoundsToInt
  rw [signedMant_cast, dist, abs_signed neg hw, abs_signed neg hn]
  refine ⟨?rne, ?rtz, ?rdn, ?rup, ?rmm⟩
  case rne =>
    rintro rfl
    refine ⟨near (.inl rfl), fun he => ?_⟩
    have even := tieEven rfl he
    cases neg <;> simp [signedMant] <;> omega
  case rtz =>
    rintro rfl
    refine ⟨down rfl, high, ?_⟩
    cases neg <;> simp only [signed, if_true, if_false, Bool.false_eq_true] <;> nlinarith
  case rdn =>
    rintro rfl
    cases neg
    · exact ⟨down rfl, high⟩
    · exact ⟨neg_le_neg (up rfl), by simp only [signed, if_true]; linarith⟩
  case rup =>
    rintro rfl
    cases neg
    · exact ⟨up rfl, low⟩
    · exact ⟨neg_le_neg (down rfl), by simp only [signed, if_true]; linarith⟩
  case rmm =>
    rintro rfl
    refine ⟨near (.inr rfl), fun he => ?_⟩
    rcases (abs_eq (by norm_num)).1 he with h1 | h1
    · linarith
    · exact absurd (by linarith) (tieAway rfl)

/-- The integer of a finite value, and whether it is inexact. -/
theorem roundToInt_spec (rm : RoundingMode) (neg : Bool) (m : Nat) (e : Int) :
    RoundsToInt rm ((signedMant neg m : ℚ) * (2 : ℚ) ^ e) (signedMant neg (roundToInt rm neg m e).1) ∧
      ((roundToInt rm neg m e).2 = false ↔
        ((signedMant neg (roundToInt rm neg m e).1 : Int) : ℚ) = (signedMant neg m : ℚ) * (2 : ℚ) ^ e) := by
  rw [roundToInt_eq, signedMant_mul, mant_mul_zpow]
  generalize m * 2 ^ e.toNat = s
  generalize (-e).toNat = k
  have stands : StandsFor s (2 ^ k) (((s : ℚ) / ((2 ^ k : Nat) : ℚ) : ℚ) : ℝ) :=
    .inl (by push_cast; exact div_mul_cancel₀ _ (by positivity))
  obtain ⟨rounded, exact⟩ := (roundShift_spec rm neg s k).real (by positivity) stands
  generalize roundShift rm neg s k = n at *
  refine ⟨rounded.roundsToInt (by positivity), ?_⟩
  have same : ((n : ℝ) = ((s : ℚ) / ((2 ^ k : Nat) : ℚ) : ℚ)) ↔ (n : ℚ) = (s : ℚ) / ((2 ^ k : Nat) : ℚ) := by norm_cast
  rw [bne_eq_false_iff_eq, exact, same, signedMant_cast]
  cases neg <;> simp [signed]

/-! ### The conversion -/

section
variable (F : FFormat) (rm : RoundingMode) {lo hi : Int} {a : Nat}

theorem toInt_of_nan (h : (F.unpack a).isNan = true) : F.toInt rm lo hi a = (hi, NV) := by
  unfold FFormat.toInt
  generalize F.unpack a = va at h ⊢
  cases va <;> simp [FVal.isNan] at h
  rfl

/-- A pattern at an end of the line is the infinity of that end. -/
theorem toInt_of_place {neg : Bool} (h : (F.unpack a).HasPlace (if neg then ⊥ else ⊤)) :
    F.toInt rm lo hi a = (if neg then lo else hi, NV) := by
  have hinf : F.unpack a = .inf neg := by
    generalize F.unpack a = va at h ⊢
    cases va with
    | nan s => exact h.elim
    | inf n => cases neg <;> cases n <;> simp_all [FVal.HasPlace]
    | fin n m e =>
      obtain ⟨q, -, hq⟩ := h
      cases neg
      · exact absurd (WithBot.coe_inj.1 hq.symm) (WithTop.coe_ne_top)
      · exact absurd hq.symm (WithBot.coe_ne_bot)
  rw [FFormat.toInt, hinf]

theorem toInt_of_hasValue {v : ℚ} (h : (F.unpack a).HasValue v) : ∃ z : Int, RoundsToInt rm v z ∧
    F.toInt rm lo hi a = if z < lo then (lo, NV) else if hi < z then (hi, NV) else (z, if (z : ℚ) = v then 0 else NX) := by
  obtain ⟨m, e, ha, rfl⟩ := unpack_of_hasValue h
  obtain ⟨rounds, exact⟩ := roundToInt_spec rm (F.signBit a) m e
  refine ⟨_, rounds, ?_⟩
  rw [FFormat.toInt, ha]
  simp only [← exact]
  cases (roundToInt rm (F.signBit a) m e).2 <;> rfl

/-- The integer is within its bounds, whatever the pattern. -/
theorem toInt_mem (h : lo ≤ hi) : lo ≤ (F.toInt rm lo hi a).1 ∧ (F.toInt rm lo hi a).1 ≤ hi := by
  unfold FFormat.toInt
  cases F.unpack a with
  | nan s => exact ⟨h, le_refl hi⟩
  | inf n => cases n <;> simp [h]
  | fin n m e => dsimp only; split_ifs <;> simp <;> omega

/-! ### FMIN and FMAX -/

variable {b : Nat}

/-- FMIN and FMAX give the operand that is no NaN. -/
theorem minMax_of_nan (larger : Bool) (ha : (F.unpack a).isNan = true) (hb : (F.unpack b).isNan = false) :
    (F.minMax larger a b).bits = b ∧ (F.minMax larger b a).bits = b := by
  simp [FFormat.minMax, ha, hb]

end

/-- -0 comes before +0. -/
theorem minMax_zeros {F : FFormat} (hF : F ∈ [single, double]) :
    (F.minMax false F.signWeight 0).bits = F.signWeight ∧ (F.minMax false 0 F.signWeight).bits = F.signWeight ∧
      (F.minMax true F.signWeight 0).bits = 0 ∧ (F.minMax true 0 F.signWeight).bits = 0 := by
  rw [List.mem_pair] at hF
  obtain rfl | rfl := hF <;> decide

end Sys2Proof.Ieee

open Sys2Proof Sys2Proof.Ieee

/-- Settles O57: FMIN and FMAX by the cases of their operands, the conversion by those of its own. -/
theorem minMaxAndSaturation : Obligations.MinMaxAndSaturation := by
  intro F hF
  refine ⟨fun larger a b ha hb => minMax_of_nan F larger ha hb, ?zeros, fun m lo hi a h => ?toInt⟩
  case zeros => rintro a b rfl rfl; exact minMax_zeros hF
  case toInt =>
    obtain ⟨low, high⟩ := toInt_mem F m (a := a) h
    exact ⟨low, high, toInt_of_nan F m, toInt_of_place F m (neg := true), toInt_of_place F m (neg := false),
      fun _ hv => toInt_of_hasValue F m hv⟩

end

section
/-! The exact results of the arithmetic, rounded once (44_f_extension.md R207 to R215, R227, R228, R231): the number that each
operation gives to `FFormat.round`, said of FP values, so that a fused operation is one sum. -/

namespace Sys2Proof.Ieee

theorem sound_of_mem {F : FFormat} (h : F ∈ [single, double]) : F.Sound := by
  rw [List.mem_pair] at h
  obtain rfl | rfl := h
  · exact single_sound
  · exact double_sound

/-- A rounded result without flags is exact. -/
theorem FFormat.Rounds.exact {F : FFormat} {rm : RoundingMode} {v : ℚ} {r : FResult} (h : F.Rounds rm (v : ℝ) r)
    (h0 : r.flags = 0) : (F.unpack r.bits).HasValue v := by
  obtain ⟨w, hw, inexact, -⟩ := h.1 (by rw [h0]; rfl)
  have : (w : ℝ) = v := by
    by_contra hne
    exact inexact.2 hne (by rw [h0]; rfl)
  rwa [← Rat.cast_injective this]

section
variable (F : FFormat) (hF : F.Sound) (rm : RoundingMode)
include hF

/-! ### Sums -/

/-- An integer number of units of a place, rounded once. -/
theorem round_int_rounds (t e : Int) (neg : Bool) :
    F.Rounds rm (((t : ℚ) * (2 : ℚ) ^ e : ℚ) : ℝ) (if t = 0 then F.zero neg else F.round rm (t < 0) t.natAbs e) := by
  split
  · next h0 => simpa [h0] using zero_rounds F hF rm neg
  · next h0 =>
    have h := round_rounds_exact F hF rm (decide (t < 0)) (Int.natAbs_ne_zero.2 h0) e
    have ht : signedMant (decide (t < 0)) t.natAbs = t := by
      by_cases hneg : t < 0 <;>
        simp only [signedMant, hneg, decide_true, decide_false, if_true, if_false, Bool.false_eq_true] <;> omega
    have hx : (t : ℚ) * (2 : ℚ) ^ e = signed (decide (t < 0)) ((t.natAbs : ℚ) * (2 : ℚ) ^ e) := by rw [← signedMant_mul, ht]
    rw [hx, signed_ratCast]
    push_cast at h ⊢
    exact h

/-- The sum of two finite values. -/
theorem sum_rounds {a b : FVal} {va vb : ℚ} (ha : a.HasValue va) (hb : b.HasValue vb) :
    F.Rounds rm ((va + vb : ℚ) : ℝ) (F.sum rm a b) := by
  cases a with
  | nan s | inf n => exact ha.elim
  | fin na ma ea =>
    cases b with
    | nan s | inf n => exact hb.elim
    | fin nb mb eb =>
      have h := round_int_rounds F hF rm
        (signedMant na (ma * 2 ^ (ea - min ea eb).toNat) + signedMant nb (mb * 2 ^ (eb - min ea eb).toNat)) (min ea eb)
        (zeroSumSign rm na nb)
      rw [Int.cast_add, add_mul, signedMant_aligned na ma (min_le_left ea eb), signedMant_aligned nb mb (min_le_right ea eb),
        ← ha, ← hb] at h
      exact h

/-! ### Products and conversions -/

/-- A finite value rounded to the format. -/
theorem pack_rounds {a : FVal} {va : ℚ} (ha : a.HasValue va) : F.Rounds rm (va : ℝ) (F.pack rm a) := by
  cases a with
  | nan s | inf n => exact ha.elim
  | fin n m e =>
    obtain rfl := ha
    unfold FFormat.pack
    dsimp only
    split
    · next h0 => rw [value_eq_zero_iff.2 h0, Rat.cast_zero]; exact zero_rounds F hF rm n
    · next h0 =>
      have h := round_rounds_exact F hF rm n h0 e
      rw [signedMant_mul, signed_ratCast]
      simpa using h

end

theorem hasValue_negate {a : FVal} {v : ℚ} (h : a.HasValue v) : a.negate.HasValue (-v) := by
  cases a with
  | nan s | inf n => exact h.elim
  | fin n m e =>
    obtain rfl := h
    cases n <;> simp [FVal.negate, FVal.HasValue, signedMant]

theorem hasValue_negateIf (neg : Bool) {a : FVal} {v : ℚ} (h : a.HasValue v) :
    (a.negateIf neg).HasValue (if neg then -v else v) := by
  cases neg
  · exact h
  · exact hasValue_negate h

/-- The exact product of two finite values. -/
theorem product_hasValue {a b : FVal} {va vb : ℚ} (ha : a.HasValue va) (hb : b.HasValue vb) :
    ∃ p, product a b = (some p, false) ∧ p.HasValue (va * vb) := by
  cases a with
  | nan s | inf n => exact ha.elim
  | fin na ma ea =>
    cases b with
    | nan s | inf n => exact hb.elim
    | fin nb mb eb =>
      refine ⟨_, rfl, ?_⟩
      obtain rfl := ha
      obtain rfl := hb
      rw [FVal.HasValue, zpow_add₀ (by norm_num)]
      cases na <;> cases nb <;> simp [signedMant] <;> ring

end Sys2Proof.Ieee

open Sys2Proof Sys2Proof.Ieee

/-- Settles O52: a difference is a sum with the second value negated; a result without flags is exact since it is rounded once. -/
theorem sumsAndProductsRound : Obligations.SumsAndProductsRound := by
  intro F hF m a b va vb ha hb
  have sound := sound_of_mem hF
  have add : F.Rounds m ((va + vb : ℚ) : ℝ) (F.add m a b) := sum_rounds F sound m ha hb
  have sub : F.Rounds m ((va - vb : ℚ) : ℝ) (F.sub m a b) := by
    rw [sub_eq_add_neg]; exact sum_rounds F sound m ha (hasValue_negate hb)
  have mul : F.Rounds m ((va * vb : ℚ) : ℝ) (F.mul m a b) := by
    obtain ⟨p, hp, value⟩ := product_hasValue ha hb
    rw [mul_of_product F m hp]; exact pack_rounds F sound m value
  exact ⟨add, sub, mul, add.exact, sub.exact, mul.exact⟩

/-- Settles O54: a fused operation is the sum of the exact product and the addend; an integer is a number of units. -/
theorem fusedAndConversionsRound : Obligations.FusedAndConversionsRound := by
  intro F hF m
  have sound := sound_of_mem hF
  refine ⟨fun n1 n2 a b c va vb vc ha hb hc => ?fused, fun v => ?ofInt, fun G a va _ ha => pack_rounds F sound m ha⟩
  case fused =>
    obtain ⟨p, hp, value⟩ := product_hasValue ha hb
    rw [fused_of_product F m n1 n2 hp]
    exact sum_rounds F sound m (hasValue_negateIf n1 value) (hasValue_negateIf n2 hc)
  case ofInt =>
    have h := round_int_rounds F sound m v 0 false
    rw [zpow_zero, mul_one, Rat.cast_intCast] at h
    exact h

end

section
/-! The quotient and the square root, rounded once (44_f_extension.md R214, R215): each gives `FFormat.round` the integer part of
the number and a last digit that says whether a remainder is left. -/

namespace Sys2Proof.Ieee

section
variable (F : FFormat) (hF : F.Sound) (rm : RoundingMode)
include hF

/-- A number whose integer part is `q`, with a remainder where it is no integer, rounded once. -/
theorem round_sticky_rounds (neg : Bool) {q rem : Nat} {y : ℝ} (e : Int) (hq : 2 ^ (F.fracBits + 2) ≤ q) (h0 : rem = 0 → y = q)
    (h1 : rem ≠ 0 → q < y ∧ y < q + 1) :
    F.Rounds rm (signed neg (y * (2 : ℝ) ^ e)) (F.round rm neg (sticky q rem) (e - 1)) := by
  have hu : (0 : ℝ) < (2 : ℝ) ^ (e - 1) := by positivity
  have he : (2 : ℝ) ^ e = 2 * (2 : ℝ) ^ (e - 1) := by rw [← zpow_one_add₀ (by norm_num), add_sub_cancel]
  rw [he]
  refine round_rounds_sticky F hF rm neg (e - 1) hq (fun h => ?_) fun h => ?_
  · rw [h0 h]; ring
  · obtain ⟨low, high⟩ := h1 h
    constructor <;> nlinarith

/-! ### The quotient -/

/-- The magnitude of a quotient is an integer number of places, at least `2 ^ (fracBits + 2)`, and the rest of the division. -/
theorem divFin_rounds (neg : Bool) {ma mb : Nat} (ha : ma ≠ 0) (hb : mb ≠ 0) (ea eb : Int) :
    F.Rounds rm (signed neg ((ma : ℝ) / mb * (2 : ℝ) ^ (ea - eb))) (F.divFin rm neg ma ea mb eb) := by
  unfold FFormat.divFin
  dsimp only
  generalize hk : F.fracBits + 3 + Nat.log2 mb = k
  have hmb : (0 : ℝ) < mb := by positivity
  have hsplit := Nat.div_add_mod (ma * 2 ^ k) mb
  have hrem := Nat.mod_lt (ma * 2 ^ k) (Nat.pos_of_ne_zero hb)
  have large : 2 ^ (F.fracBits + 2) ≤ ma * 2 ^ k / mb := by
    rw [Nat.le_div_iff_mul_le (Nat.pos_of_ne_zero hb)]
    calc 2 ^ (F.fracBits + 2) * mb ≤ 2 ^ (F.fracBits + 2) * 2 ^ (Nat.log2 mb + 1) := Nat.mul_le_mul_left _ Nat.lt_log2_self.le
      _ = 1 * 2 ^ k := by rw [← pow_add, one_mul, ← hk]; congr 1; omega
      _ ≤ ma * 2 ^ k := Nat.mul_le_mul_right _ (Nat.pos_of_ne_zero ha)
  have hx : (ma : ℝ) / mb * (2 : ℝ) ^ (ea - eb) = ((ma * 2 ^ k : Nat) : ℝ) / mb * (2 : ℝ) ^ (ea - eb - k) := by
    rw [zpow_sub₀ (by norm_num) (ea - eb) k, zpow_natCast]
    push_cast; field_simp
  rw [hx]
  generalize ma * 2 ^ k = n at *
  have hn : (n : ℝ) = mb * (n / mb : Nat) + (n % mb : Nat) := by exact_mod_cast hsplit.symm
  refine round_sticky_rounds F hF rm neg _ large (fun h => ?_) fun h => ⟨?_, ?_⟩
  · rw [hn, h]; field_simp; simp
  · have : (0 : ℝ) < (n % mb : Nat) := by positivity
    rw [lt_div_iff₀ hmb]; linarith
  · have : ((n % mb : Nat) : ℝ) < mb := by exact_mod_cast hrem
    rw [div_lt_iff₀ hmb]; linarith

end

/-- The value of a quotient, sign and magnitude. -/
theorem value_div (na nb : Bool) (ma mb : Nat) (ea eb : Int) :
    (signedMant na ma : ℚ) * (2 : ℚ) ^ ea / ((signedMant nb mb : ℚ) * (2 : ℚ) ^ eb) =
      signed (na != nb) ((ma : ℚ) / mb * (2 : ℚ) ^ (ea - eb)) := by
  rw [signedMant_mul, signedMant_mul, zpow_sub₀ (by norm_num), div_mul_div_comm]
  cases na <;> cases nb <;> simp [signed, neg_div, div_neg]

/-- The quotient of two finite patterns. -/
theorem div_of_fin (F : FFormat) (rm : RoundingMode) {a b : Nat} {na nb : Bool} {ma mb : Nat} {ea eb : Int}
    (ha : F.unpack a = .fin na ma ea) (hb : F.unpack b = .fin nb mb eb) : F.div rm a b =
      if mb = 0 then if ma = 0 then F.nan true else ⟨F.withSign (na != nb) F.infMag, DZ⟩
      else if ma = 0 then F.zero (na != nb) else F.divFin rm (na != nb) ma ea mb eb := by
  rw [FFormat.div, ha, hb]; rfl

/-! ### The square root -/

/-- The digits found so far are never too large, and one more unit of the place tried is. -/
theorem isqrtFrom_spec {k n r : Nat} (low : r * r ≤ n) (high : n < (r + 2 ^ k) * (r + 2 ^ k)) :
    isqrtFrom k n r * isqrtFrom k n r ≤ n ∧ n < (isqrtFrom k n r + 1) * (isqrtFrom k n r + 1) := by
  induction k generalizing r with
  | zero => exact ⟨low, high⟩
  | succ k ih =>
    rw [isqrtFrom]
    split
    · next h => exact ih h (by rw [add_assoc, ← two_mul, ← pow_succ']; exact high)
    · next h => exact ih low (not_le.1 h)

theorem isqrt_eq_sqrt (n : Nat) : isqrt n = Nat.sqrt n := by
  have high : n < (0 + 2 ^ (Nat.log2 n / 2 + 1)) * (0 + 2 ^ (Nat.log2 n / 2 + 1)) := by
    rw [zero_add, ← pow_add]
    exact Nat.lt_log2_self.trans_le (Nat.pow_le_pow_right (by decide) (by omega))
  exact Nat.eq_sqrt.2 (isqrtFrom_spec (by omega) high)

section
variable (F : FFormat) (hF : F.Sound) (rm : RoundingMode)
include hF

/-- The radicand is scaled by an even power of two, up to the parity of its exponent. -/
theorem sqrtFin_rounds {m : Nat} (hm : m ≠ 0) (e : Int) :
    F.Rounds rm (Real.sqrt (m * (2 : ℝ) ^ e)) (F.sqrtFin rm m e) := by
  unfold FFormat.sqrtFin
  dsimp only
  generalize hk : 2 * (F.fracBits + 3) + (e % 2).toNat = k
  rw [isqrt_eq_sqrt]
  have large : 2 ^ (F.fracBits + 2) ≤ Nat.sqrt (m * 2 ^ k) := by
    rw [Nat.le_sqrt, ← pow_add]
    calc 2 ^ (F.fracBits + 2 + (F.fracBits + 2)) ≤ 1 * 2 ^ k := by
          rw [one_mul]; exact Nat.pow_le_pow_right (by decide) (by omega)
      _ ≤ m * 2 ^ k := Nat.mul_le_mul_right _ (Nat.pos_of_ne_zero hm)
  have hx : Real.sqrt (m * (2 : ℝ) ^ e) = Real.sqrt ((m * 2 ^ k : Nat) : ℝ) * (2 : ℝ) ^ ((e - k) / 2) := by
    have hj : e = k + ((e - k) / 2 + (e - k) / 2) := by omega
    have hpow : (m : ℝ) * (2 : ℝ) ^ e = ((m * 2 ^ k : Nat) : ℝ) * ((2 : ℝ) ^ ((e - k) / 2) * (2 : ℝ) ^ ((e - k) / 2)) := by
      conv_lhs => rw [hj]
      rw [zpow_add₀ (by norm_num), zpow_add₀ (by norm_num), zpow_natCast]
      push_cast; ring
    rw [hpow, Real.sqrt_mul (by positivity), Real.sqrt_mul_self (by positivity)]
  rw [hx]
  generalize m * 2 ^ k = n at *
  have low := Nat.sqrt_le n
  have high := Nat.lt_succ_sqrt n
  refine round_sticky_rounds F hF rm false _ large (fun h => ?_) fun h => ⟨?_, ?_⟩
  · have square : (n : ℝ) = (Nat.sqrt n : ℝ) * Nat.sqrt n := by exact_mod_cast show n = Nat.sqrt n * Nat.sqrt n by omega
    conv_lhs => rw [square]
    exact Real.sqrt_mul_self (Nat.cast_nonneg _)
  · rw [Real.lt_sqrt (Nat.cast_nonneg _), sq]
    exact_mod_cast show Nat.sqrt n * Nat.sqrt n < n by omega
  · rw [Real.sqrt_lt' (by positivity), sq]
    exact_mod_cast high

end

/-- The root of a finite pattern. -/
theorem sqrt_of_fin (F : FFormat) (rm : RoundingMode) {a : Nat} {neg : Bool} {m : Nat} {e : Int}
    (ha : F.unpack a = .fin neg m e) : F.sqrt rm a =
      if m = 0 then F.zero neg else if neg then F.nan true else F.sqrtFin rm m e := by
  rw [FFormat.sqrt, ha]

theorem value_neg_iff {neg : Bool} {m : Nat} {e : Int} :
    (signedMant neg m : ℚ) * (2 : ℚ) ^ e < 0 ↔ m ≠ 0 ∧ neg = true := by
  have hp : (0 : ℚ) < (2 : ℚ) ^ e := by positivity
  rw [← zero_mul ((2 : ℚ) ^ e), mul_lt_mul_iff_left₀ hp, Int.cast_lt_zero]
  cases neg <;> simp [signedMant, Nat.pos_iff_ne_zero]

end Sys2Proof.Ieee

open Sys2Proof Sys2Proof.Ieee

/-- Settles O53: where neither operand is 0 the quotient is that of the magnitudes with its sign, and the root that of a positive
number. -/
theorem quotientsAndRootsRound : Obligations.QuotientsAndRootsRound := by
  intro F canonical hF m a b va vb hva hvb
  have sound : F.Sound := sound_of_mem (List.mem_map_of_mem (f := Prod.fst) hF)
  obtain rfl := eq_canonicalNan_of_mem hF
  obtain ⟨ma, ea, ha, rfl⟩ := unpack_of_hasValue hva
  obtain ⟨mb, eb, hb, rfl⟩ := unpack_of_hasValue hvb
  simp only [ne_eq, value_eq_zero_iff]
  refine ⟨fun hb0 => ?quotient, fun ha0 hb0 => ?byZero, fun ha0 hb0 => ?zeroByZero, fun h => ?root, fun h => ?negative⟩
  case quotient =>
    rw [div_of_fin F m ha hb, if_neg hb0]
    split
    · next ha0 => rw [value_eq_zero_iff.2 ha0, zero_div, Rat.cast_zero]; exact zero_rounds F sound m _
    · next ha0 =>
      have h := divFin_rounds F sound m (F.signBit a != F.signBit b) ha0 hb0 ea eb
      rw [value_div, signed_ratCast]
      push_cast
      exact h
  case byZero => rw [div_of_fin F m ha hb, if_pos hb0, if_neg ha0]
  case zeroByZero => rw [div_of_fin F m ha hb, if_pos hb0, if_pos ha0]; rfl
  case root =>
    rw [sqrt_of_fin F m ha]
    split
    · next ha0 => rw [value_eq_zero_iff.2 ha0, Rat.cast_zero, Real.sqrt_zero]; exact zero_rounds F sound m _
    · next ha0 =>
      have positive : F.signBit a = false := by
        rw [← Bool.not_eq_true]; exact fun hn => not_lt.2 h (value_neg_iff.2 ⟨ha0, hn⟩)
      have hs := sqrtFin_rounds F sound m ha0 ea
      rw [positive, signedMant_mul, signed_ratCast, if_neg Bool.false_ne_true]
      push_cast
      exact hs
  case negative =>
    obtain ⟨ha0, hn⟩ := value_neg_iff.1 h
    rw [sqrt_of_fin F m ha, if_neg ha0, if_pos hn]; rfl

end

section
/-! A parcel and the rows of its quadrant (46_compressed.md R265, R267): one row at most accepts a parcel, and the Xlen decides
in five slots alone. -/

namespace Sys2Proof

/-- Of a word that is not long the decoder reads the low half alone. -/
theorem decodeInstr_lowHalf {w : Word} (h : w.extractLsb' 0 2 ≠ 0b11#2) (x : Xlen) :
    decodeInstr (w &&& 0x0000FFFF#32) x = decodeInstr w x := by
  have hl : isLong w = false := Bool.eq_false_iff.2 (mt (isLong_iff w).1 h)
  have hp : isLong (parcelWord (lowParcel w)) = false := by rw [isLong_parcelWord, op_lowParcel]; exact hl
  simp [← parcelWord_lowParcel, decodeInstr, hl, hp]

/-- A row that accepts a parcel is the row the decoder reads from it. -/
theorem decodeInstr_of_encode_eq_lowHalf {w : Word} {x : Xlen} {i : Instr} (h : w.extractLsb' 0 2 ≠ 0b11#2)
    (hc : i.compressed = .yes) (hw : i.wf = true) (hx : i.availableIn x = true) (he : encode i = w &&& 0x0000FFFF#32) :
    decodeInstr w x = some i := by
  rw [← decodeInstr_lowHalf h, ← he, decodeInstr_encode_of_yes hc hw hx]

/-! ### Slots in which the Xlen decides nothing -/

theorem quadrant_cases (q : BitVec 2) : q = 0b00#2 ∨ q = 0b01#2 ∨ q = 0b10#2 ∨ q = 0b11#2 := by revert q; decide

/-- Outside C.FLWSP's and C.FSWSP's slots quadrant 2 does not compare the Xlen: C.FSWSP's slot is the last, left by the other
seven values of funct3. -/
theorem decodeQ2_xlen {h : Parcel} (x y : Xlen) (h3 : PField.funct3 h ≠ 0b011#3) (h7 : PField.funct3 h ≠ 0b111#3) :
    decodeQ2 h x = decodeQ2 h y := by
  unfold decodeQ2
  refine ite_congr rfl (fun _ => rfl) fun h0 => ite_congr rfl (fun _ => rfl) fun h1 => ite_congr rfl (fun _ => rfl) fun h2 =>
    ite_congr rfl (fun e3 => absurd e3 h3) fun _ => ite_congr rfl (fun _ => rfl) fun h4 => ite_congr rfl (fun _ => rfl)
    fun h5 => ite_congr rfl (fun _ => rfl) fun h6 => ?_
  exact absurd (eq_seven_iff.2 ⟨h0, h1, h2, h3, h4, h5, h6⟩) h7

section
variable {w : Word} (x y : Xlen)

theorem decode_q0_xlen (hq : w.extractLsb' 0 2 = 0b00#2) (h3 : w.extractLsb' 13 3 ≠ 0b011#3)
    (h7 : w.extractLsb' 13 3 ≠ 0b111#3) : decode w x = decode w y := by
  simp [decode_q0 _ hq, decodeQ0, funct3_lowParcel, h3, h7]

theorem decode_q1_xlen (hq : w.extractLsb' 0 2 = 0b01#2) (h1 : w.extractLsb' 13 3 ≠ 0b001#3) : decode w x = decode w y := by
  simp [decode_q1 _ hq, decodeQ1, funct3_lowParcel, h1]

theorem decode_q2_xlen (hq : w.extractLsb' 0 2 = 0b10#2) (h3 : w.extractLsb' 13 3 ≠ 0b011#3)
    (h7 : w.extractLsb' 13 3 ≠ 0b111#3) : decode w x = decode w y := by
  rw [← funct3_lowParcel] at h3 h7
  rw [decode_q2 x hq, decode_q2 y hq, decodeQ2_xlen x y h3 h7]

theorem decode_long_xlen (hl : w.extractLsb' 0 2 = 0b11#2) : decode w x = decode w y := by
  simp [decode_eq_answer, decodeInstr, (isLong_iff w).2 hl]

end

end Sys2Proof

open Sys2Proof

/-- Settles O6: the row read from the word has the low half as its encoding, and any row that has it is read from the word. -/
theorem upperHalfIgnored : Obligations.UpperHalfIgnored := by
  intro w x hs
  refine ⟨by rw [decode_eq_answer, decode_eq_answer, decodeInstr_lowHalf hs], ?_⟩
  cases hi : decodeInstr w x with
  | some i =>
    have hc : i.compressed = .yes := by rw [compressed_of_decodeInstr hi, if_neg (mt (isLong_iff w).1 hs)]
    obtain ⟨hx, he⟩ := readFrom_decodeInstr w x i hi
    rw [if_neg hs] at he
    refine .inl ⟨i, hc, wf_of_decodeInstr hi, hx, he, decode_eq_ok_iff.2 ⟨i, hi, rfl, hc⟩, fun j jc jw jx je => ?_⟩
    exact Option.some.inj ((decodeInstr_of_encode_eq_lowHalf hs jc jw jx je).symm.trans hi)
  | none =>
    refine .inr ⟨by rw [decode_eq_answer, hi, answer_none], fun i hc hw hx he => ?_⟩
    exact Option.some_ne_none i ((decodeInstr_of_encode_eq_lowHalf hs hc hw hx he).symm.trans hi)

/-- Settles O18: the five slots have their records under Rv32 and are reserved under Rv64; elsewhere the dispatch of the
quadrant does not compare the Xlen. -/
theorem xlenChangesFiveSlots : Obligations.XlenChangesFiveSlots := by
  intro w
  refine ⟨?rv32, fun h => ?rv64, fun h => ?others⟩
  case rv32 =>
    obtain ⟨q0, q1, q2⟩ := compressedDispatch w .rv32
    refine ⟨fun ⟨hq, h3⟩ => ?cJal, fun ⟨hq, h3⟩ => ?cFlw, fun ⟨hq, h3⟩ => ?cFsw, fun ⟨hq, h3⟩ => ?cFlwsp,
      fun ⟨hq, h3⟩ => ?cFswsp⟩
    case cJal => obtain ⟨-, jal, -⟩ := q1 hq; exact ⟨_, jal h3 rfl⟩
    case cFlw => obtain ⟨-, -, -, flw, -⟩ := q0 hq; exact ⟨_, _, _, flw h3 rfl⟩
    case cFsw => obtain ⟨-, -, -, -, -, -, fsw⟩ := q0 hq; exact ⟨_, _, _, fsw h3 rfl⟩
    case cFlwsp => obtain ⟨-, -, -, flwsp, -⟩ := q2 hq; exact ⟨_, _, flwsp h3 rfl⟩
    case cFswsp => obtain ⟨-, -, -, -, -, -, -, -, -, -, -, fswsp⟩ := q2 hq; exact ⟨_, _, fswsp h3 rfl⟩
  case rv64 =>
    refine reservedParcels w .rv64 ?_
    iterate 9 right
    exact ⟨rfl, or_left_comm.1 h⟩
  case others =>
    simp only [not_or, not_and] at h
    obtain ⟨h1, h0, h2⟩ := h
    obtain hq | hq | hq | hq := quadrant_cases (w.extractLsb' 0 2)
    · exact decode_q0_xlen _ _ hq (h0 hq).1 (h0 hq).2
    · exact decode_q1_xlen _ _ hq (h1 hq)
    · exact decode_q2_xlen _ _ hq (h2 hq).1 (h2 hq).2
    · exact decode_long_xlen _ _ hq

end

section
/-! What the compressed rows do (46_compressed.md R266, R270 to R304): each is the shared operation of its expansion, with its
own immediate, at two bytes. -/

namespace Sys2Proof.Machine

/-- The operand x0 is the number 0. -/
theorem readX_zero_eq_ofInt (s : State) : readX s 0 = BitVec.ofInt 64 0 := readX_zero s

theorem upperImm_signExtend (v : BitVec 6) : upperImm (v.signExtend 20) = BitVec.ofInt 64 (v.toInt * 4096) := by
  rw [upperImm_eq_ofInt, BitVec.toInt_signExtend_of_le (by decide)]

/-- The target of C.JR and C.JALR: the register with bit 0 cleared (46_compressed.md R297, R300). -/
theorem readX_clear_bit0 (s : State) (r : Reg) :
    (narrow s.xlen (readX s r &&& ~~~1#64)).toNat = modX s.xlen (regU s r / 2 * 2 : Nat) := by
  rw [narrow_toNat_eq_modX, toNat_clear_bit0, regU]

end Sys2Proof.Machine

open Sys2Proof Sys2Proof.Machine

/-- Settles O58: C.NOP writes x0; each other row writes its register alone, with the number its function gives. -/
theorem compressedIntegerResults : Obligations.CompressedIntegerResults := by
  intro s rd rs2 rd' rs2' n8 imm shamt
  refine ⟨retireX_effect _ _ _ _ s ?cAddi4spn, retire_effect _ s, retireX_effect _ _ _ _ s ?cAddi,
    retireX_effect _ _ _ _ s ?cLi, retireX_effect _ _ _ _ s ?cAddi16sp, retireX_effect _ _ _ _ s ?cLui,
    retireX_effect _ _ _ _ s ?cSrli, retireX_effect _ _ _ _ s ?cSrai, retireX_effect _ _ _ _ s ?cAndi,
    retireX_effect _ _ _ _ s ?cSub, retireX_effect _ _ _ _ s ?cXor, retireX_effect _ _ _ _ s ?cOr,
    retireX_effect _ _ _ _ s ?cAnd, retireX_effect _ _ _ _ s ?cSlli, retireX_effect _ _ _ _ s ?cMv,
    retireX_effect _ _ _ _ s ?cAdd⟩
  case cAddi4spn => exact aluAdd_modX _ (ofInt_regU s 2).symm (zextImm_eq_ofInt n8 (by decide))
  case cAddi => exact aluAdd_modX _ (ofInt_regU s rd).symm (sextImm_eq_ofInt imm)
  case cLi => rw [aluAdd_modX _ (readX_zero_eq_ofInt s) (sextImm_eq_ofInt imm), zero_add]
  case cAddi16sp => exact aluAdd_modX _ (ofInt_regU s 2).symm (sextImm_eq_ofInt n8)
  case cLui => exact narrow_eq_modX _ _ _ (upperImm_signExtend imm)
  case cSrli => rw [aluSrl_modX, unsignedVal_readX, shiftAmount_zextImm]
  case cSrai => rw [aluSra_modX, signedVal_readX, shiftAmount_zextImm]
  case cAndi | cXor | cOr | cAnd => exact narrow_toNat_eq_modX _ _
  case cSub => exact aluSub_modX _ (ofInt_regU s _).symm (ofInt_regU s _).symm
  case cSlli => rw [aluSll_modX, shiftAmount_zextImm]; rfl
  case cMv => rw [aluAdd_modX _ (readX_zero_eq_ofInt s) (ofInt_regU s rs2).symm, zero_add]
  case cAdd => exact aluAdd_modX _ (ofInt_regU s rd).symm (ofInt_regU s rs2).symm

/-- Settles O59: where the access raises no exception, a load writes its register with its bytes, and a store its bytes. -/
theorem compressedAccessesComplete : Obligations.CompressedAccessesComplete := by
  intro s r r' b' w d w8 d9
  refine ⟨fun hok => ⟨?cLw, fun hon => ?cFlw⟩, fun hok hon => ?cFld, fun hok => ⟨?cLwsp, fun hon => ?cFlwsp⟩,
    fun hok hon => ?cFldsp, fun hmem => ⟨fun hok => ⟨?cSw, fun hon => ?cFsw⟩, fun hok hon => ?cFsd,
      fun hok => ⟨?cSwsp, fun hon => ?cFswsp⟩, fun hok hon => ?cFsdsp⟩⟩
  case cLw | cLwsp => exact loadX_effect _ _ _ _ _ _ _ s hok (sextLoad_modX _ _ _ (by decide))
  case cFlw | cFlwsp => exact completesFp_of_fpLoad (p := .s) hon hok rfl
  case cFld | cFldsp => exact completesFp_of_fpLoad (p := .d) hon hok rfl
  case cSw | cSwsp => exact storeValue_effect _ _ _ _ _ s hmem (by decide) hok
  case cFsw | cFswsp => exact completesStore_of_fpStore (p := .s) hon hmem hok rfl
  case cFsd | cFsdsp => exact completesStore_of_fpStore (p := .d) hon hmem hok rfl

/-- Settles O60: a jump by its target, a branch by the comparison of its register with x0. -/
theorem compressedTransfersComplete : Obligations.CompressedTransfersComplete := by
  intro s rs1 r' j b
  refine ⟨?cJ, ?cJal, ?cJr, ?cJalr, ?cBeqz, ?cBnez⟩
  case cJ | cJal => exact jumpTo_effect _ _ _ _ s (pc_add_sextImm s j)
  case cJr | cJalr => exact jumpTo_effect _ _ _ _ s (readX_clear_bit0 s rs1)
  case cBeqz => exact completesBranch_of_branchOn rfl (regU_zero s ▸ condEq_readX s (CReg.toReg r') 0)
  case cBnez => exact completesBranch_of_branchOn rfl (regU_zero s ▸ condNe_readX s (CReg.toReg r') 0)

end

section
/-! The text recorded beside the record answered (10_state.md R23, 47_formatter.md R320). -/

namespace Sys2Proof.Machine

/-- The invariant reads the parameters, the result and the text, and nothing else. -/
theorem AnswerInv.congr {s t : State} (h : AnswerInv s) (hc : t.cfg = s.cfg) (hr : t.result = s.result)
    (ht : t.text = s.text) : AnswerInv t := by
  unfold AnswerInv at h ⊢
  rwa [hr, ht, hc]

theorem AnswerInv.takeException {s : State} (h : AnswerInv s) (code : Nat) (tval : XWord) :
    AnswerInv (takeException s code tval) :=
  h.congr (takeException_cfg ..) (takeException_result ..) (takeException_text ..)

/-- Whatever an instruction writes, it records its own record and the text of that record. -/
theorem exec_answerInv (i : Instr) (s : State) : NextWith AnswerInv (exec i s) := by
  have rule : ExecRule i s (fun _ => True) AnswerInv :=
    { closed := by constructor <;> intros <;> trivial
      done := fun _ _ _ _ => rfl
      trap := fun _ _ _ => rfl }
  exact rule.exec

/-- Every step keeps the invariant: a rejected word has no text, and a fetch that is stopped leaves the last answer. -/
theorem step_answerInv {s t : State} (h : AnswerInv s) (ht : step s = .next t) : AnswerInv t := by
  refine step_rule ht (fun i _ => exec_answerInv i _) ?rejected fun code _ => ?stopped
  case rejected =>
    have noText : AnswerInv { present s with result := some .decodeError, text := "" } := rfl
    exact noText.takeException _ _
  case stopped =>
    have last : AnswerInv { s with tick := s.tick + 1 } := h.congr rfl rfl rfl
    exact last.takeException _ _

end Sys2Proof.Machine

open Sys2Proof.Machine

/-- Settles O29: an instruction records its own text, a rejected word none, and the rule for a step carries this over every
step. -/
theorem stepKeepsAnswer : Obligations.StepKeepsAnswer := fun _ _ h ht => step_answerInv h ht

end

section
/-! The texts of operands (47_formatter.md R324 to R327): what each is as a decimal, and which entries the default table has. -/

namespace Sys2Proof

/-- The leading digits first (47_formatter.md R325). -/
theorem decimal_eq (n : Nat) :
    decimal n = if n < 10 then String.singleton (Char.ofNat (48 + n)) else decimal (n / 10) ++ decimal (n % 10) := by
  split
  case isTrue h => rw [decimal, Nat.repr_of_lt h]; interval_cases n <;> rfl
  case isFalse h => exact Nat.repr_eq_repr_append_repr (Nat.le_of_not_lt h)

theorem signedDecimal_natCast (n : Nat) : signedDecimal n = decimal n := by
  rw [signedDecimal, if_neg (by omega), Int.natAbs_natCast]

theorem signedDecimal_neg {n : Nat} (h : 0 < n) : signedDecimal (-n) = "-" ++ decimal n := by
  rw [signedDecimal, if_pos (by omega), Int.natAbs_neg, Int.natAbs_natCast]

/-- A number of kind Signed is negative from 2^31 up (47_formatter.md R324). -/
theorem immText_eq (i : Imm) : immText i =
    if i.kind = .signed ∧ 2 ^ 31 ≤ i.value.toNat then "-" ++ decimal (2 ^ 32 - i.value.toNat)
    else decimal i.value.toNat := by
  obtain ⟨v, kind⟩ := i
  have signed := BitVec.toInt_eq_toNat_cond v
  have fits := v.isLt
  split
  case isTrue h =>
    obtain ⟨rfl, h⟩ := h
    have val : (Imm.mk v .signed).toInt = -(2 ^ 32 - v.toNat : Nat) := signed.trans (by simp only at h; omega)
    rw [immText, val, signedDecimal_neg (by omega)]
  case isFalse h =>
    have val : (Imm.mk v kind).toInt = v.toNat := by
      cases kind with
      | signed => exact signed.trans (if_pos (by simp at h; omega))
      | unsigned => rfl
    rw [immText, val, signedDecimal_natCast]

theorem upperText_eq (i : Imm) : upperText i = decimal (i.value.toNat / 4096) := by
  have hv := i.value.isLt
  rw [upperText, BitVec.extractLsb'_toNat, Nat.shiftRight_eq_div_pow, Nat.mod_eq_of_lt (by omega)]

theorem csrText_of_lookup {names : List (Nat × String)} {c : Csr} {n : String} (h : names.lookup c.toNat = some n) :
    csrText names c = n := by rw [csrText, h]

theorem csrText_of_lookup_none {names : List (Nat × String)} {c : Csr} (h : names.lookup c.toNat = none) :
    csrText names c = decimal c.toNat := by rw [csrText, h]

end Sys2Proof

namespace Sys2Proof.Machine

/-- In a table that has no key twice, looking up a key is membership. -/
theorem lookup_eq_some_iff_mem {l : List (Nat × String)} (hl : (l.map Prod.fst).Nodup) {a : Nat} {n : String} :
    l.lookup a = some n ↔ (a, n) ∈ l := by
  induction l with
  | nil => simp
  | cons p l ih =>
    obtain ⟨k, v⟩ := p
    obtain ⟨hk, hl⟩ := List.nodup_cons.1 hl
    by_cases h : a = k
    · subst h
      have other : (a, n) ∉ l := fun hm => hk (List.mem_map.2 ⟨_, hm, rfl⟩)
      simp [other, eq_comm]
    · simp [List.lookup_cons, beq_eq_false_iff_ne.2 h, h, ih hl]

theorem mem_numberedCsrs {base : Nat} {before after : String} {a : Nat} {n : String} (hb : 3 ≤ base) :
    (a, n) ∈ numberedCsrs base before after ↔
      ∃ k, 3 ≤ k ∧ k ≤ 31 ∧ a = base - 3 + k ∧ n = before ++ decimal k ++ after := by
  rw [numberedCsrs, List.mem_map]
  constructor
  · rintro ⟨k, hk, he⟩
    obtain ⟨rfl, rfl⟩ := Prod.mk.inj he
    have := List.mem_range.1 hk
    exact ⟨k + 3, by omega, by omega, by omega, rfl⟩
  · rintro ⟨k, h3, h31, rfl, rfl⟩
    refine ⟨k - 3, List.mem_range.2 (by omega), ?_⟩
    rw [Nat.sub_add_cancel h3, show base + (k - 3) = base - 3 + k by omega, decimal]

theorem map_fst_numberedCsrs (base : Nat) (before after : String) :
    (numberedCsrs base before after).map Prod.fst = List.range' base 29 := by
  rw [numberedCsrs, List.map_map, List.range'_eq_map_range]; rfl

/-- The five ranges: the first address and what stands before and after the number (47_formatter.md R327). -/
def csrRanges : List (Nat × String × String) :=
  [(0x323, "mhpmevent", ""), (0xC03, "hpmcounter", ""), (0xC83, "hpmcounter", "h"), (0xB03, "mhpmcounter", ""),
    (0xB83, "mhpmcounter", "h")]

theorem defaultCsrNames_eq :
    defaultCsrNames = singleCsrs ++ csrRanges.flatMap fun r => numberedCsrs r.1 r.2.1 r.2.2 := by
  simp [defaultCsrNames, csrRanges]

/-- The ranges do not meet, and no other CSR of the table lies in one. -/
theorem nodup_map_fst_defaultCsrNames : (defaultCsrNames.map Prod.fst).Nodup := by
  have apart : csrRanges.Pairwise fun r q => r.1 + 29 ≤ q.1 ∨ q.1 + 29 ≤ r.1 := by decide
  have outside : ∀ a ∈ singleCsrs.map Prod.fst, ∀ r ∈ csrRanges, a < r.1 ∨ r.1 + 29 ≤ a := by decide
  simp only [defaultCsrNames_eq, List.map_append, List.map_flatMap, map_fst_numberedCsrs]
  refine List.nodup_append.2 ⟨by decide, List.nodup_flatMap.2 ⟨fun _ _ => List.nodup_range', ?ranges⟩, ?singles⟩
  case ranges =>
    refine apart.imp fun {r q} h => ?_
    simp only [Function.onFun, List.disjoint_left, List.mem_range'_1]
    omega
  case singles =>
    intro a ha a' ha'
    obtain ⟨r, hr, hmem⟩ := List.mem_flatMap.1 ha'
    have := outside a ha r hr
    have := List.mem_range'_1.1 hmem
    omega

/-- The entries of the default table: the CSRs outside the ranges, and the numbers 3 to 31 in each range. -/
theorem lookup_defaultCsrNames {a : Nat} {n : String} :
    defaultCsrNames.lookup a = some n ↔ (a, n) ∈ singleCsrs ∨
      ∃ base before after, (base, before, after) ∈ csrRanges ∧
        ∃ k, 3 ≤ k ∧ k ≤ 31 ∧ a = base - 3 + k ∧ n = before ++ decimal k ++ after := by
  have low : ∀ r ∈ csrRanges, 3 ≤ r.1 := by decide
  rw [lookup_eq_some_iff_mem nodup_map_fst_defaultCsrNames, defaultCsrNames_eq, List.mem_append, List.mem_flatMap]
  simp only [Prod.exists]
  exact or_congr_right <| exists₃_congr fun _ _ _ => and_congr_right fun hr => mem_numberedCsrs (low _ hr)

end Sys2Proof.Machine

open Sys2Proof Sys2Proof.Machine

/-- Settles O21: the finite tables are compared entry by entry, and each other text is the decimal or the name its lemma
gives. -/
theorem formatOperandTexts : Obligations.FormatOperandTexts := by
  refine ⟨by decide, by decide, decimal_eq, immText_eq, fun _ => rfl, upperText_eq,
    fun names c => ⟨fun _ => csrText_of_lookup, csrText_of_lookup_none⟩, fun a n => ?table, by decide, by decide, by decide⟩
  case table =>
    exact lookup_defaultCsrNames.trans <| or_congr (List.Perm.mem_iff (by decide)) <|
      exists₃_congr fun _ _ _ => and_congr_left' (List.Perm.mem_iff (by decide))

end

section
/-! The templates of the records (47_formatter.md R330 to R332): the operands after a mnemonic, in one string. -/

namespace Sys2Proof

theorem append_two (p a b : String) : p ++ two a b = p ++ a ++ ", " ++ b := by
  simp only [two, String.append_assoc]

theorem append_three (p a b c : String) : p ++ three a b c = p ++ a ++ ", " ++ b ++ ", " ++ c := by
  simp only [three, String.append_assoc]

theorem append_four (p a b c d : String) : p ++ four a b c d = p ++ a ++ ", " ++ b ++ ", " ++ c ++ ", " ++ d := by
  simp only [four, String.append_assoc]

theorem append_memOperand (p : String) (i : Imm) (b : Reg) :
    p ++ memOperand i b = p ++ immText i ++ "(" ++ xName b ++ ")" := by
  simp only [memOperand, String.append_assoc]

/-- The address operand of the A extension, which has no offset (47_formatter.md R330). -/
theorem append_addrOperand (p a : String) : p ++ ", " ++ ("(" ++ a ++ ")") = p ++ ", (" ++ a ++ ")" := by
  have split : ", (" = ", " ++ "(" := rfl
  simp only [split, String.append_assoc]

end Sys2Proof

open Sys2Proof

/-- Settles O22: each template is a mnemonic, with the letter of its precision, before its operands. -/
theorem formatTemplates : Obligations.FormatTemplates := by
  intro names a b c d i u k e g aq rl m
  -- The record selects its template, and the letter of the precision joins the mnemonic.
  simp only [format, fmtText, String.reduceAppend]
  -- The operands stand in their order, one separator between two.
  simp only [append_two, append_three, append_four, append_memOperand, append_addrOperand, and_self]

end

section
/-! Words without a row (60_exceptions.md R351, 30_encoding.md R79, R109): a row that has the word as its encoding is the row the
decoder reads from it. -/

namespace Sys2Proof

/-- A well-formed row is read from its encoding under an Xlen under which it applies, whatever its form. -/
theorem decodeInstr_encode {i : Instr} {x : Xlen} (hw : i.wf = true) (hx : i.availableIn x = true) :
    decodeInstr (encode i) x = some i := by
  cases hc : i.compressed with
  | no => exact roundTrips_of_no hc hw x
  | yes => exact decodeInstr_encode_of_yes hc hw hx

/-- The decoder reads a word as it reads the part of it that counts: the word, or its low half. -/
theorem decodeInstr_encoded (w : Word) (x : Xlen) :
    decodeInstr (if w.extractLsb' 0 2 = 0b11#2 then w else w &&& 0x0000FFFF#32) x = decodeInstr w x := by
  split
  · rfl
  · next h => exact decodeInstr_lowHalf h x

/-- The block answers an error exactly where the decoder reads no row. -/
theorem decode_eq_decodeError_iff {w : Word} {x : Xlen} : decode w x = .decodeError ↔ decodeInstr w x = none := by
  rw [decode_eq_answer]
  cases decodeInstr w x <;> simp

end Sys2Proof

open Sys2Proof

/-- Settles O4: a row the decoder reads has the word as its encoding, and a row that has it is read. -/
theorem errorExactlyWithoutRow : Obligations.ErrorExactlyWithoutRow := by
  intro w x
  rw [decode_eq_decodeError_iff]
  constructor
  · intro hn i hw hx he
    have read : decodeInstr w x = some i := by rw [← decodeInstr_encoded, ← he, decodeInstr_encode hw hx]
    exact Option.some_ne_none i (read.symm.trans hn)
  · refine fun h => Option.eq_none_iff_forall_ne_some.2 fun i hi => ?_
    obtain ⟨hx, he⟩ := readFrom_decodeInstr w x i hi
    exact h i (wf_of_decodeInstr hi) hx he

end

section
/-! What a step does where no instruction runs (60_exceptions.md R350, R354, R356 to R358): the word does not decode, or the fetch
is stopped. -/

namespace Sys2Proof.Machine

section
variable {s : State}

/-! ### The step -/

theorem step_of_fetchException {code : Nat} (h : fetchException s = some code) : step s = .next (fetchFault s code) := by
  simp only [step, h]

theorem step_of_not_decoded (hf : fetchable s = true) (hi : decodeInstr (fetchWord s) s.xlen = none) :
    step s = .next (reject (present s)) := by
  have hnone : fetchException s = none := Option.isNone_iff_eq_none.1 hf
  simp only [step, hnone, present_word, present_xlen, hi]

/-- Every instruction answers a next state: its effect, or the entry of an exception. -/
theorem exec_answers (i : Instr) (s : State) : ∃ t, exec i s = .next t :=
  (exec_answerInv i s).imp fun _ h => h.1

/-- Every step answers a next state: a stopped fetch and a rejected word take their exceptions. -/
theorem step_answers (s : State) : ∃ t, step s = .next t := by
  cases hf : fetchException s with
  | some code => exact ⟨_, step_of_fetchException hf⟩
  | none =>
    have fetched : fetchable s = true := Option.isNone_iff_eq_none.2 hf
    cases hi : decodeInstr (fetchWord s) s.xlen with
    | some i => rw [step_of_decodeInstr fetched hi]; exact exec_answers i _
    | none => exact ⟨_, step_of_not_decoded fetched hi⟩

/-! ### The exceptions of a fetch -/

variable {a : XWord} {n : Nat}

theorem met_iff {b : Barrier} {kind : AccessKind} : Met s b kind a n ↔ meets s b kind a n = true := meets_iff.symm

/-- A fetch has no alignment to break (60_exceptions.md R357 code 0). -/
theorem misalignedWith_fetch {r : Misaligned} (h : r ≠ .perform) : misalignedWith s .fetch a n r = false :=
  Bool.eq_false_iff.2 fun hm => h (misalignedWith_iff.1 hm).2.symm

/-- The exception of a fetch: an address breakpoint, then a page fault, then an access fault. -/
theorem accessException_fetch : accessException s .fetch a n =
    if meets s .breakpoint .fetch a n then some 3
    else if meets s .pageFault .fetch a n then some 12
    else if meets s .translationFault .fetch a n then some 1
    else if meets s .accessFault .fetch a n then some 1
    else none := by
  have first : misalignedWith s .fetch a n .misalignedException = false := misalignedWith_fetch (by decide)
  have last : misalignedWith s .fetch a n .accessFault = false := misalignedWith_fetch (by decide)
  simp only [accessException, first, last, Bool.false_and, Bool.or_false, Bool.false_eq_true, if_false]
  rfl

/-- The code of the first barrier met, in that order. -/
theorem accessException_fetch_of_met {code : Nat} (h : (Met s .breakpoint .fetch a n ∧ code = 3) ∨
    (¬Met s .breakpoint .fetch a n ∧ Met s .pageFault .fetch a n ∧ code = 12) ∨
    (¬Met s .breakpoint .fetch a n ∧ ¬Met s .pageFault .fetch a n ∧
      (Met s .translationFault .fetch a n ∨ Met s .accessFault .fetch a n) ∧ code = 1)) :
    accessException s .fetch a n = some code := by
  simp only [met_iff] at h
  rw [accessException_fetch]
  obtain ⟨hb, rfl⟩ | ⟨hb, hp, rfl⟩ | ⟨hb, hp, hf, rfl⟩ := h
  · rw [if_pos hb]
  · rw [if_neg hb, if_pos hp]
  · rw [if_neg hb, if_neg hp]
    obtain ht | ha := hf
    · rw [if_pos ht]
    · rw [if_pos ha, ite_self]

/-- No exception stops a fetch exactly where no barrier does. -/
theorem accessException_fetch_eq_none_iff : accessException s .fetch a n = none ↔ ∀ b, ¬Met s b .fetch a n := by
  rw [accessException_fetch]
  simp only [met_iff]
  constructor
  · intro h b
    split_ifs at h with hb hp ht ha
    cases b <;> assumption
  · intro h
    simp [h]

theorem isLong_ite {α : Type} (w : Word) (b c : α) :
    (if isLong w then b else c) = if w.extractLsb' 0 2 = 0b11#2 then b else c := if_congr (isLong_iff w) rfl rfl

/-- Two bytes of a parcel are checked, four of a word (20_memory.md R52). -/
theorem fetchException_eq (s : State) : fetchException s =
    accessException s .fetch s.pc (if (fetchWord s).extractLsb' 0 2 = 0b11#2 then 4 else 2) := by
  rw [fetchException, isLong_ite]

/-! ### The entry of an exception -/

/-- What the block was given and has answered, and the draw number, are no part of the entry of an exception. -/
theorem trapEffect_of_answer {code k : Nat} {tval : XWord} {t : State} {w : Word} {r : Option DecodeResult} {x : String}
    (h : TrapEffect code tval { s with word := w, result := r, text := x, tick := k } t) : TrapEffect code tval s t :=
  ⟨h.mepc, h.mcause, h.mtval, h.mpie, h.mie, h.mpp, h.status, h.csrs, h.mode, h.pc, h.reservations, h.ints, h.fp, h.fcsr,
    h.unit, h.memory, h.fetched⟩

theorem reject_effect (hw : cellsWf 0 s.csrs = true) :
    TrapEffect 2 (illegalTval (present s)) s (reject (present s)) :=
  trapEffect_of_answer
    (takeException_effect { present s with result := some .decodeError, text := "" } hw 2 (by decide) _)

theorem fetchFault_effect (hw : cellsWf 0 s.csrs = true) {code : Nat} (hc : code < 2 ^ 32) :
    TrapEffect code s.pc s (fetchFault s code) := by
  have h : TrapEffect code (narrow s.xlen s.pc) s (fetchFault s code) :=
    trapEffect_of_answer (takeException_effect { s with tick := s.tick + 1 } hw code hc _)
  exact { h with mtval := by rw [h.mtval, narrow_narrow] }

/-- The trap value of a rejected word (60_exceptions.md R357 code 2). -/
theorem illegalTval_present (s : State) : illegalTval (present s) = if s.cfg.illegalTvalZero then 0
    else if (fetchWord s).extractLsb' 0 2 = 0b11#2 then (fetchWord s).setWidth 64
    else ((fetchWord s).extractLsb' 0 16).setWidth 64 := by
  rw [illegalTval, instructionBits, isLong_ite]; rfl

end

end Sys2Proof.Machine

open Sys2Proof Sys2Proof.Machine

/-- Settles O26: an instruction answers by the rule for all of them, and a step runs one or takes an exception. -/
theorem stepAlwaysAnswers : Obligations.StepAlwaysAnswers := ⟨exec_answers, step_answers⟩

/-- Settles O25: the step rejects the word, or takes the exception of the fetch; both enter the handler from the state before
the step. -/
theorem undecodableAndUnfetchableTrap : Obligations.UndecodableAndUnfetchableTrap := by
  refine ⟨fun s hw hf hd => ?undecodable, fun s n hn => ⟨?fetchable, fun code hw hm => ?unfetchable⟩⟩
  case undecodable =>
    exact ⟨_, step_of_not_decoded hf (decode_eq_decodeError_iff.1 hd), rfl, rfl, rfl,
      illegalTval_present s ▸ reject_effect hw⟩
  case fetchable =>
    rw [fetchable, Option.isNone_iff_eq_none, fetchException_eq, ← hn, accessException_fetch_eq_none_iff]
  case unfetchable =>
    have stopped : fetchException s = some code := by
      rw [fetchException_eq, ← hn]
      exact accessException_fetch_of_met hm
    have small : code < 2 ^ 32 := (accessException_lt stopped).trans (by decide)
    exact ⟨_, step_of_fetchException stopped, takeException_result .., takeException_text .., takeException_word ..,
      fetchFault_effect hw small⟩

end

section
/-! The mode and the parameters (60_exceptions.md R360, 00_scope.md R7, 10_state.md R26): the writes of instructions keep them, and
an exception enters machine mode. -/

namespace Sys2Proof.Machine

/-- The parameters, the inputs, the FP unit's switch and the mode are as they were. -/
def KeepsControl (s t : State) : Prop := KeepsInputs s t ∧ t.fpOn = s.fpOn ∧ t.mode = s.mode

/-- No write of an instruction reaches the parameters, the inputs, the switch or the mode. -/
theorem closedFrom_keepsControl (s : State) : ClosedFrom s (KeepsControl s) := by
  constructor <;> simp +contextual [KeepsControl, KeepsInputs]

/-- The mode changes to M alone, and mepc then holds the pc of `s`. -/
def EntersMachineMode (s t : State) : Prop :=
  KeepsInputs s t ∧ t.fpOn = s.fpOn ∧ (t.mode ≠ s.mode → t.mode = .m ∧ csrFileGet t 0x341 = narrow s.xlen s.pc)

theorem exec_entersMachineMode (i : Instr) {s : State} (hw : cellsWf 0 s.csrs = true) :
    NextWith (EntersMachineMode s) (exec i s) := by
  have rule : ExecRule i s (KeepsControl s) (EntersMachineMode s) :=
    { closed := closedFrom_keepsControl s
      done := fun _ _ ⟨hin, hon, hmode⟩ _ => ⟨hin, hon, fun hne => absurd hmode hne⟩
      trap := fun code tval hc =>
        ⟨⟨rfl, rfl, rfl, rfl⟩, rfl, fun _ => ⟨rfl, (takeException_effect (emit i s) hw code hc tval).mepc⟩⟩ }
  exact rule.exec

end Sys2Proof.Machine

open Sys2Proof Sys2Proof.Machine

/-- Settles O31: what an instruction answers comes from writes that keep the mode, or is the entry of an exception. -/
theorem onlyTrapsChangeMode : Obligations.OnlyTrapsChangeMode := by
  intro i s t hw ht
  obtain ⟨u, hu, ⟨hcfg, hxlen, hword, htick⟩, hon, hmode⟩ := exec_entersMachineMode i hw
  obtain rfl : t = u := Host.Outcome.next.inj (ht.symm.trans hu)
  exact ⟨hmode, hcfg, hxlen, hword, htick, hon⟩

end

section
/-! The exceptions of data accesses (60_exceptions.md R357, R358, 20_memory.md R53, R54). -/

namespace Sys2Proof.Machine

section
variable {i : Instr} {kind : AccessKind} {a : XWord} {n : Nat} {s : State}

/-- A form, with whether it is of the FP unit, makes the access listed beside it before it does anything else. -/
def MakesAccess (s : State) : Instr × Bool × AccessKind × XWord × Nat → Prop
  | (i, fp, kind, a, n) => ∃ body : Host.Outcome State Fault Refusal, kind ≠ .fetch ∧
      exec i s = if fp then whenFpOn i s (withAccess i kind a n s body) else withAccess i kind a n s body

/-- The codes of a load, and those of a store or AMO. -/
theorem trapsByPriority_codes (hk : kind ≠ .fetch)
    (h : TrapsByPriority i kind (misalignedCode kind) (accessFaultCode kind) (pageFaultCode kind) a n s) :
    if kind = .load ∨ kind = .loadReserved then TrapsByPriority i kind 4 5 13 a n s
    else TrapsByPriority i kind 6 7 15 a n s := by
  cases kind with
  | fetch => exact absurd rfl hk
  | load | loadReserved | store | storeConditional | amo => exact h

theorem trapsByPriority_of_makesAccess {fp : Bool} (hw : cellsWf 0 s.csrs = true) (hfp : fp = true → s.fpOn = true)
    (h : MakesAccess s (i, fp, kind, a, n)) :
    if kind = .load ∨ kind = .loadReserved then TrapsByPriority i kind 4 5 13 a n s
    else TrapsByPriority i kind 6 7 15 a n s := by
  obtain ⟨body, hk, he⟩ := h
  have access : exec i s = withAccess i kind a n s body := by
    cases fp with
    | false => exact he
    | true => exact he.trans (whenFpOn_on (hfp rfl) _)
  exact trapsByPriority_codes hk (trapsByPriority_of_withAccess hw access)

variable {rd addr src : Reg}

/-- With a reservation, SC.W makes its access. -/
theorem storeConditional_access (hr : reserved s (readX s addr) = true) : storeConditional i rd addr src s =
    withAccess i .storeConditional (readX s addr) 4 s
      (retire i s (writeX (release (storeMem s (readX s addr) 4 (readX s src).toNat)) rd 0)) := if_pos hr

/-- With none, a misaligned address traps all the same. -/
theorem storeConditional_of_misaligned (hr : reserved s (readX s addr) = false)
    (ha : addrKey s.xlen (readX s addr) % 4 ≠ 0) : storeConditional i rd addr src s =
      raise i (if s.cfg.misalignedAtomicFaults then 7 else 6) (narrow s.xlen (readX s addr)) s :=
  (if_neg (by simp [hr])).trans (if_pos (by simp [aligned, ha]))

end

end Sys2Proof.Machine

open Sys2Proof Sys2Proof.Machine

/-- Settles O37: each form makes its access first, so it takes the exceptions of the access in their order; SC.W without a
reservation makes none. -/
theorem accessTraps : Obligations.AccessTraps := by
  intro s r base src r' b' offset w d w8 d9 aq rl i fp kind a n hw
  refine ⟨fun hi hfp => trapsByPriority_of_makesAccess hw hfp ((?forms : ∀ e ∈ _, MakesAccess s e) _ hi),
    fun hr => ?reserved, fun hr ha => ?misaligned, ?parameter, ?atomic⟩
  case forms =>
    -- Each form is the shared operation of its access, behind the check of the FP unit where it is one of its instructions.
    simp only [List.forall_mem_cons, List.not_mem_nil, false_imp_iff, implies_true, and_true]
    and_intros <;> exact ⟨_, by decide, rfl⟩
  case reserved => exact trapsByPriority_of_withAccess hw (storeConditional_access hr)
  case misaligned => exact traps_of_raise hw (by split <;> decide) (storeConditional_of_misaligned hr ha)
  case parameter => rintro (rfl | rfl) <;> rfl
  case atomic => rintro (rfl | rfl | rfl) <;> rfl

end

section
/-! Records that are illegal in the state (60_exceptions.md R356, 43_zicsr_zihintpause.md R193). -/

namespace Sys2Proof.Machine

section
variable {i : Instr} {s : State}

/-- An illegal record takes exception 2. -/
theorem traps_of_illegal (hw : cellsWf 0 s.csrs = true) (h : exec i s = illegal i s) : Traps i 2 (illegalTval s) s := by
  rw [Traps, h]
  exact raise_effect i 2 (illegalTval s) s hw (by decide)

/-- A CSR access is not legal where the CSR does not exist or lies above the mode, or where a read-only one is written. -/
theorem csrLegal_eq_false_iff {c : Csr} {writes : Bool} : csrLegal s c writes = false ↔
    c.toNat ∉ s.cfg.csrPresent ∨ s.mode.level < (c.extractLsb' 8 2).toNat ∨ (writes = true ∧ c.extractLsb' 10 2 = 0b11#2) := by
  simp only [csrLegal, Bool.and_eq_false_iff, Bool.not_eq_false', Bool.and_eq_true, decide_eq_false_iff_not, not_le,
    List.contains_eq_mem, beq_iff_eq, or_assoc]

theorem csrAccess_of_not_legal {rd : Reg} {c : Csr} {writes : Bool} {new : XWord → XWord} (h : csrLegal s c writes = false) :
    csrAccess i rd c writes new s = illegal i s := if_neg (Bool.eq_false_iff.1 h)

/-- The dynamic mode resolves to none where `frm` holds no mode. -/
theorem resolveRm_dyn_of_frm (h : s.frm = 0b101#3 ∨ s.frm = 0b110#3 ∨ s.frm = 0b111#3) : resolveRm s .dyn = none := by
  obtain h | h | h := h <;> rw [resolveRm, h] <;> rfl

/-- An instruction with the dynamic mode is illegal where `frm` holds no mode, the unit on or off. -/
theorem withMode_dyn_of_frm (h : s.frm = 0b101#3 ∨ s.frm = 0b110#3 ∨ s.frm = 0b111#3)
    (body : RoundingMode → Host.Outcome State Fault Refusal) : withMode i .dyn s body = illegal i s := by
  rw [withMode, resolveRm_dyn_of_frm h]
  exact ite_self _

/-- The instruction has a rounding mode, and it is the dynamic one. -/
def RoundsDynamically (s : State) (i : Instr) : Prop :=
  ∃ body : RoundingMode → Host.Outcome State Fault Refusal, exec i s = withMode i .dyn s body

/-- The instruction is one of the FP unit. -/
def NeedsFpUnit (s : State) (i : Instr) : Prop :=
  ∃ body : Host.Outcome State Fault Refusal, exec i s = whenFpOn i s body

theorem traps_of_roundsDynamically (hw : cellsWf 0 s.csrs = true) (hf : s.frm = 0b101#3 ∨ s.frm = 0b110#3 ∨ s.frm = 0b111#3)
    (h : RoundsDynamically s i) : Traps i 2 (illegalTval s) s := by
  obtain ⟨body, he⟩ := h
  exact traps_of_illegal hw (he.trans (withMode_dyn_of_frm hf body))

theorem traps_of_needsFpUnit (hw : cellsWf 0 s.csrs = true) (hoff : s.fpOn = false) (h : NeedsFpUnit s i) :
    Traps i 2 (illegalTval s) s := by
  obtain ⟨body, he⟩ := h
  exact traps_of_illegal hw (he.trans (whenFpOn_off hoff body))

end

end Sys2Proof.Machine

open Sys2Proof Sys2Proof.Machine

/-- Settles O43: an access that is not legal, a dynamic mode that resolves to none and the unit off each make the instruction
`illegal`. -/
theorem illegalRecordsTrap : Obligations.IllegalRecordsTrap := by
  intro s rd rs1 rs2 rs3 r' b' c imm o12 o7 o8 o9 i hw
  refine ⟨fun writes operand new hi hl => ?csr, fun hf hi => ?dynamic, fun hoff rm hi => ?unit⟩
  case csr =>
    exact traps_of_illegal hw ((exec_zicsrForms hi).trans (csrAccess_of_not_legal (csrLegal_eq_false_iff.2 hl)))
  case dynamic =>
    refine traps_of_roundsDynamically hw hf ((?dynamicForms : ∀ j ∈ _, RoundsDynamically s j) i hi)
    simp only [List.forall_mem_cons, List.not_mem_nil, false_imp_iff, implies_true, and_true]
    and_intros <;> exact ⟨_, rfl⟩
  case unit =>
    refine traps_of_needsFpUnit hw hoff ((?unitForms : ∀ j ∈ _, NeedsFpUnit s j) i hi)
    simp only [List.forall_mem_cons, List.not_mem_nil, false_imp_iff, implies_true, and_true]
    and_intros <;> exact ⟨_, rfl⟩

end

section
/-! The lengths of texts (70_reset_and_hazards.md R376): a bound for each kind of operand, summed along the template of each
record. No immediate a record can hold is too long, so the bound needs nothing of the decoder. -/

namespace Sys2Proof

open Machine

/-! ### Operands -/

theorem length_decimal_le {n k : Nat} (hk : 0 < k) (h : n < 10 ^ k) : (decimal n).length ≤ k :=
  (Nat.length_repr_le_iff hk).2 h

theorem length_xName_le (r : Reg) : (xName r).length ≤ 4 := by revert r; decide

theorem length_fName_le (r : Reg) : (fName r).length ≤ 4 := by revert r; decide

theorem length_fenceText_le (v : FenceSet) : (fenceText v).length ≤ 4 := by revert v; decide

theorem length_ordText_le (aq rl : Bit) : (ordText aq rl).length ≤ 5 := by revert aq rl; decide

theorem length_rmText_le (m : RoundingMode) : (rmText m).length ≤ 5 := by cases m <;> decide

theorem length_fmtText_le (p : Fmt) : (fmtText p).length ≤ 1 := by cases p <;> decide

theorem length_u5Text_le (u : U5) : (u5Text u).length ≤ 2 :=
  length_decimal_le (by decide) (u.isLt.trans (by decide))

theorem length_upperText_le (i : Imm) : (upperText i).length ≤ 7 :=
  length_decimal_le (by decide) ((i.value.extractLsb' 12 20).isLt.trans (by decide))

theorem length_append_le {a b : String} {k l : Nat} (ha : a.length ≤ k) (hb : b.length ≤ l) : (a ++ b).length ≤ k + l :=
  (String.length_append a b).trans_le (Nat.add_le_add ha hb)

/-- Ten digits, after a minus where the number is negative. -/
theorem length_immText_le (i : Imm) : (immText i).length ≤ 11 := by
  have fits := i.value.isLt
  rw [immText_eq]
  split
  · exact length_append_le (k := 1) le_rfl (length_decimal_le (k := 10) (by decide) (by omega))
  · exact length_decimal_le (by decide) (by omega)

/-- The longest names of the default table are those of mhpmcounter10h to mhpmcounter31h. -/
theorem length_csrText_le (c : Csr) : (csrText defaultCsrNames c).length ≤ 14 := by
  have singles : ∀ p ∈ singleCsrs, p.2.length ≤ 14 := by decide
  have ranges : ∀ r ∈ csrRanges, r.2.1.length + 2 + r.2.2.length ≤ 14 := by decide
  cases h : defaultCsrNames.lookup c.toNat with
  | none =>
    rw [csrText_of_lookup_none h]
    exact length_decimal_le (by decide) (c.isLt.trans (by decide))
  | some n =>
    rw [csrText_of_lookup h]
    obtain hs | ⟨base, before, after, hr, k, -, hk, -, rfl⟩ := lookup_defaultCsrNames.1 h
    · exact singles _ hs
    · have digits : (decimal k).length ≤ 2 := length_decimal_le (by decide) (by omega)
      exact (length_append_le (length_append_le le_rfl digits) le_rfl).trans (ranges _ hr)

/-! ### Templates -/

section
variable {a b c d : String} {k l m n : Nat}

theorem length_two_le (ha : a.length ≤ k) (hb : b.length ≤ l) : (two a b).length ≤ k + 2 + l :=
  length_append_le (length_append_le ha (by decide)) hb

theorem length_three_le (ha : a.length ≤ k) (hb : b.length ≤ l) (hc : c.length ≤ m) :
    (three a b c).length ≤ k + 2 + l + 2 + m :=
  length_append_le (length_append_le (length_two_le ha hb) (by decide)) hc

theorem length_four_le (ha : a.length ≤ k) (hb : b.length ≤ l) (hc : c.length ≤ m) (hd : d.length ≤ n) :
    (four a b c d).length ≤ k + 2 + l + 2 + m + 2 + n :=
  length_append_le (length_append_le (length_three_le ha hb hc) (by decide)) hd

end

theorem length_addrOperand_le (r : Reg) : ("(" ++ xName r ++ ")").length ≤ 6 :=
  length_append_le (k := 5) (length_append_le (k := 1) le_rfl (length_xName_le r)) le_rfl

theorem length_memOperand_le (i : Imm) (r : Reg) : (memOperand i r).length ≤ 17 :=
  length_append_le (k := 16)
    (length_append_le (k := 12) (length_append_le (length_immText_le i) le_rfl) (length_xName_le r)) le_rfl

/-- A mnemonic with the letter of its precision, and the space after it. -/
theorem length_fmtMnemonic_le (s : String) (p : Fmt) : (s ++ fmtText p ++ " ").length ≤ s.length + 1 + 1 :=
  length_append_le (length_append_le le_rfl (length_fmtText_le p)) le_rfl

/-- A mnemonic with its ordering suffix, and the space after it. -/
theorem length_ordMnemonic_le (s : String) (aq rl : Bit) : (s ++ ordText aq rl ++ " ").length ≤ s.length + 5 + 1 :=
  length_append_le (length_append_le le_rfl (length_ordText_le aq rl)) le_rfl

/-! ### Records -/

/-- The sum along each template, the records with one template together; a fused form reaches the bound. -/
theorem length_format_le (r : Record) : (format defaultCsrNames r).length ≤ 36 := by
  cases r with
  | fenceTso | fenceI | ecall | ebreak | pause => decide
  | fence => exact (length_append_le le_rfl (length_two_le (length_fenceText_le _) (length_fenceText_le _))).trans (by decide)
  | jal => exact (length_append_le le_rfl (length_two_le (length_xName_le _) (length_immText_le _))).trans (by decide)
  | lui | auipc =>
    exact (length_append_le le_rfl (length_two_le (length_xName_le _) (length_upperText_le _))).trans (by decide)
  | lb | lh | lw | lbu | lhu | sb | sh | sw | jalr =>
    exact (length_append_le le_rfl (length_two_le (length_xName_le _) (length_memOperand_le _ _))).trans (by decide)
  | addi | slti | sltiu | xori | ori | andi | beq | bne | blt | bge | bltu | bgeu =>
    exact (length_append_le le_rfl
      (length_three_le (length_xName_le _) (length_xName_le _) (length_immText_le _))).trans (by decide)
  | slli | srli | srai =>
    exact (length_append_le le_rfl
      (length_three_le (length_xName_le _) (length_xName_le _) (length_u5Text_le _))).trans (by decide)
  | add | sub | sll | slt | sltu | xor | srl | sra | or | and | mul | mulh | mulhsu | mulhu | div | divu | rem | remu =>
    exact (length_append_le le_rfl
      (length_three_le (length_xName_le _) (length_xName_le _) (length_xName_le _))).trans (by decide)
  | csrrw | csrrs | csrrc =>
    exact (length_append_le le_rfl
      (length_three_le (length_xName_le _) (length_csrText_le _) (length_xName_le _))).trans (by decide)
  | csrrwi | csrrsi | csrrci =>
    exact (length_append_le le_rfl
      (length_three_le (length_xName_le _) (length_csrText_le _) (length_u5Text_le _))).trans (by decide)
  | lrW =>
    exact (length_append_le (length_ordMnemonic_le _ _ _)
      (length_two_le (length_xName_le _) (length_addrOperand_le _))).trans (by decide)
  | scW | amoswapW | amoaddW | amoxorW | amoandW | amoorW | amominW | amomaxW | amominuW | amomaxuW =>
    exact (length_append_le (length_ordMnemonic_le _ _ _)
      (length_three_le (length_xName_le _) (length_xName_le _) (length_addrOperand_le _))).trans (by decide)
  | fload p | fstore p =>
    cases p <;>
      exact (length_append_le le_rfl (length_two_le (length_fName_le _) (length_memOperand_le _ _))).trans (by decide)
  | fmadd | fmsub | fnmsub | fnmadd =>
    exact (length_append_le (length_append_le (length_fmtMnemonic_le _ _)
      (length_four_le (length_fName_le _) (length_fName_le _) (length_fName_le _) (length_fName_le _)))
      (length_rmText_le _)).trans (by decide)
  | fadd | fsub | fmul | fdiv =>
    exact (length_append_le (length_append_le (length_fmtMnemonic_le _ _)
      (length_three_le (length_fName_le _) (length_fName_le _) (length_fName_le _))) (length_rmText_le _)).trans (by decide)
  | fsqrt =>
    exact (length_append_le (length_append_le (length_fmtMnemonic_le _ _)
      (length_two_le (length_fName_le _) (length_fName_le _))) (length_rmText_le _)).trans (by decide)
  | fcvtW | fcvtWu =>
    exact (length_append_le (length_append_le (length_fmtMnemonic_le _ _)
      (length_two_le (length_xName_le _) (length_fName_le _))) (length_rmText_le _)).trans (by decide)
  | fsgnj | fsgnjn | fsgnjx | fmin | fmax =>
    exact (length_append_le (length_fmtMnemonic_le _ _)
      (length_three_le (length_fName_le _) (length_fName_le _) (length_fName_le _))).trans (by decide)
  | feq | flt | fle =>
    exact (length_append_le (length_fmtMnemonic_le _ _)
      (length_three_le (length_xName_le _) (length_fName_le _) (length_fName_le _))).trans (by decide)
  | fclass =>
    exact (length_append_le (length_fmtMnemonic_le _ _)
      (length_two_le (length_xName_le _) (length_fName_le _))).trans (by decide)
  | fcvtFW p | fcvtFWu p =>
    cases p with
    | s =>
      exact (length_append_le (length_append_le le_rfl (length_two_le (length_fName_le _) (length_xName_le _)))
        (length_rmText_le _)).trans (by decide)
    | d => exact (length_append_le le_rfl (length_two_le (length_fName_le _) (length_xName_le _))).trans (by decide)
  | fmvXW => exact (length_append_le le_rfl (length_two_le (length_xName_le _) (length_fName_le _))).trans (by decide)
  | fmvWX => exact (length_append_le le_rfl (length_two_le (length_fName_le _) (length_xName_le _))).trans (by decide)
  | fcvtSD =>
    exact (length_append_le (length_append_le le_rfl (length_two_le (length_fName_le _) (length_fName_le _)))
      (length_rmText_le _)).trans (by decide)
  | fcvtDS => exact (length_append_le le_rfl (length_two_le (length_fName_le _) (length_fName_le _))).trans (by decide)

end Sys2Proof

open Sys2Proof Sys2Proof.Machine

/-- Settles O20: every record's text is within the bound, whether or not the decoder answers the record, and the fused form is
evaluated. -/
theorem formatBounded : Obligations.FormatBounded := ⟨fun _ _ r _ _ => length_format_le r, by decide⟩

end

section
/-! The state after reset (70_reset_and_hazards.md R370, R373): what it reads as, and that the three invariants hold in it. -/

namespace Sys2Proof.Machine

theorem readX_reset (r : Reg) : readX State.reset r = 0 := by revert r; decide

theorem readF_reset (r : Reg) : readF State.reset r = 0 := by revert r; decide

/-- Memory is empty, and the one CSR listed, misa, is in range and none of those kept elsewhere. -/
theorem storageInv_reset : StorageInv State.reset where
  mem := rfl
  imem := rfl
  csrs := by decide
  memKeys := List.forall_mem_nil _
  imemKeys := List.forall_mem_nil _
  csrKeys := by decide

/-- The registers and the pc are 0, and misa fits 32 bits. -/
theorem widthInv_reset : WidthInv State.reset where
  pcEven := rfl
  pcFits := rfl
  xFits := by decide
  xZero := rfl
  csrsFit := by decide

end Sys2Proof.Machine

open Sys2Proof Sys2Proof.Machine

/-- Settles O30: the fields are those of the reset state, mstatus is a CSR it does not list, and memory lists no byte. -/
theorem resetState : Obligations.ResetState :=
  ⟨rfl, rfl, rfl, by decide, by decide, rfl, rfl, rfl, rfl, readX_reset, readF_reset, rfl, fun _ => rfl, storageInv_reset,
    widthInv_reset, rfl⟩

/-- Settles O19: the words are closed terms, so the decoder is evaluated on each. -/
theorem decodeSampleWords : Obligations.DecodeSampleWords := by
  unfold Obligations.DecodeSampleWords
  decide

end
